-- ==== Sys2Proof/Word.lean ====
section
/-! DEFINITION. The word types of the OLG-2408 (R1: bytes; R41: 16-bit counts; R70: 32-bit seconds) and the
two-sided tables indexed by end, port or flow. -/

namespace Sys2Proof

/-- One byte of the trunk, the drop ports, frame memory or the control link. -/
abbrev Byte := BitVec 8
/-- A 16-bit field: round counts, header fields, wrapping counts. -/
abbrev Half := BitVec 16
/-- A 32-bit field: the phase, seconds, mark sets. -/
abbrev Word := BitVec 32

/-- The letter A or B. It names an end, the port that faces that end, and the flow that travels toward
that end (00_scope.md, Trunk ports and flows). -/
inductive Side where
  | a
  | b
deriving DecidableEq, Repr

/-- The other letter: the other end, the other port, the reverse flow. -/
def Side.other : Side → Side
  | .a => .b
  | .b => .a

/-- One value for each of A and B. -/
structure Two (α : Type) where
  a : α
  b : α
deriving DecidableEq, Repr

/-- The value for one side. -/
def Two.get {α : Type} (t : Two α) : Side → α
  | .a => t.a
  | .b => t.b

/-- The table with one side's value replaced. -/
def Two.set {α : Type} (t : Two α) (x : Side) (v : α) : Two α :=
  match x with
  | .a => { t with a := v }
  | .b => { t with b := v }

/-- Drop ports and call points 0..7. -/
abbrev PortNo := Fin 8
/-- Packet channels 0..15. -/
abbrev ChanNo := Fin 16

end Sys2Proof
end

