-- ==== Sys2Proof/Config.lean ====
section
/-! DEFINITION. The constants the spec fixes for the OLG-2408. The part has no value that an implementation
chooses, so nothing here is open. -/

namespace Sys2Proof.Config

/-- The cycle marker H0 (11.1). -/
def marker : Byte := 0xB2#8
/-- The idle lane value (R1, 11.1). -/
def idle : Byte := 0xFF#8
/-- Lanes of a cycle (R1). -/
def lanes : Nat := 128
/-- Bits of a cycle: 132 bytes (R1). -/
def cycleBits : Nat := 1056
/-- Rounds for which an end stays present after its last valid message (R17). -/
def presenceRounds : Nat := 24
/-- Cycles an elastic store holds (R10). -/
def storeSize : Nat := 4
/-- Rounds in a second (00_scope.md, Units of time). -/
def roundsPerSecond : Nat := 500
/-- Cycles in a second (R70). -/
def cyclesPerSecond : Nat := 8000
/-- Phase gained per oscillator period with C = 0 (R60). -/
def phaseStep : Int := 1048576
/-- The value at which the holdover timer stops (R74). -/
def holdoverCap : Nat := 43200001
/-- The ring timer's start, 90 s of rounds (R115). -/
def ringRounds : Nat := 45000
/-- Owned lanes and listen lanes at most (R83). -/
def maxOwned : Nat := 12
def maxListen : Nat := 8
/-- Frame memory (R143): blocks, and bytes in a block. -/
def blocks : Nat := 2048
def blockBytes : Nat := 32
/-- Bytes of the frame record, and payload bytes of a frame's first block (R145). -/
def recordBytes : Nat := 12
def firstPayload : Nat := 20
/-- Replies the reply queue holds (R178). -/
def replyQueue : Nat := 8
/-- Longest transaction that is judged (R175). -/
def maxTransaction : Nat := 1028
/-- Vendor and part code, and revision (R181). -/
def vendor : Nat := 0x0A17
def part : Nat := 0x2408
def revision : Nat := 1
/-- What a byte of frame memory that nothing has written reads as. DESIGN CHOICE (log 5), unsafe. -/
def unwritten : Byte := 0#8

end Sys2Proof.Config
end

