-- ==== Sys2Proof/Syntax.lean ====
section
/-! DEFINITION. The commands of the OLG-2408: one constructor for each row of spec/opcode_table.json. A request
carries its fields at the widths of R186, codes uninterpreted, so that every wrong value can be sent. -/

namespace Sys2Proof

/-- One trunk cycle: the header bytes H0..H3 and lanes 0..127 (R1). -/
structure Cycle where
  h0 : Byte
  h1 : Byte
  h2 : Byte
  h3 : Byte
  lanes : List Byte
deriving DecidableEq, Repr

/-- A cycle that a SYNCED receiver takes (R7). `elapsed` is the number of oscillator periods since the last
command (log 3). `status` are the status words taken in the cycle just ended, call point 0 first (R125); they are used
only when the cycle start is a realignment that makes a local cycle boundary (R69). -/
structure Arrival where
  port : Side
  elapsed : Nat
  cycle : Cycle
  status : List Half
deriving DecidableEq, Repr

/-- A request field marked present or absent: its presence byte, then its value (R186). -/
structure Marked (α : Type) where
  present : Byte
  value : α
deriving DecidableEq, Repr

/-- The function code of a PORT_SET and the settings it carries for that function (R126). `other` is a function
code that is not one of the five. -/
inductive PortFields where
  | off
  | async (rate : Marked Byte)
  | sync
  | callpoint (level : Marked Byte)
  | contacts (debounce : Marked Half) (tag0 tag1 tag2 tag3 : Marked Byte)
  | other (code : Byte) (rest : List Byte)
deriving DecidableEq, Repr

/-- The settings of a CHANNEL_SET, in the order of R148 with the framing settings of R130 in their place. -/
structure ChannelFields where
  kind : Marked Byte
  port : Marked Byte
  wn : Marked Byte
  wmin : Marked Byte
  level : Marked Byte
  delimiter : Marked Byte
  escape : Marked Byte
  gap : Marked Byte
  fill : Marked Byte
  check : Marked Byte
  invert : Marked Byte
  bitOrder : Marked Byte
  transparent : Marked Byte
  continuousBreak : Marked Byte
  stamping : Marked Byte
  maxLength : Marked Half
  markIn : Marked Half
  markOut : Marked Half
deriving DecidableEq, Repr

/-- The body of a HOME_FORCE that carries an end beside its action (R34). The action FORCE is 00h; a code that is not an
action can stand here too. -/
structure ForceFields where
  action : Byte
  side : Byte
deriving DecidableEq, Repr

/-- What a drop port takes from its line 1: the levels of the line bit by bit in the order they come, of an ASYNC
character or at the clock edges of a SYNC port (R125); or what such bits spell, a byte or an ASYNC character whose stop
bit is at the start-bit level (R133). `true` is the stop-bit level, and a bit that is 1. -/
inductive LineByte where
  | byte (b : Byte)
  | charError
  | bits (levels : List Bool)
deriving DecidableEq, Repr

/-- The commands. `status` is, at a local cycle boundary, the status word that each call point's adapter sent in the
cycle just ended: its codec byte (R109) and the level of its hook switch (R125), call point 0 first. `tag` is the
request's tag. -/
inductive Instr where
  | pinResetAssert (pref : Side)
  | pinResetRelease (pref : Side)
  | losAssert (port : Side)
  | losRelease (port : Side)
  | candidateFound (port : Side) (position : Nat) (cycle : Cycle)
  | huntCycle (port : Side) (cycle : Cycle)
  | syncAcquired (port : Side) (cycle : Cycle)
  | receivedCycle (arrival : Arrival)
  | syncLost (arrival : Arrival)
  | primingEnd (flow : Side) (status : List Half)
  | localCycleBoundary (status : List Half)
  | startupRoundEnd (port : Side) (status : List Half)
  | presenceExpiry (side : Side) (status : List Half)
  | holdOffExpiry (status : List Half)
  | restoreExpiry (status : List Half)
  | recovery (status : List Half)
  | forcedChange (status : List Half)
  | acquireStart (arrival : Arrival)
  | holdoverExit (arrival : Arrival)
  | lock (arrival : Arrival)
  | unlock (arrival : Arrival)
  | realignArm (arrival : Arrival)
  | realign (arrival : Arrival)
  | holdLimit (status : List Half)
  | moveEffectTransmit (lane : Nat) (status : List Half)
  | moveEffectReceive (lane : Nat) (status : List Half)
  | roleTablesTaken (status : List Half)
  | listenGroupTaken (status : List Half)
  | numberingInForce (status : List Half)
  | stationUpdateApplied (status : List Half)
  | hookOff (point : PortNo)
  | hookOn (point : PortNo)
  | ringTimerExpiry (point : PortNo) (status : List Half)
  | contactChange (port : PortNo) (input : Fin 4)
  | portByteReceived (port : PortNo) (taken : LineByte)
  | transparentIdleGap (port : PortNo)
  | arbiterChoice (port : PortNo)
  | frameSent (port : PortNo)
  | underrun (port : PortNo)
  | transactionStart
  | voidTransaction (length : Nat)
  | nullRequest (length : Nat)
  | malformedRequest (bytes : List Byte)
  | unknownRequest (bytes : List Byte)
  | identify (tag : Byte)
  | restart (tag : Byte)
  | restartCarriedOut (length : Nat)
  | nodeSet (tag preferred : Byte) (restoreSeconds : Half) (holdOff node turns incidentFloor : Byte)
  | lanesSet (tag : Byte) (owned listen : List Byte)
  | homeForceForce (tag : Byte) (fields : ForceFields)
  | homeForceRelease (tag action : Byte)
  | timingSet (tag : Byte) (trim delayA delayB : Marked Half) (limit : Marked Word)
  | timingModeFree (tag : Byte)
  | timingModeAuto (tag selection : Byte)
  | timeSet (tag : Byte) (seconds : Word) (cycle : Half)
  | floorSet (tag floor shed : Byte)
  | portSet (tag port : Byte) (fields : PortFields)
  | pairSetMerge (tag pair : Byte)
  | pairSetSplit (tag pair action : Byte)
  | channelSet (tag channel : Byte) (fields : ChannelFields)
  | chainSet (tag channel direction : Byte) (runs : List (Half × Half))
  | channelStart (tag channel : Byte)
  | channelStop (tag channel : Byte)
  | stationSize (tag : Byte) (capacity : Half)
  | stationPut (tag : Byte) (address channels : Half)
  | stationDrop (tag : Byte) (address : Half)
  | stationRead (tag : Byte) (first : Half) (count : Byte)
  | callClear (tag point : Byte)
  | trunkStatus (tag : Byte)
  | homeStatus (tag : Byte)
  | timingStatus (tag : Byte)
  | laneStatus (tag : Byte)
  | channelStatus (tag channel clear : Byte)
  | callStatus (tag : Byte)
  | portStatus (tag : Byte)
  | portByteSent (port : PortNo)
  | contactLevelChange (port : PortNo) (input : Fin 4) (closed : Bool)
deriving DecidableEq, Repr

end Sys2Proof
end

