-- ==== Sys2Proof/Machine/State.lean ====
section
/-! DEFINITION. The state of the OLG-2408: every piece of state the spec gives the part, as plain data, and its
value after pin reset. INVENTORY.md lists each field with the rule that names it. -/

namespace Sys2Proof.Machine

/-! ### Trunk (chapter 1) -/

/-- The state of a receiver (R5 to R7). -/
inductive RxState where
  | noLight
  | hunt
  | synced
deriving DecidableEq, Repr

/-- The alignment under test in HUNT: its bit position, the good cycles seen at it, and the cycle-in-round
number of the last of them (R6). -/
structure Candidate where
  position : Nat
  good : Nat
  last : BitVec 4
deriving DecidableEq, Repr

/-- A receiver with the presence timer of the end on its side (1.2, R17). `alignment` is the bit position at which it
is SYNCED (R6, R7); there is none in NO_LIGHT and in HUNT. -/
structure Receiver where
  state : RxState
  los : Bool
  searchAt : Nat
  candidate : Option Candidate
  alignment : Option Nat
  lastNumber : BitVec 4
  faultRun : Nat
  fsaSeen : Bool
  pbSeen : Bool
  headerFaults : Half
  presence : Nat
deriving DecidableEq, Repr

/-- What an owned lane is used for (R83). -/
inductive Use where
  | spare
  | channel (k : ChanNo)
  | call (p : PortNo)
deriving DecidableEq, Repr

/-- The role of a lane in a flow, but PASS, which a role table leaves unlisted (R18). -/
inductive Role where
  | add (use : Use)
  | drop (use : Use)
  | dropContinue
deriving DecidableEq, Repr

/-- A cycle as an elastic store holds it: its stored number and the bytes the flow carries (R10). -/
structure Stored where
  number : BitVec 4
  h2 : Byte
  h3 : Byte
  lanes : List Byte
deriving DecidableEq, Repr

/-- Whether a flow is delivering (R10, R14). -/
inductive FlowMode where
  | notDelivering
  | priming
  | delivering
deriving DecidableEq, Repr

/-- A flow: its elastic store and the transmitter that sends it. The X-bound flow is received on the port
opposite X and sent from port X. `heard` says that a valid message of the end on the receiving side has come through
the store since the receiver entered SYNCED (R25). `startUp` is the start-up round of R16 with the cycles started in it.
`roles` lists the lanes that are not PASS in ascending order. `gathered` is the round message gathered under R2, `empty`
the EMPTY message of the transmitter's round (R14). -/
structure Flow where
  store : List Stored
  mode : FlowMode
  heard : Bool
  taken : Stored
  underflows : Half
  overflows : Half
  counter : BitVec 4
  startUp : Option Nat
  fsaSent : Bool
  pbSent : Bool
  sent : Cycle
  roles : List (Nat × Role)
  gathered : List Byte
  empty : List Byte
deriving DecidableEq, Repr

/-- The trunk lines at a moved cycle boundary (R69, log 41). `longer` is the number of bits by which realignments have
lengthened the cycle in progress; `ended` are the cycles that ended last on TX-A and TX-B, `bits` the bits of them that
were sent, and `fill` the bits of line fill, all ones, that followed. -/
structure TrunkLine where
  longer : Nat
  ended : Two Cycle
  bits : Nat
  fill : Nat
deriving DecidableEq, Repr

/-! ### Homing unit (chapter 2) -/

/-- The cause of a change of home or homing state (R26). -/
inductive HomeCause where
  | failure
  | isolation
  | recovery
  | revert
  | forced
deriving DecidableEq, Repr

/-- The last change: old home, new home and cause (R26). -/
structure HomeChange where
  old : Side
  new : Side
  cause : HomeCause
deriving DecidableEq, Repr

/-- The homing unit. The homing state is ISOLATED when `isolated`, and HOMED of `home` otherwise (R24). A count is
`none` while it is stopped. `reported` is the home carried by the previous HOME report (R37). -/
structure Homing where
  home : Side
  isolated : Bool
  preferred : Side
  forced : Option Side
  pendingForce : Option Side
  holdOffSetting : Nat
  holdOff : Option Nat
  restoreSetting : Nat
  restore : Option Nat
  changes : Half
  last : Option HomeChange
  reported : Side
  prefStrap : Side
deriving DecidableEq, Repr

/-! ### Round message unit (chapter 3) -/

/-- Why a call was cleared (R116). -/
inductive ClearCause where
  | hook
  | ended
  | noAnswer
  | host
deriving DecidableEq, Repr

/-- The event of a CALL item (3.5). -/
inductive CallEvent where
  | down (cause : ClearCause)
  | answered
  | busy
deriving DecidableEq, Repr

/-- An item of the notice queue (3.5). The effect round of a LANE item is filled in when it is sent. -/
inductive Item where
  | lane (lane : Nat) (use : Use)
  | call (p : PortNo) (event : CallEvent)
deriving DecidableEq, Repr

/-- A node number and turns (R56). -/
structure Numbering where
  node : Option Nat
  turns : Nat
deriving DecidableEq, Repr

/-- The round message unit. `numbering` is in force, `nextNumbering` waits for the next local round boundary (R56).
`turnMessage` is the message written in the local round in progress (R49). `invalid` counts by flow. -/
structure RoundUnit where
  numbering : Numbering
  nextNumbering : Option Numbering
  localCount : Half
  receivedCount : Half
  queue : List Item
  rosterOwed : Bool
  invalid : Two Half
  turnMessage : Option (List Byte)
deriving DecidableEq, Repr

/-! ### Timing unit (chapter 4) -/

/-- The mode of the timing unit (4.2). -/
inductive TimingMode where
  | free
  | acquiring
  | tracking
  | holdover
deriving DecidableEq, Repr

/-- Whether line time comes from an end, from the host, or from neither. -/
inductive Validity where
  | none
  | fromEnd
  | fromHost
deriving DecidableEq, Repr

/-- The quality mark (R75). -/
inductive Quality where
  | none
  | traced
  | settling
  | hold
  | localTime
deriving DecidableEq, Repr

/-- A stamp (R76). -/
structure Stamp where
  seconds : Word
  cycle : Nat
  tick : Nat
  quality : Quality
deriving DecidableEq, Repr

/-- The timing unit. `auto` is the selection AUTO; `source` is the source end. -/
structure Timing where
  phase : Word
  correction : Int
  integral : Int
  trim : Int
  auto : Bool
  mode : TimingMode
  lockCount : Nat
  unlockCount : Nat
  realignCount : Nat
  armed : Bool
  seconds : Word
  cycle : Nat
  validity : Validity
  source : Option Side
  delay : Two Nat
  holdLimit : Nat
  holdTimer : Nat
  lastStep : Int
  rejected : Half
deriving DecidableEq, Repr

/-! ### Lane allocator (chapter 5) -/

/-- A move in flight (R83): QUEUED while `effect` is `none`, SENT with its effect round otherwise; `tx` and `rx` are
the sides on which it has taken effect. -/
structure Move where
  target : Use
  effect : Option Half
  tx : Bool
  rx : Bool
  followUp : Bool
deriving DecidableEq, Repr

/-- An entry of the owned-lane table (R83). -/
structure Entry where
  lane : Nat
  use : Use
  move : Option Move
deriving DecidableEq, Repr

/-- The lane allocator. `listsDue` says that the trunk has not yet taken the lists of a LANES_SET (R188). -/
structure Allocator where
  owned : List Entry
  listen : List Nat
  hostFloor : Nat
  incidentFloor : Nat
  incident : Bool
  waiting : List (PortNo × Nat)
  applied : Half
  withdrawn : Half
  listsDue : Bool
deriving DecidableEq, Repr

/-! ### Call unit (chapter 6) -/

/-- The state of a call point (chapter 6). -/
inductive CallState where
  | idle
  | waiting
  | connecting
  | alerting
  | talking
  | ringConnecting
  | ringing
  | clearing
  | lockout
deriving DecidableEq, Repr

/-- A call point's record. `codec` is the byte last delivered to its codec (R109). -/
structure CallPoint where
  level : Nat
  state : CallState
  offHook : Bool
  lane : Option Nat
  ringMark : Bool
  answerPending : Bool
  ringTimer : Nat
  cause : Option ClearCause
  codec : Byte
deriving DecidableEq, Repr

/-! ### Drop ports (chapter 7) -/

/-- The function of a port with its settings (R126). -/
inductive PortSetting where
  | off
  | async (rate : Nat)
  | sync
  | callpoint (level : Nat)
  | contacts (debounce : Nat) (tags : Vector Bool 4)
deriving DecidableEq, Repr

/-- The function a port acts with (R125, R127): `merged` is the odd port of a merged pair. -/
inductive PortFunction where
  | off
  | async
  | sync
  | callpoint
  | contacts
  | merged
deriving DecidableEq, Repr

/-- The receive side of a port (R134 to R136). `hold` is the check hold, oldest first; `raw` counts the raw bytes of
the span, `allFill` says that they all are FFh; `fillRun` is the run of FFh of a transparent SYNC port; `bits` are the
bits that a SYNC port has received and not yet read as a byte, oldest first (R133). -/
structure PortRx where
  isOpen : Bool
  escaped : Bool
  hold : List Byte
  count : Nat
  raw : Nat
  allFill : Bool
  check16 : Half
  check32 : Word
  fillRun : Nat
  bits : List Bool
deriving DecidableEq, Repr

/-- The transmit state of a port (R129 to R132). -/
inductive TxState where
  | idle
  | sending (k : ChanNo)
  | held
deriving DecidableEq, Repr

/-- What is done once a byte has gone out on a port: nothing, a payload byte has been sent, the frame has been sent
whole, or the abort marker has been sent. -/
inductive TxMark where
  | plain
  | payload
  | whole
  | aborted
deriving DecidableEq, Repr

/-- The transmit side of a port. `out` are the bytes chosen and not yet sent; `aborting` says that the abort marker
of the frame in progress is owed; `closedBy` is the channel whose closing delimiter was the last thing sent (R131
step 1); `fill` is the byte a resting SYNC port sends; `line` the byte last sent; `msbFirst` the first-bit order in which
a SYNC port sends its bytes, that of the channel it served last or, if later, sent markers of in HELD (R130, log 52). -/
structure PortTx where
  state : TxState
  aborting : Bool
  out : List (Byte × TxMark)
  closedBy : Option ChanNo
  fill : Byte
  check16 : Half
  check32 : Word
  line : Option Byte
  msbFirst : Bool
deriving DecidableEq, Repr

/-- One contact input (R138). `level` is true while the contact is closed; `held` counts the local cycles for which
the level under test has held (log 7). -/
structure Contact where
  level : Bool
  active : Bool
  held : Nat
deriving DecidableEq, Repr

/-- The control word of a CALLPOINT port (R125): the codec byte handed out and the levels of the WAIT, CONNECTED and
RINGER outputs. -/
structure ControlWord where
  codec : Byte
  wait : Bool
  connected : Bool
  ringer : Bool
deriving DecidableEq, Repr

/-- A drop port. `own` is its own setting, which is the kept setting while its pair is merged (R126); `control` is the
control word that a CALLPOINT port sent, with its cycle sync pulse, at the last local cycle boundary, and `status` the
status word it took in the cycle that ended there, none before the first (R125). -/
structure Port where
  own : PortSetting
  rx : PortRx
  tx : PortTx
  lastServed : Option ChanNo
  ready : Bool
  contacts : Vector Contact 4
  control : Option ControlWord
  status : Option Half
deriving DecidableEq, Repr

/-! ### Packet engine (chapter 8) -/

/-- Check type of a channel's framing (R130). -/
inductive CheckType where
  | none
  | c16
  | c32
deriving DecidableEq, Repr

/-- The settings of a channel (R148, R130). `listen` is the kind LISTEN; `fillIdle` is the fill value FFh, otherwise
the fill value is the delimiter byte. -/
structure ChannelSettings where
  listen : Bool
  port : Option PortNo
  wn : Nat
  wmin : Nat
  level : Nat
  delimiter : Byte
  escape : Byte
  gap : Nat
  fillIdle : Bool
  check : CheckType
  invert : Bool
  msbFirst : Bool
  transparent : Bool
  continuousBreak : Bool
  stamping : Bool
  maxLength : Nat
  markIn : Nat
  markOut : Nat
deriving DecidableEq, Repr

/-- The state of a channel (R149). -/
inductive ChanState where
  | stopped
  | active
  | stopping
deriving DecidableEq, Repr

/-- A frame in a chain (R145, R146): the place of its first block in the circle, the blocks the writer has taken for
it and how many of them are released, its length so far, whether it is CLOSED, its stamp, whether the sender or the
port has begun it, the payload bytes sent, and whether its first parcel has gone. -/
structure Frame where
  start : Nat
  taken : Nat
  released : Nat
  length : Nat
  closed : Bool
  stamp : Option Stamp
  begun : Bool
  sent : Nat
  firstGone : Bool
deriving DecidableEq, Repr

/-- A chain (R143, R144): the runs that formed it, its blocks in link order, the place of the block the writer takes
next, and its frames, oldest first. -/
structure Chain where
  runs : List (Nat × Nat)
  blocks : List Nat
  writer : Nat
  frames : List Frame
deriving DecidableEq, Repr

/-- The state of an inbound writer (8.4). -/
inductive WriterState where
  | idle
  | writing
  | discarding
deriving DecidableEq, Repr

/-- The parcels (R153), but IDLE. -/
inductive ParcelKind where
  | start
  | middle
  | last
  | single
  | abort
deriving DecidableEq, Repr

/-- The sender of a LINK channel. `width` is the width of the round block in progress and `block` its bytes so far;
`out` is the rest of the parcel in progress, each byte with whether it is a payload byte of the frame begun, and
`kind` its kind while its end still acts on the frame; `filling` says that the rest of the block is IDLE; `check` is
the running trunk check of the frame begun. -/
structure Sender where
  width : Nat
  block : List Byte
  out : List (Byte × Bool)
  kind : Option ParcelKind
  abortOwed : Bool
  filling : Bool
  check : Half
deriving DecidableEq, Repr

/-- Where a parcel stream is read (R156): before a header, after its first byte, in the bytes before the payload
(address and stamp, `address` gathering the bytes read), in the payload, or in the trunk check. -/
inductive ParcelAt where
  | header
  | second (kind : Byte)
  | before (kind : ParcelKind) (address : List Byte) (left payload : Nat)
  | payload (kind : ParcelKind) (left : Nat)
  | check (kind : ParcelKind) (first : Option Byte)
deriving DecidableEq, Repr

/-- A parcel stream: the bytes left of the round block, and where it stands. -/
structure ParcelStream where
  left : Nat
  at' : ParcelAt
deriving DecidableEq, Repr

/-- The state of a parser (8.6) and of the station filter (chapter 9). -/
inductive ParseState where
  | noFrame
  | assembling
  | skipping
deriving DecidableEq, Repr

/-- The parser of a LINK channel (8.6). -/
structure Parser where
  stream : ParcelStream
  state : ParseState
  count : Nat
  check : Half
deriving DecidableEq, Repr

/-- The counters of a channel (R161). -/
structure Counters where
  framesIn : Word
  framesOut : Word
  overflow : Nat
  underrun : Nat
  dropCheck : Nat
  trunkCheck : Nat
  tooLong : Nat
  aborted : Nat
deriving DecidableEq, Repr

/-- A channel record (R148). -/
structure Channel where
  set : ChannelSettings
  state : ChanState
  inChain : Option Chain
  outChain : Option Chain
  writer : WriterState
  sender : Sender
  parser : Parser
  counters : Counters
deriving DecidableEq, Repr

/-! ### Station filter (chapter 9) -/

/-- The update in flight (R169). -/
inductive Update where
  | put (address : Nat) (channels : Half)
  | drop (address : Nat)
deriving DecidableEq, Repr

/-- The station filter. `nextGroup` is the new listen group that waits for a cycle numbered 0 (R165); `copies` are the
targets whose copy is still open. -/
structure Filter where
  group : List Nat
  nextGroup : Option (List Nat)
  stream : ParcelStream
  state : ParseState
  count : Nat
  check : Half
  targets : List ChanNo
  copies : List ChanNo
  capacity : Nat
  table : List (Nat × Half)
  update : Option Update
deriving DecidableEq, Repr

/-! ### Control link (chapter 10) -/

/-- The report sources (10.3). -/
inductive Source where
  | start
  | rx (port : Side)
  | slip (flow : Side)
  | home
  | timing
  | lane
  | call (p : PortNo)
  | contact (p : PortNo)
  | channel (k : ChanNo)
deriving DecidableEq, Repr

/-- The status codes of a reply (10.2). -/
inductive Status where
  | ok
  | format
  | unknown
  | range
  | overlap
  | busy
  | wrongState
  | noLanes
  | noSource
  | timeOwned
  | noPath
  | full
  | tooShort
deriving DecidableEq, Repr

/-- A reply in the reply queue: its content is what follows the status code and the flags byte. -/
structure Reply where
  tag : Byte
  status : Status
  content : List Byte
  ready : Bool
  restart : Bool
deriving DecidableEq, Repr

/-- The outbound message chosen for a transaction (R175). -/
inductive Outbound where
  | reply
  | report (source : Source)
  | empty
deriving DecidableEq, Repr

/-- The transaction in progress: the outbound message and its bytes, the marks that have reached a report's source
since the report was built (R180), the overrun flag the reply carries, and the home a HOME report carries. -/
structure Transaction where
  message : Outbound
  bytes : List Byte
  later : Word
  overrun : Bool
  home : Side
deriving DecidableEq, Repr

/-- The control link (chapter 10). `sent` are the bytes sent to the host in the last transaction that ended (R175,
R176). -/
structure Link where
  replies : List Reply
  reports : List (Source × Word)
  overrun : Bool
  restartWaiting : Bool
  startedByRestart : Bool
  transaction : Option Transaction
  sent : List Byte
deriving DecidableEq, Repr

/-! ### The part -/

/-- The state of the OLG-2408. `mem` is frame memory in canonical form; `pending` is the model's queue of commands,
first in, first out. -/
structure State where
  resetHeld : Bool
  rx : Two Receiver
  flow : Two Flow
  line : TrunkLine
  homing : Homing
  round : RoundUnit
  timing : Timing
  alloc : Allocator
  calls : Vector CallPoint 8
  ports : Vector Port 8
  merged : Vector Bool 4
  chans : Vector Channel 16
  filter : Filter
  link : Link
  mem : List Host.Cell
  pending : List Instr
deriving DecidableEq, Repr

/-- Why the machine stops with a fault. The spec describes every wrong input as a refused reply, a count, a mark or
a state change, so no command ends in a fault and the type has no constructor. -/
inductive Fault where
deriving DecidableEq, Repr

/-- Why a command is refused. -/
inductive Refusal where
  /-- Raised by `exec` for a command that has no meaning yet; safe. No arm raises it. -/
  | notModelled (mnemonic : String)
deriving DecidableEq, Repr

/-! ### Initial values -/

/-- 128 idle lane bytes. -/
def idleLanes : List Byte := List.replicate Config.lanes Config.idle

/-- A receiver after pin reset, for a LOS level (R22). -/
def Receiver.initial (los : Bool) : Receiver :=
  { state := if los then .noLight else .hunt, los := los, searchAt := 0, candidate := none,
    alignment := none, lastNumber := 0#4, faultRun := 0, fsaSeen := false, pbSeen := false, headerFaults := 0#16, presence := 0 }

/-- A flow after pin reset (R22). -/
def Flow.initial : Flow :=
  { store := [], mode := .notDelivering, heard := false,
    taken := { number := 0#4, h2 := 0#8, h3 := 0#8, lanes := idleLanes }, underflows := 0#16, overflows := 0#16, counter := 15#4, startUp := some 0, fsaSent := false, pbSent := false,
    sent := { h0 := 0#8, h1 := 0#8, h2 := 0#8, h3 := 0#8, lanes := idleLanes }, roles := [],
    gathered := List.replicate 32 0#8, empty := [] }

/-- No cycle has ended on the trunk lines, and none is in progress. -/
def TrunkLine.initial : TrunkLine :=
  { longer := 0, ended := { a := Flow.initial.sent, b := Flow.initial.sent }, bits := 0, fill := 0 }

/-- The homing unit after pin reset, for a PREF strap (R39). -/
def Homing.initial (pref : Side) : Homing :=
  { home := pref, isolated := true, preferred := pref, forced := none, pendingForce := none, holdOffSetting := 4,
    holdOff := none, restoreSetting := 60, restore := none, changes := 0#16, last := none, reported := pref,
    prefStrap := pref }

/-- The round message unit after pin reset (R58). -/
def RoundUnit.initial : RoundUnit :=
  { numbering := { node := none, turns := 64 }, nextNumbering := none, localCount := 0#16, receivedCount := 0#16,
    queue := [], rosterOwed := false, invalid := { a := 0#16, b := 0#16 }, turnMessage := none }

/-- The timing unit after pin reset (R81). -/
def Timing.initial : Timing :=
  { phase := 0#32, correction := 0, integral := 0, trim := 0, auto := true, mode := .free, lockCount := 0,
    unlockCount := 0, realignCount := 0, armed := false, seconds := 0#32, cycle := 0, validity := .none,
    source := none, delay := { a := 0, b := 0 }, holdLimit := 300, holdTimer := 0, lastStep := 0, rejected := 0#16 }

/-- The lane allocator after pin reset and after RESTART (R104, R105). -/
def Allocator.initial : Allocator :=
  { owned := [], listen := [], hostFloor := 0, incidentFloor := 0, incident := false, waiting := [],
    applied := 0#16, withdrawn := 0#16, listsDue := false }

/-- A call point's record as it comes into existence at a level (R106). -/
def CallPoint.initial (level : Nat) : CallPoint :=
  { level := level, state := .idle, offHook := false, lane := none, ringMark := false, answerPending := false,
    ringTimer := 0, cause := none, codec := Config.idle }

/-- A receive side in IDLE (R142). -/
def PortRx.initial : PortRx :=
  { isOpen := false, escaped := false, hold := [], count := 0, raw := 0, allFill := true, check16 := 0xFFFF#16,
    check32 := 0xFFFFFFFF#32, fillRun := 0, bits := [] }

/-- A transmit side in IDLE (R142). -/
def PortTx.initial : PortTx :=
  { state := .idle, aborting := false, out := [], closedBy := none, fill := 0xFF#8, check16 := 0xFFFF#16,
    check32 := 0xFFFFFFFF#32, line := none, msbFirst := false }

/-- A contact input at a line level, INACTIVE (R138). -/
def Contact.initial (level : Bool) : Contact := { level := level, active := false, held := 0 }

/-- A drop port after reset (R142). -/
def Port.initial : Port :=
  { own := .off, rx := PortRx.initial, tx := PortTx.initial, lastServed := none, ready := false,
    contacts := Vector.replicate 4 (Contact.initial false), control := none, status := none }

/-- The default settings of a channel (R148, R130). -/
def ChannelSettings.initial : ChannelSettings :=
  { listen := false, port := none, wn := 0, wmin := 0, level := 2, delimiter := 0x7C#8, escape := 0x7D#8, gap := 0,
    fillIdle := false, check := .c16, invert := false, msbFirst := false, transparent := false,
    continuousBreak := false, stamping := false, maxLength := 1024, markIn := 1, markOut := 1 }

/-- A sender with no frame and no round block. -/
def Sender.initial : Sender :=
  { width := 0, block := [], out := [], kind := none, abortOwed := false, filling := false, check := 0xFFFF#16 }

/-- A parcel stream that waits for the start of a round block. -/
def ParcelStream.initial : ParcelStream := { left := 0, at' := .header }

/-- A parser in NO_FRAME. -/
def Parser.initial : Parser :=
  { stream := ParcelStream.initial, state := .noFrame, count := 0, check := 0xFFFF#16 }

/-- Counters at 0. -/
def Counters.initial : Counters :=
  { framesIn := 0#32, framesOut := 0#32, overflow := 0, underrun := 0, dropCheck := 0, trunkCheck := 0, tooLong := 0,
    aborted := 0 }

/-- A channel record after reset (R164). -/
def Channel.initial : Channel :=
  { set := ChannelSettings.initial, state := .stopped, inChain := none, outChain := none, writer := .idle,
    sender := Sender.initial, parser := Parser.initial, counters := Counters.initial }

/-- The station filter after reset (R174). -/
def Filter.initial : Filter :=
  { group := [], nextGroup := none, stream := ParcelStream.initial, state := .noFrame, count := 0, check := 0xFFFF#16,
    targets := [], copies := [], capacity := 0, table := [], update := none }

/-- The control link after pin reset: START alone, with the mark PIN (R182). -/
def Link.initial : Link :=
  { replies := [], reports := [(.start, 1#32)], overrun := false, restartWaiting := false, startedByRestart := false,
    transaction := none, sent := [] }

/-- The part right after RESET is released, for the pin levels then in force. -/
def State.afterPinReset (losA losB : Bool) (pref : Side) : State :=
  { resetHeld := false, rx := { a := Receiver.initial losA, b := Receiver.initial losB },
    flow := { a := Flow.initial, b := Flow.initial }, line := TrunkLine.initial, homing := Homing.initial pref,
    round := RoundUnit.initial, timing := Timing.initial, alloc := Allocator.initial, calls := Vector.replicate 8 (CallPoint.initial 7),
    ports := Vector.replicate 8 Port.initial, merged := Vector.replicate 4 false,
    chans := Vector.replicate 16 Channel.initial, filter := Filter.initial, link := Link.initial, mem := [],
    pending := [] }

/-- The part right after pin reset, with LOS released on both ports and the PREF strap naming end A (log 4). -/
def State.reset : State := State.afterPinReset false false .a

end Sys2Proof.Machine
end

