-- ==== Sys2Proof/Machine/Bits.lean ====
section
/-! DEFINITION. Byte order, field widths and the two checks (chapter 11). -/

namespace Sys2Proof.Machine

/-- A number as one byte (R186). -/
def byteOf (n : Nat) : Byte := BitVec.ofNat 8 n

/-- A number at two bytes, most significant first (00_scope.md, Byte order). -/
def twoBytes (n : Nat) : List Byte := [byteOf (n / 256), byteOf n]

/-- A number at four bytes, most significant first. -/
def fourBytes (n : Nat) : List Byte :=
  [byteOf (n / 16777216), byteOf (n / 65536), byteOf (n / 256), byteOf n]

/-- A signed number at two bytes, two's complement (R186). -/
def signedTwo (x : Int) : List Byte := twoBytes (BitVec.ofInt 16 x).toNat

/-- A signed number at four bytes, two's complement (R186). -/
def signedFour (x : Int) : List Byte := fourBytes (BitVec.ofInt 32 x).toNat

/-- A flag: 00h clear or off, 01h set or on (R186). -/
def flagByte (b : Bool) : Byte := if b then 1#8 else 0#8

/-- A one-byte number or none; none is all ones (R186). -/
def optByte (o : Option Nat) : Byte :=
  match o with
  | none => 0xFF#8
  | some n => byteOf n

/-- A list: a one-byte count, then the entries (R186). -/
def counted (entries : List (List Byte)) : List Byte := byteOf entries.length :: entries.flatten

/-- Byte `i` of a list, 00h beyond its end. -/
def byteAt (bs : List Byte) (i : Nat) : Byte := bs.getD i 0#8

/-- The two-byte field at byte `i`, most significant byte first. -/
def halfAt (bs : List Byte) (i : Nat) : Nat := (byteAt bs i).toNat * 256 + (byteAt bs (i + 1)).toNat

/-- The four-byte field at byte `i`, most significant byte first. -/
def wordAt (bs : List Byte) (i : Nat) : Nat := halfAt bs i * 65536 + halfAt bs (i + 2)

/-! ### Bits on a drop port's line (R125, R130) -/

/-- The eight bits of a byte in the order they stand on a line. -/
def bitsOf (msbFirst : Bool) (b : Byte) : List Bool :=
  let bits := [0, 1, 2, 3, 4, 5, 6, 7].map b.getLsbD
  if msbFirst then bits.reverse else bits

/-- The byte that eight bits of a line spell. -/
def byteOfBits (msbFirst : Bool) (bits : List Bool) : Byte :=
  (if msbFirst then bits else bits.reverse).foldl (fun b bit => b <<< 1 ||| (if bit then 1#8 else 0#8)) 0#8

/-- An ASYNC character on the line: a start bit, eight data bits with the least significant first, and a stop bit. -/
def characterBits (b : Byte) : List Bool := false :: bitsOf false b ++ [true]

/-- What ten bits of an ASYNC line are taken as: a byte, or a character error where the stop bit is at the start-bit level
(R133). Where no start bit stands, or a bit is missing, no character is taken. -/
def readCharacter (levels : List Bool) : Option LineByte :=
  match levels with
  | false :: rest =>
    if rest.length = 9 then
      some (if rest.getLastD true then .byte (byteOfBits false (rest.take 8)) else .charError)
    else none
  | _ => none

/-- The codec byte and the hook level of a 16-bit status word (R125): the codec byte comes first, most significant bit
first, then the hook level, 1 for OFF (DESIGN CHOICE, log 51). -/
def statusCodec (w : Half) : Byte := BitVec.extractLsb' 8 8 w
def statusOffHook (w : Half) : Bool := w.getLsbD 7

/-- The 16 bits of a control word (R125), laid out in the same way: the codec byte, the levels of WAIT, CONNECTED and
RINGER, and zeros (DESIGN CHOICE, log 51). -/
def ControlWord.bits (w : ControlWord) : List Bool :=
  bitsOf true w.codec ++ [w.wait, w.connected, w.ringer] ++ List.replicate 5 false

/-! ### Checks (R187) -/

/-- One bit of a check: the register moves one place toward its least significant end, and the generator is combined
in when the bit shifted out differs from the input bit. -/
def checkBit {w : Nat} (generator register : BitVec w) (bit : Bool) : BitVec w :=
  if register.getLsbD 0 != bit then (register >>> 1) ^^^ generator else register >>> 1

/-- One byte of a check, least significant bit first. -/
def checkByte {w : Nat} (generator register : BitVec w) (b : Byte) : BitVec w :=
  [0, 1, 2, 3, 4, 5, 6, 7].foldl (fun r i => checkBit generator r (b.getLsbD i)) register

/-- The C16 register before a first byte, and after one more byte. -/
def c16Start : Half := 0xFFFF#16
def c16Step (register : Half) (b : Byte) : Half := checkByte 0x8408#16 register b

/-- The C32 register before a first byte, and after one more byte. -/
def c32Start : Word := 0xFFFFFFFF#32
def c32Step (register : Word) (b : Byte) : Word := checkByte 0xEDB88320#32 register b

/-- C16 and C32 over a sequence of bytes: after the last bit every bit of the register is inverted. -/
def c16 (bs : List Byte) : Half := ~~~ (bs.foldl c16Step c16Start)
def c32 (bs : List Byte) : Word := ~~~ (bs.foldl c32Step c32Start)

/-- A C16 value as the trunk sends it: most significant byte first. -/
def trunkCheckBytes (v : Half) : List Byte := twoBytes v.toNat

/-- The check bytes of a drop port: least significant byte first, for the channel's check type (R187). The two
registers are the running checks before the final inversion; `invert` is the check-invert test flag. -/
def portCheckBytes (check : CheckType) (register16 : Half) (register32 : Word) (invert : Bool) : List Byte :=
  let bytes : List Byte :=
    match check with
    | .none => []
    | .c16 => (twoBytes (~~~ register16).toNat).reverse
    | .c32 => (fourBytes (~~~ register32).toNat).reverse
  if invert then bytes.map (fun b => ~~~ b) else bytes

/-- How many check bytes a check type has (R134). -/
def CheckType.size : CheckType → Nat
  | .none => 0
  | .c16 => 2
  | .c32 => 4

/-! ### Codes (chapter 11) -/

/-- Ends, ports and flows: A is 00h, B is 01h (R186). -/
def sideCode : Side → Nat
  | .a => 0
  | .b => 1

/-- The end a code names. -/
def sideOfCode (c : Byte) : Option Side :=
  if c = 0#8 then some .a else if c = 1#8 then some .b else none

/-- Use codes (11.2). -/
def Use.code : Use → Nat
  | .spare => 0x01
  | .channel k => 0x10 + k.val
  | .call p => 0x20 + p.val

/-- Causes of a CALL DOWN (11.2); 00h is none. -/
def ClearCause.code : ClearCause → Nat
  | .hook => 1
  | .ended => 2
  | .noAnswer => 3
  | .host => 4

/-- Quality codes (11.3). -/
def Quality.code : Quality → Nat
  | .none => 0
  | .traced => 1
  | .settling => 2
  | .hold => 3
  | .localTime => 4

/-- Status codes (11.5). -/
def Status.code : Status → Nat
  | .ok => 0x00
  | .format => 0x01
  | .unknown => 0x02
  | .range => 0x03
  | .overlap => 0x04
  | .busy => 0x05
  | .wrongState => 0x06
  | .noLanes => 0x07
  | .noSource => 0x08
  | .timeOwned => 0x09
  | .noPath => 0x0A
  | .full => 0x0B
  | .tooShort => 0x0C

/-- Source codes (11.5). -/
def Source.code : Source → Nat
  | .start => 0x01
  | .rx .a => 0x02
  | .rx .b => 0x03
  | .slip .a => 0x04
  | .slip .b => 0x05
  | .home => 0x06
  | .timing => 0x07
  | .lane => 0x08
  | .call p => 0x10 + p.val
  | .contact p => 0x20 + p.val
  | .channel k => 0x30 + k.val

/-- Parcel kinds (11.3). -/
def ParcelKind.code : ParcelKind → Byte
  | .start => 0x01#8
  | .middle => 0x02#8
  | .last => 0x03#8
  | .single => 0x04#8
  | .abort => 0x05#8

/-- The parcel kind a first header byte names, but IDLE. -/
def parcelKindOf (b : Byte) : Option ParcelKind :=
  if b = 0x01#8 then some .start else if b = 0x02#8 then some .middle else if b = 0x03#8 then some .last
  else if b = 0x04#8 then some .single else if b = 0x05#8 then some .abort else none

/-! ### Round messages and items (11.2) -/

/-- A round message: kind, origin, round count, body filled with 00h to 26 bytes, and a good C16 (R41, R185). -/
def roundMessage (kind origin : Byte) (count : Half) (body : List Byte) : List Byte :=
  let head := [kind, origin] ++ twoBytes count.toNat ++ (body ++ List.replicate (26 - body.length) 0#8)
  head ++ trunkCheckBytes (c16 head)

/-- The origin code of a node number, FFh while it is unset (11.2). -/
def originCode (node : Option Nat) : Byte := optByte node

/-- An item's 8 bytes; a LANE item carries the effect round given (11.2). -/
def Item.bytes (effect : Half) : Item → List Byte
  | .lane l u => [0x01#8, byteOf l, byteOf u.code, 0#8] ++ twoBytes effect.toNat ++ [0#8, 0#8]
  | .call p e =>
    let code : Nat × Nat :=
      match e with
      | .down c => (1, c.code)
      | .answered => (2, 0)
      | .busy => (3, 0)
    [0x02#8, byteOf p.val, byteOf code.1, byteOf code.2, 0#8, 0#8, 0#8, 0#8]

/-- A cycle header byte H1 (11.1). -/
def headerFlags (fsa pb : Bool) (number : BitVec 4) : Byte :=
  byteOf ((if fsa then 128 else 0) + (if pb then 64 else 0) + number.toNat)

/-- The fields of a received H1: bits 5..4 are not judged (R185). -/
def headerFsa (h1 : Byte) : Bool := h1.getLsbD 7
def headerPb (h1 : Byte) : Bool := h1.getLsbD 6
def headerNumber (h1 : Byte) : BitVec 4 := h1.extractLsb' 0 4

/-- A stamp's 8 bytes in a parcel (11.3). -/
def Stamp.bytes (t : Stamp) : List Byte :=
  fourBytes t.seconds.toNat ++ twoBytes t.cycle ++ [byteOf t.tick, byteOf t.quality.code]

/-- A frame record's 12 bytes (11.4). An unstamped frame has quality NONE and time fields 0 (R145). -/
def Frame.record (f : Frame) : List Byte :=
  let status := (if f.closed then 1 else 0) + (if f.stamp.isSome then 2 else 0)
  match f.stamp with
  | none => twoBytes f.length ++ [byteOf status, 0#8] ++ List.replicate 8 0#8
  | some t =>
    twoBytes f.length ++ [byteOf status, byteOf t.quality.code] ++ fourBytes t.seconds.toNat ++ twoBytes t.cycle
      ++ [byteOf t.tick, 0#8]

end Sys2Proof.Machine
end

