-- ==== Sys2Proof/Machine/Flags.lean ====
section
/-! DEFINITION. Flags: the marks of the report sources (11.5), and the levels and conditions that are read from the
state and not stored apart: reachability, the FSA and PB flags sent, the lamps, the effective floor, the quality. -/

namespace Sys2Proof.Machine

/-! ### Marks: the bit of each mark in its source's mark set (11.5) -/

def Mark.pin : Nat := 0
def Mark.restart : Nat := 1
def Mark.present : Nat := 3
def Mark.absent : Nat := 4
def Mark.underflow : Nat := 0
def Mark.overflowSlip : Nat := 1
def Mark.forceOn : Nat := 5
def Mark.forceOff : Nat := 6
def Mark.realign : Nat := 4
def Mark.timeStep : Nat := 5
def Mark.timeSet : Nat := 6
def Mark.validity : Nat := 7
def Mark.holdLimit : Nat := 8
def Mark.applied : Nat := 0
def Mark.withdrawn : Nat := 1
def Mark.homeApplied : Nat := 2
def Mark.pending : Nat := 3
def Mark.shed : Nat := 4
def Mark.floor : Nat := 5
def Mark.hookOff : Nat := 9
def Mark.hookOn : Nat := 10
def Mark.busy : Nat := 11
def Mark.answeredSent : Nat := 12
def Mark.downSent : Nat := 13
def Mark.contactActive (n : Fin 4) : Nat := n.val
def Mark.contactInactive (n : Fin 4) : Nat := 4 + n.val

/-- Receiver states, as codes and as marks of RX-A and RX-B. -/
def RxState.code : RxState → Nat
  | .noLight => 0
  | .hunt => 1
  | .synced => 2

/-- Causes, as codes and as marks of HOME. -/
def HomeCause.code : HomeCause → Nat
  | .failure => 0
  | .isolation => 1
  | .recovery => 2
  | .revert => 3
  | .forced => 4

/-- Timing modes, as codes and as marks of TIMING. -/
def TimingMode.code : TimingMode → Nat
  | .free => 0
  | .acquiring => 1
  | .tracking => 2
  | .holdover => 3

/-- Call states, as codes and as marks of CALL p. -/
def CallState.code : CallState → Nat
  | .idle => 0
  | .waiting => 1
  | .connecting => 2
  | .alerting => 3
  | .talking => 4
  | .ringConnecting => 5
  | .ringing => 6
  | .clearing => 7
  | .lockout => 8

/-- Channel states, as codes in the order R148 lists them. -/
def ChanState.code : ChanState → Nat
  | .stopped => 0
  | .active => 1
  | .stopping => 2

/-- Channel states as marks of CHANNEL k (11.5). -/
def ChanState.mark : ChanState → Nat
  | .active => 0
  | .stopping => 1
  | .stopped => 2

/-- The discard causes of R161. -/
inductive Discard where
  | overflow
  | underrun
  | dropCheck
  | trunkCheck
  | tooLong
  | aborted
deriving DecidableEq, Repr

/-- Discard causes as marks of CHANNEL k (11.5). -/
def Discard.mark : Discard → Nat
  | .overflow => 3
  | .underrun => 4
  | .dropCheck => 5
  | .trunkCheck => 6
  | .tooLong => 7
  | .aborted => 8

/-! ### Trunk and homing -/

/-- An end is present while its timer is above 0 (R17). -/
def Receiver.endPresent (r : Receiver) : Bool := decide (0 < r.presence)

/-- End X is reachable (R25): the port-X receiver is SYNCED, the end is present, neither PB nor FSA is seen, and a valid
message of end X has come through the store since that receiver entered SYNCED, so that a flow still priming makes no end
reachable (that the message counts from the last entry into SYNCED: DEDUCED, log 36). -/
def reachable (s : State) (x : Side) : Bool :=
  let r := s.rx.get x
  decide (r.state = .synced) && r.endPresent && !r.pbSeen && !r.fsaSeen && (s.flow.get x.other).heard

/-- A transmitter is silent in its start-up round (R16). -/
def Flow.silent (f : Flow) : Bool := f.startUp.isSome

/-- FSA in H1 of a cycle sent on port X (R15). -/
def fsaToSend (s : State) (x : Side) : Bool := decide ((s.rx.get x).state ≠ .synced)

/-- PB in H1 of a cycle sent on the port opposite X (R16). -/
def pbAwayFrom (s : State) (x : Side) : Bool :=
  let r := s.rx.get x
  decide (r.state ≠ .synced) || r.fsaSeen || r.pbSeen || (s.flow.get x).silent

/-- The timing source under AUTO is the receiver on the home-facing port (4.2); under FREE there is none. -/
def sourceReceiver (s : State) : Option Side := if s.timing.auto then some s.homing.home else none

/-! ### Timing -/

/-- The tick: how far the cycle in progress has run, in 256ths (R60). -/
def Timing.tick (t : Timing) : Nat := t.phase.toNat / 16777216

/-- The holdover is within its limit (R74). -/
def Timing.withinLimit (t : Timing) : Bool := decide (t.holdTimer ≤ t.holdLimit * Config.roundsPerSecond)

/-- The quality mark (R75). -/
def Timing.quality (t : Timing) : Quality :=
  match t.validity, t.mode with
  | .none, _ => .none
  | .fromHost, _ => .localTime
  | .fromEnd, .tracking => .traced
  | .fromEnd, .acquiring => .settling
  | .fromEnd, .holdover => if t.withinLimit then .hold else .localTime
  | .fromEnd, .free => .localTime

/-! ### Lane allocator -/

/-- The effective floor (R90). -/
def Allocator.floor (a : Allocator) : Nat := if a.incident then max a.hostFloor a.incidentFloor else a.hostFloor

/-- The transmit-side use of an entry (R83). -/
def Entry.txUse (e : Entry) : Use :=
  match e.move with
  | some m => if m.tx then m.target else e.use
  | none => e.use

/-- The receive-side use of an entry (R83). -/
def Entry.rxUse (e : Entry) : Use :=
  match e.move with
  | some m => if m.rx then m.target else e.use
  | none => e.use

/-- A lane is committed to channel k (R89). -/
def Entry.committedTo (k : ChanNo) (e : Entry) : Bool :=
  match e.move with
  | none => decide (e.use = .channel k)
  | some m => decide (m.target = .channel k) && !m.followUp

/-- The lanes committed to channel k (R89). -/
def committed (s : State) (k : ChanNo) : List Nat := (s.alloc.owned.filter (Entry.committedTo k)).map Entry.lane

/-- A count x has reached an effect round e (R47). -/
def reached (x e : Half) : Bool := decide ((x - e).toNat ≤ 32767)

/-! ### Call points and ports -/

/-- The function a port acts with (R127): the even port of a merged pair is a SYNC port, the odd one reads MERGED. -/
def portFunction (s : State) (p : PortNo) : PortFunction :=
  if s.merged[p.val / 2]'(by omega) then (if p.val % 2 = 0 then .sync else .merged)
  else
    match s.ports[p].own with
    | .off => .off
    | .async _ => .async
    | .sync => .sync
    | .callpoint _ => .callpoint
    | .contacts _ _ => .contacts

/-- Call point p exists (R106). -/
def callExists (s : State) (p : PortNo) : Bool := decide (portFunction s p = .callpoint)

/-- The WAIT lamp (R108). -/
def CallPoint.waitLamp (c : CallPoint) : Bool :=
  match c.state with
  | .waiting => if c.ringMark then c.offHook else true
  | .connecting => true
  | .alerting => true
  | .ringConnecting => c.offHook
  | _ => false

/-- The CONNECTED lamp (R108). -/
def CallPoint.connectedLamp (c : CallPoint) : Bool := decide (c.state = .talking)

/-- The RINGER output (R108). -/
def CallPoint.ringer (c : CallPoint) : Bool := decide (c.state = .ringing)

/-- Speech passes only in ALERTING and TALKING (R109). -/
def CallPoint.speaks (c : CallPoint) : Bool := decide (c.state = .alerting) || decide (c.state = .talking)

/-- The ATTN output (R179, R182). -/
def attention (s : State) : Bool := !s.resetHeld && (!s.link.replies.isEmpty || !s.link.reports.isEmpty)

end Sys2Proof.Machine
end

