-- ==== Sys2Proof/Machine/Memory.lean ====
section
/-! DEFINITION. Frame memory (R143): 2048 blocks of 32 bytes as a list of (address, byte) pairs in one canonical
form; byte `o` of block `b` has the address 32 x b + o. -/

namespace Sys2Proof.Machine

/-- The byte at an address; an unlisted address reads as `Config.unwritten`. -/
def Memory.read : List Host.Cell → Nat → Byte
  | [], _ => Config.unwritten
  | (a, v) :: rest, x => if a = x then v else Memory.read rest x

/-- The memory with one byte written, in canonical form: writing the value an unlisted address reads as removes the
entry. -/
def Memory.write : List Host.Cell → Nat → Byte → List Host.Cell
  | [], x, v => if v = Config.unwritten then [] else [(x, v)]
  | (a, w) :: rest, x, v =>
    if x < a then (if v = Config.unwritten then (a, w) :: rest else (x, v) :: (a, w) :: rest)
    else if x = a then (if v = Config.unwritten then rest else (x, v) :: rest)
    else (a, w) :: Memory.write rest x v

/-- Every listed address is at least `low`, addresses rise strictly, and no entry holds the unlisted value. -/
def Memory.wfFrom : Nat → List Host.Cell → Bool
  | _, [] => true
  | low, (a, v) :: rest => decide (low ≤ a) && (v != Config.unwritten) && Memory.wfFrom (a + 1) rest

/-- The canonical form. -/
def Memory.wf (m : List Host.Cell) : Bool := Memory.wfFrom 0 m

/-- Bytes written one after another from an address on. -/
def Memory.writeAll (m : List Host.Cell) (x : Nat) : List Byte → List Host.Cell
  | [] => m
  | v :: vs => Memory.writeAll (Memory.write m x v) (x + 1) vs

end Sys2Proof.Machine
end

