-- ==== Sys2Proof/Machine/Ops.lean ====
section
/-! DEFINITION. Named operations over the state that every unit shares: updates of one unit's record, the report
pending set (R180), the marks and counts that go with it, and the running of the homing counts (R27, R31). -/

namespace Sys2Proof.Machine

/-! ### Updates of one record -/

def State.updRx (s : State) (x : Side) (f : Receiver → Receiver) : State :=
  { s with rx := s.rx.set x (f (s.rx.get x)) }

def State.updFlow (s : State) (x : Side) (f : Flow → Flow) : State :=
  { s with flow := s.flow.set x (f (s.flow.get x)) }

def State.updLine (s : State) (f : TrunkLine → TrunkLine) : State := { s with line := f s.line }

def State.updHoming (s : State) (f : Homing → Homing) : State := { s with homing := f s.homing }

def State.updRound (s : State) (f : RoundUnit → RoundUnit) : State := { s with round := f s.round }

def State.updTiming (s : State) (f : Timing → Timing) : State := { s with timing := f s.timing }

def State.updAlloc (s : State) (f : Allocator → Allocator) : State := { s with alloc := f s.alloc }

def State.updCall (s : State) (p : PortNo) (f : CallPoint → CallPoint) : State :=
  { s with calls := s.calls.set p (f s.calls[p]) }

def State.updPort (s : State) (p : PortNo) (f : Port → Port) : State :=
  { s with ports := s.ports.set p (f s.ports[p]) }

def State.updChan (s : State) (k : ChanNo) (f : Channel → Channel) : State :=
  { s with chans := s.chans.set k (f s.chans[k]) }

def State.updFilter (s : State) (f : Filter → Filter) : State := { s with filter := f s.filter }

def State.updLink (s : State) (f : Link → Link) : State := { s with link := f s.link }

/-- All ports and call points, and all channels, in ascending order. -/
def allPorts : List PortNo := [0, 1, 2, 3, 4, 5, 6, 7]
def allChans : List ChanNo := [0, 1, 2, 3, 4, 5, 6, 7, 8, 9, 10, 11, 12, 13, 14, 15]
def allInputs : List (Fin 4) := [0, 1, 2, 3]

/-- A drop port, call point or channel number of a request (RANGE outside). -/
def portOf (b : Byte) : Option PortNo := if h : b.toNat < 8 then some ⟨b.toNat, h⟩ else none
def chanOf (b : Byte) : Option ChanNo := if h : b.toNat < 16 then some ⟨b.toNat, h⟩ else none

/-- A number clamped to a range (00_scope.md, Clamping). -/
def clampNat (x low high : Nat) : Nat := if x < low then low else if high < x then high else x
def clampInt (x low high : Int) : Int := if x < low then low else if high < x then high else x

/-- A counter that saturates at 65535 (R161). -/
def saturate (n : Nat) : Nat := if n < 65535 then n + 1 else 65535

/-! ### The report pending set (R180) -/

/-- The mark set with one mark gathered. -/
def markSet (n : Nat) : Word := BitVec.twoPow 32 n

/-- A source joins the set at its tail with its mark, or gathers the mark in its place. -/
def gatherMark (src : Source) (m : Word) : List (Source × Word) → List (Source × Word)
  | [] => [(src, m)]
  | (q, w) :: rest => if q = src then (q, w ||| m) :: rest else (q, w) :: gatherMark src m rest

/-- The marks a source has gathered; none while it is not in the set. -/
def marksOf (src : Source) : List (Source × Word) → Option Word
  | [] => none
  | (q, w) :: rest => if q = src then some w else marksOf src rest

/-- An event on a source (R180): the mark is gathered in the set, and also kept apart while a report of that source,
built before the event, is being sent. -/
def raise (src : Source) (mark : Nat) (s : State) : State :=
  s.updLink fun l =>
    { l with
      reports := gatherMark src (markSet mark) l.reports
      transaction := l.transaction.map fun t =>
        if t.message = .report src then { t with later := t.later ||| markSet mark } else t }

/-- A source's place among those that join at one instant: before the first of a greater code. -/
def insertByCode (e : Source × Word) : List (Source × Word) → List (Source × Word)
  | [] => [e]
  | q :: rest => if e.1.code < q.1.code then e :: q :: rest else q :: insertByCode e rest

/-- Sources that join at the same instant join the tail in ascending order of their source codes (R180): those that
stood in the set before keep their order, and the new ones are put in order behind them. -/
def orderJoins (before after : List (Source × Word)) : List (Source × Word) :=
  after.filter (fun e => (marksOf e.1 before).isSome)
    ++ (after.filter (fun e => (marksOf e.1 before).isNone)).foldl (fun acc e => insertByCode e acc) []

/-- One instant of the part (R180): nothing happens while RESET is held (R22, R182); otherwise the effect comes
about and the sources that join with it are put in order. -/
def atInstant (effect : State → State) (s : State) : State :=
  if s.resetHeld then s
  else
    let t := effect s
    t.updLink fun l => { l with reports := orderJoins s.link.reports l.reports }

/-- The occasion of a step (log 1): the effect comes about when it is the occasion named, judged on the state before
and after it, and otherwise the event has not come about and nothing changes. -/
def onOccasion (occasion : State → State → Bool) (effect : State → State) (s : State) : State :=
  if occasion s (effect s) then effect s else s

/-! ### Homing counts -/

/-- R31's conditions: homed away from the preferred end, not forced, wait-to-restore not 0, and the preferred end
reachable. -/
def restoreRuns (s : State) : Bool :=
  !s.homing.isolated && decide (s.homing.home ≠ s.homing.preferred) && s.homing.forced.isNone
    && decide (s.homing.restoreSetting ≠ 0) && reachable s s.homing.preferred

/-- R27's condition: in a HOMED state with the home unreachable. -/
def holdOffRuns (s : State) : Bool := !s.homing.isolated && !reachable s s.homing.home

/-- Reachability is judged again (R25): each count starts at 0 when its conditions come to hold, runs on while they
hold, and is stopped and set to 0 when one ceases to hold (R27, R31). -/
def judgeReachability (s : State) : State :=
  s.updHoming fun h =>
    { h with
      holdOff := if holdOffRuns s then some (h.holdOff.getD 0) else none
      restore := if restoreRuns s then some (h.restore.getD 0) else none }

/-! ### Receivers and the timing source -/

/-- The timing unit enters HOLDOVER (R63): the correction is frozen, the counts are cleared, realignment is disarmed
and the holdover timer starts at 0. In FREE and in HOLDOVER nothing changes. -/
def enterHoldover (s : State) : State :=
  match s.timing.mode with
  | .acquiring | .tracking =>
    raise .timing TimingMode.holdover.code
      (s.updTiming fun t =>
        { t with
          mode := .holdover, correction := clampInt (t.integral / 64) (-1024) 1023, lockCount := 0, unlockCount := 0,
          realignCount := 0, armed := false, holdTimer := 0 })
  | _ => s

/-- A receiver enters a state: the mark of the state entered is set on its source (R9). -/
def enterRxState (x : Side) (st : RxState) (s : State) : State :=
  raise (.rx x) st.code (s.updRx x fun r => { r with state := st })

/-- A receiver leaves SYNCED, or enters NO_LIGHT from HUNT: its store is emptied, its flags are cleared and any hunt
candidate is dropped (R5, R7, R8, R10), and the timing unit is told when it is the source (R63). -/
def dropReceiver (x : Side) (st : RxState) (s : State) : State :=
  let wasSynced := decide ((s.rx.get x).state = .synced)
  let s1 := enterRxState x st s
  let s2 := s1.updRx x fun r => 
    { r with candidate := none, alignment := none, fsaSeen := false, pbSeen := false, faultRun := 0 }
  let s3 := s2.updFlow x.other fun f => { f with store := [], mode := .notDelivering }
  let s4 := if wasSynced && decide (sourceReceiver s3 = some x) then enterHoldover s3 else s3
  judgeReachability s4

/-! ### Channel counters (R161, R163) -/

/-- One discard cause counted. -/
def Counters.count (d : Discard) (c : Counters) : Counters :=
  match d with
  | .overflow => { c with overflow := saturate c.overflow }
  | .underrun => { c with underrun := saturate c.underrun }
  | .dropCheck => { c with dropCheck := saturate c.dropCheck }
  | .trunkCheck => { c with trunkCheck := saturate c.trunkCheck }
  | .tooLong => { c with tooLong := saturate c.tooLong }
  | .aborted => { c with aborted := saturate c.aborted }

/-- A discard is counted under a cause, and its mark is set on CHANNEL k. -/
def countDiscard (k : ChanNo) (d : Discard) (s : State) : State :=
  raise (.channel k) d.mark (s.updChan k fun c => { c with counters := c.counters.count d })

/-- A channel enters a state, and the mark of the state is set on CHANNEL k (R163). -/
def enterChanState (k : ChanNo) (st : ChanState) (s : State) : State :=
  raise (.channel k) st.mark (s.updChan k fun c => { c with state := st })

end Sys2Proof.Machine
end

