-- ==== Sys2Proof/Machine/Timing.lean ====
section
/-! DEFINITION. The timing unit (chapter 4): the synthesizer, the tracking loop, line time and stamps. -/

namespace Sys2Proof.Machine

/-! ### The synthesizer (R60) -/

/-- INC, the phase gained in one oscillator period. -/
def Timing.increment (t : Timing) : Nat := (Config.phaseStep + t.correction).toNat

/-- Oscillator periods that can pass before the addition wraps: the boundary itself is the LOCAL_CYCLE_BOUNDARY
command (log 2). -/
def Timing.periodsLeft (t : Timing) : Nat := (4294967295 - t.phase.toNat) / t.increment

/-- Periods pass, never past the wrap (log 2, log 3). -/
def Timing.run (periods : Nat) (t : Timing) : Timing :=
  { t with phase := BitVec.ofNat 32 (t.phase.toNat + min periods t.periodsLeft * t.increment) }

/-- The oscillator runs on to the next wrap: the phase just after it. -/
def Timing.wrap (t : Timing) : Timing :=
  { t with phase := BitVec.ofNat 32 (t.phase.toNat + (t.periodsLeft + 1) * t.increment) }

/-- Bits of a cycle that the line carries while the phase runs from 0 to where it stands (R1, R60, log 41). -/
def Timing.lineBits (t : Timing) : Nat := t.phase.toNat * Config.cycleBits / 4294967296

/-! ### Line time (R70 to R73) -/

/-- The raw time advances by one cycle (R70). -/
def Timing.advance (t : Timing) : Timing :=
  if t.cycle + 1 < Config.cyclesPerSecond then { t with cycle := t.cycle + 1 }
  else { t with cycle := 0, seconds := t.seconds + 1#32 }

/-- The last step of R72: expected minus running in cycles, the seconds difference taken modulo 2^32 in the signed
range, saturated to 32767 either way. -/
def stepCycles (expectedSeconds : Word) (expectedCycle : Nat) (seconds : Word) (cycle : Nat) : Int :=
  clampInt ((expectedSeconds - seconds).toInt * 8000 + ((expectedCycle : Int) - (cycle : Int))) (-32767) 32767

/-- A TIME of the home end is adopted (R72): the raw time is kept when it agrees and set otherwise; the validity
becomes END and the source end the home end. -/
def adoptTime (x : Side) (seconds : Word) (index : Nat) (s : State) : State :=
  let t := s.timing
  let cycle := 16 * index + 15
  let s1 :=
    if t.seconds = seconds ∧ t.cycle = cycle then s
    else
      raise .timing Mark.timeStep
        (s.updTiming fun t =>
          { t with seconds := seconds, cycle := cycle, lastStep := stepCycles seconds cycle t.seconds t.cycle })
  let s2 := s1.updTiming fun t => { t with validity := .fromEnd, source := some x }
  if t.validity = .fromEnd ∧ t.source = some x then s2 else raise .timing Mark.validity s2

/-- A valid TIME message of the home end (R71). -/
def takeTime (x : Side) (seconds : Word) (index : Nat) (s : State) : State :=
  if 499 < index then s.updTiming fun t => { t with rejected := t.rejected + 1#16 }
  else
    match s.timing.mode with
    | .acquiring | .tracking => adoptTime x seconds index s
    | _ => s

/-! ### The phase detector and the loop (R65 to R69) -/

/-- Q: how far the local cycle in progress has run, in oscillator periods (R65). -/
def Timing.q (t : Timing) : Nat := t.phase.toNat / 1048576

/-- E: the phase error of a sample (R65). -/
def Timing.error (t : Timing) : Int := if t.q < 2048 then (t.q : Int) else (t.q : Int) - 4096

/-- One loop step on the error E (R66). Division by 64 rounds toward minus infinity. -/
def Timing.loop (e : Int) (t : Timing) : Timing :=
  let ec := clampInt e (-64) 63
  let i := clampInt (t.integral - ec) (-65536) 65535
  { t with integral := i, correction := clampInt (i / 64 - 8 * ec) (-1024) 1023 }

/-- A sample (R65, R66) with the counts of its mode: lock and realign in ACQUIRING (R67, R69), unlock in TRACKING
(R68). -/
def takeSample (s : State) : State :=
  let e := s.timing.error
  let s1 := s.updTiming (Timing.loop e)
  let inLock := decide (-2 ≤ e) && decide (e ≤ 2)
  let inUnlock := decide (-16 ≤ e) && decide (e ≤ 16)
  let inRealign := decide (-64 ≤ e) && decide (e ≤ 63)
  match s1.timing.mode with
  | .acquiring =>
    let lock := if inLock then s1.timing.lockCount + 1 else 0
    let re := if inRealign then 0 else s1.timing.realignCount + 1
    let s2 := s1.updTiming fun t => { t with lockCount := lock, realignCount := re, armed := decide (4 ≤ re) }
    if 256 ≤ lock then
      raise .timing TimingMode.tracking.code (s2.updTiming fun t => { t with mode := .tracking, unlockCount := 0 })
    else s2
  | .tracking =>
    let un := if inUnlock then 0 else s1.timing.unlockCount + 1
    let s2 := s1.updTiming fun t => { t with unlockCount := un }
    if 8 ≤ un then
      raise .timing TimingMode.acquiring.code
        (s2.updTiming fun t => { t with mode := .acquiring, lockCount := 0, realignCount := 0, armed := false })
    else s2
  | _ => s1

/-- FREE under AUTO ends (R62): ACQUIRING with the integral from the trim and the counts at 0. -/
def startAcquiring (s : State) : State :=
  raise .timing TimingMode.acquiring.code
    (s.updTiming fun t =>
      { t with
        mode := .acquiring, integral := 64 * t.trim, lockCount := 0, unlockCount := 0, realignCount := 0,
        armed := false })

/-- HOLDOVER ends (R64): ACQUIRING with the integral kept, the counts from 0 and the holdover timer at 0. -/
def leaveHoldover (s : State) : State :=
  raise .timing TimingMode.acquiring.code
    (s.updTiming fun t =>
      { t with mode := .acquiring, lockCount := 0, unlockCount := 0, realignCount := 0, armed := false, holdTimer := 0 })

/-- The realignment instant (R69): the phase becomes 0, the lock and realign counts 0, realignment is disarmed and
REALIGN is marked. The integral and the correction keep their values. The line has by then carried the bits of the
phase given up. -/
def realignPhase (s : State) : State :=
  raise .timing Mark.realign
    ((s.updLine fun l => { l with longer := l.longer + s.timing.lineBits }).updTiming fun t =>
      { t with phase := 0#32, lockCount := 0, realignCount := 0, armed := false })

/-- A received cycle start signalled by the port-x receiver (R61), with whether it makes a local cycle boundary
(R69: a realignment at Q of 2048 or more). -/
def cycleStart (x : Side) (s : State) : State × Bool :=
  if sourceReceiver s ≠ some x then (s, false)
  else
    match s.timing.mode with
    | .free => if s.homing.isolated then (s, false) else (takeSample (startAcquiring s), false)
    | .acquiring =>
      if s.timing.armed then (realignPhase s, decide (2048 ≤ s.timing.q)) else (takeSample s, false)
    | .tracking => (takeSample s, false)
    | .holdover => if s.homing.isolated then (s, false) else (takeSample (leaveHoldover s), false)

/-! ### Holdover timer (R74) -/

/-- One local round boundary in HOLDOVER; the mark HOLD_LIMIT is set when the timer first passes the limit. -/
def countHoldover (s : State) : State :=
  match s.timing.mode with
  | .holdover =>
    let s1 := s.updTiming fun t => { t with holdTimer := min (t.holdTimer + 1) Config.holdoverCap }
    if s.timing.withinLimit && !s1.timing.withinLimit then raise .timing Mark.holdLimit s1 else s1
  | _ => s

/-! ### Stamps (R76) -/

/-- The path delay of R76 step 1. -/
def Timing.stampDelay (t : Timing) : Nat :=
  match t.validity, t.source with
  | .fromEnd, some x => t.delay.get x
  | _, _ => 0

/-- The stamp taken at this instant. With no line time its fields are 0 and its quality NONE. -/
def Timing.stamp (t : Timing) : Stamp :=
  match t.validity with
  | .none => { seconds := 0#32, cycle := 0, tick := 0, quality := .none }
  | _ =>
    let ticks := t.tick + t.stampDelay
    let cycles := t.cycle + ticks / 256
    { seconds := t.seconds + BitVec.ofNat 32 (cycles / Config.cyclesPerSecond),
      cycle := cycles % Config.cyclesPerSecond, tick := ticks % 256, quality := t.quality }

end Sys2Proof.Machine
end

