-- ==== Sys2Proof/Machine/Chains.lean ====
section
/-! DEFINITION. Chains of frame memory (8.1, 8.2), the inbound writer (8.4) and the writing of outbound frames (8.6). -/

namespace Sys2Proof.Machine

/-! ### Chains (R143 to R146) -/

/-- The length N of a chain in blocks. -/
def Chain.size (c : Chain) : Nat := c.blocks.length

/-- Blocks a frame holds. -/
def Frame.held (f : Frame) : Nat := f.taken - f.released

/-- The occupancy of a chain (R146). -/
def Chain.occupancy (c : Chain) : Nat := c.frames.foldl (fun n f => n + f.held) 0

/-- The free blocks of a chain (R146). -/
def Chain.free (c : Chain) : Nat := c.size - c.occupancy

/-- The block at a place of the circle. -/
def Chain.blockAt (c : Chain) (place : Nat) : Nat := c.blocks.getD (place % c.size) 0

/-- The place of the reader: the oldest held block, or the writer's place in an empty chain. -/
def Chain.reader (c : Chain) : Nat :=
  match c.frames with
  | [] => c.writer
  | f :: _ => (f.start + f.released) % c.size

/-- The chain emptied: reader and writer at its first block (R143). -/
def Chain.emptied (c : Chain) : Chain := { c with writer := 0, frames := [] }

/-- Payload bytes that a number of blocks of one frame can hold (R145). -/
def payloadRoom (blocks : Nat) : Nat := Config.firstPayload + Config.blockBytes * (blocks - 1)

/-- The address of payload byte `i` of a frame (R145). -/
def Chain.payloadAddress (c : Chain) (f : Frame) (i : Nat) : Nat :=
  if i < Config.firstPayload then Config.blockBytes * c.blockAt f.start + Config.recordBytes + i
  else
    Config.blockBytes * c.blockAt (f.start + 1 + (i - Config.firstPayload) / Config.blockBytes)
      + (i - Config.firstPayload) % Config.blockBytes

/-- The frame record written in the frame's first block while that block is held (R145, 11.4). -/
def Chain.writeRecord (c : Chain) (f : Frame) (mem : List Host.Cell) : List Host.Cell :=
  if f.released = 0 then Memory.writeAll mem (Config.blockBytes * c.blockAt f.start) f.record else mem

/-- A frame opened at the writer's place, with one block taken (R146). -/
def Frame.opened (start : Nat) : Frame :=
  { start := start, taken := 1, released := 0, length := 0, closed := false, stamp := none, begun := false, sent := 0,
    firstGone := false }

/-- The writer opens a frame, taking a block; `none` when the chain has no free block. -/
def Chain.open? (c : Chain) (mem : List Host.Cell) : Option (Chain × List Host.Cell) :=
  if c.free = 0 then none
  else
    let f := Frame.opened c.writer
    some ({ c with writer := (c.writer + 1) % c.size, frames := c.frames ++ [f] }, c.writeRecord f mem)

/-- The writer writes one payload byte of the newest frame, taking a block when the block in hand is full (R145,
R146, R151); `none` when it needs a block and the chain has none free. -/
def Chain.append? (c : Chain) (b : Byte) (mem : List Host.Cell) : Option (Chain × List Host.Cell) :=
  match c.frames.getLast? with
  | none => none
  | some f =>
    let full := decide (payloadRoom f.taken ≤ f.length)
    if full && decide (c.free = 0) then none
    else
      let f1 := { f with taken := if full then f.taken + 1 else f.taken, length := f.length + 1 }
      let c1 :=
        { c with
          writer := if full then (c.writer + 1) % c.size else c.writer, frames := c.frames.dropLast ++ [f1] }
      some (c1, c1.writeRecord f1 (Memory.write mem (c1.payloadAddress f1 f.length) b))

/-- The newest frame is removed: its blocks are released, and the writer's next frame opens at the frame's first
block not yet released (R151, R152, R157). -/
def Chain.dropNewest (c : Chain) : Chain :=
  match c.frames.getLast? with
  | none => c
  | some f => { c with writer := (f.start + f.released) % c.size, frames := c.frames.dropLast }

/-- The oldest frame is removed and its blocks are released. Where it is the chain's only frame the writer's next frame
opens at its first block not yet released, and otherwise the writer keeps its place; for a CLOSED frame abandoned at a
change of home (R160) or dropped as its port becomes HELD (R132) no rule says where it opens (DESIGN CHOICE, log 57). -/
def Chain.dropOldest (c : Chain) : Chain :=
  match c.frames with
  | [_] => c.dropNewest
  | fs => { c with frames := fs.tail }

/-- The oldest frame is done: whole, sent and gone. The writer keeps its place. -/
def Chain.finishOldest (c : Chain) : Chain := { c with frames := c.frames.tail }

/-- Blocks of a frame that may be released once `sent` payload bytes have gone (R146). The first block of an inbound
frame is also held until the frame's first parcel has gone. -/
def Frame.releasable (inbound : Bool) (f : Frame) : Nat :=
  if inbound && !f.firstGone then 0
  else if f.closed && decide (f.length ≤ f.sent) then f.taken
  else if f.sent < Config.firstPayload then 0
  else min f.taken (1 + (f.sent - Config.firstPayload) / Config.blockBytes)

/-- A change of the oldest frame, with the release of the blocks it allows. -/
def Chain.updOldest (inbound : Bool) (g : Frame → Frame) (c : Chain) : Chain :=
  match c.frames with
  | [] => c
  | f :: rest =>
    let f1 := g f
    { c with frames := { f1 with released := max f1.released (f1.releasable inbound) } :: rest }

/-- The frame becomes CLOSED, with its stamp; when all its bytes have gone by then, the block that the writer was
filling is released (R146). -/
def Frame.close (inbound : Bool) (stamp : Option Stamp) (f : Frame) : Frame :=
  { f with
    closed := true, stamp := stamp,
    released := if (if inbound then f.firstGone else f.begun) && decide (f.length ≤ f.sent) then f.taken else f.released }

/-! ### Block owners (R143) -/

/-- The owner of a block (8, 8.1). -/
inductive Owner where
  | free
  | station
  | inbound (k : ChanNo)
  | outbound (k : ChanNo)
deriving DecidableEq, Repr

/-- The blocks of a chain, none without a chain. -/
def chainBlocks (c : Option Chain) : List Nat :=
  match c with
  | none => []
  | some c => c.blocks

/-- The first block of the station table's area (R167). -/
def stationStart (s : State) : Nat := Config.blocks - s.filter.capacity / 8

/-- The owner of a block. -/
def ownerOf (s : State) (b : Nat) : Owner :=
  if stationStart s ≤ b then .station
  else
    match allChans.find? (fun k => (chainBlocks s.chans[k].inChain).contains b) with
    | some k => .inbound k
    | none =>
      match allChans.find? (fun k => (chainBlocks s.chans[k].outChain).contains b) with
      | some k => .outbound k
      | none => .free

/-- The link of a block: the block that follows it in its chain (R143). -/
def linkOf (c : Chain) (b : Nat) : Nat := c.blockAt (c.blocks.idxOf b + 1)

/-! ### Channels on ports -/

/-- The channel of a kind bound to a port (R128). -/
def boundTo (s : State) (p : PortNo) (listen : Bool) : Option ChanNo :=
  allChans.find? fun k => decide (s.chans[k].set.port = some p) && (s.chans[k].set.listen == listen)

/-- The RDY line of a SYNC port follows the free blocks of the inbound chain of its ACTIVE LINK channel (R137). -/
def refreshReady (k : ChanNo) (s : State) : State :=
  let c := s.chans[k]
  match c.set.port with
  | none => s
  | some p =>
    if c.set.listen then s
    else if decide (portFunction s p = .sync) && decide (c.state = .active) then
      match c.inChain with
      | none => s
      | some ch =>
        s.updPort p fun q =>
          { q with ready := if ch.free < 2 then false else if 4 ≤ ch.free then true else q.ready }
    else s.updPort p fun q => { q with ready := false }

/-- The inbound chain and frame memory replaced, and RDY judged. -/
def setIn (k : ChanNo) (c : Chain) (mem : List Host.Cell) (s : State) : State :=
  refreshReady k { (s.updChan k fun ch => { ch with inChain := some c }) with mem := mem }

/-- The outbound chain and frame memory replaced. -/
def setOut (k : ChanNo) (c : Chain) (mem : List Host.Cell) (s : State) : State :=
  { (s.updChan k fun ch => { ch with outChain := some c }) with mem := mem }

/-! ### The inbound writer (R151, R152) -/

/-- An ABORT is owed for the frame the sender has begun (R155): the parcel in progress is completed with the bytes it
was chosen with, and acts on no frame any more. A round block that is being filled with IDLE stays so. -/
def oweAbort (k : ChanNo) (s : State) : State :=
  s.updChan k fun c =>
    { c with
      sender :=
        { c.sender with
          abortOwed := true, kind := none, out := c.sender.out.map fun x => (x.1, false) } }

/-- The frame the writer is writing is lost: its blocks not yet sent are released, and an ABORT is owed when the
sender has begun it. -/
def loseWriting (k : ChanNo) (s : State) : State :=
  match s.chans[k].inChain with
  | none => s
  | some c =>
    let begun := match c.frames.getLast? with
      | none => false
      | some f => f.begun
    let s1 := setIn k c.dropNewest s.mem s
    if begun then oweAbort k s1 else s1

/-- The writer in a state. -/
def setWriter (k : ChanNo) (w : WriterState) (s : State) : State := s.updChan k fun c => { c with writer := w }

/-- The writer writes a payload byte into the newest frame; a chain with no free block is an overflow (R152). -/
def writeInbound (k : ChanNo) (b : Byte) (s : State) : State :=
  match s.chans[k].inChain with
  | none => s
  | some c =>
    match c.append? b s.mem with
    | some (c1, mem) => setWriter k .writing (setIn k c1 mem s)
    | none => setWriter k .discarding (countDiscard k .overflow (loseWriting k s))

/-- A payload byte from the port (R151). -/
def writerByte (k : ChanNo) (b : Byte) (s : State) : State :=
  match s.chans[k].writer with
  | .discarding => s
  | .writing => writeInbound k b s
  | .idle =>
    match s.chans[k].inChain with
    | none => s
    | some c =>
      match c.open? s.mem with
      | some (c1, mem) => writeInbound k b (setIn k c1 mem s)
      | none => setWriter k .discarding (countDiscard k .overflow s)

/-- The port throws the frame in progress away, with a cause to count or none (R134, R135, R151). In DISCARDING the
frame has been counted already. -/
def writerDiscard (k : ChanNo) (cause : Option Discard) (s : State) : State :=
  let counted (s : State) : State :=
    match cause with
    | none => s
    | some d => countDiscard k d s
  match s.chans[k].writer with
  | .discarding => setWriter k .idle s
  | .writing => setWriter k .idle (loseWriting k (counted s))
  | .idle => counted s

/-- The port closes the frame as good (R151): the stamp is written when stamping is on, the record is CLOSED, and
frames in rises. -/
def writerClose (k : ChanNo) (s : State) : State :=
  match s.chans[k].writer, s.chans[k].inChain with
  | .writing, some c =>
    match c.frames.getLast? with
    | none => setWriter k .idle s
    | some f =>
      let stamp := if s.chans[k].set.stamping then some s.timing.stamp else none
      let c1 := { c with frames := c.frames.dropLast ++ [f.close true stamp] }
      let s1 := setIn k c1 (c.writeRecord { f with closed := true, stamp := stamp } s.mem) s
      s1.updChan k fun ch =>
        { ch with writer := .idle, counters := { ch.counters with framesIn := ch.counters.framesIn + 1#32 } }
  | _, _ => setWriter k .idle s

/-! ### Outbound frames (R157 to R159) -/

/-- The port ends the frame of channel k it has begun with the abort marker of k's framing settings (R131, R136). A port
that is IDLE after a transparent frame sends FFh, however that frame ended (R136); a framed one that is ended so leaves the
fill value as it is (log 25). -/
def abortOnPort (k : ChanNo) (s : State) : State :=
  let set := s.chans[k].set
  match set.port with
  | none => s
  | some p =>
    if s.ports[p].tx.state = .sending k ∧ s.ports[p].tx.aborting = false then
      s.updPort p fun q =>
        { q with
          tx :=
            { q.tx with
              aborting := true, closedBy := none, out := [(set.escape, .plain), (set.delimiter, .aborted)],
              fill := if set.transparent then 0xFF#8 else q.tx.fill } }
    else s

/-- The outbound frame being assembled is discarded: its blocks not yet sent are released, and a frame the port has
begun is ended with the abort marker (R157). -/
def loseAssembled (k : ChanNo) (s : State) : State :=
  match s.chans[k].outChain with
  | none => s
  | some c =>
    let begun := match c.frames.getLast? with
      | none => false
      | some f => f.begun
    let s1 := if begun then abortOnPort k s else s
    setOut k c.dropNewest s1.mem s1

/-- What became of the writing of an outbound byte. -/
inductive OutResult where
  | written
  | overflow
  | tooLong
deriving DecidableEq, Repr

/-- An outbound frame is opened (R157); without a free block it is an overflow (R158), counted. -/
def openOutbound (k : ChanNo) (s : State) : State × Bool :=
  match s.chans[k].outChain with
  | none => (s, false)
  | some c =>
    match c.open? s.mem with
    | some (c1, mem) => (setOut k c1 mem s, true)
    | none => (countDiscard k .overflow s, false)

/-- A payload byte is written into the outbound frame being assembled: a byte that brings its count to one above the
maximum frame length discards it TOO_LONG (R157), a needed block that is not free discards it OVERFLOW (R158). -/
def writeOutbound (k : ChanNo) (b : Byte) (s : State) : State × OutResult :=
  match s.chans[k].outChain with
  | none => (s, .overflow)
  | some c =>
    let length := match c.frames.getLast? with
      | none => 0
      | some f => f.length
    if s.chans[k].set.maxLength ≤ length then (loseAssembled k (countDiscard k .tooLong s), .tooLong)
    else
      match c.append? b s.mem with
      | some (c1, mem) => (setOut k c1 mem s, .written)
      | none => (loseAssembled k (countDiscard k .overflow s), .overflow)

/-! ### Frames sent whole (R131, R136, R159) -/

/-- A change of the port's transmit side. -/
def updPortTx (p : PortNo) (f : PortTx → PortTx) (s : State) : State := s.updPort p fun q => { q with tx := f q.tx }

/-- The oldest frame of channel k's outbound chain. -/
def oldestOut (s : State) (k : ChanNo) : Option Frame :=
  match s.chans[k].outChain with
  | none => none
  | some c => c.frames.head?

/-- The fill value of a channel (R130). -/
def ChannelSettings.fill (set : ChannelSettings) : Byte := if set.fillIdle then 0xFF#8 else set.delimiter

/-- A frame has been sent whole (R131, R159): it leaves the chain, frames out rises, and the port becomes IDLE with
the fill bytes between frames still to send. -/
def frameWhole (p : PortNo) (k : ChanNo) (s : State) : State :=
  let set := s.chans[k].set
  let s1 :=
    match s.chans[k].outChain with
    | none => s
    | some c => setOut k c.finishOldest s.mem s
  let s2 := s1.updChan k fun c =>
    { c with counters := { c.counters with framesOut := c.counters.framesOut + 1#32 } }
  updPortTx p
    (fun t =>
      { t with
        state := .idle, aborting := false,
        out := if set.transparent then [] else List.replicate (set.gap - 1) (set.fill, .plain),
        closedBy := if set.transparent = false ∧ set.gap = 0 then some k else none,
        fill := if set.transparent then 0xFF#8 else set.fill })
    s2

/-- A transparent frame that is CLOSED with nothing more to send is whole (R136, R159). -/
def settleTransparent (p : PortNo) (s : State) : State :=
  match s.ports[p].tx.state with
  | .sending k =>
    if s.chans[k].set.transparent && s.ports[p].tx.out.isEmpty && !s.ports[p].tx.aborting then
      match oldestOut s k with
      | some f => if f.closed && decide (f.length ≤ f.sent) then frameWhole p k s else s
      | none => s
    else s
  | _ => s

/-- A transparent frame of channel k that its port has sent to the end is whole as it closes. -/
def settleChannel (k : ChanNo) (s : State) : State :=
  match s.chans[k].set.port with
  | none => s
  | some p => if s.ports[p].tx.state = .sending k then settleTransparent p s else s

/-- The outbound frame being assembled becomes CLOSED (R157). -/
def closeOutbound (k : ChanNo) (s : State) : State :=
  match s.chans[k].outChain with
  | none => s
  | some c =>
    match c.frames.getLast? with
    | none => s
    | some f =>
      let f1 := f.close false none
      settleChannel k
        (setOut k { c with frames := c.frames.dropLast ++ [f1] } (c.writeRecord { f with closed := true } s.mem) s)

end Sys2Proof.Machine
end

