-- ==== Sys2Proof/Machine/CallUnit.lean ====
section
/-! DEFINITION. The notice queue (3.5) and the call unit's part of lane moves: the state of a call point, a lane
granted, a lane that has reached it, a lane that has left it (R111, R112, R117). -/

namespace Sys2Proof.Machine

/-- A LANE item joins the notice queue at its tail (R50). -/
def queueLane (lane : Nat) (use : Use) (s : State) : State :=
  s.updRound fun r => { r with queue := r.queue ++ [.lane lane use] }

/-- An item is a CALL item of call point p. -/
def Item.isCallOf (p : PortNo) : Item → Bool
  | .call q _ => decide (q = p)
  | .lane _ _ => false

/-- An item is the LANE item of a lane. -/
def Item.isLaneOf (lane : Nat) : Item → Bool
  | .lane l _ => decide (l = lane)
  | .call _ _ => false

/-- An item is a LANE item. -/
def Item.isLane : Item → Bool
  | .lane _ _ => true
  | .call _ _ => false

/-- A CALL item joins the queue, or takes the place of the call point's item that stands there (R50). -/
def queueCall (p : PortNo) (e : CallEvent) (s : State) : State :=
  s.updRound fun r =>
    { r with
      queue :=
        if r.queue.any (Item.isCallOf p) then r.queue.map fun i => if i.isCallOf p then .call p e else i
        else r.queue ++ [.call p e] }

/-- A CALL ANSWERED item is handed to the queue, with its mark (R121). -/
def sendAnswered (p : PortNo) (s : State) : State :=
  raise (.call p) Mark.answeredSent (queueCall p .answered s)

/-- A CALL DOWN item is handed to the queue, with its mark (R121). -/
def sendDown (p : PortNo) (c : ClearCause) (s : State) : State :=
  raise (.call p) Mark.downSent (queueCall p (.down c) s)

/-- States at whose entry the answer-pending flag is cleared (R112). -/
def CallState.clearsAnswer : CallState → Bool
  | .talking | .ringing | .clearing | .idle | .lockout => true
  | _ => false

/-- Call point p enters a state: the state's mark is set (R121); the answer-pending flag is cleared at the entries of
R112, the ring mark as the point leaves WAITING (R111), and the ring timer runs only in RINGING (R115). -/
def enterCallState (p : PortNo) (st : CallState) (s : State) : State :=
  raise (.call p) st.code
    (s.updCall p fun c =>
      { c with
        state := st, answerPending := if st.clearsAnswer then false else c.answerPending,
        ringMark := if st = .waiting then c.ringMark else false,
        ringTimer := if st = .ringing then Config.ringRounds else 0 })

/-- A call point ends its call: IDLE if the hook is ON and LOCKOUT if it is OFF, with no lane (R116, R117). -/
def endCall (p : PortNo) (s : State) : State :=
  let s1 := s.updCall p fun c => { c with lane := none }
  enterCallState p (if s1.calls[p].offHook then .lockout else .idle) s1

/-- A waiting call point is granted a lane (R111). -/
def callGranted (p : PortNo) (lane : Nat) (s : State) : State :=
  let c := s.calls[p]
  let s1 := s.updCall p fun c => { c with lane := some lane, answerPending := c.ringMark && c.offHook }
  enterCallState p (if c.ringMark then .ringConnecting else .connecting) s1

/-- The move toward CALL p has completed (R112). In CLEARING the state does not change. -/
def callArrived (p : PortNo) (s : State) : State :=
  let c := s.calls[p]
  match c.state with
  | .connecting =>
    if c.answerPending then sendAnswered p (enterCallState p .talking s) else enterCallState p .alerting s
  | .ringConnecting =>
    if c.answerPending then sendAnswered p (enterCallState p .talking s) else enterCallState p .ringing s
  | _ => s

/-- The lane has left call point p (R117). -/
def callDeparted (p : PortNo) (s : State) : State :=
  if s.calls[p].state = .clearing then endCall p s else s

end Sys2Proof.Machine
end

