-- ==== Sys2Proof/Machine/Lanes.lean ====
section
/-! DEFINITION. The lane allocator (chapter 5): moves, grants, releases, offers, walks, sheds and floors. -/

namespace Sys2Proof.Machine

/-! ### The owned-lane table and moves (R83, R85) -/

/-- The entry of a lane. -/
def entryOf (s : State) (lane : Nat) : Option Entry := s.alloc.owned.find? fun e => decide (e.lane = lane)

/-- The owned lanes in ascending order. -/
def ownedLanes (s : State) : List Nat := s.alloc.owned.map Entry.lane

/-- A change of one lane's entry. -/
def updEntry (lane : Nat) (f : Entry → Entry) (s : State) : State :=
  s.updAlloc fun a => { a with owned := a.owned.map fun e => if e.lane = lane then f e else e }

/-- A lane has no move in flight. -/
def unmoved (s : State) (lane : Nat) : Bool :=
  match entryOf s lane with
  | some e => e.move.isNone
  | none => false

/-- A lane's applied use; SPARE for a lane that is not owned. -/
def useOf (s : State) (lane : Nat) : Use :=
  match entryOf s lane with
  | some e => e.use
  | none => .spare

/-- A move is created QUEUED, and its LANE item joins the notice queue (R85). -/
def createMove (lane : Nat) (target : Use) (s : State) : State :=
  queueLane lane target
    (updEntry lane
      (fun e => { e with move := some { target := target, effect := none, tx := false, rx := false, followUp := false } })
      s)

/-- The SPARE lanes with no move in flight, ascending. -/
def spareLanes (s : State) : List Nat :=
  (s.alloc.owned.filter fun e => decide (e.use = .spare) && e.move.isNone).map Entry.lane

/-- The lanes whose applied use is CHANNEL k and that have no move, ascending. -/
def channelLanes (s : State) (k : ChanNo) : List Nat :=
  (s.alloc.owned.filter fun e => decide (e.use = .channel k) && e.move.isNone).map Entry.lane

/-- Channel k is an ACTIVE LINK channel. -/
def activeLink (s : State) (k : ChanNo) : Bool :=
  decide (s.chans[k].state = .active) && !s.chans[k].set.listen

/-- A channel may donate a lane to a request at a level (R91 step 3). -/
def mayDonate (s : State) (level : Nat) (k : ChanNo) : Bool :=
  activeLink s k && decide (s.chans[k].set.wmin < (committed s k).length) && decide (s.chans[k].set.level < level)
    && !(channelLanes s k).isEmpty

/-- The donor: the lowest level, ties to the highest number (R91 step 3). -/
def donor (s : State) (level : Nat) : Option ChanNo :=
  (allChans.filter (mayDonate s level)).foldl
    (fun best k =>
      match best with
      | none => some k
      | some b => if s.chans[k].set.level ≤ s.chans[b].set.level then some k else some b)
    none

/-- The lane a request at a level is given: the lowest SPARE lane with no move, or the donor's highest lane with no
move (R91 steps 2 and 3). -/
def laneFor (s : State) (level : Nat) : Option Nat :=
  match (spareLanes s).head? with
  | some l => some l
  | none =>
    match donor s level with
    | some k => (channelLanes s k).getLast?
    | none => none

/-- A channel may regrow: ACTIVE LINK, committed width below W_n, level above the effective floor (R94). -/
def mayRegrow (s : State) (k : ChanNo) : Bool :=
  activeLink s k && decide ((committed s k).length < s.chans[k].set.wn)
    && decide (s.alloc.floor < s.chans[k].set.level)

/-- The channel that regrows: the highest level, ties to the lowest number (R94). -/
def regrower (s : State) : Option ChanNo :=
  (allChans.filter (mayRegrow s)).foldl
    (fun best k =>
      match best with
      | none => some k
      | some b => if s.chans[b].set.level < s.chans[k].set.level then some k else some b)
    none

/-! ### The pending list (R92, R93) -/

/-- An entry joins behind those of its level and above (R92). -/
def insertWaiting (p : PortNo) (level : Nat) : List (PortNo × Nat) → List (PortNo × Nat)
  | [] => [(p, level)]
  | (q, l) :: rest => if l < level then (p, level) :: (q, l) :: rest else (q, l) :: insertWaiting p level rest

/-- A call joins the pending list. -/
def joinWaiting (p : PortNo) (level : Nat) (s : State) : State :=
  s.updAlloc fun a => { a with waiting := insertWaiting p level a.waiting }

/-- A call leaves the pending list. -/
def leaveWaiting (p : PortNo) (s : State) : State :=
  s.updAlloc fun a => { a with waiting := a.waiting.filter fun w => decide (w.1 ≠ p) }

/-- A pending call is granted a lane: its entry leaves the list, the move is created, and the call unit is told. -/
def grantWaiting (p : PortNo) (lane : Nat) (s : State) : State :=
  callGranted p lane (createMove lane (.call p) (leaveWaiting p s))

/-- The walk of the pending list, over the entries not yet looked at (R93). -/
def walkEntries : List (PortNo × Nat) → State → State
  | [], s => s
  | (p, level) :: rest, s =>
    if level ≤ s.alloc.floor then s
    else
      match laneFor s level with
      | none => s
      | some lane => walkEntries rest (grantWaiting p lane s)

/-- A walk of the pending list from its head (R93). -/
def walk (s : State) : State := walkEntries s.alloc.waiting s

/-! ### The next use of a lane (R94, R95) -/

/-- The lane goes to the head of the pending list if its level is above the floor, else to the channel that regrows,
else to the use given, or nowhere (R94, R95). -/
def assignLane (lane : Nat) (otherwise : Option Use) (s : State) : State :=
  let toChannel (s : State) : State :=
    match regrower s with
    | some j => createMove lane (.channel j) s
    | none =>
      match otherwise with
      | some u => createMove lane u s
      | none => s
  match s.alloc.waiting with
  | [] => toChannel s
  | (q, level) :: _ => if s.alloc.floor < level then grantWaiting q lane s else toChannel s

/-- An offer of a lane that has applied use SPARE and no move in flight (R95). -/
def offer (lane : Nat) (s : State) : State :=
  if unmoved s lane && decide (useOf s lane = .spare) then assignLane lane none s else s

/-- A sweep: every SPARE lane with no move is offered, ascending (R95). -/
def sweep (s : State) : State := (spareLanes s).foldl (fun s l => offer l s) s

/-- A channel that is STOPPING and holds no lane, applied or moving, becomes STOPPED (R100). Where that falls within a
round, the lanes that still carry the channel for the rest of it carry idle bytes (R150; DESIGN CHOICE, log 44). -/
def settleStopping (s : State) : State :=
  allChans.foldl
    (fun s k =>
      if s.chans[k].state = .stopping
          ∧ s.alloc.owned.all (fun e =>
              decide (e.use ≠ .channel k)
                && (match e.move with
                    | some m => decide (m.target ≠ .channel k)
                    | none => true)) = true then
        enterChanState k .stopped
          (s.updChan k fun c =>
            { c with sender := { Sender.initial with abortOwed := c.sender.abortOwed }, parser := Parser.initial })
      else s)
    s

/-! ### Withdrawal and follow-up (R87, R88) -/

/-- A QUEUED move is withdrawn and the lane's old use judged (R87). A lane stays with its ACTIVE channel even where that
channel has regrown to W_n meanwhile (log 40). -/
def withdraw (lane : Nat) (s : State) : State :=
  let s1 := s.updRound fun r => { r with queue := r.queue.filter fun i => !i.isLaneOf lane }
  let s2 := updEntry lane (fun e => { e with move := none }) s1
  let s3 := raise .lane Mark.withdrawn (s2.updAlloc fun a => { a with withdrawn := a.withdrawn + 1#16 })
  let s4 :=
    match useOf s3 lane with
    | .spare => offer lane s3
    | .channel j => if s3.chans[j].state = .active then walk s3 else createMove lane .spare s3
    | .call p => if s3.calls[p].state = .clearing then assignLane lane (some .spare) s3 else s3
  settleStopping s4

/-- A SENT move whose reason goes takes the follow-up mark (R88). -/
def markFollowUp (lane : Nat) (s : State) : State :=
  updEntry lane (fun e => { e with move := e.move.map fun m => { m with followUp := true } }) s

/-- The reason of a lane's move toward a use has gone: a QUEUED move is withdrawn, a SENT one is marked. -/
def cancelMove (lane : Nat) (s : State) : State :=
  match entryOf s lane with
  | some e =>
    match e.move with
    | some m => if m.effect.isNone then withdraw lane s else markFollowUp lane s
    | none => s
  | none => s

/-- The lane is released from CALL p (R94). -/
def releaseCall (p : PortNo) (lane : Nat) (s : State) : State :=
  match entryOf s lane with
  | none => s
  | some e =>
    match e.move with
    | none => if e.use = .call p then assignLane lane (some .spare) s else s
    | some m => if m.target = .call p then cancelMove lane s else s

/-! ### Completion (R86, R101) -/

/-- Steps 1, 2 and 4 of R86: the target becomes the applied use, the move leaves the entry, the count rises and the
users are told. -/
def applyMove (lane : Nat) (s : State) : State :=
  match entryOf s lane with
  | none => s
  | some e =>
    match e.move with
    | none => s
    | some m =>
      let s1 := updEntry lane (fun e => { e with use := m.target, move := none }) s
      let s2 := s1.updAlloc fun a => { a with applied := a.applied + 1#16 }
      let s3 :=
        match e.use with
        | .call p => callDeparted p s2
        | _ => s2
      let s4 :=
        match m.target with
        | .call q => callArrived q s3
        | _ => s3
      settleStopping s4

/-- Steps 5 to 7 of R86 for a lane whose move has been applied: the follow-up release (R88), the offer (R95) or the
walk (R93). A lane that has been given a new move meanwhile is left alone. -/
def afterMove (lane : Nat) (followUp : Bool) (s : State) : State :=
  if unmoved s lane then
    match useOf s lane with
    | .spare => offer lane s
    | .channel _ =>
      if followUp then createMove lane .spare s else if s.alloc.waiting.isEmpty then s else walk s
    | .call _ => if followUp then assignLane lane (some .spare) s else s
  else s

/-- An entry's move carries the follow-up mark (R88). -/
def Entry.followsUp (e : Entry) : Bool :=
  match e.move with
  | some m => m.followUp
  | none => false

/-- The follow-up mark of a lane's move. -/
def marked (s : State) (lane : Nat) : Bool :=
  match entryOf s lane with
  | some e => e.followsUp
  | none => false

/-- A move completes, both sides having taken effect (R86). -/
def completeMove (lane : Nat) (s : State) : State :=
  afterMove lane (marked s lane) (raise .lane Mark.applied (applyMove lane s))

/-- A SENT move takes effect on one side (R85), and completes when it has taken effect on both. -/
def takeEffect (transmit : Bool) (count : Half) (lane : Nat) (s : State) : State :=
  match entryOf s lane with
  | none => s
  | some e =>
    match e.move with
    | none => s
    | some m =>
      match m.effect with
      | none => s
      | some r =>
        if (if transmit then m.tx else m.rx) || !reached count r then s
        else
          let m1 := if transmit then { m with tx := true } else { m with rx := true }
          let s1 := updEntry lane (fun e => { e with move := some m1 }) s
          if m1.tx && m1.rx then completeMove lane s1 else s1

/-- The local round count has a new value: moves whose effect round it has reached take effect on transmit (R47), in
ascending lane order (R86). -/
def effectsOnTransmit (s : State) : State :=
  (ownedLanes s).foldl (fun t l => takeEffect true s.round.localCount l t) s

/-- The received round count has a new value: moves take effect on receive (R47). -/
def effectsOnReceive (s : State) : State :=
  (ownedLanes s).foldl (fun t l => takeEffect false s.round.receivedCount l t) s

/-- The move of an entry is applied at a change of home (R101). One that carries the follow-up mark stands on its lane
until the lane is released in its turn: so the lane stays out of the committed width of the channel it has reached (R88),
serves in no donor test, and the channel keeps its W_min (R89). R101's order alone would count it until then (DESIGN
CHOICE, log 58). -/
def applyAtHome (e : Entry) (s : State) : State :=
  let s1 := applyMove e.lane s
  if e.followsUp then updEntry e.lane (fun g => { g with move := e.move }) s1 else s1

/-- Steps 5 to 7 of R86 for an entry whose move a change of home has applied. -/
def afterHome (e : Entry) (s : State) : State :=
  afterMove e.lane e.followsUp (if e.followsUp then updEntry e.lane (fun g => { g with move := none }) s else s)

/-- A change of home applies every move in flight at once, and then follows each up, both in ascending lane order (R101).
-/
def applyAllMoves (s : State) : State :=
  let moving := s.alloc.owned.filter fun e => e.move.isSome
  let s1 := moving.foldl (fun s e => applyAtHome e s) s
  let s2 := if moving.isEmpty then s1 else raise .lane Mark.homeApplied s1
  moving.foldl (fun s e => afterHome e s) s2

/-! ### Grants (R91) -/

/-- A request for a lane for call point p (R91): the lane granted, or `none` when the call waits. -/
def requestLane (p : PortNo) (level : Nat) (s : State) : State × Option Nat :=
  if level ≤ s.alloc.floor then (joinWaiting p level s, none)
  else
    match laneFor s level with
    | some lane => (createMove lane (.call p) s, some lane)
    | none => (raise .lane Mark.pending (joinWaiting p level s), none)

/-! ### Shedding and floors (R96 to R98) -/

/-- The lanes with a move toward channel k that is QUEUED, or SENT and not marked. -/
def movesToward (s : State) (k : ChanNo) (queued : Bool) : List Nat :=
  (s.alloc.owned.filter fun e =>
    match e.move with
    | some m => decide (m.target = .channel k) && !m.followUp && (m.effect.isNone == queued)
    | none => false).map Entry.lane

/-- The channel is wider than its W_min. -/
def aboveMin (s : State) (k : ChanNo) : Bool := decide (s.chans[k].set.wmin < (committed s k).length)

/-- Step 1 of the shed: QUEUED moves toward the channel are withdrawn, highest lane first. At most one round for each
owned lane. -/
def shedQueued (k : ChanNo) : Nat → State → State
  | 0, s => s
  | n + 1, s =>
    if aboveMin s k then
      match (movesToward s k true).getLast? with
      | some l => shedQueued k n (withdraw l s)
      | none => s
    else s

/-- Step 2: SENT moves toward the channel are marked, lowest lane first. -/
def shedSent (k : ChanNo) : Nat → State → State
  | 0, s => s
  | n + 1, s =>
    if aboveMin s k then
      match (movesToward s k false).head? with
      | some l => shedSent k n (markFollowUp l s)
      | none => s
    else s

/-- Step 3: the channel's highest committed lanes with no move are moved to SPARE. -/
def shedIdle (k : ChanNo) : Nat → State → State
  | 0, s => s
  | n + 1, s =>
    if aboveMin s k then
      match (channelLanes s k).getLast? with
      | some l => shedIdle k n (createMove l .spare s)
      | none => s
    else s

/-- The shed of one channel. -/
def shedChannel (k : ChanNo) (s : State) : State :=
  if activeLink s k && decide (s.chans[k].set.level ≤ s.alloc.floor) then
    let n := s.alloc.owned.length
    shedIdle k n (shedSent k n (shedQueued k n s))
  else s

/-- A shed at the effective floor (R96). -/
def shed (s : State) : State :=
  let t := allChans.foldl (fun s k => shedChannel k s) s
  if t.alloc.owned = s.alloc.owned ∧ t.alloc.withdrawn = s.alloc.withdrawn then t else raise .lane Mark.shed t

/-- The effective floor has changed from a value: FLOOR is marked (R90). -/
def noteFloor (old : Nat) (s : State) : State := if s.alloc.floor = old then s else raise .lane Mark.floor s

/-- The effective floor has fallen from a value: the pending list is walked and the spare lanes are swept (R97). -/
def floorFallen (old : Nat) (s : State) : State := if s.alloc.floor < old then sweep (walk s) else s

/-- The incident-active flag changes (R98). -/
def setIncident (active : Bool) (s : State) : State :=
  let old := s.alloc.floor
  let s1 := noteFloor old (s.updAlloc fun a => { a with incident := active })
  if active then shed s1 else floorFallen old s1

/-- A new incident floor is in force (R98). -/
def setIncidentFloor (value : Nat) (s : State) : State :=
  let old := s.alloc.floor
  let s1 := noteFloor old (s.updAlloc fun a => { a with incidentFloor := clampNat value 0 6 })
  if s1.alloc.incident then
    if old < s1.alloc.floor then shed s1 else floorFallen old s1
  else s1

/-- The host floor of a FLOOR_SET (R97). -/
def setHostFloor (value : Nat) (shedFlag : Bool) (s : State) : State :=
  let old := s.alloc.floor
  let s1 := noteFloor old (s.updAlloc fun a => { a with hostFloor := clampNat value 0 6 })
  let s2 := floorFallen old s1
  if shedFlag then shed s2 else s2

/-! ### Channels starting and stopping (R99, R100) -/

/-- The lanes of a LINK channel that has become ACTIVE (R99). -/
def startLanes (k : ChanNo) (s : State) : State :=
  let given := (spareLanes s).take s.chans[k].set.wmin
  sweep (walk (given.foldl (fun s l => createMove l (.channel k) s) s))

/-- One lane of a STOPPING channel (R100). -/
def stopLane (k : ChanNo) (lane : Nat) (s : State) : State :=
  match entryOf s lane with
  | none => s
  | some e =>
    match e.move with
    | some m => if m.target = .channel k then cancelMove lane s else s
    | none => if e.use = .channel k then createMove lane .spare s else s

/-- The lanes of a LINK channel that has become STOPPING (R100), in ascending order (DESIGN CHOICE, log 39). -/
def stopLanes (k : ChanNo) (s : State) : State :=
  settleStopping ((ownedLanes s).foldl (fun s l => stopLane k l s) s)

end Sys2Proof.Machine
end

