-- ==== Sys2Proof/Machine/Calls.lean ====
section
/-! DEFINITION. The call unit's state machine (chapter 6): placing, ringing, answering and clearing calls. -/

namespace Sys2Proof.Machine

/-- The call unit asks for a lane for an IDLE call point (R110, R114): `ring` is set for a RING of the end. -/
def placeCall (p : PortNo) (ring : Bool) (s : State) : State :=
  let c := s.calls[p]
  let pending := ring && c.offHook
  match requestLane p c.level s with
  | (s1, some lane) =>
    enterCallState p (if ring then .ringConnecting else .connecting)
      (s1.updCall p fun c => { c with lane := some lane, answerPending := pending })
  | (s1, none) =>
    enterCallState p .waiting (s1.updCall p fun c => { c with ringMark := ring, answerPending := pending })

/-- The move toward CALL p of the call point's lane is still QUEUED. -/
def moveQueued (s : State) (p : PortNo) : Bool :=
  match s.calls[p].lane with
  | none => false
  | some lane =>
    match entryOf s lane with
    | none => false
    | some e =>
      match e.move with
      | none => false
      | some m => decide (m.target = .call p) && m.effect.isNone

/-- A call is cleared with a cause (R116). In CONNECTING with the move still QUEUED the call ends at once, unheard of
by the end; otherwise the call point enters CLEARING, CALL DOWN is queued and the lane is released. -/
def clearCall (p : PortNo) (cause : ClearCause) (s : State) : State :=
  let c := s.calls[p]
  let s0 := s.updCall p fun c => { c with cause := some cause }
  match c.lane with
  | none => endCall p (sendDown p cause (enterCallState p .clearing s0))
  | some lane =>
    if c.state = .connecting ∧ moveQueued s p = true then withdraw lane (endCall p s0)
    else
      let s1 := sendDown p cause (enterCallState p .clearing s0)
      if moveQueued s p then endCall p (releaseCall p lane s1) else releaseCall p lane s1

/-- A waiting call is withdrawn (R110, R118, R119): the entry leaves the list and the call point becomes IDLE. -/
def withdrawCall (p : PortNo) (cause : ClearCause) (s : State) : State :=
  enterCallState p .idle ((leaveWaiting p s).updCall p fun c => { c with cause := some cause })

/-- The states in which a CLEAR or a CALL_CLEAR clears a call (R116). -/
def CallState.clearable : CallState → Bool
  | .connecting | .alerting | .talking | .ringConnecting | .ringing => true
  | _ => false

/-- The hook level of the status word that port p took last lets an event take the level `off` (R107, R125). Before the
first word nothing is known of it, and either event may come (DESIGN CHOICE, log 51). -/
def hookAgrees (s : State) (p : PortNo) (off : Bool) : Bool :=
  match s.ports[p].status with
  | none => true
  | some w => statusOffHook w == off

/-- A debounced off-hook (R110, R115, R117). It is taken only at a call point whose hook is ON and whose hook switch is
read as OFF (R107). -/
def takeOffHook (p : PortNo) (s : State) : State :=
  if callExists s p && !s.calls[p].offHook && hookAgrees s p true then
    let c := s.calls[p]
    let s1 := s.updCall p fun c => { c with offHook := true }
    match c.state with
    | .idle => placeCall p false s1
    | .ringing => sendAnswered p (enterCallState p .talking s1)
    | .ringConnecting => raise (.call p) Mark.hookOff (s1.updCall p fun c => { c with answerPending := true })
    | .waiting =>
      raise (.call p) Mark.hookOff
        (if c.ringMark then s1.updCall p fun c => { c with answerPending := true } else s1)
    | _ => raise (.call p) Mark.hookOff s1
  else s

/-- A debounced on-hook (R110, R115 to R117). It is taken only at a call point whose hook is OFF and whose hook switch is
read as ON (R107). -/
def takeOnHook (p : PortNo) (s : State) : State :=
  if callExists s p && s.calls[p].offHook && hookAgrees s p false then
    let c := s.calls[p]
    let s1 := s.updCall p fun c => { c with offHook := false }
    match c.state with
    | .connecting | .alerting | .talking => clearCall p .hook s1
    | .ringConnecting => raise (.call p) Mark.hookOn (s1.updCall p fun c => { c with answerPending := false })
    | .waiting =>
      if c.ringMark then raise (.call p) Mark.hookOn (s1.updCall p fun c => { c with answerPending := false })
      else withdrawCall p .hook s1
    | .lockout => enterCallState p .idle s1
    | _ => raise (.call p) Mark.hookOn s1
  else s

/-- A RING answered BUSY (R114): the item is handed over only when no CALL item of the call point stands in the
queue; the mark is set in either case (R121). -/
def answerBusy (p : PortNo) (s : State) : State :=
  raise (.call p) Mark.busy (if s.round.queue.any (Item.isCallOf p) then s else queueCall p .busy s)

/-- A RING item (R114). -/
def takeRing (p : PortNo) (s : State) : State :=
  match s.calls[p].state with
  | .idle => placeCall p true s
  | .connecting => s.updCall p fun c => { c with answerPending := true }
  | .alerting => sendAnswered p (enterCallState p .talking s)
  | _ => answerBusy p s

/-- An ANSWER item (R113). -/
def takeAnswer (p : PortNo) (s : State) : State :=
  if s.calls[p].state = .alerting then enterCallState p .talking s else s

/-- A CLEAR item (R118). -/
def takeClear (p : PortNo) (s : State) : State :=
  let st := s.calls[p].state
  if st.clearable then clearCall p .ended s else if st = .waiting then withdrawCall p .ended s else s

/-- A CALL_CLEAR of an existing call point, with its status (R119). -/
def hostClear (p : PortNo) (s : State) : State × Status :=
  let c := s.calls[p]
  match c.state with
  | .waiting =>
    let s1 := withdrawCall p .host s
    (if c.ringMark then sendDown p .host s1 else s1, .ok)
  | .clearing => (s, .ok)
  | .idle | .lockout => (s, .wrongState)
  | _ => (clearCall p .host s, .ok)

/-- One local round boundary for the ring timers (R44, R115) of the call points that were RINGING when it fell: a
timer that reaches 0 clears the call with cause NO_ANSWER. The call points are taken in ascending order, which orders
their items and says which freed lane a pending call is given (DESIGN CHOICE, log 59). -/
def countRings (ringing : List PortNo) (s : State) : State :=
  ringing.foldl
    (fun s p =>
      let s1 := s.updCall p fun c => { c with ringTimer := c.ringTimer - 1 }
      if s1.calls[p].state = .ringing ∧ s1.calls[p].ringTimer = 0 then clearCall p .noAnswer s1 else s1)
    s

/-- The call points in RINGING. -/
def ringingPoints (s : State) : List PortNo := allPorts.filter fun p => decide (s.calls[p].state = .ringing)

end Sys2Proof.Machine
end

