-- ==== Sys2Proof/Machine/Packets.lean ====
section
/-! DEFINITION. The parcel sender (8.5) and the parcel parser (8.6) of a LINK channel. -/

namespace Sys2Proof.Machine

/-! ### The sender (R153 to R155) -/

/-- Payload bytes of a frame, from one on, as the chain holds them. -/
def payloadBytes (mem : List Host.Cell) (c : Chain) (f : Frame) (from' n : Nat) : List Byte :=
  (List.range n).map fun i => Memory.read mem (c.payloadAddress f (from' + i))

/-- The second header byte of a parcel: the stamp flag and the payload length (11.3). -/
def parcelLength (stamped : Bool) (n : Nat) : Byte := byteOf ((if stamped then 128 else 0) + n)

/-- A byte of a parcel that is not payload. -/
def overheadBytes (bs : List Byte) : List (Byte × Bool) := bs.map fun b => (b, false)

/-- The oldest frame may be begun (R155): it is CLOSED, or it holds M_in blocks or more and stamping is off. -/
def eligible (set : ChannelSettings) (f : Frame) : Bool :=
  f.closed || (!set.stamping && decide (set.markIn ≤ f.held))

/-- What the sender does at a byte position where no parcel is in progress (R154). -/
inductive Choice where
  | idle
  | fill
  | abort
  | start (n : Nat)
  | middle (n : Nat)
  | last (n : Nat)
  | single (n : Nat)
deriving DecidableEq, Repr

/-- The choice of R154 for the space left in the round block and the oldest frame of the chain. -/
def chooseParcel (active abortOwed : Bool) (set : ChannelSettings) (space : Nat) (oldest : Option Frame) : Choice :=
  if abortOwed then (if 2 ≤ space then .abort else .fill)
  else if !active then .idle
  else
    match oldest with
    | none => .idle
    | some f =>
      let r := f.length - f.sent
      if f.begun then
        let n := min (min 62 (space - 2)) (if f.closed then r - 1 else r)
        if f.closed && decide (r ≤ 62) && decide (r + 4 ≤ space) then .last r
        else if decide (1 ≤ r) && decide (3 ≤ space) && decide (1 ≤ n) then .middle n
        else if !f.closed && decide (r = 0) then .idle
        else .fill
      else if eligible set f then
        let h := if f.stamp.isSome then 12 else 4
        if f.closed && decide (r ≤ 62) && decide (h + r + 2 ≤ space) then .single r
        else if h + 1 ≤ space then .start (min (min 62 (space - h)) (if f.closed then r - 1 else r))
        else .fill
      else .idle

/-- A parcel of the oldest frame becomes the parcel in progress, its length and bytes fixed (R154); a START or SINGLE
begins the frame. -/
def beginParcel (k : ChanNo) (kind : ParcelKind) (n : Nat) (s : State) : State :=
  let c := s.chans[k]
  match c.inChain with
  | none => s
  | some ch =>
    match ch.frames with
    | [] => s
    | f :: _ =>
      let opens := decide (kind = .start) || decide (kind = .single)
      let closes := decide (kind = .last) || decide (kind = .single)
      let stamped := opens && f.stamp.isSome
      let payload := payloadBytes s.mem ch f f.sent n
      let check := payload.foldl c16Step (if opens then c16Start else c.sender.check)
      let before := [kind.code, parcelLength stamped n] ++ (if opens then [0#8, 0#8] else [])
        ++ (match f.stamp with
            | some t => if opens then t.bytes else []
            | none => [])
      let after := if closes then trunkCheckBytes (~~~ check) else []
      let out := overheadBytes before ++ payload.map (fun b => (b, true)) ++ overheadBytes after
      let s1 := if opens then setIn k (ch.updOldest true fun f => { f with begun := true }) s.mem s else s
      s1.updChan k fun c => { c with sender := { c.sender with out := out, kind := some kind, check := check } }

/-- The sender chooses the next parcel (R154). -/
def chooseNext (k : ChanNo) (s : State) : State :=
  let c := s.chans[k]
  let space := 16 * c.sender.width - c.sender.block.length
  let oldest := match c.inChain with
    | none => none
    | some ch => ch.frames.head?
  match chooseParcel (decide (c.state = .active)) c.sender.abortOwed c.set space oldest with
  | .idle => s.updChan k fun c => { c with sender := { c.sender with out := [(Config.idle, false)], kind := none } }
  | .fill => s.updChan k fun c => { c with sender := { c.sender with filling := true } }
  | .abort =>
    s.updChan k fun c =>
      { c with
        sender :=
          { c.sender with
            out := overheadBytes [ParcelKind.code .abort, parcelLength false 0], kind := some .abort } }
  | .start n => beginParcel k .start n s
  | .middle n => beginParcel k .middle n s
  | .last n => beginParcel k .last n s
  | .single n => beginParcel k .single n s

/-- What the end of a parcel does: the first parcel has gone, the frame is done, or the owed ABORT has been sent. -/
def finishParcel (k : ChanNo) (s : State) : State :=
  let c := s.chans[k]
  let s1 := s.updChan k fun c => { c with sender := { c.sender with kind := none } }
  match c.sender.kind, c.inChain with
  | some .start, some ch => setIn k (ch.updOldest true fun f => { f with firstGone := true }) s.mem s1
  | some .last, some ch => setIn k ch.finishOldest s.mem s1
  | some .single, some ch => setIn k ch.finishOldest s.mem s1
  | some .abort, _ => s1.updChan k fun c => { c with sender := { c.sender with abortOwed := false } }
  | _, _ => s1

/-- One more byte of the round block (R153, R154). -/
def senderByte (k : ChanNo) (s : State) : State :=
  let c := s.chans[k]
  let s1 := if c.sender.out.isEmpty && !c.sender.filling then chooseNext k s else s
  let c1 := s1.chans[k]
  match c1.sender.out with
  | [] => s1.updChan k fun c => { c with sender := { c.sender with block := c.sender.block ++ [Config.idle] } }
  | (b, isPayload) :: rest =>
    let s2 := s1.updChan k fun c =>
      { c with sender := { c.sender with block := c.sender.block ++ [b], out := rest } }
    let s3 :=
      match isPayload, c1.inChain with
      | true, some ch => setIn k (ch.updOldest true fun f => { f with sent := f.sent + 1 }) s2.mem s2
      | _, _ => s2
    if rest.isEmpty then finishParcel k s3 else s3

/-- A number of further bytes of the round block. -/
def senderBytes (k : ChanNo) : Nat → State → State
  | 0, s => s
  | n + 1, s => senderBytes k n (senderByte k s)

/-- The round block is built up to and with the bytes of the cycle numbered `number`; bytes placed at numbers passed
over count as sent (R153). -/
def senderReach (k : ChanNo) (number : Nat) (s : State) : State :=
  let snd := s.chans[k].sender
  senderBytes k ((number + 1) * snd.width - snd.block.length) s

/-- The byte of a lane's place in the cycle numbered `number` (R153). -/
def senderLane (snd : Sender) (number place : Nat) : Byte := snd.block.getD (number * snd.width + place) Config.idle

/-- A new round of the sender: what is left of the old round block counts as sent, and the new one has the width
given (R153, R160). -/
def senderRound (k : ChanNo) (width : Nat) (s : State) : State :=
  let s1 := senderReach k 15 s
  s1.updChan k fun c => { c with sender := { c.sender with width := width, block := [], filling := false } }

/-! ### Parcel streams (R153, R156) -/

/-- What the reading of a parcel stream tells its reader. -/
inductive ParcelEvent where
  | bad
  | header (kind : ParcelKind)
  | opened (kind : ParcelKind) (address : Nat)
  | payload (kind : ParcelKind) (b : Byte)
  | ended (kind : ParcelKind) (check : Option Half)
deriving DecidableEq, Repr

/-- The size of a parcel (R153). -/
def parcelSize (kind : ParcelKind) (stamped : Bool) (n : Nat) : Nat :=
  match kind with
  | .start => 4 + (if stamped then 8 else 0) + n
  | .middle => 2 + n
  | .last => 4 + n
  | .single => 6 + (if stamped then 8 else 0) + n
  | .abort => 2

/-- A header with this second byte, of which `left` bytes of the block are left with the header's own, is good
(R156). -/
def goodHeader (kind : ParcelKind) (second : Byte) (left : Nat) : Bool :=
  let n := second.toNat % 64
  let stamped := second.getLsbD 7
  let opens := decide (kind = .start) || decide (kind = .single)
  !second.getLsbD 6 && decide (n ≤ 62) && (opens || !stamped) && (decide (kind ≠ .abort) || decide (n = 0))
    && decide (parcelSize kind stamped n ≤ left)

/-- Where a stream stands after the payload of a parcel. -/
def afterPayload (kind : ParcelKind) : ParcelAt :=
  match kind with
  | .last | .single => .check kind none
  | _ => .header

/-- Where a stream stands once the bytes before the payload have been read. -/
def beforePayload (kind : ParcelKind) (n : Nat) : ParcelAt := if n = 0 then afterPayload kind else .payload kind n

/-- One byte of a parcel stream (R156): bytes beyond the round block are passed over. The bytes of a round block are
counted as they arrive, whatever the numbers of their cycles (R165; DESIGN CHOICE, log 46). A START or SINGLE opens its
frame, and its targets are judged, at the last byte before its payload (R157, R171; DESIGN CHOICE, log 45). -/
def streamByte (b : Byte) (st : ParcelStream) : ParcelStream × List ParcelEvent :=
  if st.left = 0 then (st, [])
  else
    let left := st.left - 1
    match st.at' with
    | .header =>
      if b = Config.idle then ({ left := left, at' := .header }, [])
      else if (parcelKindOf b).isNone || decide (left = 0) then ({ left := 0, at' := .header }, [.bad])
      else ({ left := left, at' := .second b }, [])
    | .second first =>
      match parcelKindOf first with
      | none => ({ left := 0, at' := .header }, [.bad])
      | some kind =>
        let n := b.toNat % 64
        if goodHeader kind b (left + 2) then
          match kind with
          | .start | .single =>
            ({ left := left, at' := .before kind [] (if b.getLsbD 7 then 10 else 2) n }, [.header kind])
          | .middle | .last => ({ left := left, at' := beforePayload kind n }, [.header kind])
          | .abort => ({ left := left, at' := .header }, [.header kind])
        else ({ left := 0, at' := .header }, [.bad])
    | .before kind address wanted n =>
      let address := if address.length < 2 then address ++ [b] else address
      if wanted ≤ 1 then ({ left := left, at' := beforePayload kind n }, [.opened kind (halfAt address 0)])
      else ({ left := left, at' := .before kind address (wanted - 1) n }, [])
    | .payload kind n =>
      ({ left := left, at' := if n ≤ 1 then afterPayload kind else .payload kind (n - 1) }, [.payload kind b])
    | .check kind none => ({ left := left, at' := .check kind (some b) }, [])
    | .check kind (some first) =>
      ({ left := left, at' := .header }, [.ended kind (some (BitVec.ofNat 16 (first.toNat * 256 + b.toNat)))])

/-- A round block of a width starts (R156). An END or SINGLE that the start cuts short has not given all its check
bytes, so its check fails (R187, log 14); any other parcel cut short is at an end. -/
def streamStart (width : Nat) (st : ParcelStream) : ParcelStream × List ParcelEvent :=
  let cut : List ParcelEvent :=
    match st.at' with
    | .payload .last _ => [.ended .last none]
    | .payload .single _ => [.ended .single none]
    | .check kind _ => [.ended kind none]
    | _ => []
  ({ left := 16 * width, at' := .header }, cut)

/-! ### The parser (R156 to R158) -/

/-- The parser in a state. -/
def setParser (k : ChanNo) (st : ParseState) (s : State) : State :=
  s.updChan k fun c => { c with parser := { c.parser with state := st } }

/-- The frame being assembled is discarded under a cause, and the parser takes a state. -/
def parserDiscard (k : ChanNo) (d : Discard) (st : ParseState) (s : State) : State :=
  setParser k st (loseAssembled k (countDiscard k d s))

/-- One event of the channel's parcel stream (R157, R158). A SINGLE lost to overflow leaves NO_FRAME, and any other frame
lost in the middle SKIPPING; a SINGLE whose frame was discarded TOO_LONG is not checked and leaves the parser there
(DEDUCED, log 30). An END whose frame is lost within it, TOO_LONG, OVERFLOW or by an underrun, leaves NO_FRAME with its own
check bytes, as an END does in SKIPPING (DESIGN CHOICE, log 56). -/
def parserEvent (k : ChanNo) (s : State) (e : ParcelEvent) : State :=
  let p := s.chans[k].parser
  match e with
  | .bad => if p.state = .assembling then parserDiscard k .aborted .noFrame s else s
  | .header kind =>
    match kind with
    | .start | .single => if p.state = .assembling then parserDiscard k .aborted .noFrame s else s
    | .abort => if p.state = .assembling then parserDiscard k .aborted .noFrame s else setParser k .noFrame s
    | _ => s
  | .opened kind _ =>
    match openOutbound k s with
    | (s1, true) =>
      s1.updChan k fun c =>
        { c with parser := { c.parser with state := .assembling, count := 0, check := c16Start } }
    | (s1, false) => setParser k (if kind = .start then .skipping else .noFrame) s1
  | .payload kind b =>
    if p.state = .assembling then
      match writeOutbound k b s with
      | (s1, .written) =>
        s1.updChan k fun c =>
          { c with parser := { c.parser with count := c.parser.count + 1, check := c16Step c.parser.check b } }
      | (s1, .overflow) => setParser k (if kind = .single then .noFrame else .skipping) s1
      | (s1, .tooLong) => setParser k .skipping s1
    else s
  | .ended kind check =>
    match p.state with
    | .assembling =>
      if check = some (~~~ p.check) then setParser k .noFrame (closeOutbound k s)
      else parserDiscard k .trunkCheck .noFrame s
    | _ => if kind = .single then s else setParser k .noFrame s

/-- One byte of the channel's receive lane group. Only an ACTIVE LINK channel parses; a STOPPING channel's bytes are
read and discarded (R150). -/
def parserByte (k : ChanNo) (s : State) (b : Byte) : State :=
  if activeLink s k then
    let r := streamByte b s.chans[k].parser.stream
    r.2.foldl (parserEvent k) (s.updChan k fun c => { c with parser := { c.parser with stream := r.1 } })
  else s

/-- A round block of the channel starts in the from-home flow. -/
def parserRound (k : ChanNo) (width : Nat) (s : State) : State :=
  let r := streamStart width s.chans[k].parser.stream
  let s1 := s.updChan k fun c => { c with parser := { c.parser with stream := r.1 } }
  if activeLink s k then r.2.foldl (parserEvent k) s1 else s1

/-! ### Home changes (R160) -/

/-- The sender's part of a change of home: a frame begun and not finished is abandoned and counted, an owed ABORT is
cleared, and a writer still writing the frame becomes DISCARDING. -/
def senderHomeChange (k : ChanNo) (s : State) : State :=
  let s0 := s.updChan k fun c =>
    { c with sender := { c.sender with out := [], kind := none, abortOwed := false, filling := false } }
  match s.chans[k].inChain with
  | none => s0
  | some ch =>
    match ch.frames with
    | [] => s0
    | f :: _ =>
      if f.begun then
        let s1 := countDiscard k .aborted (setIn k ch.dropOldest s0.mem s0)
        if f.closed then s1 else setWriter k .discarding s1
      else s0

/-- The parser's part: an open frame is discarded ABORTED, and the parser starts in NO_FRAME at the next round
block. -/
def parserHomeChange (k : ChanNo) (s : State) : State :=
  let s1 :=
    if s.chans[k].parser.state = .assembling then parserDiscard k .aborted .noFrame s else setParser k .noFrame s
  s1.updChan k fun c => { c with parser := { c.parser with stream := ParcelStream.initial } }

/-- Every LINK channel acts on a change of home (R160); of a STOPPED one an owed ABORT alone is there to clear. An ABORT
that a LISTEN channel has kept from its time as a LINK channel stays owed (DESIGN CHOICE, log 21). -/
def packetsHomeChange (s : State) : State :=
  allChans.foldl
    (fun s k =>
      if s.chans[k].set.listen then s else parserHomeChange k (senderHomeChange k s))
    s

end Sys2Proof.Machine
end

