-- ==== Sys2Proof/Machine/Listen.lean ====
section
/-! DEFINITION. The station filter and the station table (chapter 9). -/

namespace Sys2Proof.Machine

/-! ### The station table (R167, R169) -/

/-- The channel set of an address. -/
def lookupStation (address : Nat) : List (Nat × Half) → Option Half
  | [] => none
  | (a, c) :: rest => if a = address then some c else lookupStation address rest

/-- An entry put at its place in address order, replacing the entry of its address. -/
def putStation (address : Nat) (channels : Half) : List (Nat × Half) → List (Nat × Half)
  | [] => [(address, channels)]
  | (a, c) :: rest =>
    if address < a then (address, channels) :: (a, c) :: rest
    else if address = a then (address, channels) :: rest
    else (a, c) :: putStation address channels rest

/-- The table without an address. -/
def dropStation (address : Nat) (table : List (Nat × Half)) : List (Nat × Half) :=
  table.filter fun e => decide (e.1 ≠ address)

/-- The update in flight is applied, and its withheld reply becomes ready, carrying OK (R169). -/
def applyUpdate (s : State) : State :=
  match s.filter.update with
  | none => s
  | some u =>
    let s1 := s.updFilter fun f =>
      { f with
        update := none
        table := match u with
          | .put a c => putStation a c f.table
          | .drop a => dropStation a f.table }
    s1.updLink fun l => { l with replies := l.replies.map fun r => { r with ready := true } }

/-! ### Delivery (R171, R172) -/

/-- Channel k is an ACTIVE LISTEN channel. -/
def activeListen (s : State) (k : ChanNo) : Bool := decide (s.chans[k].state = .active) && s.chans[k].set.listen

/-- The target set of a frame (R171), ascending. -/
def targetsFor (s : State) (address : Nat) : List ChanNo :=
  if address = 0 then []
  else if address = 65535 then allChans.filter (activeListen s)
  else
    match lookupStation address s.filter.table with
    | none => []
    | some set => allChans.filter fun k => set.getLsbD k.val && activeListen s k

/-- Each open copy of the frame being read is discarded under a cause. -/
def discardCopies (d : Discard) (s : State) : State :=
  (s.filter.copies.foldl (fun s k => loseAssembled k (countDiscard k d s)) s).updFilter fun f => { f with copies := [] }

/-- The filter in a state. -/
def setFilter (st : ParseState) (s : State) : State := s.updFilter fun f => { f with state := st }

/-- Copies are opened in the chains of the targets, ascending; a target whose chain has no free block loses its copy
(R172). -/
def openCopies (targets : List ChanNo) (s : State) : State :=
  targets.foldl
    (fun s k =>
      match openOutbound k s with
      | (s1, true) => s1.updFilter fun f => { f with copies := f.copies ++ [k] }
      | (s1, false) => s1)
    s

/-- A payload byte is written into every copy that is still open (R172). -/
def writeCopies (b : Byte) (s : State) : State :=
  s.filter.copies.foldl
    (fun s k =>
      match writeOutbound k b s with
      | (s1, .written) => s1
      | (s1, _) => s1.updFilter fun f => { f with copies := f.copies.filter fun j => decide (j ≠ k) })
    s

/-- When the last open copy of the frame being read is lost the filter becomes SKIPPING (R172). -/
def skipIfLost (s : State) : State :=
  if s.filter.state = .assembling ∧ s.filter.copies = [] then setFilter .skipping s else s

/-- One event of the listen group's parcel stream (R172). -/
def filterEvent (s : State) (e : ParcelEvent) : State :=
  match e with
  | .bad => if s.filter.state = .assembling then setFilter .noFrame (discardCopies .aborted s) else s
  | .header kind =>
    match kind with
    | .start | .single => if s.filter.state = .assembling then setFilter .noFrame (discardCopies .aborted s) else s
    | .abort => setFilter .noFrame (if s.filter.state = .assembling then discardCopies .aborted s else s)
    | _ => s
  | .opened kind address =>
    let targets := targetsFor s address
    let s1 := openCopies targets (s.updFilter fun f => { f with targets := targets, copies := [] })
    let s2 := s1.updFilter fun f => { f with state := .assembling, count := 0, check := c16Start }
    if s2.filter.copies = [] then setFilter (if kind = .start then .skipping else .noFrame) s2 else s2
  | .payload _ b =>
    if s.filter.state = .assembling then
      skipIfLost
        ((writeCopies b s).updFilter fun f => { f with count := f.count + 1, check := c16Step f.check b })
    else s
  | .ended _ check =>
    if s.filter.state = .assembling then
      if check = some (~~~ s.filter.check) then
        let s1 := s.filter.copies.foldl (fun s k => closeOutbound k s) s
        setFilter .noFrame (s1.updFilter fun f => { f with copies := [] })
      else setFilter .noFrame (discardCopies .trunkCheck s)
    else setFilter .noFrame s

/-- One byte of the listen group. Between the boundary at which new lists are taken and the next cycle numbered 0 no
byte is read (R165). -/
def filterByte (s : State) (b : Byte) : State :=
  if s.filter.nextGroup.isSome then s
  else
    let r := streamByte b s.filter.stream
    r.2.foldl filterEvent (s.updFilter fun f => { f with stream := r.1 })

/-- A cycle numbered 0 of the from-home flow: a new listen group is taken when one is due, starting in NO_FRAME
(R165), and a round block starts. -/
def filterRound (s : State) : State :=
  match s.filter.nextGroup with
  | some group =>
    s.updFilter fun f =>
      { f with
        group := group, nextGroup := none, state := .noFrame, stream := { left := 16 * group.length, at' := .header } }
  | none =>
    let r := streamStart s.filter.group.length s.filter.stream
    r.2.foldl filterEvent (s.updFilter fun f => { f with stream := r.1 })

/-- The frame being read is ended, each open copy discarded ABORTED, and the filter becomes NO_FRAME, waiting for a
round block (R165, R173). -/
def filterBreak (s : State) : State :=
  let s1 := if s.filter.state = .assembling then discardCopies .aborted s else s
  s1.updFilter fun f => { f with state := .noFrame, stream := ParcelStream.initial }

/-- The outbound frame that the parser or the filter is writing for channel k has been ended from the port's side
(R150, R159, R132): nothing more of it is written. -/
def stopWriting (k : ChanNo) (s : State) : State :=
  if s.chans[k].set.listen then
    skipIfLost (s.updFilter fun f => { f with copies := f.copies.filter fun j => decide (j ≠ k) })
  else if s.chans[k].parser.state = .assembling then setParser k .skipping s else s

/-- The channel's newest outbound frame is the one being written. -/
def beingWritten (s : State) (k : ChanNo) : Bool :=
  if s.chans[k].set.listen then s.filter.copies.contains k else decide (s.chans[k].parser.state = .assembling)

end Sys2Proof.Machine
end

