-- ==== Sys2Proof/Machine/Homing.lean ====
section
/-! DEFINITION. The homing unit (chapter 2): counts, decisions at a local round boundary, changes handed on,
settings and forcing. -/

namespace Sys2Proof.Machine

/-- A change of home is handed to its readers (R26): the round message unit (R55), the packet engine (R160), the
station filter (R173), the lane allocator (R101) and the timing unit (R63), in this order (log 10). -/
def handOnHome (s : State) : State :=
  let s1 := s.updRound fun r =>
    { r with
      queue := r.queue.filter fun i => !i.isLane, rosterOwed := true, receivedCount := r.localCount }
  enterHoldover (applyAllMoves (filterBreak (packetsHomeChange s1)))

/-- A change of home or homing state takes effect (R26): it is counted, recorded and reported, the counts are stopped
and cleared, and it is handed on. A return from ISOLATED to the last home owes a roster (R55); an entry into ISOLATED
reaches the timing unit alone (R63). Each count starts again at 0 where its conditions hold (R27, R31). -/
def changeHome (new : Side) (isolated : Bool) (cause : HomeCause) (s : State) : State :=
  let old := s.homing.home
  let s1 := raise .home cause.code
    (s.updHoming fun h =>
      { h with
        home := new, isolated := isolated, changes := h.changes + 1#16,
        last := some { old := old, new := new, cause := cause }, holdOff := none, restore := none })
  judgeReachability
    (if new ≠ old then handOnHome s1
    else if isolated then enterHoldover s1
    else s1.updRound fun r => { r with rosterOwed := true })

/-- One local round boundary for the counts that run when it falls (R27, R31). -/
def countHoming (s : State) : State :=
  s.updHoming fun h => { h with holdOff := h.holdOff.map (· + 1), restore := h.restore.map (· + 1) }

/-- The hold-off has expired (R27). -/
def holdOffExpired (s : State) : Bool :=
  match s.homing.holdOff with
  | some n => decide (s.homing.holdOffSetting ≤ n)
  | none => false

/-- The wait-to-restore has expired (R31). -/
def restoreExpired (s : State) : Bool :=
  match s.homing.restore with
  | some n => decide (s.homing.restoreSetting * Config.roundsPerSecond ≤ n)
  | none => false

/-- A set forced flag is cleared with the mark FORCE_OFF (R35, R36, R37). -/
def clearForce (s : State) : State :=
  match s.homing.forced with
  | none => s
  | some _ => raise .home Mark.forceOff (s.updHoming fun h => { h with forced := none })

/-- The look of R30 in ISOLATED: the end taken, none while neither is reachable. -/
def recoveryEnd (s : State) : Option Side :=
  if reachable s .a && reachable s .b then some s.homing.preferred
  else if reachable s .a then some .a
  else if reachable s .b then some .b
  else none

/-- The decision of the homing unit at a local round boundary: a pending forced change (R34), else the look of R30 in
ISOLATED, else a failure or isolation (R28, R29, R32), else a revert (R31). -/
def decideHome (s : State) : State :=
  match s.homing.pendingForce with
  | some x => changeHome x false .forced (s.updHoming fun h => { h with pendingForce := none })
  | none =>
    if s.homing.isolated then
      match recoveryEnd s with
      | some x => changeHome x false .recovery s
      | none => s
    else if holdOffExpired s then
      let s1 := clearForce s
      if reachable s s.homing.home.other then changeHome s.homing.home.other false .failure s1
      else changeHome s.homing.home true .isolation s1
    else if restoreExpired s then changeHome s.homing.preferred false .revert s
    else s

/-! ### Settings and forcing (R33 to R35, R40) -/

/-- The homing settings of a NODE_SET act at once (R33): a changed preferred end stops and clears the restore count,
and both counts are judged under the new settings. -/
def setHoming (preferred : Side) (restoreSeconds holdOff : Nat) (s : State) : State :=
  judgeReachability
    (s.updHoming fun h =>
      { h with
        preferred := preferred, restoreSetting := clampNat restoreSeconds 0 600, holdOffSetting := clampNat holdOff 1 64,
        restore := if h.preferred = preferred then h.restore else none })

/-- A HOME_FORCE FORCE to end x (R34), with its status. -/
def forceHome (x : Side) (s : State) : State × Status :=
  if !reachable s x then (s, .noPath)
  else
    let pending := if s.homing.isolated ∨ s.homing.home ≠ x then some x else none
    (raise .home Mark.forceOn
      (s.updHoming fun h => { h with forced := some x, pendingForce := pending, restore := none }), .ok)

/-- A HOME_FORCE RELEASE (R35): the restore count starts at 0 where its conditions hold, also when the flag was clear
and the count ran already. -/
def releaseHome (s : State) : State :=
  judgeReachability ((clearForce s).updHoming fun h => { h with pendingForce := none, restore := none })

/-- The homing settings at a RESTART (R40): the pin-reset values act as a NODE_SET, the force is gone without a mark,
and the home becomes the one of the last reset for the HOME report (R37). -/
def restartHoming (s : State) : State :=
  setHoming s.homing.prefStrap 60 4
    (s.updHoming fun h => { h with forced := none, pendingForce := none, reported := h.home })

end Sys2Proof.Machine
end

