-- ==== Sys2Proof/Machine/RoundUnit.lean ====
section
/-! DEFINITION. The round message unit (chapter 3): messages handed over, round counts, end items and turns. -/

namespace Sys2Proof.Machine

/-! ### Validity (R42) -/

/-- The end an origin code names. -/
def endOfOrigin (origin : Byte) : Option Side :=
  if origin = 0x80#8 then some .a else if origin = 0x81#8 then some .b else none

/-- An origin code is a node number 0..63. -/
def nodeOrigin (origin : Byte) : Bool := decide (origin.toNat < 64)

/-- The five tests of R42 on the 32 bytes of a round message. -/
def validMessage (m : List Byte) : Bool :=
  let kind := (byteAt m 0).toNat
  let origin := byteAt m 1
  let count := halfAt m 2
  let fromEnd := (endOfOrigin origin).isSome
  decide ((c16 (m.take 30)).toNat = halfAt m 30) && decide (kind ≤ 4)
    && (if count % 2 = 0 then fromEnd else nodeOrigin origin)
    && (if kind = 1 ∨ kind = 2 then fromEnd else if kind = 3 ∨ kind = 4 then !fromEnd else true)
    && (decide (kind ≠ 1) || decide (count % 8 = 0))

/-! ### Presence and round counts (R17, R45, R46) -/

/-- A valid message of end x has come from its side: the presence timer is restarted (R17), and the end has been heard
through the store (R25). -/
def restartPresence (x : Side) (s : State) : State :=
  let s1 :=
    (s.updRx x fun r => { r with presence := Config.presenceRounds }).updFlow x.other fun f => { f with heard := true }
  judgeReachability (if (s.rx.get x).endPresent then s1 else raise (.rx x) Mark.present s1)

/-- One local round boundary for the presence timer of end x (R17). -/
def tickPresence (x : Side) (s : State) : State :=
  let s1 := s.updRx x fun r => { r with presence := r.presence - 1 }
  judgeReachability
    (if (s.rx.get x).endPresent && !(s1.rx.get x).endPresent then raise (.rx x) Mark.absent s1 else s1)

/-- The received round count takes a value (R45). -/
def setReceivedCount (c : Half) (s : State) : State :=
  if s.round.receivedCount = c then s
  else effectsOnReceive (s.updRound fun r => { r with receivedCount := c })

/-- A cycle numbered 0 of the from-home flow (R45). -/
def riseReceivedCount (s : State) : State :=
  effectsOnReceive (s.updRound fun r => { r with receivedCount := r.receivedCount + 1#16 })

/-- The local round count is kept or jumps (R46). -/
def adoptLocalCount (c : Half) (s : State) : State :=
  if s.round.localCount = c ∨ s.round.localCount = c + 1#16 then s
  else effectsOnTransmit (s.updRound fun r => { r with localCount := c + 1#16 })

/-! ### End items (R53) -/

/-- An item of an END_NOTICE is addressed to this node (R53). -/
def addressedHere (s : State) (target : Nat) : Bool :=
  decide (target = 255) || decide (s.round.numbering.node = some target)

/-- The end item at byte `o` of an END_NOTICE (R53). Items of a call point that does not exist are skipped (R106). -/
def takeItem (m : List Byte) (s : State) (o : Nat) : State :=
  let kind := (byteAt m o).toNat
  if addressedHere s (byteAt m (o + 1)).toNat then
    if kind = 0x14 then s.updRound fun r => { r with rosterOwed := true }
    else
      match portOf (byteAt m (o + 2)) with
      | none => s
      | some p =>
        if callExists s p then
          if kind = 0x11 then takeAnswer p s
          else if kind = 0x12 then takeClear p s
          else if kind = 0x13 then takeRing p s
          else s
        else s
  else s

/-- A valid message of the home end x is used (R43): its round count first, then its body by kind. -/
def useHomeMessage (x : Side) (m : List Byte) (s : State) : State :=
  let c : Half := BitVec.ofNat 16 (halfAt m 2)
  let s1 := adoptLocalCount c (setReceivedCount c s)
  let kind := (byteAt m 0).toNat
  if kind = 1 then takeTime x (BitVec.ofNat 32 (wordAt m 4)) (halfAt m 8) s1
  else if kind = 2 then [4, 12, 20].foldl (takeItem m) s1
  else s1

/-- A round message of the `flow`-bound flow is handed over (R42, R43); the flow was received on the port opposite. -/
def handOver (flow : Side) (m : List Byte) (s : State) : State :=
  if validMessage m then
    if endOfOrigin (byteAt m 1) = some flow.other then
      let s1 := restartPresence flow.other s
      if s1.homing.home = flow.other then useHomeMessage flow.other m s1 else s1
    else s
  else s.updRound fun r => { r with invalid := r.invalid.set flow (r.invalid.get flow + 1#16) }

/-! ### Turns (R48 to R52) -/

/-- The local round is this node's turn (R48). -/
def isTurn (n : Numbering) (count : Half) : Bool :=
  match n.node with
  | none => false
  | some k => decide (count.toNat % 2 = 1) && decide ((count.toNat - 1) / 2 % n.turns = k)

/-- The local round count of the node's next turn (R57). -/
def nextTurn (n : Numbering) (count : Half) : Option Half :=
  match n.node with
  | none => none
  | some k =>
    let period := 2 * n.turns
    let ahead := (2 * k + 1 + period * 65536 - count.toNat - 1) % period + 1
    some (count + BitVec.ofNat 16 ahead)

/-- The body of a ROSTER (R52). -/
def rosterBody (owned : List Entry) : List Byte :=
  let used := owned.map fun e => [byteOf e.lane, byteOf e.use.code]
  (used ++ List.replicate (Config.maxOwned - used.length) [0xFF#8, 0#8]).flatten

/-- The lane allocator is told that the move of an item is SENT with its effect round (R51). -/
def markSent (effect : Half) (s : State) (i : Item) : State :=
  match i with
  | .lane l _ => updEntry l (fun e => { e with move := e.move.map fun m => { m with effect := some effect } }) s
  | .call _ _ => s

/-- The turn message is built (R49, R51, R52). -/
def buildTurn (s : State) : State :=
  let count := s.round.localCount
  let origin := originCode s.round.numbering.node
  if s.round.rosterOwed then
    let m := roundMessage 0x04#8 origin count (rosterBody s.alloc.owned)
    s.updRound fun r => { r with turnMessage := some m, rosterOwed := false }
  else
    let effect := count + 4#16
    let items := s.round.queue.take 3
    let m := roundMessage 0x03#8 origin count (items.map (Item.bytes effect)).flatten
    items.foldl (markSent effect) (s.updRound fun r => { r with turnMessage := some m, queue := r.queue.drop 3 })

/-- The turn test of a local round boundary (R44, R48). -/
def judgeTurn (s : State) : State :=
  if isTurn s.round.numbering s.round.localCount then buildTurn s
  else s.updRound fun r => { r with turnMessage := none }

/-- The numbering of a NODE_SET comes into force (R56). -/
def takeNumbering (s : State) : State :=
  match s.round.nextNumbering with
  | none => s
  | some n => s.updRound fun r => { r with numbering := n, nextNumbering := none }

end Sys2Proof.Machine
end

