-- ==== Sys2Proof/Machine/Trunk.lean ====
section
/-! DEFINITION. The trunk (chapter 1): receivers, elastic stores, role tables, and the cycles that are sent and
delivered. -/

namespace Sys2Proof.Machine

/-! ### Receivers in NO_LIGHT and HUNT (R5, R6) -/

/-- LOS is asserted on port x (R5). -/
def assertLos (x : Side) (s : State) : State :=
  if (s.rx.get x).los then s else dropReceiver x .noLight (s.updRx x fun r => { r with los := true })

/-- LOS is released on port x: the receiver enters HUNT and searches from where the stream stands (R5). -/
def releaseLos (x : Side) (s : State) : State :=
  if (s.rx.get x).los then
    enterRxState x .hunt (s.updRx x fun r => { r with los := false, searchAt := 0, candidate := none })
  else s

/-- The marker is found in HUNT at a bit position (R6). -/
def findCandidate (x : Side) (position : Nat) (c : Cycle) (s : State) : State :=
  let r := s.rx.get x
  if r.state = .hunt ∧ r.candidate = none ∧ c.h0 = Config.marker then
    s.updRx x fun r => { r with candidate := some { position := position, good := 1, last := headerNumber c.h1 } }
  else s

/-- A receiver enters SYNCED at an alignment (R6, R10): the store is empty and the flow is priming, and no message of the
end has come through it yet, so that the end is not reachable (R25). -/
def enterSynced (x : Side) (position : Nat) (number : BitVec 4) (s : State) : State :=
  let s1 := enterRxState x .synced s
  let s2 := s1.updRx x fun r =>
    { r with candidate := none, alignment := some position, lastNumber := number, faultRun := 0 }
  judgeReachability (s2.updFlow x.other fun f => { f with store := [], mode := .priming, heard := false })

/-- A cycle at the candidate alignment (R6): a fourth good one makes the receiver SYNCED, one that is not good drops
the candidate. -/
def testCandidate (x : Side) (c : Cycle) (s : State) : State :=
  let r := s.rx.get x
  match r.state, r.candidate with
  | .hunt, some k =>
    let number := headerNumber c.h1
    if c.h0 = Config.marker ∧ number = k.last + 1#4 then
      if 3 ≤ k.good then enterSynced x k.position number s
      else s.updRx x fun r => { r with candidate := some { k with good := k.good + 1, last := number } }
    else s.updRx x fun r => { r with candidate := none, searchAt := (k.position + 1) % Config.cycleBits }
  | _, _ => s

/-! ### Elastic stores (R10 to R13) -/

/-- An underflow slip is counted and reported (R13). -/
def countUnderflow (x : Side) (s : State) : State :=
  raise (.slip x) Mark.underflow (s.updFlow x fun f => { f with underflows := f.underflows + 1#16 })

/-- An overflow slip is counted and reported (R13). -/
def countOverflow (x : Side) (s : State) : State :=
  raise (.slip x) Mark.overflowSlip (s.updFlow x fun f => { f with overflows := f.overflows + 1#16 })

/-- A received cycle is written into the store of the x-bound flow (R10). -/
def writeStore (x : Side) (c : Stored) (s : State) : State :=
  if Config.storeSize ≤ (s.flow.get x).store.length then
    countOverflow x (s.updFlow x fun f => { f with store := f.store.tail ++ [c] })
  else s.updFlow x fun f => { f with store := f.store ++ [c] }

/-- At a local cycle boundary the transmitter of the x-bound flow reads its store and its counter moves (R3, R10 to
R12, R14). -/
def readStore (x : Side) (s : State) : State :=
  let f := s.flow.get x
  if f.mode = .delivering ∨ (f.mode = .priming ∧ 2 ≤ f.store.length) then
    match f.store with
    | c :: d :: rest =>
      if 2 ≤ rest.length then
        countOverflow x
          (s.updFlow x fun f => { f with mode := .delivering, store := rest, taken := d, counter := d.number })
      else s.updFlow x fun f => { f with mode := .delivering, store := d :: rest, taken := c, counter := c.number }
    | _ => countUnderflow x (s.updFlow x fun f => { f with mode := .delivering, counter := f.counter + 1#4 })
  else s.updFlow x fun f => { f with counter := f.counter + 1#4 }

/-! ### Receivers in SYNCED (R7, R8) -/

/-- A cycle is in sequence (R7). -/
def inSequence (r : Receiver) (c : Cycle) : Bool :=
  decide (c.h0 = Config.marker) && decide (headerNumber c.h1 = r.lastNumber + 1#4)

/-- The number with which a cycle is stored (R7). -/
def storedNumber (r : Receiver) (c : Cycle) : BitVec 4 :=
  if inSequence r c then headerNumber c.h1 else r.lastNumber + 1#4

/-- The receiver's own record after a cycle (R7, R8). -/
def Receiver.judge (r : Receiver) (c : Cycle) : Receiver :=
  if inSequence r c then
    { r with lastNumber := headerNumber c.h1, faultRun := 0, fsaSeen := headerFsa c.h1, pbSeen := headerPb c.h1 }
  else
    { r with
      lastNumber := headerNumber c.h1, faultRun := r.faultRun + 1, headerFaults := r.headerFaults + 1#16 }

/-- A SYNCED receiver judges a cycle and writes it into its flow's store (R7, R8, R10). -/
def storeCycle (x : Side) (c : Cycle) (s : State) : State :=
  let r := s.rx.get x
  let s1 := writeStore x.other { number := storedNumber r c, h2 := c.h2, h3 := c.h3, lanes := c.lanes } s
  judgeReachability (s1.updRx x fun r => r.judge c)

/-! ### Role tables (R18) -/

/-- A lane's role put at its place in lane order. -/
def insertRole (lane : Nat) (role : Role) : List (Nat × Role) → List (Nat × Role)
  | [] => [(lane, role)]
  | (l, r) :: rest => if lane < l then (lane, role) :: (l, r) :: rest else (l, r) :: insertRole lane role rest

/-- The toward-home table, from the transmit-side uses. -/
def towardRoles (a : Allocator) : List (Nat × Role) := a.owned.map fun e => (e.lane, .add e.txUse)

/-- The from-home table, from the receive-side uses and the listen list. -/
def fromRoles (a : Allocator) : List (Nat × Role) :=
  a.listen.foldl (fun t l => insertRole l .dropContinue t) (a.owned.map fun e => (e.lane, Role.drop e.rxUse))

/-- The toward-home table is taken. -/
def takeToward (s : State) : State := s.updFlow s.homing.home fun f => { f with roles := towardRoles s.alloc }

/-- The from-home table is taken. -/
def takeFrom (s : State) : State := s.updFlow s.homing.home.other fun f => { f with roles := fromRoles s.alloc }

/-- The lanes of channel k in a toward-home table, ascending: its lane group on transmit. -/
def addGroup (k : ChanNo) (roles : List (Nat × Role)) : List Nat :=
  (roles.filter fun e => decide (e.2 = .add (.channel k))).map Prod.fst

/-- The lanes of channel k in a from-home table, ascending: its lane group on receive. -/
def dropGroup (k : ChanNo) (roles : List (Nat × Role)) : List Nat :=
  (roles.filter fun e => decide (e.2 = .drop (.channel k))).map Prod.fst

/-! ### The cycle sent (R1, R3, R14 to R16, R19) -/

/-- The byte an ADD lane carries (R19). -/
def addByte (s : State) (codec : List Byte) (number : Nat) (roles : List (Nat × Role)) (lane : Nat) : Use → Byte
  | .spare => Config.idle
  | .channel k => senderLane s.chans[k].sender number ((addGroup k roles).idxOf lane)
  | .call p => if s.calls[p].speaks then codec.getD p.val Config.idle else Config.idle

/-- A cycle's lanes with the roles applied: ADD bytes written, DROP lanes idle, the rest as stored. -/
def applyRoles (add : Nat → Use → Byte) (roles : List (Nat × Role)) (stored : List Byte) : List Byte :=
  roles.foldl
    (fun ls e =>
      match e.2 with
      | .add u => ls.set e.1 (add e.1 u)
      | .drop _ => ls.set e.1 Config.idle
      | .dropContinue => ls)
    stored

/-- The lanes that arrive for the cycle being sent: idle while the flow is not delivering (R14). -/
def Flow.arriving (f : Flow) : List Byte := if f.mode = .delivering then f.taken.lanes else idleLanes

/-- The message the node writes into the slot of the x-bound flow, none when the slot passes (R3, R14, R49). -/
def slotMessage (s : State) (x : Side) : Option (List Byte) :=
  let own := if s.homing.home = x then s.round.turnMessage else none
  match own with
  | some m => some m
  | none => if (s.flow.get x).mode = .delivering then none else some (s.flow.get x).empty

/-- H2 and H3 of the cycle sent (R3). -/
def slotBytes (s : State) (x : Side) : Byte × Byte :=
  let f := s.flow.get x
  match slotMessage s x with
  | some m => (byteAt m (2 * f.counter.toNat), byteAt m (2 * f.counter.toNat + 1))
  | none => (f.taken.h2, f.taken.h3)

/-- The transmitter on port x starts its cycle. -/
def sendCycle (x : Side) (codec : List Byte) (s : State) : State :=
  let f := s.flow.get x
  let fsa := fsaToSend s x
  let pb := pbAwayFrom s x.other
  let slot := slotBytes s x
  let lanes := applyRoles (addByte s codec f.counter.toNat f.roles) f.roles f.arriving
  s.updFlow x fun f =>
    { f with
      fsaSent := fsa, pbSent := pb,
      sent := { h0 := Config.marker, h1 := headerFlags fsa pb f.counter, h2 := slot.1, h3 := slot.2, lanes := lanes } }

/-- The senders build their round blocks up to the cycle the toward-home transmitter starts (R153). -/
def reachSenders (number : Nat) (s : State) : State := allChans.foldl (fun s k => senderReach k number s) s

/-- The EMPTY message of the x-bound transmitter's round, made at a cycle numbered 0 (R14). A round whose cycle numbered
0 is passed over goes on with the one made at the last cycle numbered 0 (DESIGN CHOICE, log 37). -/
def latchEmpty (x : Side) (s : State) : State :=
  if (s.flow.get x).counter = 0#4 then
    let count := if s.homing.home = x then s.round.localCount else s.round.receivedCount
    s.updFlow x fun f =>
      { f with empty := roundMessage 0#8 (originCode s.round.numbering.node) count [] }
  else s

/-! ### Delivery to the node (R14, R19, R109) -/

/-- A DROP or DROP_CONTINUE lane's byte is handed to its user. -/
def deliverLane (lanes : List Byte) (s : State) (e : Nat × Role) : State :=
  let b := lanes.getD e.1 Config.idle
  match e.2 with
  | .drop (.channel k) => parserByte k s b
  | .drop (.call p) => if s.calls[p].speaks then s.updCall p fun c => { c with codec := b } else s
  | .drop .spare => s
  | .dropContinue => filterByte s b
  | .add _ => s

/-- The bytes of the from-home flow are handed over, a round block starting at a cycle numbered 0. A codec with no
speech receives idle. -/
def deliver (s : State) : State :=
  let f := s.flow.get s.homing.home.other
  let s1 := allPorts.foldl (fun s p => s.updCall p fun c => { c with codec := Config.idle }) s
  let s2 :=
    if f.counter = 0#4 then
      filterRound (allChans.foldl (fun s k => parserRound k (dropGroup k f.roles).length s) s1)
    else s1
  f.roles.foldl (deliverLane f.arriving) s2

/-! ### Round messages gathered (R2) -/

/-- The slot bytes of the cycle taken are placed; nothing is gathered while the flow is not delivering, and what had been
gathered is then dropped (DESIGN CHOICE, log 35). Only a cycle numbered 0 clears the bytes gathered (R2): where an overflow
slip discards that cycle (R12), its two bytes stand as the round before gave them (DESIGN CHOICE, log 47). -/
def Flow.gather (f : Flow) : Flow :=
  if f.mode = .delivering then
    let k := f.counter.toNat
    let old := if k = 0 then List.replicate 32 0#8 else f.gathered
    { f with gathered := (old.set (2 * k) f.taken.h2).set (2 * k + 1) f.taken.h3 }
  else { f with gathered := List.replicate 32 0#8 }

/-- The round message of the x-bound flow is gathered, and handed over once cycle 15 is placed. -/
def gatherMessage (x : Side) (s : State) : State :=
  let s1 := s.updFlow x Flow.gather
  let f := s1.flow.get x
  if f.mode = .delivering ∧ f.counter = 15#4 then handOver x f.gathered s1 else s1

end Sys2Proof.Machine
end

