-- ==== Sys2Proof/Machine/Boundary.lean ====
section
/-! DEFINITION. Local cycle boundaries, local round boundaries (R4) and the cycles that SYNCED receivers take. -/

namespace Sys2Proof.Machine

/-! ### The local round boundary -/

/-- The senders' rounds: each LINK channel's round block has the width of its lane group (R153). -/
def startSenders (s : State) : State :=
  let roles := (s.flow.get s.homing.home).roles
  allChans.foldl (fun s k => senderRound k (addGroup k roles).length s) s

/-- The role tables at a local round boundary (R20, R188): the toward-home table always, and both on a change of home
or with new lists, for which the station filter ends its frame and waits for the group that they give it (R165). -/
def takeRoles (homeChanged : Bool) (s : State) : State :=
  let due := s.alloc.listsDue
  let s1 := takeToward (if homeChanged || due then takeFrom s else s)
  if due then
    (filterBreak (s1.updAlloc fun a => { a with listsDue := false })).updFilter fun f =>
      { f with nextGroup := some s1.alloc.listen }
  else s1

/-- A local round boundary (R4), in the order of R44 with the rest as log 10 has it. The ring timers that count are those
of the call points in RINGING as it begins; a call point whose move has just completed on receive, at the same local cycle
boundary (R47), is one of them (DESIGN CHOICE, log 24). -/
def localRoundBoundary (s : State) : State :=
  let ringing := ringingPoints s
  let home := s.homing.home
  let s1 := countHoming (countHoldover (reachSenders 15 s))
  let s2 := takeNumbering (s1.updRound fun r => { r with localCount := r.localCount + 1#16 })
  let s3 := decideHome (tickPresence .b (tickPresence .a s2))
  let s4 := takeRoles (decide (s3.homing.home ≠ home)) (effectsOnTransmit s3)
  let s5 := judgeTurn (startSenders s4)
  applyUpdate (countRings ringing s5)

/-! ### The local cycle boundary -/

/-- The start-up round of a transmitter: 16 cycles (R16). -/
def Flow.startCycle (f : Flow) : Flow :=
  { f with
    startUp :=
      match f.startUp with
      | none => none
      | some n => if 16 ≤ n then none else some (n + 1) }

/-- One local cycle for a contact input under test (log 7). -/
def Contact.hold (c : Contact) : Contact := { c with held := if c.level = c.active then 0 else c.held + 1 }

/-- One local cycle for the contact inputs of the ports that act as CONTACTS. -/
def holdContacts (s : State) : State :=
  allPorts.foldl
    (fun s p =>
      if portFunction s p = .contacts then s.updPort p fun q => { q with contacts := q.contacts.map Contact.hold }
      else s)
    s

/-- A cycle numbered 0 of the from-home flow (R20, R45): the received round count rises, moves take effect on
receive, and the from-home table is taken unless new lists wait for the boundary (R188). So the role of a move that a jump
of the received count completed before those lists came (R47) is not taken any more: the lane keeps its old role until the
local round boundary (DESIGN CHOICE, log 50). -/
def fromHomeRound (s : State) : State :=
  if (s.flow.get s.homing.home.other).counter = 0#4 then
    let s1 := riseReceivedCount s
    if s1.alloc.listsDue then s1 else takeFrom s1
  else s

/-- The toward-home transmitter's counter has taken the value 0 (R4). -/
def towardHomeRound (s : State) : State :=
  if (s.flow.get s.homing.home).counter = 0#4 then localRoundBoundary s else s

/-- The control word of call point p (R125). -/
def controlWord (c : CallPoint) : ControlWord :=
  { codec := c.codec, wait := c.waitLamp, connected := c.connectedLamp, ringer := c.ringer }

/-- Every CALLPOINT port sends its cycle sync pulse and its control word (R125). -/
def sendControl (s : State) : State :=
  allPorts.foldl
    (fun s p => if callExists s p then s.updPort p fun q => { q with control := some (controlWord s.calls[p]) } else s) s

/-- Both transmitters start a cycle and its bytes are exchanged (R3, R19, R109, R125). -/
def exchange (codec : List Byte) (s : State) : State :=
  let s1 := latchEmpty .b (latchEmpty .a s)
  let s2 := reachSenders (s1.flow.get s1.homing.home).counter.toNat s1
  sendControl (deliver (sendCycle .b codec (sendCycle .a codec s2)))

/-- A local cycle boundary, the phase having been dealt with: the raw time advances (R70), both transmitters read
their stores and start a cycle (R3, R11), round starts are signalled (R4, R45), and round messages are gathered and
handed over (R2). -/
def cycleBoundary (codec : List Byte) (s : State) : State :=
  let s1 := holdContacts (s.updTiming Timing.advance)
  let s2 := (s1.updFlow .a Flow.startCycle).updFlow .b Flow.startCycle
  let s3 := readStore .b (readStore .a s2)
  let s4 := exchange codec (towardHomeRound (fromHomeRound s3))
  gatherMessage .a (gatherMessage .b s4)

/-- The cycle in progress ends on the line after a number of bits (R69): what is not sent of it by then is not sent, and
what the line carries beyond it is line fill. Before the first cycle nothing is in progress. -/
def endCycle (bits : Nat) (s : State) : State :=
  let lasted := if s.flow.a.startUp = some 0 then 0 else bits
  s.updLine fun _ =>
    { longer := 0, ended := { a := s.flow.a.sent, b := s.flow.b.sent }, bits := min lasted Config.cycleBits,
      fill := lasted - Config.cycleBits }

/-- Every CALLPOINT port has taken its adapter's status word in the cycle that ends (R125). A port without one keeps the
word it took before. -/
def takeStatus (status : List Half) (s : State) : State :=
  allPorts.foldl
    (fun s p =>
      match status[p.val]? with
      | none => s
      | some w => if callExists s p then s.updPort p fun q => { q with status := some w } else s)
    s

/-- A local cycle boundary with the status words of the cycle that it ends (R109, R125). -/
def statusBoundary (status : List Half) (s : State) : State :=
  cycleBoundary (status.map statusCodec) (takeStatus status s)

/-- The LOCAL_CYCLE_BOUNDARY: the oscillator runs on to the wrap (R60, log 2). -/
def localCycle (status : List Half) (s : State) : State :=
  statusBoundary status (endCycle (Config.cycleBits + s.line.longer) (s.updTiming Timing.wrap))

/-! ### Cycles received in SYNCED -/

/-- A received cycle start is signalled to the timing unit (R61); a realignment late in a cycle is a local cycle
boundary, at which the cycle in progress is cut (R69). -/
def signalStart (x : Side) (status : List Half) (s : State) : State :=
  let r := cycleStart x s
  if r.2 then statusBoundary status (endCycle r.1.line.longer r.1) else r.1

/-- A SYNCED receiver takes a cycle (R7): it judges and stores it, signals its start, and after 4 consecutive faults
enters HUNT. -/
def takeCycle (arr : Arrival) (s : State) : State :=
  if (s.rx.get arr.port).state = .synced then
    let s1 := s.updTiming (Timing.run arr.elapsed)
    let s2 := signalStart arr.port arr.status (storeCycle arr.port arr.cycle s1)
    if 4 ≤ (s2.rx.get arr.port).faultRun then
      (dropReceiver arr.port .hunt s2).updRx arr.port fun r => { r with searchAt := 0 }
    else s2
  else s

end Sys2Proof.Machine
end

