-- ==== Sys2Proof/Machine/Ports.lean ====
section
/-! DEFINITION. The drop ports (chapter 7): functions and pairs, receiving, transmitting, contact inputs. -/

namespace Sys2Proof.Machine

/-- The port acts as ASYNC or SYNC (R125, R127). -/
def packetPort (s : State) (p : PortNo) : Bool :=
  decide (portFunction s p = .async) || decide (portFunction s p = .sync)

/-- The ACTIVE LINK channel that receives on the port (R128). -/
def receiver (s : State) (p : PortNo) : Option ChanNo :=
  if packetPort s p then
    match boundTo s p false with
    | some k => if s.chans[k].state = .active then some k else none
    | none => none
  else none

/-! ### Receiving (R133 to R136) -/

/-- A change of the port's receive side. -/
def updPortRx (p : PortNo) (f : PortRx → PortRx) (s : State) : State := s.updPort p fun q => { q with rx := f q.rx }

/-- The receive state becomes IDLE. -/
def closeRx (p : PortNo) (s : State) : State := updPortRx p (fun _ => PortRx.initial) s

/-- The receive state is OPEN with an empty span. -/
def openRx (p : PortNo) (s : State) : State := updPortRx p (fun _ => { PortRx.initial with isOpen := true }) s

/-- The frame being received is discarded under a cause, and the receive state becomes IDLE (R134). -/
def discardRx (p : PortNo) (k : ChanNo) (d : Discard) (s : State) : State := closeRx p (writerDiscard k (some d) s)

/-- A payload byte is handed to the writer (R134): the count and the running checks move on, and a count one above the
maximum frame length discards the frame TOO_LONG. -/
def payloadIn (p : PortNo) (k : ChanNo) (b : Byte) (s : State) : State :=
  let s1 := updPortRx p
    (fun r => { r with count := r.count + 1, check16 := c16Step r.check16 b, check32 := c32Step r.check32 b })
    (writerByte k b s)
  if s1.chans[k].set.maxLength < s1.ports[p].rx.count then discardRx p k .tooLong s1 else s1

/-- A byte enters the check hold; a full hold gives its oldest byte as payload (R134). -/
def holdByte (p : PortNo) (k : ChanNo) (b : Byte) (s : State) : State :=
  let hold := s.ports[p].rx.hold ++ [b]
  if hold.length ≤ s.chans[k].set.check.size then updPortRx p (fun r => { r with hold := hold }) s
  else
    match hold with
    | [] => s
    | oldest :: rest => payloadIn p k oldest (updPortRx p (fun r => { r with hold := rest }) s)

/-- A span closes on a delimiter (R135); the state stays OPEN with a new empty span. -/
def closeSpan (p : PortNo) (k : ChanNo) (s : State) : State :=
  let r := s.ports[p].rx
  let set := s.chans[k].set
  let judged :=
    if r.raw = 0 then s
    else if set.fillIdle && r.allFill then writerDiscard k none s
    else if r.count < 2 then writerDiscard k (some .aborted) s
    else if r.hold ≠ portCheckBytes set.check r.check16 r.check32 false then writerDiscard k (some .dropCheck) s
    else writerClose k s
  openRx p judged

/-- A byte taken in IDLE (R134). -/
def framedIdle (p : PortNo) (set : ChannelSettings) (b : Byte) (s : State) : State :=
  if b = set.delimiter then (if s.ports[p].rx.escaped then closeRx p s else openRx p s)
  else updPortRx p (fun r => { r with escaped := decide (b = set.escape) }) s

/-- A byte taken in OPEN (R134). -/
def framedOpen (p : PortNo) (k : ChanNo) (b : Byte) (s : State) : State :=
  let r := s.ports[p].rx
  let set := s.chans[k].set
  if b = set.escape then
    updPortRx p (fun r => { r with escaped := true, raw := r.raw + 1, allFill := r.allFill && decide (b = 0xFF#8) }) s
  else if b = set.delimiter then
    if r.escaped then (if 2 ≤ r.raw then discardRx p k .aborted s else closeRx p s) else closeSpan p k s
  else
    holdByte p k (if r.escaped then b - 0x20#8 else b)
      (updPortRx p
        (fun r => { r with escaped := false, raw := r.raw + 1, allFill := r.allFill && decide (b = 0xFF#8) }) s)

/-- The effective length of a transparent frame (R136). -/
def effectiveLength (set : ChannelSettings) : Nat := min 32 set.maxLength

/-- A transparent frame closes as good (R136). -/
def closeTransparent (p : PortNo) (k : ChanNo) (s : State) : State := closeRx p (writerClose k s)

/-- Payload bytes of a transparent frame are handed to the writer; the byte that brings the count to the effective
length closes the frame (R136). -/
def transparentBytes (p : PortNo) (k : ChanNo) (bs : List Byte) (s : State) : State :=
  let s1 := bs.foldl (fun s b => writerByte k b s) s
  let count := s.ports[p].rx.count + bs.length
  if effectiveLength s.chans[k].set ≤ count then closeTransparent p k s1
  else updPortRx p (fun r => { r with isOpen := true, count := count, fillRun := 0 }) s1

/-- A byte taken with transparent mode on (R136). On a SYNC port FFh bytes are kept apart until the run is known to be
payload (log 19). -/
def transparentByte (p : PortNo) (k : ChanNo) (b : Byte) (s : State) : State :=
  let r := s.ports[p].rx
  if portFunction s p = .sync ∧ b = 0xFF#8 then
    if !r.isOpen then s
    else if 3 ≤ r.fillRun then closeTransparent p k s
    else if effectiveLength s.chans[k].set ≤ r.count + r.fillRun + 1 then
      transparentBytes p k (List.replicate (r.fillRun + 1) b) s
    else updPortRx p (fun r => { r with fillRun := r.fillRun + 1 }) s
  else transparentBytes p k (List.replicate r.fillRun 0xFF#8 ++ [b]) s

/-- A character error (R133, R134, R136): ignored in IDLE, and in OPEN the frame is discarded ABORTED. Only an ASYNC
port has character errors. -/
def charError (p : PortNo) (k : ChanNo) (s : State) : State :=
  let r := s.ports[p].rx
  if portFunction s p = .async ∧ r.isOpen = true then
    if r.raw = 0 ∧ s.chans[k].set.transparent = false then closeRx p s else discardRx p k .aborted s
  else s

/-- A byte taken by the port of ACTIVE LINK channel k (R134, R136). -/
def takeByte (p : PortNo) (k : ChanNo) (b : Byte) (s : State) : State :=
  if s.chans[k].set.transparent then transparentByte p k b s
  else if s.ports[p].rx.isOpen then framedOpen p k b s
  else framedIdle p s.chans[k].set b s

/-- One bit of a SYNC port in IDLE with transparent mode off (R133): the bits are searched one position at a time for the
delimiter byte, which opens a span unless the escape byte stands right before it. -/
def searchBit (p : PortNo) (set : ChannelSettings) (bit : Bool) (s : State) : State :=
  let bits := s.ports[p].rx.bits ++ [bit]
  if 8 ≤ bits.length ∧ byteOfBits set.msbFirst (bits.drop (bits.length - 8)) = set.delimiter then
    if bits.length = 16 ∧ byteOfBits set.msbFirst (bits.take 8) = set.escape then closeRx p s else openRx p s
  else updPortRx p (fun r => { r with bits := bits.drop (bits.length - 15) }) s

/-- One bit of an aligned SYNC port (R133): every eighth completes a byte. -/
def alignedBit (p : PortNo) (k : ChanNo) (bit : Bool) (s : State) : State :=
  let bits := s.ports[p].rx.bits ++ [bit]
  if bits.length < 8 then updPortRx p (fun r => { r with bits := bits }) s
  else takeByte p k (byteOfBits s.chans[k].set.msbFirst bits) (updPortRx p (fun r => { r with bits := [] }) s)

/-- A SYNC port takes one bit at a clock edge (R125, R133). -/
def takeBit (p : PortNo) (bit : Bool) (s : State) : State :=
  match receiver s p with
  | none => s
  | some k =>
    if s.chans[k].set.transparent = false ∧ s.ports[p].rx.isOpen = false then searchBit p s.chans[k].set bit s
    else alignedBit p k bit s

/-- A port takes a byte or a character, as a whole or bit by bit (R125, R128, R133). -/
def receiveByte (p : PortNo) (taken : LineByte) (s : State) : State :=
  match receiver s p with
  | none => s
  | some k =>
    match taken with
    | .charError => charError p k s
    | .byte b => takeByte p k b s
    | .bits levels =>
      if portFunction s p = .sync then levels.foldl (fun s bit => takeBit p bit s) s
      else
        match readCharacter levels with
        | some (.byte b) => takeByte p k b s
        | some _ => charError p k s
        | none => s

/-- An idle gap of 40 bit times on an ASYNC port in transparent mode closes the open frame (R136). -/
def idleGap (p : PortNo) (s : State) : State :=
  match receiver s p with
  | none => s
  | some k =>
    if portFunction s p = .async ∧ s.chans[k].set.transparent = true ∧ s.ports[p].rx.isOpen = true then
      closeTransparent p k s
    else s

/-! ### Transmitting (R129, R131, R132, R136, R159) -/

/-- Channel k is ACTIVE with a frame ready to begin (R159). -/
def readyOut (s : State) (k : ChanNo) : Bool :=
  decide (s.chans[k].state = .active)
    && (match oldestOut s k with
        | none => false
        | some f => !f.begun && (f.closed || decide (s.chans[k].set.markOut ≤ f.held)))

/-- The channels bound to a port, ascending. -/
def boundChannels (s : State) (p : PortNo) : List ChanNo := allChans.filter fun k => decide (s.chans[k].set.port = some p)

/-- The arbiter's choice (R129): of two ready channels, the one that is not the last served, or the lower-numbered
when the last served is neither. -/
def arbiterPick (lastServed : Option ChanNo) : List ChanNo → Option ChanNo
  | [] => none
  | [k] => some k
  | j :: k :: _ => if lastServed = some j then some k else some j

/-- The opening delimiter of a frame (R131 step 1, R136). -/
def openingBytes (k : ChanNo) (set : ChannelSettings) (closedBy : Option ChanNo) : List (Byte × TxMark) :=
  if set.transparent then [] else if closedBy = some k ∧ set.gap = 0 then [] else [(set.delimiter, .plain)]

/-- The arbiter serves a channel of an IDLE port (R129): its oldest frame is begun. -/
def arbiter (p : PortNo) (s : State) : State :=
  if packetPort s p && decide (s.ports[p].tx.state = .idle) then
    match arbiterPick s.ports[p].lastServed ((boundChannels s p).filter (readyOut s)) with
    | none => s
    | some k =>
      match s.chans[k].outChain with
      | none => s
      | some c =>
        let set := s.chans[k].set
        let s1 := setOut k (c.updOldest false fun f => { f with begun := true }) s.mem s
        s1.updPort p fun q =>
          { q with
            lastServed := some k
            tx :=
              { q.tx with
                state := .sending k, aborting := false, out := q.tx.out ++ openingBytes k set q.tx.closedBy,
                closedBy := none, check16 := c16Start, check32 := c32Start, msbFirst := set.msbFirst } }
  else s

/-- A byte escaped where it needs it (R131 step 2), the mark on the byte that completes it. -/
def escapedByte (set : ChannelSettings) (b : Byte) (mark : TxMark) : List (Byte × TxMark) :=
  if b = set.delimiter ∨ b = set.escape then [(set.escape, .plain), (b + 0x20#8, mark)] else [(b, mark)]

/-- The check and the closing delimiter of a frame (R131 steps 3 and 4). -/
def closingBytes (set : ChannelSettings) (tx : PortTx) : List (Byte × TxMark) :=
  ((portCheckBytes set.check tx.check16 tx.check32 set.invert).map fun b => escapedByte set b .plain).flatten
    ++ [(set.delimiter, .whole)]

/-- The outbound frame that the port has begun is discarded under a cause, and nothing more of it is written: R132,
R159. -/
def dropSending (k : ChanNo) (d : Discard) (s : State) : State :=
  let writing := beingWritten s k && (match oldestOut s k with
    | some f => !f.closed
    | none => false)
  let s1 := countDiscard k d s
  let s2 :=
    match s1.chans[k].outChain with
    | none => s1
    | some c => setOut k c.dropOldest s1.mem s1
  if writing then stopWriting k s2 else s2

/-- The port needs a payload byte that has not been written (R159). -/
def underrunDue (s : State) (p : PortNo) : Bool :=
  match s.ports[p].tx.state with
  | .sending k =>
    s.ports[p].tx.out.isEmpty && !s.ports[p].tx.aborting
      && (match oldestOut s k with
          | some f => !f.closed && decide (f.length ≤ f.sent)
          | none => false)
  | _ => false

/-- The next bytes of the frame in SENDING are chosen (R131, R136): a payload byte, the check and closing delimiter, or
the abort marker at an underrun (R159). -/
def chooseBytes (p : PortNo) (k : ChanNo) (s : State) : State :=
  match s.chans[k].outChain with
  | none => s
  | some c =>
    match c.frames with
    | [] => s
    | f :: _ =>
      let set := s.chans[k].set
      if f.sent < f.length then
        let b := Memory.read s.mem (c.payloadAddress f f.sent)
        updPortTx p
          (fun t =>
            { t with
              out := if set.transparent then [(b, .payload)] else escapedByte set b .payload,
              check16 := c16Step t.check16 b, check32 := c32Step t.check32 b })
          s
      else if f.closed then updPortTx p (fun t => { t with out := closingBytes set t }) s
      else dropSending k .underrun (abortOnPort k s)

/-- The ACTIVE channel of the port whose continuous break is on, the lower-numbered of two (R132). -/
def breakChannel (s : State) (p : PortNo) : Option ChanNo :=
  (boundChannels s p).find? fun k => decide (s.chans[k].state = .active) && s.chans[k].set.continuousBreak

/-- One chosen byte goes out. -/
def emitByte (p : PortNo) (s : State) : State :=
  match s.ports[p].tx.out with
  | [] => s
  | (b, mark) :: rest =>
    let s1 := updPortTx p (fun t => { t with out := rest, line := some b }) s
    match mark, s.ports[p].tx.state with
    | .payload, .sending k =>
      match s1.chans[k].outChain with
      | none => s1
      | some c => settleTransparent p (setOut k (c.updOldest false fun f => { f with sent := f.sent + 1 }) s1.mem s1)
    | .whole, .sending k => frameWhole p k s1
    | .aborted, .sending _ => updPortTx p (fun t => { t with state := .idle, aborting := false, closedBy := none }) s1
    | _, _ => s1

/-- A resting port (R131): a SYNC port sends its fill value, an ASYNC line rests; neither is a closing delimiter. -/
def restByte (p : PortNo) (s : State) : State :=
  updPortTx p
    (fun t => { t with closedBy := none, line := if portFunction s p = .sync then some t.fill else t.line }) s

/-- What a port sends next, once its choice of frame has been made. A SYNC port in HELD sends its markers in the first-bit
order of their channel, and keeps that order after HELD until it begins a frame (DESIGN CHOICE, log 52). -/
def sendNext (p : PortNo) (s : State) : State :=
  match s.ports[p].tx.state with
  | .idle => if s.ports[p].tx.out.isEmpty then restByte p s else emitByte p s
  | .held =>
    if s.ports[p].tx.out.isEmpty then
      match portFunction s p, breakChannel s p with
      | .sync, some k =>
        let set := s.chans[k].set
        emitByte p
          (updPortTx p
            (fun t => { t with out := [(set.escape, .plain), (set.delimiter, .plain)], msbFirst := set.msbFirst }) s)
      | _, _ => s
    else emitByte p s
  | .sending k => emitByte p (if s.ports[p].tx.out.isEmpty then chooseBytes p k s else s)

/-- Frames in the outbound chains of a port's channels. -/
def portFrames (s : State) (p : PortNo) : Nat :=
  ((boundChannels s p).map fun k =>
    match s.chans[k].outChain with
    | none => 0
    | some c => c.frames.length).sum

/-- A number of choices of an IDLE port, each of which a transparent frame with nothing to send ends at once (R129,
R136, log 26). -/
def settleFrames (p : PortNo) : Nat → State → State
  | 0, s => s
  | n + 1, s => settleFrames p n (settleTransparent p (arbiter p s))

/-- The port as it stands when it sends a byte: an IDLE port with a frame ready has made its choice (R129), and where
that is a transparent frame with nothing to send, which is whole (log 26), the next one follows it with nothing between
(R136). -/
def settled (p : PortNo) (s : State) : State := settleFrames p (portFrames s p + 1) s

/-- A port sends one more byte (R131, R132, R136, R159). -/
def sendByte (p : PortNo) (s : State) : State := if packetPort s p then sendNext p (settled p s) else s

/-- A frame is sent whole in a step. -/
def sentWhole (s t : State) : Bool :=
  allChans.any fun k => decide (s.chans[k].counters.framesOut ≠ t.chans[k].counters.framesOut)

/-! ### The transmit line (R125, R131, R132) -/

/-- What line 0 of a port carries. -/
inductive LineLevel where
  | inactive
  | stopLevel
  | startLevel
  | byte (b : Byte)
  | word (w : ControlWord)
deriving DecidableEq, Repr

/-- Line 0 of a port once the bytes of its commands have gone out (R125): an ASYNC line rests at the stop-bit level, and
at the start-bit level in the break of HELD (R132); a SYNC line has last carried a byte, a CALLPOINT line its control
word. The line of a CONTACTS port is an input. -/
def transmitLine (s : State) (p : PortNo) : LineLevel :=
  let q := s.ports[p]
  match portFunction s p with
  | .off | .merged | .contacts => .inactive
  | .async => if q.tx.state = .held ∧ q.tx.out = [] then .startLevel else .stopLevel
  | .sync =>
    match q.tx.line with
    | none => .inactive
    | some b => .byte b
  | .callpoint =>
    match q.control with
    | none => .inactive
    | some w => .word w

/-- The bits of what line 0 of a port carried last, in their order (R125): the ten of an ASYNC character, the eight of a
SYNC port's byte in its first-bit order, the sixteen of a control word. -/
def lineBits (s : State) (p : PortNo) : List Bool :=
  let q := s.ports[p]
  match portFunction s p, q.tx.line, q.control with
  | .async, some b, _ => characterBits b
  | .sync, some b, _ => bitsOf q.tx.msbFirst b
  | .callpoint, _, some w => w.bits
  | _, _, _ => []

/-- What a line of a drop port is used for (R125, R127). -/
inductive LineUse where
  | inactive
  | ignored
  | transmitData
  | receiveData
  | clock
  | transmitClock
  | receiveClock
  | ready (raised : Bool)
  | control
  | status
  | cycleClock
  | cycleSync
  | contact (closed : Bool)
deriving DecidableEq, Repr

/-- The uses of the four lines of a port (R125), RDY and contact lines with their levels. In a merged pair line 2 of the even
port clocks the transmit direction and that of the odd port the receive direction; the other lines of the odd port are
inactive or ignored (R127, log 53). -/
def lineUses (s : State) (p : PortNo) : List LineUse :=
  let q := s.ports[p]
  match portFunction s p with
  | .off => [.inactive, .ignored, .ignored, .inactive]
  | .async => [.transmitData, .receiveData, .ignored, .inactive]
  | .sync =>
    [.transmitData, .receiveData, if s.merged[p.val / 2]'(by omega) then .transmitClock else .clock, .ready q.ready]
  | .callpoint => [.control, .status, .cycleClock, .cycleSync]
  | .contacts => allInputs.map fun n => .contact q.contacts[n].level
  | .merged => [.inactive, .ignored, .receiveClock, .inactive]

/-! ### HELD (R132) -/

/-- The transmit state is judged against continuous break: the port becomes HELD, ending a frame in progress with the
abort marker and counting it ABORTED, or leaves HELD. What a port has still to send of an abort marker as it leaves HELD
goes out in IDLE before anything else (DESIGN CHOICE, log 55), in the first-bit order of the markers, in which the fill at
rest then goes too (DESIGN CHOICE, log 52). A port that becomes HELD before that has gone drops it with whatever else it had
still to send between frames, and starts a new marker (DESIGN CHOICE, log 55). -/
def judgeHeld (p : PortNo) (s : State) : State :=
  let due := packetPort s p && (breakChannel s p).isSome
  match s.ports[p].tx.state with
  | .held => if due then s else updPortTx p (fun t => { t with state := .idle, closedBy := none }) s
  | .idle =>
    if due then updPortTx p (fun t => { t with state := .held, aborting := false, out := [], closedBy := none }) s else s
  | .sending k =>
    if due then
      let s1 := if s.ports[p].tx.aborting then s else dropSending k .aborted (abortOnPort k s)
      updPortTx p
        (fun t =>
          { t with
            state := .held, aborting := false, closedBy := none, out := t.out.map fun e => (e.1, TxMark.plain) })
        s1
    else s

/-! ### Contact inputs (R138 to R140) -/

/-- The tags of a port that acts as CONTACTS. -/
def contactTags (s : State) (p : PortNo) : Option (Vector Bool 4) :=
  if portFunction s p = .contacts then
    match s.ports[p].own with
    | .contacts _ tags => some tags
    | _ => none
  else none

/-- At least one ACTIVE input is tagged on a port that acts as CONTACTS (R139). -/
def incidentDue (s : State) : Bool :=
  allPorts.any fun p =>
    match contactTags s p with
    | none => false
    | some tags => allInputs.any fun n => tags[n] && s.ports[p].contacts[n].active

/-- The incident-active flag is judged afresh (R139). -/
def judgeIncident (s : State) : State := if incidentDue s = s.alloc.incident then s else setIncident (incidentDue s) s

/-- The debounced state of an input takes the level of its line, with its mark (R138, R140). -/
def takeContact (p : PortNo) (n : Fin 4) (s : State) : State :=
  let level := s.ports[p].contacts[n].level
  raise (.contact p) (if level then Mark.contactActive n else Mark.contactInactive n)
    (s.updPort p fun q => { q with contacts := q.contacts.set n { level := level, active := level, held := 0 } })

/-- An input has held its new level for the debounce time (R138). -/
def contactChanges (p : PortNo) (n : Fin 4) (s : State) : State :=
  let c := s.ports[p].contacts[n]
  if portFunction s p = .contacts ∧ c.level ≠ c.active then judgeIncident (takeContact p n s) else s

/-- The level of a contact input line changes, which starts or drops the test of the input (R138). -/
def contactLevel (p : PortNo) (n : Fin 4) (closed : Bool) (s : State) : State :=
  s.updPort p fun q =>
    let c := q.contacts[n]
    { q with contacts := q.contacts.set n { c with level := closed, held := if c.level = closed then c.held else 0 } }

/-- Local cycles in a debounce time. -/
def debounceCycles (ms : Nat) : Nat := 8 * ms

/-- A changed debounce time (R138): a level that has already held for it is taken at once, of several inputs the lower
one first (DESIGN CHOICE, log 42). -/
def retestContacts (p : PortNo) (debounce : Nat) (s : State) : State :=
  allInputs.foldl
    (fun s n =>
      let c := s.ports[p].contacts[n]
      if c.level ≠ c.active ∧ debounceCycles debounce ≤ c.held then takeContact p n s else s)
    s

/-! ### Functions and pairs (R126, R127) -/

/-- A port's function starts from its initial state (R126): receive and transmit states IDLE, RDY withdrawn, contact
inputs INACTIVE, and a call point's record fresh at its level. The last served channel is kept. -/
def startFunction (p : PortNo) (s : State) : State :=
  let s1 := s.updPort p fun q =>
    { q with
      rx := PortRx.initial, tx := PortTx.initial, ready := false,
      contacts := q.contacts.map fun c => Contact.initial c.level, control := none, status := none }
  let level := match s.ports[p].own with
    | .callpoint level => level
    | _ => 7
  { s1 with calls := s1.calls.set p (CallPoint.initial level) }

/-- A PORT_SET or PAIR_SET may not touch the port (R126, R127). -/
def portBusy (s : State) (p : PortNo) : Bool :=
  (boundChannels s p).any (fun k => decide (s.chans[k].state ≠ .stopped))
    || (callExists s p && decide (s.calls[p].state ≠ .idle))

/-- A port's setting is stored and, outside a merged pair, acts at once (R126). The incident-active flag is judged once,
after all inputs that a changed debounce time takes (R139; DESIGN CHOICE, log 42). -/
def setPort (p : PortNo) (setting : PortSetting) (s : State) : State :=
  let s1 := s.updPort p fun q => { q with own := setting }
  if s.merged[p.val / 2]'(by omega) then s1
  else if portFunction s p ≠ portFunction s1 p then judgeIncident (startFunction p s1)
  else
    match setting with
    | .callpoint level => s1.updCall p fun c => { c with level := level }
    | .contacts debounce _ => judgeIncident (retestContacts p debounce s1)
    | _ => s1

/-- The ports of a pair. -/
def evenPort (k : Fin 4) : PortNo := ⟨2 * k.val, by omega⟩
def oddPort (k : Fin 4) : PortNo := ⟨2 * k.val + 1, by omega⟩

/-- A MERGE or SPLIT of a pair that changes it: both ports' functions end and start afresh (R127). -/
def setMerged (k : Fin 4) (value : Bool) (s : State) : State :=
  if s.merged[k] = value then s
  else
    judgeIncident (startFunction (oddPort k) (startFunction (evenPort k) { s with merged := s.merged.set k value }))

end Sys2Proof.Machine
end

