-- ==== Sys2Proof/Machine/Operands.lean ====
section
/-! DEFINITION. Operands of requests (R186): fields marked present or absent, codes, the lengths of request bodies,
and the test that the body of a request holds the fields of its type (R177). -/

namespace Sys2Proof

/-- A field marked present or absent (R186): its default when absent, `none` (RANGE) for any other presence byte or a
value that its parse refuses. -/
def Marked.read {α β : Type} (m : Marked α) (absent : β) (parse : α → Option β) : Option β :=
  if m.present = 0#8 then some absent else if m.present = 1#8 then parse m.value else none

/-- The bytes of a PORT_SET's settings. -/
def PortFields.size : PortFields → Nat
  | .off => 0
  | .sync => 0
  | .async _ => 2
  | .callpoint _ => 2
  | .contacts _ _ _ _ _ => 11
  | .other _ rest => rest.length

end Sys2Proof

namespace Sys2Proof.Machine

/-! ### Fields -/

/-- A flag. -/
def flagOf (b : Byte) : Option Bool := if b = 0#8 then some false else if b = 1#8 then some true else none

/-- A number within a range that is refused outside it. -/
def within {w : Nat} (low high : Nat) (b : BitVec w) : Option Nat :=
  if low ≤ b.toNat ∧ b.toNat ≤ high then some b.toNat else none

/-- A port number or none (all ones). -/
def portOrNone (b : Byte) : Option (Option PortNo) := if b = 0xFF#8 then some none else (portOf b).map some

/-- A check type code (R130). -/
def checkOf (b : Byte) : Option CheckType :=
  if b = 0#8 then some .none else if b = 1#8 then some .c16 else if b = 2#8 then some .c32 else none

/-- The incident tag of a contact input: tagged, then untagged, in the order in which R126 lists them (R186). -/
def taggedOf (b : Byte) : Option Bool := if b = 0#8 then some true else if b = 1#8 then some false else none

/-- Any value. -/
def anyByte (b : Byte) : Option Byte := some b

/-- The setting a PORT_SET carries (R126); `none` where it is refused RANGE. An absent tag is untagged. -/
def portSetting : PortFields → Option PortSetting
  | .off => some .off
  | .sync => some .sync
  | .async rate => (rate.read 3 (within 0 7)).map .async
  | .callpoint level => (level.read 7 fun b => some (clampNat b.toNat 5 7)).map .callpoint
  | .contacts debounce tag0 tag1 tag2 tag3 =>
    match debounce.read 50 (fun b => some (clampNat b.toNat 10 1000)), tag0.read false taggedOf,
      tag1.read false taggedOf, tag2.read false taggedOf, tag3.read false taggedOf with
    | some d, some t0, some t1, some t2, some t3 => some (.contacts d #v[t0, t1, t2, t3])
    | _, _, _, _, _ => none
  | .other _ _ => none

/-- The tests of R148 and R130 on settings that have been read. -/
def settingsLegal (c : ChannelSettings) : Bool :=
  decide (c.wmin ≤ c.wn) && (!c.listen || (decide (c.wn = 0) && !c.stamping)) && (c.delimiter != c.escape)
    && (c.escape + 0x20#8 != c.delimiter)

/-- The kind, binding, widths and level of a CHANNEL_SET, over the defaults. -/
def readBinding (f : ChannelFields) (c : ChannelSettings) : Option ChannelSettings :=
  match f.kind.read false flagOf, f.port.read none portOrNone, f.wn.read 0 (within 0 12), f.wmin.read 0 (within 0 12),
    f.level.read 2 (within 0 6) with
  | some listen, some port, some wn, some wmin, some level =>
    some { c with listen := listen, port := port, wn := wn, wmin := wmin, level := level }
  | _, _, _, _, _ => none

/-- The framing settings of a CHANNEL_SET (R130). -/
def readFraming (f : ChannelFields) (c : ChannelSettings) : Option ChannelSettings :=
  match f.delimiter.read 0x7C#8 anyByte, f.escape.read 0x7D#8 anyByte, f.gap.read 0 (within 0 15),
    f.fill.read false flagOf, f.check.read CheckType.c16 checkOf with
  | some delimiter, some escape, some gap, some fill, some check =>
    some { c with delimiter := delimiter, escape := escape, gap := gap, fillIdle := fill, check := check }
  | _, _, _, _, _ => none

/-- The flags of a CHANNEL_SET (R130, R148). -/
def readFlags (f : ChannelFields) (c : ChannelSettings) : Option ChannelSettings :=
  match f.invert.read false flagOf, f.bitOrder.read false flagOf, f.transparent.read false flagOf,
    f.continuousBreak.read false flagOf, f.stamping.read false flagOf with
  | some invert, some msb, some transparent, some brk, some stamping =>
    some
      { c with
        invert := invert, msbFirst := msb, transparent := transparent, continuousBreak := brk, stamping := stamping }
  | _, _, _, _, _ => none

/-- The lengths and water marks of a CHANNEL_SET (R148). -/
def readLengths (f : ChannelFields) (c : ChannelSettings) : Option ChannelSettings :=
  match f.maxLength.read 1024 (fun b => some (clampNat b.toNat 16 4096)), f.markIn.read 1 (within 1 2048),
    f.markOut.read 1 (within 1 2048) with
  | some maxLength, some markIn, some markOut =>
    some { c with maxLength := maxLength, markIn := markIn, markOut := markOut }
  | _, _, _ => none

/-- The settings a CHANNEL_SET carries; `none` where it is refused RANGE. -/
def channelSettings (f : ChannelFields) : Option ChannelSettings :=
  match readBinding f ChannelSettings.initial with
  | none => none
  | some c1 =>
    match readFraming f c1 with
    | none => none
    | some c2 =>
      match readFlags f c2 with
      | none => none
      | some c3 =>
        match readLengths f c3 with
        | none => none
        | some c4 => if settingsLegal c4 then some c4 else none

/-- A run of a CHAIN_SET as numbers. -/
def runOf (r : Half × Half) : Nat × Nat := (r.1.toNat, r.2.toNat)

/-- The blocks of a list of runs, in link order (R144). -/
def runBlocks (runs : List (Nat × Nat)) : List Nat := (runs.map fun r => (List.range r.2).map (r.1 + ·)).flatten

/-! ### Body lengths (R186) -/

/-- The wire type of a byte that names a request. -/
def requestType (b : Byte) : Bool := decide (1 ≤ b.toNat) && decide (b.toNat ≤ 0x1B)

/-- A body holds the fields of its request type (R177 step 6, R186). A PORT_SET with an unknown function code and a
HOME_FORCE with an unknown action hold what they carry (log 20). -/
def bodyHolds (type : Byte) (body : List Byte) : Bool :=
  let n := body.length
  match type.toNat with
  | 0x03 => n == 7
  | 0x04 => decide (2 ≤ n) && n == 2 + (byteAt body 0).toNat + (byteAt body (1 + (byteAt body 0).toNat)).toNat
  | 0x05 =>
    match (byteAt body 0).toNat with
    | 0 => n == 2
    | 1 => n == 1
    | _ => n == 1 || n == 2
  | 0x06 => n == 14
  | 0x07 => n == 1
  | 0x08 => n == 6
  | 0x09 => n == 2
  | 0x0A =>
    match (byteAt body 1).toNat with
    | 0 => n == 2
    | 1 => n == 4
    | 2 => n == 2
    | 3 => n == 4
    | 4 => n == 13
    | _ => decide (2 ≤ n)
  | 0x0B => n == 2
  | 0x0C => n == 40
  | 0x0D => decide (3 ≤ n) && n == 3 + 4 * (byteAt body 2).toNat
  | 0x0E => n == 1
  | 0x0F => n == 1
  | 0x10 => n == 2
  | 0x11 => n == 4
  | 0x12 => n == 2
  | 0x13 => n == 3
  | 0x14 => n == 1
  | 0x19 => n == 2
  | _ => n == 0

/-- The length field and the frame agree (R177 step 4). -/
def frameHolds (bytes : List Byte) : Bool :=
  decide (halfAt bytes 2 ≤ 1024) && decide (4 + halfAt bytes 2 = bytes.length)

/-- The bytes of a null request: the first four are 00h (R177 step 1). -/
def nullBytes (bytes : List Byte) : Bool := (bytes.take 4).all fun b => b == 0#8

/-- The bytes that a transaction is judged on (R175): the first 1028. -/
def judgedBytes (bytes : List Byte) : List Byte := bytes.take Config.maxTransaction

/-- A request whose frame or body does not hold together (R177 steps 4 and 6). -/
def malformed (bytes : List Byte) : Bool :=
  decide (4 ≤ bytes.length) && !nullBytes bytes
    && (!frameHolds bytes || (requestType (byteAt bytes 0) && !bodyHolds (byteAt bytes 0) (bytes.drop 4)))

/-- A request whose frame holds and whose type is not a request type (R177 step 5). -/
def unknownType (bytes : List Byte) : Bool :=
  decide (4 ≤ bytes.length) && !nullBytes bytes && frameHolds bytes && !requestType (byteAt bytes 0)

end Sys2Proof.Machine
end

