-- ==== Sys2Proof/Machine/Channels.lean ====
section
/-! DEFINITION. The channel requests (chapter 8): CHANNEL_SET, CHAIN_SET, CHANNEL_START and CHANNEL_STOP, each with
the status of its reply. -/

namespace Sys2Proof.Machine

/-- The binding of a CHANNEL_SET fails the port test (R128). -/
def bindingTaken (s : State) (k : ChanNo) (new : ChannelSettings) : Bool :=
  match new.port with
  | none => false
  | some p =>
    let old := s.chans[k].set
    !(decide (old.port = some p) && (old.listen == new.listen))
      && allChans.any fun j =>
          decide (j ≠ k) && decide (s.chans[j].set.port = some p) && (s.chans[j].set.listen == new.listen)

/-- CHANNEL_SET (R148, R128, R130). An ABORT that is owed stays owed, also as the channel becomes LISTEN (DESIGN CHOICE,
log 21). -/
def channelSet (channel : Byte) (fields : ChannelFields) (s : State) : State × Status :=
  match chanOf channel, channelSettings fields with
  | some k, some new =>
    if s.chans[k].state ≠ .stopped then (s, .busy)
    else if bindingTaken s k new then (s, .overlap)
    else
      (s.updChan k fun c => { c with set := new, inChain := if new.listen then none else c.inChain }, .ok)
  | _, _ => (s, .range)

/-- A run is outside the range of R144. -/
def badRun (r : Nat × Nat) : Bool := decide (r.2 = 0) || decide (Config.blocks < r.1 + r.2)

/-- No number stands twice in a list. -/
def noRepeat : List Nat → Bool
  | [] => true
  | b :: rest => !rest.contains b && noRepeat rest

/-- An empty chain of the listed runs; none for an empty list (R144). -/
def chainOf (runs : List (Nat × Nat)) : Option Chain :=
  match runs with
  | [] => none
  | _ => some { runs := runs, blocks := runBlocks runs, writer := 0, frames := [] }

/-- CHAIN_SET (R144): direction 00h is IN, 01h is OUT. -/
def chainSet (channel direction : Byte) (wire : List (Half × Half)) (s : State) : State × Status :=
  let runs := wire.map runOf
  match chanOf channel, flagOf direction with
  | some k, some out =>
    if decide (64 < runs.length) || runs.any badRun then (s, .range)
    else if !out && s.chans[k].set.listen then (s, .wrongState)
    else if s.chans[k].state ≠ .stopped then (s, .busy)
    else
      let blocks := runBlocks runs
      let own := if out then Owner.outbound k else Owner.inbound k
      if !noRepeat blocks || blocks.any (fun b => decide (ownerOf s b ≠ .free) && decide (ownerOf s b ≠ own)) then
        (s, .overlap)
      else if decide (1 ≤ blocks.length) && decide (blocks.length ≤ 3) then (s, .tooShort)
      else if out then (s.updChan k fun c => { c with outChain := chainOf runs }, .ok)
      else (s.updChan k fun c => { c with inChain := chainOf runs }, .ok)
  | _, _ => (s, .range)

/-- The channel lacks a chain it needs, or its port does not act as ASYNC or SYNC (R149 step 4). -/
def startLacks (s : State) (k : ChanNo) : Bool :=
  let c := s.chans[k]
  c.outChain.isNone || (!c.set.listen && c.inChain.isNone)
    || (match c.set.port with
        | none => true
        | some p => !packetPort s p)

/-- A water mark lies outside its range (R147). -/
def marksOutside (c : Channel) : Bool :=
  let inBad := !(decide (1 ≤ c.set.markIn) && decide (c.set.markIn + 1 ≤ (chainBlocks c.inChain).length))
  let outBad := !(decide (1 ≤ c.set.markOut) && decide (c.set.markOut + 2 ≤ (chainBlocks c.outChain).length))
  outBad || (!c.set.listen && inBad)

/-- What the port does when a channel enters or leaves ACTIVE: a LINK channel's receive state is IDLE and RDY is judged
(R128, R137), and HELD is judged (R132). -/
def portTakesUp (k : ChanNo) (s : State) : State :=
  match s.chans[k].set.port with
  | none => s
  | some p => judgeHeld p (if s.chans[k].set.listen then s else refreshReady k (closeRx p s))

/-- The channel's packet state as it enters ACTIVE, and as its chains are emptied at a stop. An ABORT owed to the
far end stays owed (log 21). -/
def Channel.cleared (c : Channel) : Channel :=
  { c with
    inChain := c.inChain.map Chain.emptied, outChain := c.outChain.map Chain.emptied, writer := .idle,
    sender := { Sender.initial with abortOwed := c.sender.abortOwed }, parser := Parser.initial }

/-- CHANNEL_START (R149, R99). -/
def channelStart (channel : Byte) (s : State) : State × Status :=
  match chanOf channel with
  | none => (s, .range)
  | some k =>
    match s.chans[k].state with
    | .stopping => (s, .busy)
    | .active => (s, .ok)
    | .stopped =>
      if startLacks s k then (s, .wrongState)
      else if marksOutside s.chans[k] then (s, .range)
      else if !s.chans[k].set.listen && decide ((spareLanes s).length < s.chans[k].set.wmin) then (s, .noLanes)
      else
        let s1 := enterChanState k .active (s.updChan k Channel.cleared)
        let s2 := if s.chans[k].set.listen then s1 else startLanes k s1
        (portTakesUp k s2, .ok)

/-- The inbound side of a stop (R150): a frame the sender has begun owes an ABORT and is counted ABORTED. -/
def stopInbound (k : ChanNo) (s : State) : State :=
  match s.chans[k].inChain with
  | none => s
  | some c =>
    match c.frames with
    | [] => s
    | f :: _ => if f.begun then countDiscard k .aborted (oweAbort k s) else s

/-- The port is sending a frame of channel k (R150, R162): not while the abort marker of a discarded one goes out
(DESIGN CHOICE, log 43). -/
def sendingFrame (s : State) (k : ChanNo) : Bool :=
  match s.chans[k].set.port with
  | none => false
  | some p => decide (s.ports[p].tx.state = .sending k) && !s.ports[p].tx.aborting

/-- The outbound side of a stop (R150, R166): the frame that is being written and the one that the port is sending
are each counted ABORTED, once when they are the same frame. -/
def stopOutbound (k : ChanNo) (s : State) : State :=
  let writing := beingWritten s k
  let sending := sendingFrame s k
  let same := writing && sending && (match oldestOut s k with
    | some f => !f.closed
    | none => false)
  let s1 := if sending then abortOnPort k s else s
  let s2 := if writing then stopWriting k (countDiscard k .aborted s1) else s1
  if sending && !same then countDiscard k .aborted s2 else s2

/-- CHANNEL_STOP (R150, R100). -/
def channelStop (channel : Byte) (s : State) : State × Status :=
  match chanOf channel with
  | none => (s, .range)
  | some k =>
    if s.chans[k].state ≠ .active then (s, .ok)
    else
      let s1 := stopOutbound k (stopInbound k s)
      let s2 := s1.updChan k fun c =>
        { c with
          inChain := c.inChain.map Chain.emptied, outChain := c.outChain.map Chain.emptied, writer := .idle,
          parser := Parser.initial }
      let s3 := enterChanState k (if s.chans[k].set.listen then .stopped else .stopping) s2
      (portTakesUp k (if s.chans[k].set.listen then s3 else stopLanes k s3), .ok)

end Sys2Proof.Machine
end

