-- ==== Sys2Proof/Machine/Status.lean ====
section
/-! DEFINITION. The content of status replies and reports, at the widths and in the order of R186; the choices it leaves
are log 16. -/

namespace Sys2Proof.Machine

/-! ### Shared fields -/

/-- An end or none where a rule of chapter 2 says none: all ones (DESIGN CHOICE, log 16). -/
def optSide (o : Option Side) : Byte := optByte (o.map sideCode)
/-- A port or an end of the timing unit, listed as A, B or none: the third value is none (R80, log 16). -/
def sideOrNone (o : Option Side) : Byte :=
  match o with
  | none => 2#8
  | some x => byteOf (sideCode x)
/-- A channel number or none. -/
def optChan (o : Option ChanNo) : Byte := optByte (o.map Fin.val)
/-- A count that runs or is stopped, with the code of "running or stopped". -/
def runningCode (o : Option Nat) : Byte := if o.isSome then 0#8 else 1#8
/-- RX-A then RX-B, A-bound then B-bound, end A then end B. -/
def bothSides (f : Side → List Byte) : List Byte := f .a ++ f .b

/-! ### Trunk (R9, R13, R21) -/

/-- Delivering, priming or not delivering (R21). -/
def FlowMode.code : FlowMode → Nat
  | .delivering => 0
  | .priming => 1
  | .notDelivering => 2

/-- TRUNK_STATUS (R21). The level of a LOS line is 01h while LOS is asserted (DESIGN CHOICE, log 16). -/
def trunkContent (s : State) : List Byte :=
  bothSides (fun x => [byteOf (s.rx.get x).state.code])
    ++ bothSides (fun x => [flagByte (s.rx.get x).los])
    ++ bothSides (fun x => [flagByte (s.rx.get x).fsaSeen, flagByte (s.rx.get x).pbSeen])
    ++ bothSides (fun x => [flagByte (s.rx.get x).endPresent, byteOf (s.rx.get x).presence])
    ++ bothSides (fun x => twoBytes (s.rx.get x).headerFaults.toNat)
    ++ bothSides (fun x => [byteOf (s.flow.get x).store.length, byteOf (s.flow.get x).mode.code])
    ++ bothSides (fun x => twoBytes (s.flow.get x).underflows.toNat ++ twoBytes (s.flow.get x).overflows.toNat)
    ++ bothSides (fun x => [byteOf (s.flow.get x).counter.toNat])
    ++ bothSides (fun x => [flagByte (s.flow.get x).fsaSent, flagByte (s.flow.get x).pbSent])
    ++ bothSides (fun x => [flagByte (s.flow.get x).silent])

/-- The report of RX-A or RX-B (R9), the level of the LOS line coded as in TRUNK_STATUS (DESIGN CHOICE, log 16). -/
def rxContent (s : State) (x : Side) : List Byte :=
  let r := s.rx.get x
  [byteOf r.state.code, flagByte r.los, flagByte r.fsaSeen, flagByte r.pbSeen, flagByte r.endPresent]

/-- The SLIP report of a flow (R13). -/
def slipContent (s : State) (x : Side) : List Byte :=
  twoBytes (s.flow.get x).underflows.toNat ++ twoBytes (s.flow.get x).overflows.toNat

/-! ### Homing (R37, R38) -/

/-- HOMED_A, HOMED_B or ISOLATED (R38). -/
def homingCode (s : State) : Nat := if s.homing.isolated then 2 else sideCode s.homing.home

/-- The last change's cause, none before a change. -/
def causeByte (s : State) : Byte := optByte (s.homing.last.map fun c => c.cause.code)

/-- HOME_STATUS (R38). Reachable is sent as a flag, 01h for reachable (DESIGN CHOICE, log 16). -/
def homeContent (s : State) : List Byte :=
  let h := s.homing
  [byteOf (homingCode s), byteOf (sideCode h.home), byteOf (sideCode h.preferred), byteOf (sideCode h.prefStrap),
    flagByte h.forced.isSome, optSide h.forced, optSide h.pendingForce]
    ++ bothSides (fun x =>
        let r := s.rx.get x
        [flagByte (reachable s x), flagByte (decide (r.state = .synced)), flagByte r.endPresent, flagByte r.pbSeen,
          flagByte r.fsaSeen])
    ++ [byteOf h.holdOffSetting, byteOf (h.holdOff.getD 0), runningCode h.holdOff]
    ++ twoBytes h.restoreSetting ++ fourBytes (h.restore.getD 0) ++ [runningCode h.restore]
    ++ twoBytes h.changes.toNat
    ++ [optSide (h.last.map HomeChange.old), optSide (h.last.map HomeChange.new), causeByte s]

/-- The HOME report (R37). Reachable is sent as a flag, 01h for reachable (DESIGN CHOICE, log 16). -/
def homeReport (s : State) : List Byte :=
  let h := s.homing
  [byteOf (sideCode h.home), byteOf (homingCode s), byteOf (sideCode h.reported), causeByte s,
    byteOf (sideCode h.preferred), flagByte h.forced.isSome, optSide h.forced]
    ++ bothSides (fun x => [flagByte (reachable s x)]) ++ twoBytes h.changes.toNat

/-! ### Timing (R79, R80) -/

/-- NONE, END or HOST (R80). -/
def Validity.code : Validity → Nat
  | .none => 0
  | .fromEnd => 1
  | .fromHost => 2

/-- TIMING_STATUS (R80). With no source its receiver state is all ones (DESIGN CHOICE, log 16). -/
def timingContent (s : State) : List Byte :=
  let t := s.timing
  [flagByte t.auto, byteOf t.mode.code, sideOrNone (sourceReceiver s),
    optByte ((sourceReceiver s).map fun x => (s.rx.get x).state.code)]
    ++ signedTwo t.correction ++ signedFour t.integral ++ signedTwo t.trim ++ [byteOf t.tick]
    ++ twoBytes t.lockCount ++ [byteOf t.unlockCount, byteOf t.realignCount, flagByte t.armed]
    ++ fourBytes t.seconds.toNat ++ twoBytes t.cycle
    ++ [byteOf t.validity.code, sideOrNone t.source, byteOf t.quality.code]
    ++ twoBytes t.delay.a ++ twoBytes t.delay.b ++ fourBytes t.holdLimit ++ fourBytes t.holdTimer
    ++ signedTwo t.lastStep ++ twoBytes t.rejected.toNat

/-- The TIMING report (R79). -/
def timingReport (s : State) : List Byte :=
  let t := s.timing
  [flagByte t.auto, byteOf t.mode.code, sideOrNone (sourceReceiver s), byteOf t.validity.code, sideOrNone t.source,
    byteOf t.quality.code]
    ++ fourBytes t.seconds.toNat ++ twoBytes t.cycle ++ [byteOf t.tick]
    ++ signedTwo t.correction ++ signedFour t.integral ++ fourBytes t.holdTimer ++ signedTwo t.lastStep

/-! ### Lane allocator and round message unit (R57, R102, R103) -/

/-- The sides on which a move has taken effect: none, transmit, receive or both (R83, R186). -/
def Move.sides (m : Move) : Nat := (if m.tx then 1 else 0) + (if m.rx then 2 else 0)

/-- A move (R83), or its absence (log 16). The effect round of a QUEUED move is none, all ones (R186). -/
def moveBytes (m : Option Move) : List Byte :=
  match m with
  | none => List.replicate 7 0#8
  | some m =>
    [1#8, byteOf m.target.code, flagByte m.effect.isSome] ++ twoBytes (m.effect.getD 0xFFFF#16).toNat
      ++ [byteOf m.sides, flagByte m.followUp]

/-- Host floor, incident floor, incident active, effective floor. -/
def floorBytes (a : Allocator) : List Byte :=
  [byteOf a.hostFloor, byteOf a.incidentFloor, flagByte a.incident, byteOf a.floor]

/-- The pending list in order. -/
def waitingBytes (a : Allocator) : List Byte := counted (a.waiting.map fun w => [byteOf w.1.val, byteOf w.2])

/-- The items of R57. An item of the notice queue is shown as the 8 bytes it has on the trunk (11.2), its zero bytes
among them, with the effect round of a LANE item 0 (DESIGN CHOICE, log 16). -/
def roundContent (s : State) : List Byte :=
  let r := s.round
  [optByte r.numbering.node, byteOf r.numbering.turns]
    ++ twoBytes r.localCount.toNat ++ twoBytes r.receivedCount.toNat
    ++ (match nextTurn r.numbering r.localCount with
        | none => [0xFF#8, 0xFF#8]
        | some n => twoBytes n.toNat)
    ++ [flagByte r.rosterOwed] ++ counted (r.queue.map (Item.bytes 0#16))
    ++ bothSides (fun x => twoBytes (r.invalid.get x).toNat)

/-- The lanes of channel k's group in a flow, by the role tables in force (R89). Between a jump of a round count that gives
a move effect and the boundary or cycle numbered 0 that takes its role (R47), the group is still that of the old role
(DESIGN CHOICE, log 54). -/
def groupIn (s : State) (k : ChanNo) (x : Side) : List Nat :=
  let roles := (s.flow.get x).roles
  addGroup k roles ++ dropGroup k roles

/-- A LINK channel's entry of LANE_STATUS, its number first (DESIGN CHOICE, log 16). -/
def channelLaneBytes (s : State) (k : ChanNo) : List Byte :=
  let c := s.chans[k]
  [byteOf k.val, byteOf c.state.code, byteOf c.set.level, byteOf c.set.wmin, byteOf c.set.wn,
    byteOf (committed s k).length]
    ++ bothSides (fun x => counted ((groupIn s k x).map fun l => [byteOf l]))

/-- LANE_STATUS (R57, R103). -/
def laneContent (s : State) : List Byte :=
  let a := s.alloc
  roundContent s
    ++ counted (a.owned.map fun e =>
        [byteOf e.lane, byteOf e.use.code, byteOf e.txUse.code, byteOf e.rxUse.code] ++ moveBytes e.move)
    ++ counted (a.listen.map fun l => [byteOf l]) ++ floorBytes a
    ++ counted ((allChans.filter fun k => !s.chans[k].set.listen).map (channelLaneBytes s))
    ++ waitingBytes a ++ twoBytes a.applied.toNat ++ twoBytes a.withdrawn.toNat

/-- The LANE report (R102). -/
def laneReport (s : State) : List Byte :=
  let a := s.alloc
  floorBytes a ++ counted (a.owned.map fun e => [byteOf e.lane, byteOf e.use.code] ++ moveBytes e.move)
    ++ waitingBytes a ++ twoBytes a.applied.toNat ++ twoBytes a.withdrawn.toNat

/-! ### Call unit (R120, R121) -/

/-- The move of the call point's lane toward or away from CALL p: present, target, state. -/
def callMoveBytes (s : State) (p : PortNo) : List Byte :=
  match s.calls[p].lane with
  | none => [0#8, 0#8, 0#8]
  | some lane =>
    match entryOf s lane with
    | none => [0#8, 0#8, 0#8]
    | some e =>
      match e.move with
      | none => [0#8, 0#8, 0#8]
      | some m => [1#8, byteOf m.target.code, flagByte m.effect.isSome]

/-- An entry of CALL_STATUS (R120). The place in the pending list is counted from 0, its head (DESIGN CHOICE, log 16). -/
def callEntry (s : State) (p : PortNo) : List Byte :=
  let c := s.calls[p]
  let place := s.alloc.waiting.findIdx? fun w => decide (w.1 = p)
  if callExists s p then
    [1#8, byteOf c.level, byteOf c.state.code, flagByte c.offHook, flagByte c.ringMark, flagByte c.answerPending,
      optByte c.lane]
      ++ callMoveBytes s p ++ [flagByte place.isSome, optByte place] ++ twoBytes c.ringTimer
      ++ [flagByte c.waitLamp, flagByte c.connectedLamp, flagByte c.ringer,
          byteOf (match c.cause with
            | none => 0
            | some x => x.code)]
  else [0#8]

/-- CALL_STATUS (R120): eight entries with no count byte before them (DESIGN CHOICE, log 16). -/
def callContent (s : State) : List Byte := (allPorts.map (callEntry s)).flatten

/-- The CALL report (R121). -/
def callReport (s : State) (p : PortNo) : List Byte := byteOf p.val :: callEntry s p

/-! ### Drop ports (R140, R141) -/

/-- OFF, ASYNC, SYNC, CALLPOINT, CONTACTS, MERGED (R126, R141). -/
def PortFunction.code : PortFunction → Nat
  | .off => 0
  | .async => 1
  | .sync => 2
  | .callpoint => 3
  | .contacts => 4
  | .merged => 5

/-- The incident tag of a contact input: tagged 00h, untagged 01h (R126, R186). -/
def tagByte (tagged : Bool) : Byte := if tagged then 0#8 else 1#8

/-- The function and settings last stored by PORT_SET. -/
def settingBytes : PortSetting → List Byte
  | .off => [0#8]
  | .async rate => [1#8, byteOf rate]
  | .sync => [2#8]
  | .callpoint level => [3#8, byteOf level]
  | .contacts debounce tags => [4#8] ++ twoBytes debounce ++ tags.toList.map tagByte

/-- IDLE, SENDING or HELD, with the channel. -/
def txBytes : TxState → List Byte
  | .idle => [0#8, 0xFF#8]
  | .sending k => [1#8, byteOf k.val]
  | .held => [2#8, 0xFF#8]

/-- A bound channel with its state, or none: all ones for the number (R186) and for the state (DESIGN CHOICE, log 16). -/
def boundBytes (s : State) (o : Option ChanNo) : List Byte :=
  match o with
  | none => [0xFF#8, 0xFF#8]
  | some k => [byteOf k.val, byteOf s.chans[k].state.code]

/-- ACTIVE or INACTIVE (R138). -/
def activeByte (active : Bool) : Byte := if active then 0#8 else 1#8

/-- An entry of PORT_STATUS (R141). -/
def portEntry (s : State) (p : PortNo) : List Byte :=
  let q := s.ports[p]
  [byteOf (portFunction s p).code] ++ settingBytes q.own ++ [flagByte (s.merged[p.val / 2]'(by omega))]
    ++ boundBytes s (boundTo s p false) ++ boundBytes s (boundTo s p true)
    ++ [flagByte q.rx.isOpen] ++ twoBytes q.rx.count ++ txBytes q.tx.state ++ [optChan q.lastServed]
    ++ (if portFunction s p = .sync then [if q.ready then 0#8 else 1#8] else [])
    ++ (match contactTags s p with
        | none => []
        | some tags =>
          (allInputs.map fun n =>
            [flagByte q.contacts[n].level, activeByte q.contacts[n].active, tagByte tags[n]]).flatten)

/-- PORT_STATUS (R141): eight entries with no count byte before them (DESIGN CHOICE, log 16). -/
def portContent (s : State) : List Byte := (allPorts.map (portEntry s)).flatten

/-- The CONTACT report of a port (R140). -/
def contactReport (s : State) (p : PortNo) : List Byte :=
  let q := s.ports[p]
  let tags := (contactTags s p).getD (Vector.replicate 4 false)
  let debounce := match q.own with
    | .contacts d _ => d
    | _ => 0
  [byteOf p.val]
    ++ (allInputs.map fun n => [activeByte q.contacts[n].active, flagByte q.contacts[n].level, tagByte tags[n]]).flatten
    ++ twoBytes debounce ++ [flagByte s.alloc.incident]

/-! ### Packet engine (R162, R163) -/

/-- The check type codes (R186). -/
def CheckType.code : CheckType → Nat
  | .none => 0
  | .c16 => 1
  | .c32 => 2

/-- Every setting of R148. -/
def channelSettingBytes (c : ChannelSettings) : List Byte :=
  [flagByte c.listen, optByte (c.port.map Fin.val), byteOf c.wn, byteOf c.wmin, byteOf c.level, c.delimiter, c.escape,
    byteOf c.gap, flagByte c.fillIdle, byteOf c.check.code, flagByte c.invert, flagByte c.msbFirst,
    flagByte c.transparent, flagByte c.continuousBreak, flagByte c.stamping]
    ++ twoBytes c.maxLength ++ twoBytes c.markIn ++ twoBytes c.markOut

/-- A chain: present, length, runs, occupancy and free blocks. -/
def chainBytes (o : Option Chain) : List Byte :=
  match o with
  | none => List.replicate 8 0#8
  | some c =>
    [1#8] ++ twoBytes c.size ++ counted (c.runs.map fun r => twoBytes r.1 ++ twoBytes r.2) ++ twoBytes c.occupancy
      ++ twoBytes c.free

/-- The frames of a chain, none without a chain. -/
def framesOf (o : Option Chain) : List Frame :=
  match o with
  | none => []
  | some c => c.frames

/-- Occupancy of a chain; 0 without one, also in the CHANNEL report, which has no presence byte (DESIGN CHOICE, log 16). -/
def occupancyOf (o : Option Chain) : Nat :=
  match o with
  | none => 0
  | some c => c.occupancy

/-- Frames waiting: CLOSED and not begun (log 16). -/
def framesWaiting (o : Option Chain) : Nat := ((framesOf o).filter fun f => f.closed && !f.begun).length

/-- The writer's states. -/
def WriterState.code : WriterState → Nat
  | .idle => 0
  | .writing => 1
  | .discarding => 2

/-- The parser's states. -/
def ParseState.code : ParseState → Nat
  | .noFrame => 0
  | .assembling => 1
  | .skipping => 2

/-- The inbound items of R162. While the ABORT of a frame that was discarded is owed, no frame begun is shown and 0 bytes
sent (DESIGN CHOICE, log 48). -/
def inboundBytes (c : Channel) : List Byte :=
  let written := match c.writer, (framesOf c.inChain).getLast? with
    | .writing, some f => f.length
    | _, _ => 0
  let begun := (framesOf c.inChain).head?.filter Frame.begun
  [byteOf c.writer.code] ++ twoBytes written ++ twoBytes (framesWaiting c.inChain) ++ [flagByte begun.isSome]
    ++ twoBytes (match begun with
      | none => 0
      | some f => f.sent)
    ++ [flagByte c.sender.abortOwed]

/-- The outbound items of R162. A LISTEN channel shows its open copy as ASSEMBLING (log 16). -/
def outboundBytes (s : State) (k : ChanNo) : List Byte :=
  let c := s.chans[k]
  let state : ParseState :=
    if c.set.listen then (if s.filter.copies.contains k then .assembling else .noFrame) else c.parser.state
  let count := if state = .assembling then (if c.set.listen then s.filter.count else c.parser.count) else 0
  [byteOf state.code] ++ twoBytes count ++ twoBytes (framesWaiting c.outChain) ++ [flagByte (sendingFrame s k)]

/-- The eight counters of R161. -/
def counterBytes (c : Counters) : List Byte :=
  fourBytes c.framesIn.toNat ++ fourBytes c.framesOut.toNat ++ twoBytes c.overflow ++ twoBytes c.underrun
    ++ twoBytes c.dropCheck ++ twoBytes c.trunkCheck ++ twoBytes c.tooLong ++ twoBytes c.aborted

/-- CHANNEL_STATUS (R162). -/
def channelContent (s : State) (k : ChanNo) : List Byte :=
  let c := s.chans[k]
  channelSettingBytes c.set ++ [byteOf c.state.code] ++ chainBytes c.inChain ++ chainBytes c.outChain
    ++ inboundBytes c ++ outboundBytes s k
    ++ [byteOf (committed s k).length] ++ bothSides (fun x => [byteOf (groupIn s k x).length])
    ++ counterBytes c.counters

/-- The CHANNEL report (R163). -/
def channelReport (s : State) (k : ChanNo) : List Byte :=
  let c := s.chans[k]
  [byteOf k.val, flagByte c.set.listen, optByte (c.set.port.map Fin.val), byteOf c.state.code]
    ++ twoBytes (occupancyOf c.inChain) ++ twoBytes (occupancyOf c.outChain) ++ [byteOf (committed s k).length]
    ++ counterBytes c.counters

/-! ### Station table (R170) -/

/-- The update in flight: kind (none FFh, PUT 00h, DROP 01h), address and channel set. A DROP shows the empty channel set
(DESIGN CHOICE, log 16). -/
def updateBytes (u : Option Update) : List Byte :=
  match u with
  | none => List.replicate 5 0xFF#8
  | some (.put a c) => [0#8] ++ twoBytes a ++ twoBytes c.toNat
  | some (.drop a) => [1#8] ++ twoBytes a ++ [0#8, 0#8]

/-- STATION_READ (R170). -/
def stationContent (s : State) (first count : Nat) : List Byte :=
  twoBytes s.filter.capacity ++ twoBytes s.filter.table.length ++ updateBytes s.filter.update
    ++ counted (((s.filter.table.drop first).take count).map fun e => twoBytes e.1 ++ twoBytes e.2.toNat)

/-! ### Identity and start-up (R181, R182) -/

/-- The start cause: PIN 00h or RESTART 01h. -/
def startCause (s : State) : Byte := flagByte s.link.startedByRestart

/-- IDENTIFY (R181). -/
def identifyContent (s : State) : List Byte :=
  twoBytes Config.vendor ++ twoBytes Config.part
    ++ [byteOf Config.revision, byteOf (sideCode s.homing.prefStrap), startCause s]

/-- The START report (R182). -/
def startReport (s : State) : List Byte :=
  [byteOf (sideCode s.homing.prefStrap), byteOf Config.revision, startCause s]

/-- The content of a source's report (10.3). -/
def reportContent (s : State) : Source → List Byte
  | .start => startReport s
  | .rx x => rxContent s x
  | .slip x => slipContent s x
  | .home => homeReport s
  | .timing => timingReport s
  | .lane => laneReport s
  | .call p => callReport s p
  | .contact p => contactReport s p
  | .channel k => channelReport s k

end Sys2Proof.Machine
end

