-- ==== Sys2Proof/Machine/Link.lean ====
section
/-! DEFINITION. The control link (chapter 10): outbound messages, the end of a transaction, requests and RESTART. -/

namespace Sys2Proof.Machine

/-! ### Outbound messages (R175, R176) -/

/-- A message: type, tag, body length, body (11.5). -/
def messageBytes (type tag : Byte) (body : List Byte) : List Byte := [type, tag] ++ twoBytes body.length ++ body

/-- A reply's message; the flags byte carries the link overrun flag (11.5). -/
def replyMessage (r : Reply) (overrun : Bool) : List Byte :=
  messageBytes 0x80#8 r.tag ([byteOf r.status.code, flagByte overrun] ++ r.content)

/-- A report's message: source code, marks, content (11.5). -/
def reportMessage (s : State) (src : Source) (marks : Word) : List Byte :=
  messageBytes 0x81#8 0#8 ([byteOf src.code] ++ fourBytes marks.toNat ++ reportContent s src)

/-- The head of the reply queue is ready. -/
def headReady (l : Link) : Bool :=
  match l.replies with
  | [] => false
  | r :: _ => r.ready

/-- The outbound message chosen at the falling edge of the chip select (R175). -/
def chooseOutbound (s : State) : Transaction :=
  match s.link.replies.head?.filter Reply.ready, s.link.reports with
  | some r, _ =>
    { message := .reply, bytes := replyMessage r s.link.overrun, later := 0#32, overrun := s.link.overrun,
      home := s.homing.home }
  | none, (src, marks) :: _ =>
    { message := .report src, bytes := reportMessage s src marks, later := 0#32, overrun := false,
      home := s.homing.home }
  | none, [] =>
    { message := .empty, bytes := messageBytes 0#8 0#8 [], later := 0#32, overrun := false, home := s.homing.home }

/-- The chip select falls (R175). A falling edge cannot come while a transaction runs. -/
def startTransaction (s : State) : State :=
  match s.link.transaction with
  | some _ => s
  | none => s.updLink fun l => { l with transaction := some (chooseOutbound s) }

/-- The bytes sent in a transaction of n bytes (R175, R176): the message with zeros behind it, or, when it does not
fit, its header with the truncation mark and zeros. -/
def sentBytes (message : List Byte) (n : Nat) : List Byte :=
  if message.length ≤ n then message ++ List.replicate (n - message.length) 0#8
  else
    ([byteAt message 0, byteAt message 1, byteAt message 2 ||| 0x80#8, byteAt message 3]
      ++ List.replicate (n - 4) 0#8).take n

/-! ### RESTART carried out (R184) -/

/-- A report source is removed by a RESTART (R184). -/
def Source.clearedByRestart : Source → Bool
  | .lane => true
  | .call _ => true
  | .contact _ => true
  | .channel _ => true
  | _ => false

/-- A drop port at a RESTART (R142): the levels of the contact lines are the lines' own. -/
def Port.restarted (q : Port) : Port :=
  { Port.initial with contacts := q.contacts.map fun c => Contact.initial c.level }

/-- The round message unit at a RESTART (R59). -/
def RoundUnit.restarted (r : RoundUnit) : RoundUnit :=
  { r with
    numbering := { node := none, turns := 64 }, nextNumbering := none, queue := [], rosterOwed := false,
    invalid := { a := 0#16, b := 0#16 } }

/-- The control link at a RESTART (R184). -/
def Link.restarted (l : Link) : Link :=
  { l with
    reports := gatherMark .start (markSet Mark.restart) (l.reports.filter fun e => !e.1.clearedByRestart),
    overrun := false, restartWaiting := false, startedByRestart := true }

/-- The RESTART is carried out (R184): the trunk role tables (R23), homing settings (R40), round message unit (R59),
lane allocator (R105), call unit (R124), drop ports (R142), packet engine (R164), station filter (R174) and control
link. Receivers, stores, transmitters and the timing unit run on (R23, R82). -/
def carryOutRestart (s : State) : State :=
  let s1 := restartHoming s
  let s2 := (s1.updFlow .a fun f => { f with roles := [] }).updFlow .b fun f => { f with roles := [] }
  { s2 with
    round := s2.round.restarted, alloc := Allocator.initial, calls := Vector.replicate 8 (CallPoint.initial 7),
    ports := s2.ports.map Port.restarted, merged := Vector.replicate 4 false,
    chans := Vector.replicate 16 Channel.initial, filter := Filter.initial, link := s2.link.restarted }

/-! ### The end of a transaction (R175 to R180) -/

/-- A report source has been consumed (R180): it leaves the set, and joins again at the tail with the marks that
reached it after the report was built. -/
def consumeReport (src : Source) (later : Word) (reports : List (Source × Word)) : List (Source × Word) :=
  let rest := reports.filter fun e => decide (e.1 ≠ src)
  if later = 0#32 then rest else rest ++ [(src, later)]

/-- The outbound message of a transaction of n bytes is consumed if it fitted (R175, R178, R180); the RESTART is
carried out as its reply is consumed (R183). While RESTART waits, a reply ahead of its own that carries the overrun flag
clears it as it is consumed, as R178 has it (DESIGN CHOICE, log 49). -/
def consume (t : Transaction) (n : Nat) (s : State) : State :=
  if t.bytes.length ≤ n then
    match t.message with
    | .reply =>
      let s1 := s.updLink fun l =>
        { l with replies := l.replies.tail, overrun := if t.overrun then false else l.overrun }
      match s.link.replies with
      | r :: _ => if r.restart then carryOutRestart s1 else s1
      | [] => s1
    | .report src =>
      let s1 := s.updLink fun l => { l with reports := consumeReport src t.later l.reports }
      if src = .home then s1.updHoming fun h => { h with reported := t.home } else s1
    | .empty => s
  else s

/-- The transaction in progress, or one that begins and ends with this command (log 11). -/
def runningTransaction (s : State) : Transaction := s.link.transaction.getD (chooseOutbound s)

/-- The transaction of n bytes ends with no request: a void one without effect, another with the consumption of its
outbound message (R175). -/
def finishTransaction (n : Nat) (s : State) : State :=
  let t := runningTransaction s
  let s1 := s.updLink fun l => { l with transaction := none, sent := sentBytes t.bytes n }
  if n < 4 then s1 else consume t n s1

/-- What a request is answered with. -/
structure Answer where
  state : State
  status : Status
  content : List Byte

/-- An answer with no content. -/
def answerOf (r : State × Status) : Answer := { state := r.1, status := r.2, content := [] }

/-- A refusal: it changes nothing and has no content (R177). -/
def refuse (status : Status) (s : State) : Answer := { state := s, status := status, content := [] }

/-- An OK with content that changes nothing. -/
def tell (content : List Byte) (s : State) : Answer := { state := s, status := .ok, content := content }

/-- The reply to a request is placed at the tail of the queue (R177): withheld for a station update that is taken. -/
def placeReply (tag : Byte) (withheld restart : Bool) (a : Answer) (s : State) : State :=
  let ok := decide (a.status = .ok)
  let r : Reply :=
    { tag := tag, status := a.status, content := if ok then a.content else [], ready := !(withheld && ok),
      restart := restart }
  (if ok then a.state else s).updLink fun l => { l with replies := l.replies ++ [r] }

/-- A request is judged (R177): discarded while RESTART waits, discarded with the overrun flag set while the reply
queue is full, and answered otherwise. -/
def judgeRequest (tag : Byte) (withheld : Bool) (answer : State → Answer) (s : State) : State :=
  if s.link.restartWaiting then s
  else if Config.replyQueue ≤ s.link.replies.length then s.updLink fun l => { l with overrun := true }
  else placeReply tag withheld false (answer s) s

/-- The transaction that carries a request with a body of n bytes ends (R175): consumption first, then the request. -/
def request (n : Nat) (tag : Byte) (answer : State → Answer) (s : State) : State :=
  atInstant (judgeRequest tag false answer) (atInstant (finishTransaction (4 + n)) s)

/-- The same for a station update, whose reply is withheld (R169). -/
def stationRequest (n : Nat) (tag : Byte) (answer : State → Answer) (s : State) : State :=
  atInstant (judgeRequest tag true answer) (atInstant (finishTransaction (4 + n)) s)

/-- A RESTART request (R183): a station update in flight is applied, the reply is placed and RESTART waits. -/
def judgeRestart (tag : Byte) (s : State) : State :=
  if s.link.restartWaiting then s
  else if Config.replyQueue ≤ s.link.replies.length then s.updLink fun l => { l with overrun := true }
  else
    (placeReply tag false true (tell [] (applyUpdate s)) s).updLink fun l => { l with restartWaiting := true }

end Sys2Proof.Machine
end

