-- ==== Sys2Proof/Machine/ChannelRequests.lean ====
section
/-! DEFINITION. The requests of the packet channels and the station table: what the station requests answer, and the
commands that end the transaction carrying each. -/

namespace Sys2Proof.Machine

/-- CHANNEL_SET (R148). -/
def execChannelSet (tag channel : Byte) (fields : ChannelFields) (s : State) : Host.Outcome State Fault Refusal :=
  .next (request 40 tag (fun s => answerOf (channelSet channel fields s)) s)

/-- CHAIN_SET (R144). -/
def execChainSet (tag channel direction : Byte) (runs : List (Half × Half)) (s : State) :
    Host.Outcome State Fault Refusal :=
  .next (request (3 + 4 * runs.length) tag (fun s => answerOf (chainSet channel direction runs s)) s)

/-- CHANNEL_START (R149). -/
def execChannelStart (tag channel : Byte) (s : State) : Host.Outcome State Fault Refusal :=
  .next (request 1 tag (fun s => answerOf (channelStart channel s)) s)

/-- CHANNEL_STOP (R150). -/
def execChannelStop (tag channel : Byte) (s : State) : Host.Outcome State Fault Refusal :=
  .next (request 1 tag (fun s => answerOf (channelStop channel s)) s)

/-- STATION_SIZE (R168). A request for the capacity already in force is judged in the same four steps, so that it is
refused BUSY where step 2 applies (DESIGN CHOICE, log 60). -/
def stationSize (capacity : Half) (s : State) : State × Status :=
  let n := capacity.toNat
  if n % 8 ≠ 0 ∨ 1024 < n then (s, .range)
  else if allChans.any (activeListen s) || s.filter.update.isSome then (s, .busy)
  else if n < s.filter.table.length then (s, .full)
  else if (List.range (n / 8)).any (fun i =>
      let o := ownerOf s (Config.blocks - n / 8 + i)
      decide (o ≠ .free) && decide (o ≠ .station)) then (s, .overlap)
  else (s.updFilter fun f => { f with capacity := n }, .ok)

/-- STATION_SIZE. -/
def execStationSize (tag : Byte) (capacity : Half) (s : State) : Host.Outcome State Fault Refusal :=
  .next (request 2 tag (fun s => answerOf (stationSize capacity s)) s)

/-- A station address of an update (R167). -/
def badAddress (address : Half) : Bool := decide (address = 0#16) || decide (address = 0xFFFF#16)

/-- STATION_PUT (R169). -/
def stationPut (address channels : Half) (s : State) : State × Status :=
  if badAddress address || decide (channels = 0#16) then (s, .range)
  else if s.filter.update.isSome then (s, .busy)
  else if (lookupStation address.toNat s.filter.table).isNone
      && decide (s.filter.capacity ≤ s.filter.table.length) then (s, .full)
  else (s.updFilter fun f => { f with update := some (.put address.toNat channels) }, .ok)

/-- STATION_PUT. -/
def execStationPut (tag : Byte) (address channels : Half) (s : State) : Host.Outcome State Fault Refusal :=
  .next (stationRequest 4 tag (fun s => answerOf (stationPut address channels s)) s)

/-- STATION_DROP (R169). -/
def stationDrop (address : Half) (s : State) : State × Status :=
  if badAddress address then (s, .range)
  else if s.filter.update.isSome then (s, .busy)
  else if (lookupStation address.toNat s.filter.table).isNone then (s, .range)
  else (s.updFilter fun f => { f with update := some (.drop address.toNat) }, .ok)

/-- STATION_DROP. -/
def execStationDrop (tag : Byte) (address : Half) (s : State) : Host.Outcome State Fault Refusal :=
  .next (stationRequest 2 tag (fun s => answerOf (stationDrop address s)) s)

/-- STATION_READ (R170). -/
def stationRead (first : Half) (count : Byte) (s : State) : Answer :=
  if 1023 < first.toNat ∨ 128 < count.toNat then refuse .range s
  else tell (stationContent s first.toNat count.toNat) s

/-- STATION_READ. -/
def execStationRead (tag : Byte) (first : Half) (count : Byte) (s : State) : Host.Outcome State Fault Refusal :=
  .next (request 3 tag (stationRead first count) s)

end Sys2Proof.Machine
end

