-- ==== Sys2Proof/Machine/Cycles.lean ====
section
/-! DEFINITION. The commands of a local cycle boundary: LOCAL_CYCLE_BOUNDARY and its occasions (log 1). -/

namespace Sys2Proof.Machine

/-- A local cycle boundary on an occasion. -/
def cycleWhen (occasion : State → State → Bool) (status : List Half) (s : State) :
    Host.Outcome State Fault Refusal := .next (atInstant (onOccasion occasion (localCycle status)) s)

/-- The x-bound transmitter's counter takes the value 0 at the next local cycle boundary. -/
def roundStarts (x : Side) (s : State) : Bool := decide (((readStore x s).flow.get x).counter = 0#4)

/-- The next local cycle boundary is a local round boundary (R4). -/
def roundFalls (s : State) : Bool := roundStarts s.homing.home s

/-- LOCAL_CYCLE_BOUNDARY (R60). -/
def execLocalCycleBoundary (status : List Half) (s : State) : Host.Outcome State Fault Refusal :=
  .next (atInstant (localCycle status) s)

/-- A priming flow starts delivering. -/
def primes (x : Side) (s t : State) : Bool :=
  decide ((s.flow.get x).mode = .priming) && decide ((t.flow.get x).mode = .delivering)

/-- PRIMING_END (R10). -/
def execPrimingEnd (flow : Side) (status : List Half) (s : State) : Host.Outcome State Fault Refusal :=
  cycleWhen (primes flow) status s

/-- A transmitter leaves its start-up round. -/
def leavesStartUp (x : Side) (s t : State) : Bool := (s.flow.get x).silent && !(t.flow.get x).silent

/-- STARTUP_ROUND_END (R16). -/
def execStartupRoundEnd (port : Side) (status : List Half) (s : State) : Host.Outcome State Fault Refusal :=
  cycleWhen (leavesStartUp port) status s

/-- A presence timer counts down to 0. -/
def presenceExpires (x : Side) (s _t : State) : Bool := roundFalls s && decide ((s.rx.get x).presence = 1)

/-- PRESENCE_EXPIRY (R17). -/
def execPresenceExpiry (side : Side) (status : List Half) (s : State) : Host.Outcome State Fault Refusal :=
  cycleWhen (presenceExpires side) status s

/-- A change of home or homing state takes effect with one of two causes. -/
def homeChanges (cause1 cause2 : HomeCause) (s t : State) : Bool :=
  decide (t.homing.changes ≠ s.homing.changes)
    && (match t.homing.last with
        | none => false
        | some c => decide (c.cause = cause1) || decide (c.cause = cause2))

/-- HOLD_OFF_EXPIRY (R27, R28, R29). -/
def execHoldOffExpiry (status : List Half) (s : State) : Host.Outcome State Fault Refusal :=
  cycleWhen (homeChanges .failure .isolation) status s

/-- RESTORE_EXPIRY (R31). -/
def execRestoreExpiry (status : List Half) (s : State) : Host.Outcome State Fault Refusal :=
  cycleWhen (homeChanges .revert .revert) status s

/-- RECOVERY (R30). -/
def execRecovery (status : List Half) (s : State) : Host.Outcome State Fault Refusal :=
  cycleWhen (homeChanges .recovery .recovery) status s

/-- FORCED_CHANGE (R34). -/
def execForcedChange (status : List Half) (s : State) : Host.Outcome State Fault Refusal :=
  cycleWhen (homeChanges .forced .forced) status s

/-- The holdover timer first passes its limit. -/
def passesLimit (s _t : State) : Bool :=
  roundFalls s && decide (s.timing.mode = .holdover)
    && decide (s.timing.holdTimer = s.timing.holdLimit * Config.roundsPerSecond)

/-- HOLD_LIMIT (R74). -/
def execHoldLimit (status : List Half) (s : State) : Host.Outcome State Fault Refusal := cycleWhen passesLimit status s

/-- The effect round of a lane's SENT move that has not taken effect on a side. -/
def dueEffect (transmit : Bool) (lane : Nat) (s : State) : Option Half :=
  match entryOf s lane with
  | none => none
  | some e =>
    match e.move with
    | none => none
    | some m => if (if transmit then m.tx else m.rx) then none else m.effect

/-- A lane's SENT move takes effect on transmit: the local round count reaches its effect round at a local round
boundary or by a jump, and no change of home applies it. -/
def transmitTakesEffect (lane : Nat) (s t : State) : Bool :=
  match dueEffect true lane s with
  | none => false
  | some e =>
    decide (s.homing.home = t.homing.home)
      && ((roundFalls s && reached (s.round.localCount + 1#16) e)
        || (decide (t.round.localCount ≠ s.round.localCount) && reached t.round.localCount e))

/-- MOVE_EFFECT_TRANSMIT (R47). -/
def execMoveEffectTransmit (lane : Nat) (status : List Half) (s : State) : Host.Outcome State Fault Refusal :=
  cycleWhen (transmitTakesEffect lane) status s

/-- A lane's SENT move takes effect on receive: the received round count reaches its effect round at a cycle numbered
0 of the from-home flow or by a jump. -/
def receiveTakesEffect (lane : Nat) (s t : State) : Bool :=
  match dueEffect false lane s with
  | none => false
  | some e =>
    (roundStarts s.homing.home.other s && reached (s.round.receivedCount + 1#16) e)
      || (decide (s.homing.home = t.homing.home) && decide (t.round.receivedCount ≠ s.round.receivedCount)
        && reached t.round.receivedCount e)

/-- MOVE_EFFECT_RECEIVE (R47). -/
def execMoveEffectReceive (lane : Nat) (status : List Half) (s : State) : Host.Outcome State Fault Refusal :=
  cycleWhen (receiveTakesEffect lane) status s

/-- New lists are taken into the role tables. -/
def takesLists (s _t : State) : Bool := s.alloc.listsDue && roundFalls s

/-- ROLE_TABLES_TAKEN (R188). -/
def execRoleTablesTaken (status : List Half) (s : State) : Host.Outcome State Fault Refusal :=
  cycleWhen takesLists status s

/-- The station filter takes a new listen group. -/
def takesGroup (s t : State) : Bool := (s.filter.nextGroup.isSome || takesLists s t) && t.filter.nextGroup.isNone

/-- LISTEN_GROUP_TAKEN (R165). -/
def execListenGroupTaken (status : List Half) (s : State) : Host.Outcome State Fault Refusal :=
  cycleWhen takesGroup status s

/-- A new numbering comes into force. -/
def takesNumbering (s _t : State) : Bool := s.round.nextNumbering.isSome && roundFalls s

/-- NUMBERING_IN_FORCE (R56). -/
def execNumberingInForce (status : List Half) (s : State) : Host.Outcome State Fault Refusal :=
  cycleWhen takesNumbering status s

/-- A station update is applied. -/
def appliesUpdate (s _t : State) : Bool := s.filter.update.isSome && roundFalls s

/-- STATION_UPDATE_APPLIED (R169). -/
def execStationUpdateApplied (status : List Half) (s : State) : Host.Outcome State Fault Refusal :=
  cycleWhen appliesUpdate status s

/-- A ring timer reaches 0. -/
def ringExpires (p : PortNo) (s _t : State) : Bool :=
  roundFalls s && decide (s.calls[p].state = .ringing) && decide (s.calls[p].ringTimer ≤ 1)

/-- RING_TIMER_EXPIRY (R115). -/
def execRingTimerExpiry (point : PortNo) (status : List Half) (s : State) : Host.Outcome State Fault Refusal :=
  cycleWhen (ringExpires point) status s

end Sys2Proof.Machine
end

