-- ==== Sys2Proof/Machine/LinkSteps.lean ====
section
/-! DEFINITION. The commands of the control link itself: transactions without a request, requests that do not hold
together, IDENTIFY and RESTART. -/

namespace Sys2Proof.Machine

/-- TRANSACTION_START (R175): the chip select falls. -/
def execTransactionStart (s : State) : Host.Outcome State Fault Refusal := .next (atInstant startTransaction s)

/-- VOID_TRANSACTION (R175): fewer than 4 whole bytes. -/
def execVoidTransaction (length : Nat) (s : State) : Host.Outcome State Fault Refusal :=
  .next (if length < 4 then atInstant (finishTransaction length) s else s)

/-- NULL_REQUEST (R177): a transaction of at least 4 bytes whose first four are 00h. -/
def execNullRequest (length : Nat) (s : State) : Host.Outcome State Fault Refusal :=
  .next (if length < 4 then s else atInstant (finishTransaction length) s)

/-- The transaction's bytes are judged and refused with a status (R177). -/
def refusedRequest (bytes : List Byte) (status : Status) (s : State) : State :=
  atInstant (judgeRequest (byteAt bytes 1) false (refuse status)) (atInstant (finishTransaction bytes.length) s)

/-- MALFORMED_REQUEST (R177): the frame or the body does not hold together. -/
def execMalformedRequest (bytes : List Byte) (s : State) : Host.Outcome State Fault Refusal :=
  .next (if malformed (judgedBytes bytes) then refusedRequest bytes .format s else s)

/-- UNKNOWN_REQUEST (R177): the type is not a request type. -/
def execUnknownRequest (bytes : List Byte) (s : State) : Host.Outcome State Fault Refusal :=
  .next (if unknownType (judgedBytes bytes) then refusedRequest bytes .unknown s else s)

/-- IDENTIFY (R181). -/
def execIdentify (tag : Byte) (s : State) : Host.Outcome State Fault Refusal :=
  .next (request 0 tag (fun s => tell (identifyContent s) s) s)

/-- RESTART (R183). -/
def execRestart (tag : Byte) (s : State) : Host.Outcome State Fault Refusal :=
  .next (atInstant (judgeRestart tag) (atInstant (finishTransaction 4) s))

/-- The reply of a RESTART is consumed by a transaction of n bytes (R183). -/
def consumesRestart (n : Nat) (s _t : State) : Bool :=
  let t := runningTransaction s
  decide (4 ≤ n) && decide (t.message = .reply) && decide (t.bytes.length ≤ n)
    && (match s.link.replies with
        | [] => false
        | r :: _ => r.restart)

/-- RESTART_CARRIED_OUT (R184): the end of the transaction, without a request, in which the RESTART's reply is
consumed. -/
def execRestartCarriedOut (length : Nat) (s : State) : Host.Outcome State Fault Refusal :=
  .next (atInstant (onOccasion (consumesRestart length) (finishTransaction length)) s)

end Sys2Proof.Machine
end

