-- ==== Sys2Proof/Machine/Pins.lean ====
section
/-! DEFINITION. The commands of the RESET, PREF, LOS and contact pins and of the receivers in NO_LIGHT and HUNT. -/

namespace Sys2Proof.Machine

/-- The pin-reset state for the pin levels in force (R22, R39, R58, R81, R104, R123, R142, R164, R174, R182): LOS and
contact levels are the lines' own. -/
def pinReset (held : Bool) (pref : Side) (s : State) : State :=
  { State.afterPinReset s.rx.a.los s.rx.b.los pref with
    resetHeld := held, ports := s.ports.map Port.restarted, pending := s.pending }

/-- PIN_RESET_ASSERT (R182): every block is held in its pin-reset state, and PREF is sampled. -/
def execPinResetAssert (pref : Side) (s : State) : Host.Outcome State Fault Refusal := .next (pinReset true pref s)

/-- PIN_RESET_RELEASE (R22, R182): the part runs from its pin-reset state, with the PREF then in force. -/
def execPinResetRelease (pref : Side) (s : State) : Host.Outcome State Fault Refusal :=
  .next (if s.resetHeld then pinReset false pref s else s)

/-- While RESET is held a LOS line's level alone changes (R22). -/
def losLevel (x : Side) (los : Bool) (s : State) : State := s.updRx x fun _ => Receiver.initial los

/-- LOS_ASSERT (R5). -/
def execLosAssert (port : Side) (s : State) : Host.Outcome State Fault Refusal :=
  .next (if s.resetHeld then losLevel port true s else atInstant (assertLos port) s)

/-- LOS_RELEASE (R5). -/
def execLosRelease (port : Side) (s : State) : Host.Outcome State Fault Refusal :=
  .next (if s.resetHeld then losLevel port false s else atInstant (releaseLos port) s)

/-- CANDIDATE_FOUND (R6). -/
def execCandidateFound (port : Side) (position : Nat) (cycle : Cycle) (s : State) :
    Host.Outcome State Fault Refusal := .next (atInstant (findCandidate port position cycle) s)

/-- HUNT_CYCLE (R6). -/
def execHuntCycle (port : Side) (cycle : Cycle) (s : State) : Host.Outcome State Fault Refusal :=
  .next (atInstant (testCandidate port cycle) s)

/-- The receiver on a port has become SYNCED. -/
def becomesSynced (x : Side) (s t : State) : Bool :=
  decide ((s.rx.get x).state = .hunt) && decide ((t.rx.get x).state = .synced)

/-- SYNC_ACQUIRED (R6): the hunt cycle that is the fourth good one. -/
def execSyncAcquired (port : Side) (cycle : Cycle) (s : State) : Host.Outcome State Fault Refusal :=
  .next (atInstant (onOccasion (becomesSynced port) (testCandidate port cycle)) s)

/-- CONTACT_LEVEL_CHANGE (R138). -/
def execContactLevelChange (port : PortNo) (input : Fin 4) (closed : Bool) (s : State) :
    Host.Outcome State Fault Refusal := .next (contactLevel port input closed s)

/-- CONTACT_CHANGE (R138): the input has held its new level for the debounce time. -/
def execContactChange (port : PortNo) (input : Fin 4) (s : State) : Host.Outcome State Fault Refusal :=
  .next (atInstant (contactChanges port input) s)

/-- HOOK_OFF (R110). -/
def execHookOff (point : PortNo) (s : State) : Host.Outcome State Fault Refusal :=
  .next (atInstant (takeOffHook point) s)

/-- HOOK_ON (R116). -/
def execHookOn (point : PortNo) (s : State) : Host.Outcome State Fault Refusal :=
  .next (atInstant (takeOnHook point) s)

end Sys2Proof.Machine
end

