-- ==== Sys2Proof/Machine/PortSteps.lean ====
section
/-! DEFINITION. The commands of a drop port's line: bytes taken and sent, the arbiter, and their occasions (log 1). -/

namespace Sys2Proof.Machine

/-- PORT_BYTE_RECEIVED (R133, R134). -/
def execPortByteReceived (port : PortNo) (taken : LineByte) (s : State) : Host.Outcome State Fault Refusal :=
  .next (atInstant (receiveByte port taken) s)

/-- TRANSPARENT_IDLE_GAP (R136). -/
def execTransparentIdleGap (port : PortNo) (s : State) : Host.Outcome State Fault Refusal :=
  .next (atInstant (idleGap port) s)

/-- ARBITER_CHOICE (R129). -/
def execArbiterChoice (port : PortNo) (s : State) : Host.Outcome State Fault Refusal :=
  .next (atInstant (arbiter port) s)

/-- PORT_BYTE_SENT (R131, R159). -/
def execPortByteSent (port : PortNo) (s : State) : Host.Outcome State Fault Refusal :=
  .next (atInstant (sendByte port) s)

/-- FRAME_SENT (R131): the byte sent that makes a frame whole. -/
def execFrameSent (port : PortNo) (s : State) : Host.Outcome State Fault Refusal :=
  .next (atInstant (onOccasion sentWhole (sendByte port)) s)

/-- The port needs a byte that has not been written. -/
def runsDry (p : PortNo) (s _t : State) : Bool := packetPort s p && underrunDue (settled p s) p

/-- UNDERRUN (R159): the byte sent is the first of the abort marker. -/
def execUnderrun (port : PortNo) (s : State) : Host.Outcome State Fault Refusal :=
  .next (atInstant (onOccasion (runsDry port) (sendByte port)) s)

end Sys2Proof.Machine
end

