-- ==== Sys2Proof/Machine/Receive.lean ====
section
/-! DEFINITION. The commands of a SYNCED receiver: RECEIVED_CYCLE and its occasions (log 1). -/

namespace Sys2Proof.Machine

/-- The cycle start of an arrival is used by the timing unit (R61). -/
def startUsed (arr : Arrival) (s : State) : Bool :=
  decide ((s.rx.get arr.port).state = .synced) && decide (sourceReceiver s = some arr.port)

/-- The phase error a sample of the arrival reads (R65). -/
def arrivalError (arr : Arrival) (s : State) : Int := (s.timing.run arr.elapsed).error

/-- E lies in a band. -/
def inBand (low high : Int) (arr : Arrival) (s : State) : Bool :=
  decide (low ≤ arrivalError arr s) && decide (arrivalError arr s ≤ high)

/-- The arrival is a sample in a mode: in ACQUIRING, an armed start is a realignment and not a sample. -/
def sampledIn (mode : TimingMode) (arr : Arrival) (s : State) : Bool :=
  startUsed arr s && decide (s.timing.mode = mode) && !s.timing.armed

/-- RECEIVED_CYCLE (R7). -/
def execReceivedCycle (arr : Arrival) (s : State) : Host.Outcome State Fault Refusal :=
  .next (atInstant (takeCycle arr) s)

/-- The receiver leaves SYNCED at this cycle. -/
def losesSync (arr : Arrival) (s t : State) : Bool :=
  decide ((s.rx.get arr.port).state = .synced) && decide ((t.rx.get arr.port).state = .hunt)

/-- SYNC_LOST (R7): the received cycle that is the fourth consecutive faulted one. -/
def execSyncLost (arr : Arrival) (s : State) : Host.Outcome State Fault Refusal :=
  .next (atInstant (onOccasion (losesSync arr) (takeCycle arr)) s)

/-- A cycle start of the source while not ISOLATED, in a mode. -/
def entersFrom (mode : TimingMode) (arr : Arrival) (s _t : State) : Bool :=
  startUsed arr s && decide (s.timing.mode = mode) && !s.homing.isolated

/-- ACQUIRE_START (R62). -/
def execAcquireStart (arr : Arrival) (s : State) : Host.Outcome State Fault Refusal :=
  .next (atInstant (onOccasion (entersFrom .free arr) (takeCycle arr)) s)

/-- HOLDOVER_EXIT (R64). -/
def execHoldoverExit (arr : Arrival) (s : State) : Host.Outcome State Fault Refusal :=
  .next (atInstant (onOccasion (entersFrom .holdover arr) (takeCycle arr)) s)

/-- The sample that brings the lock count to 256 (R67). -/
def locks (arr : Arrival) (s _t : State) : Bool :=
  sampledIn .acquiring arr s && decide (255 ≤ s.timing.lockCount) && inBand (-2) 2 arr s

/-- LOCK (R67). -/
def execLock (arr : Arrival) (s : State) : Host.Outcome State Fault Refusal :=
  .next (atInstant (onOccasion (locks arr) (takeCycle arr)) s)

/-- The sample that brings the unlock count to 8 (R68). -/
def unlocks (arr : Arrival) (s _t : State) : Bool :=
  startUsed arr s && decide (s.timing.mode = .tracking) && decide (7 ≤ s.timing.unlockCount)
    && !inBand (-16) 16 arr s

/-- UNLOCK (R68). -/
def execUnlock (arr : Arrival) (s : State) : Host.Outcome State Fault Refusal :=
  .next (atInstant (onOccasion (unlocks arr) (takeCycle arr)) s)

/-- The sample that brings the realign count to 4 (R69). -/
def arms (arr : Arrival) (s _t : State) : Bool :=
  sampledIn .acquiring arr s && decide (3 ≤ s.timing.realignCount) && !inBand (-64) 63 arr s

/-- REALIGN_ARM (R69). -/
def execRealignArm (arr : Arrival) (s : State) : Host.Outcome State Fault Refusal :=
  .next (atInstant (onOccasion (arms arr) (takeCycle arr)) s)

/-- The cycle start at which an armed realignment is made (R69). -/
def realigns (arr : Arrival) (s _t : State) : Bool :=
  startUsed arr s && decide (s.timing.mode = .acquiring) && s.timing.armed

/-- REALIGN (R69). -/
def execRealign (arr : Arrival) (s : State) : Host.Outcome State Fault Refusal :=
  .next (atInstant (onOccasion (realigns arr) (takeCycle arr)) s)

end Sys2Proof.Machine
end

