-- ==== Sys2Proof/Machine/Settings.lean ====
section
/-! DEFINITION. The requests that set the node, lanes, home, timing, floors, ports and call points: what each answers,
and the commands that end the transaction carrying it. -/

namespace Sys2Proof.Machine

/-! ### NODE_SET and LANES_SET -/

/-- The turns a NODE_SET may carry (R56). -/
def legalTurns (turns : Nat) : Bool :=
  decide (turns = 4) || decide (turns = 8) || decide (turns = 16) || decide (turns = 32) || decide (turns = 64)

/-- NODE_SET (R33, R56, R98). -/
def nodeSet (preferred : Byte) (restoreSeconds : Half) (holdOff node turns incidentFloor : Byte) (s : State) :
    State × Status :=
  match sideOfCode preferred with
  | none => (s, .range)
  | some x =>
    if legalTurns turns.toNat && decide (node.toNat < turns.toNat) then
      let s1 := setHoming x restoreSeconds.toNat holdOff.toNat s
      let s2 := s1.updRound fun r =>
        { r with nextNumbering := some { node := some node.toNat, turns := turns.toNat }, rosterOwed := true }
      (setIncidentFloor incidentFloor.toNat s2, .ok)
    else (s, .range)

/-- NODE_SET. -/
def execNodeSet (tag preferred : Byte) (restoreSeconds : Half) (holdOff node turns incidentFloor : Byte)
    (s : State) : Host.Outcome State Fault Refusal :=
  .next (request 7 tag (fun s => answerOf (nodeSet preferred restoreSeconds holdOff node turns incidentFloor s)) s)

/-- A number put at its place in ascending order. -/
def insertNat (n : Nat) : List Nat → List Nat
  | [] => [n]
  | m :: rest => if n < m then n :: m :: rest else m :: insertNat n rest

/-- A list in ascending order. -/
def ascending (ns : List Nat) : List Nat := ns.foldl (fun acc n => insertNat n acc) []

/-- LANES_SET (R84). -/
def lanesSet (owned listen : List Byte) (s : State) : State × Status :=
  let o := owned.map BitVec.toNat
  let l := listen.map BitVec.toNat
  if decide (Config.maxOwned < o.length) || decide (Config.maxListen < l.length)
      || (o ++ l).any (fun n => decide (Config.lanes ≤ n)) then (s, .range)
  else if !noRepeat (o ++ l) then (s, .overlap)
  else if allChans.any (fun k => decide (s.chans[k].state ≠ .stopped))
      || allPorts.any (fun p => callExists s p && decide (s.calls[p].state ≠ .idle)) then (s, .busy)
  else
    let s1 := s.updAlloc fun a =>
      { a with
        owned := (ascending o).map fun n => { lane := n, use := .spare, move := none }, listen := ascending l,
        listsDue := true }
    (s1.updRound fun r => { r with rosterOwed := true }, .ok)

/-- LANES_SET. -/
def execLanesSet (tag : Byte) (owned listen : List Byte) (s : State) : Host.Outcome State Fault Refusal :=
  .next (request (2 + owned.length + listen.length) tag (fun s => answerOf (lanesSet owned listen s)) s)

/-! ### HOME_FORCE -/

/-- HOME_FORCE with an action code and an end (R34): 00h is FORCE, 01h is a RELEASE whose body is too long, and any other
code is refused RANGE (log 20). -/
def homeForce (fields : ForceFields) (s : State) : State × Status :=
  if fields.action = 1#8 then (s, .format)
  else if fields.action ≠ 0#8 then (s, .range)
  else
    match sideOfCode fields.side with
    | none => (s, .range)
    | some x => forceHome x s

/-- HOME_FORCE with the action FORCE, or with an end beside a code that is not an action. -/
def execHomeForceForce (tag : Byte) (fields : ForceFields) (s : State) : Host.Outcome State Fault Refusal :=
  .next (request 2 tag (fun s => answerOf (homeForce fields s)) s)

/-- HOME_FORCE with an action code and no end (R35): 01h is RELEASE, 00h is a FORCE whose body lacks its end, and any
other code is refused RANGE. -/
def homeRelease (action : Byte) (s : State) : State × Status :=
  if action = 1#8 then (releaseHome s, .ok) else if action = 0#8 then (s, .format) else (s, .range)

/-- HOME_FORCE with the action RELEASE, or with a code that is not an action and no end. -/
def execHomeForceRelease (tag action : Byte) (s : State) : Host.Outcome State Fault Refusal :=
  .next (request 1 tag (fun s => answerOf (homeRelease action s)) s)

/-! ### TIMING_SET, TIMING_MODE and TIME_SET -/

/-- A presence byte is 00h or 01h. -/
def presenceLegal {α : Type} (m : Marked α) : Bool := decide (m.present = 0#8) || decide (m.present = 1#8)

/-- A field is present. -/
def fieldPresent {α : Type} (m : Marked α) : Bool := decide (m.present = 1#8)

/-- The timing unit's settings of a TIMING_SET (R78). -/
def Timing.configure (trim delayA delayB : Marked Half) (limit : Marked Word) (t : Timing) : Timing :=
  let newTrim := clampInt trim.value.toInt (-1024) 1023
  { t with
    trim := if fieldPresent trim then newTrim else t.trim
    correction := if fieldPresent trim then newTrim else t.correction
    delay :=
      { a := if fieldPresent delayA then delayA.value.toNat else t.delay.a,
        b := if fieldPresent delayB then delayB.value.toNat else t.delay.b }
    holdLimit := if fieldPresent limit then clampNat limit.value.toNat 1 86400 else t.holdLimit }

/-- TIMING_SET (R78). A limit lowered below the running holdover timer sets HOLD_LIMIT (R74); in a holdover past its
limit already a further lowering does not set it again (DESIGN CHOICE, log 38). -/
def timingSet (trim delayA delayB : Marked Half) (limit : Marked Word) (s : State) : State × Status :=
  if !(presenceLegal trim && presenceLegal delayA && presenceLegal delayB && presenceLegal limit) then (s, .range)
  else if fieldPresent trim && decide (s.timing.mode ≠ .free) then (s, .wrongState)
  else
    let s1 := s.updTiming (Timing.configure trim delayA delayB limit)
    (if s.timing.withinLimit && !s1.timing.withinLimit then raise .timing Mark.holdLimit s1 else s1, .ok)

/-- TIMING_SET. -/
def execTimingSet (tag : Byte) (trim delayA delayB : Marked Half) (limit : Marked Word) (s : State) :
    Host.Outcome State Fault Refusal :=
  .next (request 14 tag (fun s => answerOf (timingSet trim delayA delayB limit s)) s)

/-- The selection FREE (R77). -/
def selectFree (s : State) : State :=
  let s1 := s.updTiming fun t =>
    { t with
      auto := false, mode := .free, correction := t.trim, lockCount := 0, unlockCount := 0, realignCount := 0,
      armed := false, holdTimer := 0 }
  if s.timing.mode = .free then s1 else raise .timing TimingMode.free.code s1

/-- The selection AUTO (R77). -/
def selectAuto (s : State) : State × Status :=
  if s.timing.auto then (s, .ok)
  else if (s.rx.get s.homing.home).state = .synced ∧ s.homing.isolated = false then
    (s.updTiming fun t => { t with auto := true }, .ok)
  else (s, .noSource)

/-- TIMING_MODE (R77): 00h is FREE, 01h is AUTO. -/
def timingMode (selection : Byte) (s : State) : State × Status :=
  if selection = 0#8 then (selectFree s, .ok) else if selection = 1#8 then selectAuto s else (s, .range)

/-- TIMING_MODE with the selection FREE. -/
def execTimingModeFree (tag : Byte) (s : State) : Host.Outcome State Fault Refusal :=
  .next (request 1 tag (fun s => answerOf (timingMode 0#8 s)) s)

/-- TIMING_MODE with the selection AUTO, or with a code that is not a selection. -/
def execTimingModeAuto (tag selection : Byte) (s : State) : Host.Outcome State Fault Refusal :=
  .next (request 1 tag (fun s => answerOf (timingMode selection s)) s)

/-- A present end holds line time (R73). -/
def timeOwned (s : State) : Bool :=
  decide (s.timing.validity = .fromEnd)
    && (match s.timing.source with
        | none => false
        | some x => (s.rx.get x).endPresent)

/-- TIME_SET (R73). -/
def timeSet (seconds : Word) (cycle : Half) (s : State) : State × Status :=
  if 7999 < cycle.toNat then (s, .range)
  else if timeOwned s then (s, .timeOwned)
  else
    let s1 := raise .timing Mark.timeSet
      (s.updTiming fun t =>
        { t with seconds := seconds, cycle := cycle.toNat, validity := .fromHost, source := none })
    (if s.timing.validity = .fromHost then s1 else raise .timing Mark.validity s1, .ok)

/-- TIME_SET. -/
def execTimeSet (tag : Byte) (seconds : Word) (cycle : Half) (s : State) : Host.Outcome State Fault Refusal :=
  .next (request 6 tag (fun s => answerOf (timeSet seconds cycle s)) s)

/-! ### FLOOR_SET -/

/-- FLOOR_SET (R97): the reply carries the host floor as it stood. -/
def floorSet (floor shedFlag : Byte) (s : State) : Answer :=
  match flagOf shedFlag with
  | none => refuse .range s
  | some flag =>
    { state := setHostFloor floor.toNat flag s, status := .ok, content := [byteOf s.alloc.hostFloor] }

/-- FLOOR_SET. -/
def execFloorSet (tag floor shed : Byte) (s : State) : Host.Outcome State Fault Refusal :=
  .next (request 2 tag (floorSet floor shed) s)

/-! ### PORT_SET and PAIR_SET -/

/-- PORT_SET (R126). -/
def portSet (port : Byte) (fields : PortFields) (s : State) : State × Status :=
  match portOf port, portSetting fields with
  | some p, some setting => if portBusy s p then (s, .busy) else (setPort p setting s, .ok)
  | _, _ => (s, .range)

/-- PORT_SET. -/
def execPortSet (tag port : Byte) (fields : PortFields) (s : State) : Host.Outcome State Fault Refusal :=
  .next (request (2 + fields.size) tag (fun s => answerOf (portSet port fields s)) s)

/-- A pair number of a request. -/
def pairOf (b : Byte) : Option (Fin 4) := if h : b.toNat < 4 then some ⟨b.toNat, h⟩ else none

/-- PAIR_SET (R127): 00h is MERGE, 01h is SPLIT. -/
def pairSet (pair action : Byte) (s : State) : State × Status :=
  match pairOf pair with
  | none => (s, .range)
  | some k =>
    if 1 < action.toNat then (s, .range)
    else if portBusy s (evenPort k) || portBusy s (oddPort k) then (s, .busy)
    else (setMerged k (decide (action = 0#8)) s, .ok)

/-- PAIR_SET with the action MERGE. -/
def execPairSetMerge (tag pair : Byte) (s : State) : Host.Outcome State Fault Refusal :=
  .next (request 2 tag (fun s => answerOf (pairSet pair 0#8 s)) s)

/-- PAIR_SET with the action SPLIT, or with a code that is not an action. -/
def execPairSetSplit (tag pair action : Byte) (s : State) : Host.Outcome State Fault Refusal :=
  .next (request 2 tag (fun s => answerOf (pairSet pair action s)) s)

/-! ### CALL_CLEAR -/

/-- CALL_CLEAR (R119). -/
def callClear (point : Byte) (s : State) : State × Status :=
  match portOf point with
  | none => (s, .range)
  | some p => if callExists s p then hostClear p s else (s, .wrongState)

/-- CALL_CLEAR. -/
def execCallClear (tag point : Byte) (s : State) : Host.Outcome State Fault Refusal :=
  .next (request 1 tag (fun s => answerOf (callClear point s)) s)

end Sys2Proof.Machine
end

