-- ==== Sys2Proof/Machine/StatusRequests.lean ====
section
/-! DEFINITION. The status requests. Each is answered from the state of the moment it is taken and changes nothing,
but for the clear flag of CHANNEL_STATUS (R162). -/

namespace Sys2Proof.Machine

/-- TRUNK_STATUS (R21). -/
def execTrunkStatus (tag : Byte) (s : State) : Host.Outcome State Fault Refusal :=
  .next (request 0 tag (fun s => tell (trunkContent s) s) s)

/-- HOME_STATUS (R38). -/
def execHomeStatus (tag : Byte) (s : State) : Host.Outcome State Fault Refusal :=
  .next (request 0 tag (fun s => tell (homeContent s) s) s)

/-- TIMING_STATUS (R80). -/
def execTimingStatus (tag : Byte) (s : State) : Host.Outcome State Fault Refusal :=
  .next (request 0 tag (fun s => tell (timingContent s) s) s)

/-- LANE_STATUS (R57, R103). -/
def execLaneStatus (tag : Byte) (s : State) : Host.Outcome State Fault Refusal :=
  .next (request 0 tag (fun s => tell (laneContent s) s) s)

/-- The six discard counters at 0 (R161, R162). -/
def Counters.cleared (c : Counters) : Counters :=
  { c with overflow := 0, underrun := 0, dropCheck := 0, trunkCheck := 0, tooLong := 0, aborted := 0 }

/-- CHANNEL_STATUS (R162). -/
def channelStatus (channel clear : Byte) (s : State) : Answer :=
  match chanOf channel, flagOf clear with
  | some k, some flag =>
    { state := if flag then s.updChan k fun c => { c with counters := c.counters.cleared } else s, status := .ok,
      content := channelContent s k }
  | _, _ => refuse .range s

/-- CHANNEL_STATUS. -/
def execChannelStatus (tag channel clear : Byte) (s : State) : Host.Outcome State Fault Refusal :=
  .next (request 2 tag (channelStatus channel clear) s)

/-- CALL_STATUS (R120). -/
def execCallStatus (tag : Byte) (s : State) : Host.Outcome State Fault Refusal :=
  .next (request 0 tag (fun s => tell (callContent s) s) s)

/-- PORT_STATUS (R141). -/
def execPortStatus (tag : Byte) (s : State) : Host.Outcome State Fault Refusal :=
  .next (request 0 tag (fun s => tell (portContent s) s) s)

end Sys2Proof.Machine
end

