-- ==== Sys2Proof/Machine/Dispatch.lean ====
section
/-! DEFINITION. One arm per command. -/

namespace Sys2Proof.Machine

def exec (i : Instr) (s : State) : Host.Outcome State Fault Refusal :=
  match i with
  | .pinResetAssert pref => Sys2Proof.Machine.execPinResetAssert pref s
  | .pinResetRelease pref => Sys2Proof.Machine.execPinResetRelease pref s
  | .losAssert port => Sys2Proof.Machine.execLosAssert port s
  | .losRelease port => Sys2Proof.Machine.execLosRelease port s
  | .candidateFound port position cycle => Sys2Proof.Machine.execCandidateFound port position cycle s
  | .huntCycle port cycle => Sys2Proof.Machine.execHuntCycle port cycle s
  | .syncAcquired port cycle => Sys2Proof.Machine.execSyncAcquired port cycle s
  | .receivedCycle arrival => Sys2Proof.Machine.execReceivedCycle arrival s
  | .syncLost arrival => Sys2Proof.Machine.execSyncLost arrival s
  | .primingEnd flow status => Sys2Proof.Machine.execPrimingEnd flow status s
  | .localCycleBoundary status => Sys2Proof.Machine.execLocalCycleBoundary status s
  | .startupRoundEnd port status => Sys2Proof.Machine.execStartupRoundEnd port status s
  | .presenceExpiry side status => Sys2Proof.Machine.execPresenceExpiry side status s
  | .holdOffExpiry status => Sys2Proof.Machine.execHoldOffExpiry status s
  | .restoreExpiry status => Sys2Proof.Machine.execRestoreExpiry status s
  | .recovery status => Sys2Proof.Machine.execRecovery status s
  | .forcedChange status => Sys2Proof.Machine.execForcedChange status s
  | .acquireStart arrival => Sys2Proof.Machine.execAcquireStart arrival s
  | .holdoverExit arrival => Sys2Proof.Machine.execHoldoverExit arrival s
  | .lock arrival => Sys2Proof.Machine.execLock arrival s
  | .unlock arrival => Sys2Proof.Machine.execUnlock arrival s
  | .realignArm arrival => Sys2Proof.Machine.execRealignArm arrival s
  | .realign arrival => Sys2Proof.Machine.execRealign arrival s
  | .holdLimit status => Sys2Proof.Machine.execHoldLimit status s
  | .moveEffectTransmit lane status => Sys2Proof.Machine.execMoveEffectTransmit lane status s
  | .moveEffectReceive lane status => Sys2Proof.Machine.execMoveEffectReceive lane status s
  | .roleTablesTaken status => Sys2Proof.Machine.execRoleTablesTaken status s
  | .listenGroupTaken status => Sys2Proof.Machine.execListenGroupTaken status s
  | .numberingInForce status => Sys2Proof.Machine.execNumberingInForce status s
  | .stationUpdateApplied status => Sys2Proof.Machine.execStationUpdateApplied status s
  | .hookOff point => Sys2Proof.Machine.execHookOff point s
  | .hookOn point => Sys2Proof.Machine.execHookOn point s
  | .ringTimerExpiry point status => Sys2Proof.Machine.execRingTimerExpiry point status s
  | .contactChange port input => Sys2Proof.Machine.execContactChange port input s
  | .portByteReceived port taken => Sys2Proof.Machine.execPortByteReceived port taken s
  | .transparentIdleGap port => Sys2Proof.Machine.execTransparentIdleGap port s
  | .arbiterChoice port => Sys2Proof.Machine.execArbiterChoice port s
  | .frameSent port => Sys2Proof.Machine.execFrameSent port s
  | .underrun port => Sys2Proof.Machine.execUnderrun port s
  | .transactionStart => Sys2Proof.Machine.execTransactionStart s
  | .voidTransaction length => Sys2Proof.Machine.execVoidTransaction length s
  | .nullRequest length => Sys2Proof.Machine.execNullRequest length s
  | .malformedRequest bytes => Sys2Proof.Machine.execMalformedRequest bytes s
  | .unknownRequest bytes => Sys2Proof.Machine.execUnknownRequest bytes s
  | .identify tag => Sys2Proof.Machine.execIdentify tag s
  | .restart tag => Sys2Proof.Machine.execRestart tag s
  | .restartCarriedOut length => Sys2Proof.Machine.execRestartCarriedOut length s
  | .nodeSet tag preferred restoreSeconds holdOff node turns incidentFloor => Sys2Proof.Machine.execNodeSet tag preferred restoreSeconds holdOff node turns incidentFloor s
  | .lanesSet tag owned listen => Sys2Proof.Machine.execLanesSet tag owned listen s
  | .homeForceForce tag fields => Sys2Proof.Machine.execHomeForceForce tag fields s
  | .homeForceRelease tag action => Sys2Proof.Machine.execHomeForceRelease tag action s
  | .timingSet tag trim delayA delayB limit => Sys2Proof.Machine.execTimingSet tag trim delayA delayB limit s
  | .timingModeFree tag => Sys2Proof.Machine.execTimingModeFree tag s
  | .timingModeAuto tag selection => Sys2Proof.Machine.execTimingModeAuto tag selection s
  | .timeSet tag seconds cycle => Sys2Proof.Machine.execTimeSet tag seconds cycle s
  | .floorSet tag floor shed => Sys2Proof.Machine.execFloorSet tag floor shed s
  | .portSet tag port fields => Sys2Proof.Machine.execPortSet tag port fields s
  | .pairSetMerge tag pair => Sys2Proof.Machine.execPairSetMerge tag pair s
  | .pairSetSplit tag pair action => Sys2Proof.Machine.execPairSetSplit tag pair action s
  | .channelSet tag channel fields => Sys2Proof.Machine.execChannelSet tag channel fields s
  | .chainSet tag channel direction runs => Sys2Proof.Machine.execChainSet tag channel direction runs s
  | .channelStart tag channel => Sys2Proof.Machine.execChannelStart tag channel s
  | .channelStop tag channel => Sys2Proof.Machine.execChannelStop tag channel s
  | .stationSize tag capacity => Sys2Proof.Machine.execStationSize tag capacity s
  | .stationPut tag address channels => Sys2Proof.Machine.execStationPut tag address channels s
  | .stationDrop tag address => Sys2Proof.Machine.execStationDrop tag address s
  | .stationRead tag first count => Sys2Proof.Machine.execStationRead tag first count s
  | .callClear tag point => Sys2Proof.Machine.execCallClear tag point s
  | .trunkStatus tag => Sys2Proof.Machine.execTrunkStatus tag s
  | .homeStatus tag => Sys2Proof.Machine.execHomeStatus tag s
  | .timingStatus tag => Sys2Proof.Machine.execTimingStatus tag s
  | .laneStatus tag => Sys2Proof.Machine.execLaneStatus tag s
  | .channelStatus tag channel clear => Sys2Proof.Machine.execChannelStatus tag channel clear s
  | .callStatus tag => Sys2Proof.Machine.execCallStatus tag s
  | .portStatus tag => Sys2Proof.Machine.execPortStatus tag s
  | .portByteSent port => Sys2Proof.Machine.execPortByteSent port s
  | .contactLevelChange port input closed => Sys2Proof.Machine.execContactLevelChange port input closed s

end Sys2Proof.Machine
end

