-- ==== Sys2Proof/Safety.lean ====
section
/-! DEFINITION. What counts as a sound state of the part: the bounds the spec gives its state, which every step keeps,
and what a request meets when it is taken. -/

namespace Sys2Proof.Machine

/-! ### Bounds -/

/-- Frame memory is in canonical form, so that equal contents are equal data (R143, log 5). -/
def memoryCanonical (s : State) : Prop := Memory.wf s.mem = true

/-- An elastic store holds at most 4 cycles (R10), and that of a delivering flow at least 1 (R11). Through the store of a
flow that is priming no message of an end has come (R25). -/
structure Flow.bounded (f : Flow) : Prop where
  size : f.store.length ≤ Config.storeSize
  fed : f.mode = .delivering → 1 ≤ f.store.length
  unheard : f.mode = .priming → f.heard = false

/-- Both stores are within their bounds, and no end is heard through a priming one. -/
def storesBounded (s : State) : Prop := ∀ x : Side, (s.flow.get x).bounded

/-- A presence timer runs from 24 down to 0 (R17). -/
def presenceBounded (s : State) : Prop := ∀ x : Side, (s.rx.get x).presence ≤ Config.presenceRounds

/-- The reply queue holds at most 8 entries (R178). -/
def repliesBounded (s : State) : Prop := s.link.replies.length ≤ Config.replyQueue

/-- The report pending set holds no source twice and at most 40 entries (R180). -/
def reportsDistinct (s : State) : Prop :=
  (s.link.reports.map Prod.fst).Nodup ∧ s.link.reports.length ≤ 40

/-- The numbers of the timing unit lie in the ranges that R60, R66 to R70, R72, R74 and R78 give them: a lock count of
256 ends ACQUIRING, an unlock count of 8 ends TRACKING, and a realign count of 4 arms realignment. -/
structure Timing.inRange (t : Timing) : Prop where
  correction : -1024 ≤ t.correction ∧ t.correction ≤ 1023
  integral : -65536 ≤ t.integral ∧ t.integral ≤ 65535
  trim : -1024 ≤ t.trim ∧ t.trim ≤ 1023
  cycle : t.cycle < 8000
  delays : t.delay.a < 65536 ∧ t.delay.b < 65536
  limit : 1 ≤ t.holdLimit ∧ t.holdLimit ≤ 86400
  holdTimer : t.holdTimer ≤ 43200001
  lastStep : -32767 ≤ t.lastStep ∧ t.lastStep ≤ 32767
  lock : t.lockCount ≤ 256 ∧ (t.mode = .acquiring → t.lockCount ≤ 255)
  unlock : t.unlockCount ≤ 8 ∧ (t.mode = .tracking → t.unlockCount ≤ 7)
  realign : t.realignCount ≤ 4 ∧ (t.mode = .acquiring → t.armed = false → t.realignCount ≤ 3)

/-- The timing unit's numbers lie in their ranges. -/
def timingInRange (s : State) : Prop := s.timing.inRange

/-- Legal lists of a LANES_SET in ascending order (R84): lanes 0..127, at most 12 owned and 8 listened to, none twice
and none in both. -/
def legalLists (owned listen : List Nat) : Prop :=
  List.Pairwise (· < ·) owned ∧ List.Pairwise (· < ·) listen ∧ owned.length ≤ Config.maxOwned
    ∧ listen.length ≤ Config.maxListen ∧ (∀ l ∈ owned, l < Config.lanes ∧ l ∉ listen)
    ∧ (∀ l ∈ listen, l < Config.lanes)

/-- The owned-lane table and the listen list are legal. -/
def laneListsLegal (s : State) : Prop := legalLists (s.alloc.owned.map Entry.lane) s.alloc.listen

/-- A move toward a CHANNEL stands only on a lane whose applied use is SPARE or CALL (R91, R94, R95, R99): a lane of a
channel moves to SPARE or to a call. -/
def channelMovesStand (s : State) : Prop :=
  ∀ e ∈ s.alloc.owned, ∀ (m : Move) (k : ChanNo), e.move = some m → m.target = .channel k →
    e.use = .spare ∨ ∃ p : PortNo, e.use = .call p

/-- The pending list is sound (R92): one entry for each call point in WAITING and for no other; the highest level first;
and no entry above the effective floor while an owned lane is SPARE and not moving. -/
structure pendingSound (s : State) : Prop where
  once : (s.alloc.waiting.map Prod.fst).Nodup
  waiting : ∀ p : PortNo, p ∈ s.alloc.waiting.map Prod.fst ↔ callExists s p = true ∧ s.calls[p].state = .waiting
  order : List.Pairwise (fun a b : PortNo × Nat => b.2 ≤ a.2) s.alloc.waiting
  below : (∃ e ∈ s.alloc.owned, e.use = .spare ∧ e.move = none) → ∀ w ∈ s.alloc.waiting, w.2 ≤ s.alloc.floor

/-- Channel k holds no lane, applied or moving (R89, R100). -/
def holdsNoLane (k : ChanNo) (s : State) : Prop :=
  ∀ e ∈ s.alloc.owned, e.use ≠ .channel k ∧ ∀ m, e.move = some m → m.target ≠ .channel k

/-- A STOPPED channel and a LISTEN channel hold no lane (R89). -/
def channelLanesHeld (s : State) : Prop :=
  ∀ k : ChanNo, s.chans[k].state = .stopped ∨ s.chans[k].set.listen = true → holdsNoLane k s

/-- A port that sends a frame of a channel and owes it no abort marker serves an ACTIVE channel bound to it (R128, R129,
R150). -/
def portsServeActive (s : State) : Prop :=
  ∀ (p : PortNo) (k : ChanNo), s.ports[p].tx.state = .sending k → s.ports[p].tx.aborting = false →
    s.chans[k].state = .active ∧ s.chans[k].set.port = some p

/-- The blocks that the two chains of channel k hold. -/
def heldBlocks (s : State) (k : ChanNo) : List Nat :=
  chainBlocks s.chans[k].inChain ++ chainBlocks s.chans[k].outChain

/-- Every block has one owner (R143, R167): a chain holds no block twice, no two chains share one, and none lies in the
station table's area. -/
structure blocksOwnedOnce (s : State) : Prop where
  once : ∀ k : ChanNo, (heldBlocks s k).Nodup
  apart : ∀ j k : ChanNo, j ≠ k → ∀ b ∈ heldBlocks s j, b ∉ heldBlocks s k
  below : ∀ k : ChanNo, ∀ b ∈ heldBlocks s k, b < stationStart s

/-- The station table is sound (R167 to R169): entries in strictly ascending order of address, so that no address stands
twice, addresses 1 to 65534, no more entries than the capacity, which is a multiple of 8 up to 1024; and the update in
flight fits. -/
structure Filter.sound (f : Filter) : Prop where
  sorted : List.Pairwise (· < ·) (f.table.map Prod.fst)
  addresses : ∀ e ∈ f.table, 1 ≤ e.1 ∧ e.1 ≤ 65534
  size : f.table.length ≤ f.capacity
  capacity : f.capacity % 8 = 0 ∧ f.capacity ≤ 1024
  update : ∀ a c, f.update = some (.put a c) →
    1 ≤ a ∧ a ≤ 65534 ∧ ((lookupStation a f.table).isSome = true ∨ f.table.length < f.capacity)

/-- The station table of the part is sound. -/
def tableSound (s : State) : Prop := s.filter.sound

/-! ### Pin reset -/

/-- The trunk after pin reset (R22): LOS levels are the lines' own, and no end has been heard through a store (R25,
log 36). -/
structure trunkAtPinReset (s t : State) : Prop where
  receivers : ∀ x : Side, (t.rx.get x).los = (s.rx.get x).los
    ∧ (t.rx.get x).state = (if (s.rx.get x).los then .noLight else .hunt)
    ∧ (t.rx.get x).candidate = none ∧ (t.rx.get x).faultRun = 0 ∧ (t.rx.get x).fsaSeen = false
    ∧ (t.rx.get x).pbSeen = false ∧ (t.rx.get x).headerFaults = 0#16 ∧ (t.rx.get x).presence = 0
  flows : ∀ x : Side, (t.flow.get x).store = [] ∧ (t.flow.get x).mode = .notDelivering ∧ (t.flow.get x).heard = false
    ∧ (t.flow.get x).counter = 15#4 ∧ (t.flow.get x).startUp = some 0
    ∧ (t.flow.get x).underflows = 0#16 ∧ (t.flow.get x).overflows = 0#16 ∧ (t.flow.get x).roles = []

/-- A channel record at the defaults of R148 and R130, STOPPED, with no chain, its writer IDLE, its parser in NO_FRAME, no
ABORT owed and its counters at 0 (R164); the rest of it stands as the model's initial record has it. -/
def channelAtReset : Channel :=
  { Channel.initial with
    set :=
      { listen := false, port := none, wn := 0, wmin := 0, level := 2, delimiter := 0x7C#8, escape := 0x7D#8, gap := 0,
        fillIdle := false, check := .c16, invert := false, msbFirst := false, transparent := false,
        continuousBreak := false, stamping := false, maxLength := 1024, markIn := 1, markOut := 1 },
    state := .stopped, inChain := none, outChain := none, writer := .idle,
    sender := { Sender.initial with abortOwed := false, kind := none, out := [] },
    parser := { Parser.initial with state := .noFrame },
    counters :=
      { framesIn := 0#32, framesOut := 0#32, overflow := 0, underrun := 0, dropCheck := 0, trunkCheck := 0, tooLong := 0,
        aborted := 0 } }

/-- Every block at the value its chapter gives for pin reset. -/
structure atPinReset (pref : Side) (s t : State) : Prop where
  trunk : trunkAtPinReset s t
  homing : t.homing = { t.homing with
    home := pref, isolated := true, preferred := pref, forced := none, pendingForce := none, holdOffSetting := 4,
    holdOff := none, restoreSetting := 60, restore := none, changes := 0#16, last := none, prefStrap := pref }
  round : t.round = { t.round with
    numbering := { node := none, turns := 64 }, nextNumbering := none, localCount := 0#16, receivedCount := 0#16,
    queue := [], rosterOwed := false, invalid := { a := 0#16, b := 0#16 } }
  timing : t.timing =
    { phase := 0#32, correction := 0, integral := 0, trim := 0, auto := true, mode := .free, lockCount := 0,
      unlockCount := 0, realignCount := 0, armed := false, seconds := 0#32, cycle := 0, validity := .none,
      source := none, delay := { a := 0, b := 0 }, holdLimit := 300, holdTimer := 0, lastStep := 0, rejected := 0#16 }
  alloc : t.alloc =
    { owned := [], listen := [], hostFloor := 0, incidentFloor := 0, incident := false, waiting := [],
      applied := 0#16, withdrawn := 0#16, listsDue := false }
  calls : ∀ p : PortNo, callExists t p = false
  ports : ∀ p : PortNo, portFunction t p = .off ∧ t.ports[p].own = .off ∧ t.ports[p].tx.state = .idle
    ∧ t.ports[p].rx.isOpen = false ∧ t.ports[p].ready = false ∧ t.ports[p].lastServed = none
    ∧ ∀ n : Fin 4, t.ports[p].contacts[n].active = false ∧ t.ports[p].contacts[n].level = s.ports[p].contacts[n].level
  merged : ∀ k : Fin 4, t.merged[k] = false
  chans : ∀ k : ChanNo, t.chans[k] = channelAtReset
  filter : t.filter =
    { Filter.initial with
      group := [], nextGroup := none, state := .noFrame, targets := [], copies := [], capacity := 0, table := [],
      update := none }
  link : t.link.replies = [] ∧ t.link.reports = [(.start, markSet Mark.pin)] ∧ t.link.overrun = false
    ∧ t.link.restartWaiting = false ∧ t.link.transaction = none ∧ t.link.startedByRestart = false

/-! ### Reports -/

/-- A source stands in the report pending set with a mark gathered (R180). -/
def hasMark (src : Source) (mark : Nat) (s : State) : Prop :=
  ∃ m, marksOf src s.link.reports = some m ∧ m.getLsbD mark = true

/-- A link that differs from another at most in what an event changes: the report pending set, and the marks kept for
a report that is being sent. -/
def onlyReports (l l' : Link) : Prop := l' = { l with reports := l'.reports, transaction := l'.transaction }

/-! ### The homing counts -/

/-- The homing unit with its two counts judged for the conditions that hold in a state (R27, R31). -/
def countsJudged (h : Homing) (s : State) : Homing :=
  { h with
    holdOff := if holdOffRuns s then some (h.holdOff.getD 0) else none,
    restore := if restoreRuns s then some (h.restore.getD 0) else none }

/-! ### Received cycles -/

/-- A SYNCED receiver stays SYNCED at a cycle (R7): the cycle is in sequence, or fewer than three came before it that
were not. -/
def staysSynced (arr : Arrival) (s : State) : Prop :=
  (s.rx.get arr.port).state = .synced
    ∧ (inSequence (s.rx.get arr.port) arr.cycle = true ∨ (s.rx.get arr.port).faultRun < 3)

/-- The timing unit takes the cycle starts of the arrival's port (R61): AUTO is selected and the port faces the home. -/
def sourceAt (arr : Arrival) (s : State) : Prop := s.timing.auto = true ∧ s.homing.home = arr.port

/-- The receiver and the store of a flow after a cycle that leaves the receiver SYNCED (R7, R8, R10). -/
structure takenIn (arr : Arrival) (s t : State) : Prop where
  receiver : t.rx = s.rx.set arr.port ((s.rx.get arr.port).judge arr.cycle)
  flow : t.flow.get arr.port = s.flow.get arr.port
  homing : t.homing = countsJudged s.homing t
  link : onlyReports s.link t.link
  rest : t = { s with rx := t.rx, flow := t.flow, timing := t.timing, homing := t.homing, link := t.link }

/-! ### Local cycle boundaries -/

/-- The counter of the x-bound transmitter once it has started its next cycle (R3). -/
def nextCounter (x : Side) (s : State) : BitVec 4 := ((readStore x s).flow.get x).counter

/-- The next local cycle boundary is a local round boundary (R4). -/
def roundBegins (s : State) : Prop := nextCounter s.homing.home s = 0#4

/-- No round message is complete at the next local cycle boundary: neither transmitter starts a cycle numbered 15
(R2). -/
def noMessage (s : State) : Prop := ∀ x : Side, nextCounter x s ≠ 15#4

/-- The homing unit has no decision to make at the next local round boundary (R27, R30, R31, R34). -/
structure homeStays (s : State) : Prop where
  homed : s.homing.isolated = false
  force : s.homing.pendingForce = none
  holdOff : s.homing.holdOff = none ∧ 1 ≤ s.homing.holdOffSetting
  restore : s.homing.restore = none

/-- The use of an entry on the transmit side once the local round count has a value (R47, R83). -/
def useOnTransmit (count : Half) (e : Entry) : Use :=
  match e.move with
  | none => e.use
  | some m =>
    if m.tx then m.target
    else
      match m.effect with
      | none => e.use
      | some r => if reached count r then m.target else e.use

/-- The commands that run a local cycle boundary: LOCAL_CYCLE_BOUNDARY and its occasions (log 1). -/
def boundaryCommands (status : List Half) (x : Side) (p : PortNo) (lane : Nat) : List Instr :=
  [.localCycleBoundary status, .primingEnd x status, .startupRoundEnd x status, .presenceExpiry x status,
    .holdOffExpiry status, .restoreExpiry status, .recovery status, .forcedChange status, .holdLimit status,
    .moveEffectTransmit lane status, .moveEffectReceive lane status, .roleTablesTaken status, .listenGroupTaken status,
    .numberingInForce status, .stationUpdateApplied status, .ringTimerExpiry p status]

/-- What no local cycle boundary touches: what only a received cycle, a pin, a drop port or a request changes. -/
structure settingsKept (s t : State) : Prop where
  control : t.resetHeld = s.resetHeld ∧ t.merged = s.merged
  receivers : ∀ x : Side, { t.rx.get x with presence := 0 } = { s.rx.get x with presence := 0 }
  homing : t.homing =
    { t.homing with
      preferred := s.homing.preferred, holdOffSetting := s.homing.holdOffSetting,
      restoreSetting := s.homing.restoreSetting, reported := s.homing.reported, prefStrap := s.homing.prefStrap }
  timing : t.timing =
    { t.timing with
      integral := s.timing.integral, trim := s.timing.trim, auto := s.timing.auto, delay := s.timing.delay,
      holdLimit := s.timing.holdLimit }
  lanes : t.alloc.owned.map Entry.lane = s.alloc.owned.map Entry.lane ∧ t.alloc.listen = s.alloc.listen
  floors : t.alloc.hostFloor = s.alloc.hostFloor ∧ t.alloc.incidentFloor = s.alloc.incidentFloor
    ∧ t.alloc.incident = s.alloc.incident
  calls : ∀ p : PortNo, t.calls[p].level = s.calls[p].level ∧ t.calls[p].offHook = s.calls[p].offHook
  ports : ∀ p : PortNo, t.ports[p].own = s.ports[p].own ∧ t.ports[p].rx = s.ports[p].rx
    ∧ t.ports[p].lastServed = s.ports[p].lastServed
  channels : ∀ k : ChanNo, t.chans[k].set = s.chans[k].set
  station : t.filter.capacity = s.filter.capacity
  link : t.link =
    { s.link with replies := t.link.replies, reports := t.link.reports, transaction := t.link.transaction }

/-! ### Call points and ports -/

/-- The notice queue once a CALL item has been handed to it (R50): in place of the call point's item that stands there,
or at the tail. -/
def withCallItem (p : PortNo) (e : CallEvent) (queue : List Item) : List Item :=
  if queue.any (Item.isCallOf p) then queue.map fun i => if i.isCallOf p then .call p e else i
  else queue ++ [.call p e]

/-- An owned-lane table with a QUEUED move of one lane to a use (R85). -/
def withMove (lane : Nat) (use : Use) (owned : List Entry) : List Entry :=
  owned.map fun e =>
    if e.lane = lane then
      { e with move := some { target := use, effect := none, tx := false, rx := false, followUp := false } }
    else e

/-- A state in which a QUEUED move of a lane to a use has been created, its LANE item in the notice queue (R85). -/
def movedTo (lane : Nat) (use : Use) (s : State) : State :=
  { s with
    alloc := { s.alloc with owned := withMove lane use s.alloc.owned },
    round := { s.round with queue := s.round.queue ++ [.lane lane use] } }

/-- A state in which a waiting call point has been granted a lane (R111): its entry has left the pending list, the lane
has a move toward it, and it connects, a ring as a ring with the answer-pending flag as the hook stands. -/
def grantedTo (q : PortNo) (lane : Nat) (s : State) : State :=
  let u := movedTo lane (.call q) s
  let c := s.calls[q]
  { u with
    alloc := { u.alloc with waiting := s.alloc.waiting.filter fun w => decide (w.1 ≠ q) },
    calls := s.calls.set q
      { c with
        lane := some lane, state := if c.ringMark = true then .ringConnecting else .connecting, ringMark := false,
        answerPending := c.ringMark && c.offHook, ringTimer := 0 } }

/-- A call point whose call is over (R117): IDLE, or LOCKOUT with its hook OFF, and no lane. -/
def CallPoint.ended (c : CallPoint) : CallPoint :=
  { c with
    state := if c.offHook = true then .lockout else .idle, lane := none, ringMark := false, answerPending := false,
    ringTimer := 0 }

/-- A state in which the move of entry `e` to a use has been applied (R86): the target is the applied use, the move has
left the entry, the applied count has risen, and a call point in CLEARING that the lane has left is at its end (R117). -/
def landedMove (e : Entry) (target : Use) (s : State) : State :=
  { s with
    alloc :=
      { s.alloc with
        owned := s.alloc.owned.map fun g => if g.lane = e.lane then { g with use := target, move := none } else g,
        applied := s.alloc.applied + 1#16 },
    calls :=
      match e.use with
      | .call p => if s.calls[p].state = .clearing then s.calls.set p s.calls[p].ended else s.calls
      | _ => s.calls }

/-- A lane of the table is channel k's, applied or moving (R100). -/
def holdsLane (k : ChanNo) (owned : List Entry) : Bool :=
  owned.any fun e =>
    decide (e.use = .channel k) || (match e.move with
      | some m => decide (m.target = .channel k)
      | none => false)

/-- A state in which every STOPPING channel that holds no lane, applied or moving, has become STOPPED (R100): its sender
and its parser stand at their start, and an ABORT owed stays owed (logs 21 and 44). -/
def freedStopped (s : State) : State :=
  { s with
    chans := Vector.ofFn fun k : ChanNo =>
      let c := s.chans[k]
      if c.state = .stopping ∧ holdsLane k s.alloc.owned = false then
        { c with
          state := .stopped, sender := { Sender.initial with abortOwed := c.sender.abortOwed }, parser := Parser.initial }
      else c }

/-- A state in which the move toward call point q has reached it as it connects (R112): TALKING with CALL ANSWERED when an
answer is pending, else ALERTING, or RINGING for a ring, its timer at 45000 rounds (R115). -/
def reachedCall (q : PortNo) (s : State) : State :=
  let c := s.calls[q]
  let next : CallState :=
    if c.answerPending = true then .talking else if c.state = .connecting then .alerting else .ringing
  { s with
    calls := s.calls.set q
      { c with
        state := next, ringMark := false, answerPending := false, ringTimer := if next = .ringing then 45000 else 0 },
    round :=
      if c.answerPending = true then { s.round with queue := withCallItem q .answered s.round.queue } else s.round }

/-- What an offered or released lane is given (R94, R95): the head of the pending list above the floor, else the channel
that regrows, else a move to the use `otherwise`, or nothing. -/
def lanePlaced (lane : Nat) (otherwise : Option Use) (s t : State) : Prop :=
  (∀ (q : PortNo) (level : Nat) (rest : List (PortNo × Nat)), s.alloc.waiting = (q, level) :: rest →
      s.alloc.floor < level → t = grantedTo q lane { s with link := t.link })
    ∧ ((∀ w ∈ s.alloc.waiting.head?, w.2 ≤ s.alloc.floor) →
      (∀ j : ChanNo, regrower s = some j → t = movedTo lane (.channel j) { s with link := t.link })
        ∧ (regrower s = none →
          t = match otherwise with
              | some u => movedTo lane u { s with link := t.link }
              | none => { s with link := t.link }))

/-- A state in which a lane's QUEUED move has been withdrawn with its LANE item (R87). -/
def moveWithdrawn (lane : Nat) (s : State) : State :=
  { s with
    alloc :=
      { s.alloc with
        owned := s.alloc.owned.map fun g => if g.lane = lane then { g with move := none } else g,
        withdrawn := s.alloc.withdrawn + 1#16 },
    round := { s.round with queue := s.round.queue.filter fun i => !i.isLaneOf lane } }

/-- A state in which a lane's SENT move has taken the follow-up mark (R88). -/
def moveMarked (lane : Nat) (s : State) : State :=
  { s with
    alloc :=
      { s.alloc with
        owned := s.alloc.owned.map fun g =>
          if g.lane = lane then { g with move := g.move.map fun m => { m with followUp := true } } else g } }

/-- A state in which call point p has entered CLEARING with a cause and CALL DOWN is in the notice queue (R116). -/
def clearingCall (p : PortNo) (cause : ClearCause) (s : State) : State :=
  { s with
    calls := s.calls.set p
      { s.calls[p] with
        state := .clearing, cause := some cause, ringMark := false, answerPending := false, ringTimer := 0 },
    round := { s.round with queue := withCallItem p (.down cause) s.round.queue } }

/-- Nothing follows where the QUEUED move of entry `e` is withdrawn (R87): no call waits, the lane stays SPARE with no
channel to regrow or with its ACTIVE channel, and no channel is STOPPING. -/
def restsAfterWithdrawal (e : Entry) (s : State) : Prop :=
  s.alloc.waiting = []
    ∧ ((e.use = .spare ∧ regrower s = none) ∨ ∃ j : ChanNo, e.use = .channel j ∧ s.chans[j].state = .active)
    ∧ ∀ k : ChanNo, s.chans[k].state ≠ .stopping

/-- What a clearing with a cause makes of a call that connects by move `m` of entry `e` (R116, R87, R88). In CONNECTING
with the move QUEUED the call is over and the end hears nothing; with the move SENT the call point is CLEARING, CALL DOWN
is sent and the move is to be followed up; and a ring whose move is QUEUED sends CALL DOWN all the same and is over. -/
structure clearsConnecting (p : PortNo) (cause : ClearCause) (e : Entry) (m : Move) (s t : State) : Prop where
  direct : s.calls[p].state = .connecting → m.effect = none → restsAfterWithdrawal e s →
    t = moveWithdrawn e.lane
        { s with calls := s.calls.set p { s.calls[p].ended with cause := some cause }, link := t.link }
      ∧ hasMark (.call p) t.calls[p].state.code t ∧ hasMark .lane Mark.withdrawn t
  sent : m.effect ≠ none →
    t = moveMarked e.lane (clearingCall p cause { s with link := t.link })
      ∧ hasMark (.call p) CallState.clearing.code t ∧ hasMark (.call p) Mark.downSent t
  ring : s.calls[p].state = .ringConnecting → m.effect = none → restsAfterWithdrawal e s →
    t = moveWithdrawn e.lane
        { clearingCall p cause s with
          calls := s.calls.set p { s.calls[p].ended with cause := some cause }, link := t.link }
      ∧ hasMark (.call p) CallState.clearing.code t ∧ hasMark (.call p) Mark.downSent t
      ∧ hasMark (.call p) t.calls[p].state.code t ∧ hasMark .lane Mark.withdrawn t

/-- The hook switch of call point p is read at a level, `true` for OFF, by the status word that its port took last, if
there is one (R107, R125). -/
def hookReads (p : PortNo) (off : Bool) (s : State) : Prop := ∀ w, s.ports[p].status = some w → w.getLsbD 7 = off

/-- The committed width of channel k (R89): its lanes with no move, and those that move toward it unmarked. -/
def committedWidth (k : ChanNo) (s : State) : Nat :=
  (s.alloc.owned.filter fun e =>
    match e.move with
    | none => decide (e.use = .channel k)
    | some m => decide (m.target = .channel k) && !m.followUp).length

/-- Every ACTIVE LINK channel has a committed width of at least its W_min (R89). -/
def widthsHeld (s : State) : Prop :=
  ∀ k : ChanNo, s.chans[k].state = .active → s.chans[k].set.listen = false → s.chans[k].set.wmin ≤ committedWidth k s

/-- Channel k may regrow (R94): an ACTIVE LINK channel below its W_n and of a level above the effective floor. -/
def regrows (k : ChanNo) (s : State) : Prop :=
  s.chans[k].state = .active ∧ s.chans[k].set.listen = false ∧ committedWidth k s < s.chans[k].set.wn
    ∧ s.alloc.floor < s.chans[k].set.level

/-- The channel that regrows (R94): of those that may, the one of the highest level and, of two, the lower number. -/
def regrowerByRule (s : State) : Prop :=
  (∀ k : ChanNo, regrower s = some k → regrows k s
      ∧ ∀ j : ChanNo, regrows j s →
          s.chans[j].set.level < s.chans[k].set.level
            ∨ (s.chans[j].set.level = s.chans[k].set.level ∧ k ≤ j))
    ∧ (regrower s = none → ∀ k : ChanNo, ¬ regrows k s)

/-! ### Sheds -/

/-- A shed treats channel k (R96): an ACTIVE LINK channel at or below the effective floor. -/
def shedReaches (k : ChanNo) (s : State) : Prop :=
  s.chans[k].state = .active ∧ s.chans[k].set.listen = false ∧ s.chans[k].set.level ≤ s.alloc.floor

/-- A lane moves toward channel k with no follow-up mark, by a move that is QUEUED or SENT (R85, R88). -/
def movesTo (k : ChanNo) (queued : Bool) (lane : Nat) (s : State) : Prop :=
  ∃ e ∈ s.alloc.owned, e.lane = lane ∧ ∃ m, e.move = some m ∧ m.target = .channel k ∧ m.followUp = false
    ∧ (m.effect = none ↔ queued = true)

/-- A lane rests with channel k: its applied use, and no move (R89). -/
def restsWith (k : ChanNo) (lane : Nat) (s : State) : Prop :=
  ∃ e ∈ s.alloc.owned, e.lane = lane ∧ e.use = .channel k ∧ e.move = none

/-- The shed of channel k takes its lanes one at a time, down to W_min (R96): the QUEUED moves toward it are withdrawn,
highest lane first, then the SENT ones are marked, lowest lane first, then its resting lanes move to SPARE, highest
first. -/
structure shedsInOrder (k : ChanNo) (s : State) : Prop where
  done : ¬ (shedReaches k s ∧ s.chans[k].set.wmin < committedWidth k s) → shedChannel k s = s
  queued : shedReaches k s → s.chans[k].set.wmin < committedWidth k s → ∀ l, movesTo k true l s →
    (∀ j, movesTo k true j s → j ≤ l) → shedChannel k s = shedChannel k (withdraw l s)
  sent : shedReaches k s → s.chans[k].set.wmin < committedWidth k s → (∀ j, ¬ movesTo k true j s) →
    ∀ l, movesTo k false l s → (∀ j, movesTo k false j s → l ≤ j) → shedChannel k s = shedChannel k (moveMarked l s)
  resting : shedReaches k s → s.chans[k].set.wmin < committedWidth k s → (∀ b j, ¬ movesTo k b j s) →
    ∀ l, restsWith k l s → (∀ j, restsWith k j s → j ≤ l) → shedChannel k s = shedChannel k (movedTo l .spare s)

/-- What a shed does and what it leaves alone (R96). Beside lanes' moves, the notice queue, calls that wait and the
reports nothing changes, a STOPPING channel without a lane apart; no applied use changes, and no lane that is not
committed to a channel it treats; and each such channel is left with its W_min, or with the width it had below that. -/
structure shedTo (s t : State) : Prop where
  rest : t = { s with
    alloc :=
      { s.alloc with owned := t.alloc.owned, waiting := t.alloc.waiting, withdrawn := t.alloc.withdrawn },
    round := { s.round with queue := t.round.queue }, calls := t.calls, chans := t.chans, link := t.link }
  link : onlyReports s.link t.link
  uses : t.alloc.owned.map (fun e => (e.lane, e.use)) = s.alloc.owned.map (fun e => (e.lane, e.use))
  untouched : ∀ e ∈ s.alloc.owned, (∀ k, shedReaches k s → e.committedTo k = false) → e ∈ t.alloc.owned
  widths : ∀ k, shedReaches k s → committedWidth k t = min (committedWidth k s) s.chans[k].set.wmin
  channels : ∀ k : ChanNo, (s.chans[k].state = .stopping → ¬ holdsNoLane k s) → t.chans[k] = s.chans[k]
  waiting : t.alloc.waiting.Sublist s.alloc.waiting
  calls : ∀ p : PortNo, p ∉ s.alloc.waiting.map Prod.fst → t.calls[p] = s.calls[p]
  marked : t.alloc.owned ≠ s.alloc.owned → hasMark .lane Mark.shed t

/-- The QUEUED move of entry `e` toward an ACTIVE channel is withdrawn (R87): its LANE item leaves the queue, and the lane
is judged by its applied use: a SPARE lane is offered, one of a call point in CLEARING is released afresh, and one of any
other call point stays with it. -/
structure withdrawnToward (e : Entry) (s t : State) : Prop where
  marked : hasMark .lane Mark.withdrawn t
  link : onlyReports s.link t.link
  spare : e.use = .spare → lanePlaced e.lane none (moveWithdrawn e.lane s) t
  clearing : ∀ p : PortNo, e.use = .call p → s.calls[p].state = .clearing →
    lanePlaced e.lane (some .spare) (moveWithdrawn e.lane s) t
  kept : ∀ p : PortNo, e.use = .call p → s.calls[p].state ≠ .clearing → t = { moveWithdrawn e.lane s with link := t.link }

/-- At least one ACTIVE input is tagged on a port that acts as CONTACTS (R139). -/
def incidentHolds (s : State) : Prop :=
  ∃ (p : PortNo) (n : Fin 4) (ms : Nat) (tags : Vector Bool 4),
    portFunction s p = .contacts ∧ s.ports[p].own = .contacts ms tags ∧ tags[n] = true
      ∧ s.ports[p].contacts[n].active = true

/-- The function of a setting outside a merged pair (R126). -/
def settingFunction : PortSetting → PortFunction
  | .off => .off
  | .async _ => .async
  | .sync => .sync
  | .callpoint _ => .callpoint
  | .contacts _ _ => .contacts

/-- The level of a call point's record as its port starts with a setting (R106). -/
def callLevel : PortSetting → Nat
  | .callpoint level => level
  | _ => 7

/-- A port whose function starts afresh with a setting (R126): receive and transmit sides IDLE, RDY withdrawn, contact
inputs INACTIVE, no control word sent and no status word taken; the channel last served is kept. -/
def startedAfresh (setting : PortSetting) (q : Port) : Port :=
  { own := setting, rx := PortRx.initial, tx := PortTx.initial, lastServed := q.lastServed, ready := false,
    contacts := q.contacts.map fun c => { level := c.level, active := false, held := 0 }, control := none, status := none }

/-- A contact input under a changed debounce time in ms (R138, log 7): a level held for it in local cycles is taken. -/
def retested (debounce : Nat) (c : Contact) : Contact :=
  if c.level ≠ c.active ∧ 8 * debounce ≤ c.held then { level := c.level, active := c.level, held := 0 } else c

/-- A call point's speech passes (R109): it is in ALERTING or TALKING. -/
abbrev speaking (s : State) (p : PortNo) : Prop := s.calls[p].state = .alerting ∨ s.calls[p].state = .talking

/-- The next byte of channel k's round block is the first of these bytes, and the rest of the parcel in progress are the
others (R153, R154). -/
def sendsNext (k : ChanNo) (bytes : List Byte) (s : State) : Prop :=
  (senderByte k s).chans[k].sender.block ++ (senderByte k s).chans[k].sender.out.map Prod.fst
    = s.chans[k].sender.block ++ bytes

/-- Channel k's round block takes one IDLE, and the choice is made again at the next position (R154). -/
def idlesOnce (k : ChanNo) (s : State) : Prop :=
  sendsNext k [0xFF#8] s ∧ (senderByte k s).chans[k].sender.out = []
    ∧ (senderByte k s).chans[k].sender.filling = false

/-- Channel k's round block takes an IDLE, and the rest of it will be IDLE (R154). -/
def fillsBlock (k : ChanNo) (s : State) : Prop :=
  sendsNext k [0xFF#8] s ∧ (senderByte k s).chans[k].sender.out = []
    ∧ (senderByte k s).chans[k].sender.filling = true

/-- A chain with its newest frame replaced. -/
def Chain.withNewest (c : Chain) (f : Frame) : Chain := { c with frames := c.frames.dropLast ++ [f] }

/-- What a STATION_PUT makes of a sorted table (R167, R169): its address has the new channel set, every other address what
it had. -/
def putByRule : Prop :=
  ∀ (address : Nat) (channels : Half) (table : List (Nat × Half)), List.Pairwise (· < ·) (table.map Prod.fst) →
    lookupStation address (putStation address channels table) = some channels
      ∧ (∀ a, a ≠ address → lookupStation a (putStation address channels table) = lookupStation a table)
      ∧ List.Pairwise (· < ·) ((putStation address channels table).map Prod.fst)

/-- A source keeps its place through a RESTART (R184). -/
def keptAtRestart : Source → Bool
  | .start | .rx _ | .slip _ | .home | .timing => true
  | .lane | .call _ | .contact _ | .channel _ => false

/-- A counter of R161 that one more discard has raised. -/
def oneMore (n : Nat) : Nat := if n < 65535 then n + 1 else 65535

/-- The counters of a channel after one more discard (R161). -/
def Counters.oneMore (d : Discard) (c : Counters) : Counters :=
  match d with
  | .overflow => { c with overflow := Machine.oneMore c.overflow }
  | .underrun => { c with underrun := Machine.oneMore c.underrun }
  | .dropCheck => { c with dropCheck := Machine.oneMore c.dropCheck }
  | .trunkCheck => { c with trunkCheck := Machine.oneMore c.trunkCheck }
  | .tooLong => { c with tooLong := Machine.oneMore c.tooLong }
  | .aborted => { c with aborted := Machine.oneMore c.aborted }

/-- A sender that owes an ABORT for the frame it has begun (R155): the bytes chosen go out and act on no frame. -/
def Sender.owing (snd : Sender) : Sender :=
  { snd with abortOwed := true, kind := none, out := snd.out.map fun x => (x.1, false) }

/-- The newest frame of an inbound chain has been begun by the sender. -/
def newestBegun (o : Option Chain) : Bool :=
  match o with
  | none => false
  | some c =>
    match c.frames.getLast? with
    | none => false
    | some f => f.begun

/-- A channel whose writer has lost the frame it was writing to a cause (R151, R152, R155). -/
def Channel.lost (d : Discard) (ch : Channel) : Channel :=
  { ch with
    inChain := ch.inChain.map Chain.dropNewest, counters := ch.counters.oneMore d,
    sender := if newestBegun ch.inChain = true then ch.sender.owing else ch.sender }

/-- A channel whose port has thrown the frame in progress away under a cause (R134, R151): a frame that was lost before has
been counted already, and one whose first byte has not reached the writer is counted alone. -/
def Channel.thrown (d : Discard) (ch : Channel) : Channel :=
  match ch.writer with
  | .idle => { ch with counters := ch.counters.oneMore d }
  | .writing => { ch.lost d with writer := .idle }
  | .discarding => { ch with writer := .idle }

/-- A channel whose port has thrown the frame in progress away without a cause (R135): what is written of it is lost, and
nothing is counted. -/
def Channel.thrownUncounted (ch : Channel) : Channel :=
  match ch.writer with
  | .idle => ch
  | .writing => { ch.lost .aborted with counters := ch.counters, writer := .idle }
  | .discarding => { ch with writer := .idle }

/-- The bits of a byte, least significant first. -/
def lsbBits (b : Byte) : List Bool := (List.range 8).map b.getLsbD

/-- The bits of a byte on a SYNC line in a channel's first-bit order (R130). -/
def syncBits (set : ChannelSettings) (b : Byte) : List Bool :=
  if set.msbFirst = true then (lsbBits b).reverse else lsbBits b

/-- A chain whose newest frame `f` has taken in one more byte (R145, R146), in a new block where the block in hand is
full. -/
def Chain.withByte (c : Chain) (f : Frame) : Chain :=
  if f.length < 20 + 32 * (f.taken - 1) then
    { c with frames := c.frames.dropLast ++ [{ f with length := f.length + 1 }] }
  else
    { c with
      writer := (c.writer + 1) % c.blocks.length,
      frames := c.frames.dropLast ++ [{ f with length := f.length + 1, taken := f.taken + 1 }] }

/-- The RDY level of a port once the inbound chain of its ACTIVE LINK channel stands so (R137). -/
def readyAfter (s : State) (p : PortNo) (c : Chain) : Bool :=
  let free := c.blocks.length - c.occupancy
  if portFunction s p = .sync then
    if free < 2 then false else if 4 ≤ free then true else s.ports[p].ready
  else false

/-- A chain whose writer has opened a frame (R146, R157): one block taken at the writer's place, nothing written. -/
def Chain.withOpened (c : Chain) : Chain :=
  { c with
    writer := (c.writer + 1) % c.blocks.length,
    frames := c.frames ++
      [{ start := c.writer, taken := 1, released := 0, length := 0, closed := false, stamp := none, begun := false,
         sent := 0, firstGone := false }] }

/-- A frame that its writer has closed (R157): whatever it holds goes free once its bytes have all been sent (R146). -/
def Frame.closedOut (f : Frame) : Frame :=
  { f with
    closed := true, stamp := none,
    released := if f.begun = true ∧ f.length ≤ f.sent then f.taken else f.released }

/-- Channel k's outbound chain `c` has a newest frame `f` in whose block in hand one more byte finds room, below the
maximum frame length (R145, R157). -/
def takesByte (k : ChanNo) (c : Chain) (f : Frame) (s : State) : Prop :=
  s.chans[k].outChain = some c ∧ c.frames.getLast? = some f ∧ f.released = 0 ∧ f.length < s.chans[k].set.maxLength
    ∧ f.length < 20 + 32 * (f.taken - 1)

/-- Channel k's outbound chain `c` has a newest frame `f` that one more byte loses (R157, R158): TOO_LONG at the maximum
frame length, and below it OVERFLOW where the byte needs a block and the chain has none free. -/
def losesByte (k : ChanNo) (c : Chain) (f : Frame) (d : Discard) (s : State) : Prop :=
  s.chans[k].outChain = some c ∧ c.frames.getLast? = some f
    ∧ ((d = .tooLong ∧ s.chans[k].set.maxLength ≤ f.length)
      ∨ (d = .overflow ∧ f.length < s.chans[k].set.maxLength ∧ 20 + 32 * (f.taken - 1) ≤ f.length
        ∧ c.blocks.length ≤ c.occupancy))

/-- The size of a parcel without its payload (R153): header, address, stamp and check. -/
def parcelOverhead (kind : ParcelKind) (stamped : Bool) : Nat :=
  match kind with
  | .start => if stamped then 12 else 4
  | .middle => 2
  | .last => 4
  | .single => if stamped then 14 else 6
  | .abort => 2

/-- A second header byte makes a good header (R156), with `room` bytes of the round block left from the parcel's first
byte on. -/
abbrev headerGood (kind : ParcelKind) (second : Byte) (room : Nat) : Prop :=
  second.getLsbD 6 = false ∧ second.toNat % 64 ≤ 62 ∧ (second.getLsbD 7 = true → kind = .start ∨ kind = .single)
    ∧ (kind = .abort → second.toNat % 64 = 0)
    ∧ parcelOverhead kind (second.getLsbD 7) + second.toNat % 64 ≤ room

/-- Where a parcel stream stands after a good header (R153): before the address and stamp of a START or SINGLE, at the
payload or the check of a MIDDLE or END, at the next header after an ABORT. -/
def ParcelAt.afterHeader (kind : ParcelKind) (second : Byte) : ParcelAt :=
  let n := second.toNat % 64
  match kind with
  | .start | .single => .before kind [] (if second.getLsbD 7 = true then 10 else 2) n
  | .middle => if n = 0 then .header else .payload .middle n
  | .last => if n = 0 then .check .last none else .payload .last n
  | .abort => .header

/-- Where a parcel stream stands after a payload byte of which `n`, itself included, were left (R153). -/
def ParcelAt.afterByte (kind : ParcelKind) (n : Nat) : ParcelAt :=
  if 1 < n then .payload kind (n - 1) else if kind = .last ∨ kind = .single then .check kind none else .header

/-- Where a parcel stream stands after the last byte before a payload of `n` bytes (R153). -/
def ParcelAt.afterAddress (kind : ParcelKind) (n : Nat) : ParcelAt :=
  if n ≠ 0 then .payload kind n else if kind = .single then .check kind none else .header

/-- A frame is the oldest of channel k's outbound chain `c`. -/
def sendsFrom (k : ChanNo) (c : Chain) (f : Frame) (s : State) : Prop :=
  s.chans[k].outChain = some c ∧ c.frames.head? = some f

/-- A port acts as ASYNC or SYNC and sends a frame of channel k, with some bytes chosen and no abort owed. -/
def sends (p : PortNo) (k : ChanNo) (out : List (Byte × TxMark)) (s : State) : Prop :=
  (portFunction s p = .async ∨ portFunction s p = .sync) ∧ s.ports[p].tx.state = .sending k
    ∧ s.ports[p].tx.out = out ∧ s.ports[p].tx.aborting = false

/-! ### Transactions -/

/-- The state in which a request of `n` bytes is judged: the transaction that carries it has ended, and its outbound
message is consumed if it fitted (R175). -/
def carried (n : Nat) (s : State) : State := atInstant (finishTransaction n) s

/-- A request is judged by its owning chapter (R177): RESET is not held, RESTART does not wait, and the reply queue has
room. -/
def takesRequest (s : State) : Prop :=
  s.resetHeld = false ∧ s.link.restartWaiting = false ∧ s.link.replies.length < Config.replyQueue

/-- A control link with one more reply, ready, at the tail of its queue (R177). -/
def Link.answered (tag : Byte) (status : Status) (content : List Byte) (l : Link) : Link :=
  { l with
    replies := l.replies ++ [{ tag := tag, status := status, content := content, ready := true, restart := false }] }

/-- What a request that changes ports leaves (R126, R127, R139): its reply joins the queue, the incident-active flag holds
exactly while a tagged input is ACTIVE, and nothing but ports and call points changes while that flag stays; as it changes,
lanes, waiting calls and channels that end their stop may follow (R98). -/
structure portsChanged (tag : Byte) (u t : State) : Prop where
  replies : t.link.replies = (u.link.answered tag .ok []).replies
  incident : t.alloc.incident = true ↔ incidentHolds t
  quiet : t.alloc.incident = u.alloc.incident →
    onlyReports (u.link.answered tag .ok []) t.link ∧ t = { u with ports := t.ports, calls := t.calls, link := t.link }
  frame : t = { u with
    ports := t.ports, calls := t.calls, alloc := t.alloc, round := t.round, chans := t.chans, link := t.link }

/-- The body length of a request; none for a command that carries no request. -/
def requestBody : Instr → Option Nat
  | .identify _ => some 0
  | .restart _ => some 0
  | .nodeSet .. => some 7
  | .lanesSet _ owned listen => some (2 + owned.length + listen.length)
  | .homeForceForce .. => some 2
  | .homeForceRelease .. => some 1
  | .timingSet .. => some 14
  | .timingModeFree .. => some 1
  | .timingModeAuto .. => some 1
  | .timeSet .. => some 6
  | .floorSet .. => some 2
  | .portSet _ _ fields => some (2 + fields.size)
  | .pairSetMerge .. => some 2
  | .pairSetSplit .. => some 2
  | .channelSet .. => some 40
  | .chainSet _ _ _ runs => some (3 + 4 * runs.length)
  | .channelStart .. => some 1
  | .channelStop .. => some 1
  | .stationSize .. => some 2
  | .stationPut .. => some 4
  | .stationDrop .. => some 2
  | .stationRead .. => some 3
  | .callClear .. => some 1
  | .trunkStatus _ => some 0
  | .homeStatus _ => some 0
  | .timingStatus _ => some 0
  | .laneStatus _ => some 0
  | .channelStatus .. => some 2
  | .callStatus _ => some 0
  | .portStatus _ => some 0
  | _ => none

end Sys2Proof.Machine
end

