-- ==== Sys2Proof/Certificates/Slice0/Obligations.lean ====
section
/-! DEFINITION. The statements for the provers, from the numbered rules of spec/. -/

open Sys2Proof Sys2Proof.Machine

/-! ### The queue, the clock and reset -/

/-- The command at the front of the queue is run with the queue's rest. -/
def Obligations.StepRunsFrontCommand : Prop :=
  ∀ (c : Instr) (rest : List Instr) (s : State), s.pending = c :: rest → step s = exec c (s.withPending rest)

/-- With no command waiting the part runs for one oscillator period (R60): the phase gains INC. The period whose
addition would wrap is left to the LOCAL_CYCLE_BOUNDARY command, and while RESET is held nothing moves: both are the
model's choice (log 2). -/
def Obligations.EmptyQueueRunsOnePeriod : Prop :=
  ∀ s : State, s.pending = [] →
    step s = .next
      (if s.resetHeld = false ∧ s.timing.phase.toNat + (1048576 + s.timing.correction).toNat < 2 ^ 32 then
        { s with
          timing :=
            { s.timing with phase := s.timing.phase + BitVec.ofNat 32 (1048576 + s.timing.correction).toNat } }
      else s)

/-- No command touches the commands that wait. -/
def Obligations.CommandsLeaveTheQueueAlone : Prop :=
  ∀ (c : Instr) (s t : State), exec c s = .next t → t.pending = s.pending

/-- The state right after reset is sound, waits for commands, and asserts ATTN with START and its mark PIN alone (R182).
-/
def Obligations.ResetIsSound : Prop :=
  memoryCanonical State.reset ∧ storesBounded State.reset ∧ presenceBounded State.reset ∧ repliesBounded State.reset
    ∧ reportsDistinct State.reset ∧ timingInRange State.reset ∧ laneListsLegal State.reset
    ∧ blocksOwnedOnce State.reset ∧ tableSound State.reset ∧ channelMovesStand State.reset
    ∧ portsServeActive State.reset ∧ pendingSound State.reset ∧ channelLanesHeld State.reset ∧ widthsHeld State.reset
    ∧ State.reset.pending = [] ∧ State.reset.resetHeld = false ∧ attention State.reset = true
    ∧ State.reset.link.replies = [] ∧ State.reset.link.reports = [(.start, markSet Mark.pin)]

/-! ### Invariants that every step keeps -/

/-- Frame memory stays in canonical form (R143); every block keeps at most one owner, so that no block stands twice in a
chain, in two chains, or in a chain and the station table's area (R143, R144, R167); and the station table stays sorted
by address, free of duplicates and within its capacity, the update in flight included (R167 to R169). A port that sends
a frame and owes it no abort marker serves an ACTIVE channel bound to it (R128, R129, R150). -/
def Obligations.MemoryStaysCanonical : Prop :=
  ∀ s t : State, step s = .next t →
    (memoryCanonical s → memoryCanonical t) ∧ (blocksOwnedOnce s → blocksOwnedOnce t) ∧ (tableSound s → tableSound t)
      ∧ (portsServeActive s → portsServeActive t)

/-- An elastic store never holds more than 4 cycles, and that of a delivering flow never fewer than 1 (R10, R11); the
presence timers stay within 0..24 (R17). Through the store of a flow still priming no valid message of an end has come
since its receiver entered SYNCED, so that such a flow makes no end reachable (R25; that the message counts from that
entry is the model's reading, log 36). The reply queue never holds more than 8 entries (R178), and the report pending
set never holds a source twice, nor more than 40 entries (R180). -/
def Obligations.TrunkAndLinkQueuesStayBounded : Prop :=
  ∀ s t : State, step s = .next t →
    (storesBounded s → storesBounded t)
      ∧ (storesBounded s → ∀ x : Side, (t.flow.get x.other).mode = .priming → reachable t x = false)
      ∧ (presenceBounded s → presenceBounded t)
      ∧ (repliesBounded s → repliesBounded t) ∧ (reportsDistinct s → reportsDistinct t)

/-- The pending list holds one entry for each call point that is WAITING and for no other, the highest level first, and
none above the effective floor while an owned lane is SPARE and not moving (R92). Every ACTIVE LINK channel has a
committed width of at least its W_min, and a STOPPED channel holds no lane, applied or moving (R89); a LISTEN channel
holds none either. That the least width holds at a change of home too, where a lane whose move is to be followed up has
just reached the channel, is the model's choice (log 58), and so is that the width can pass R89's greatest (log 40). -/
def Obligations.CallsAndChannelsHoldTheirLanes : Prop :=
  ∀ s t : State, laneListsLegal s → step s = .next t →
    (pendingSound s → pendingSound t) ∧ (channelLanesHeld s → channelLanesHeld t) ∧ (widthsHeld s → widthsHeld t)

/-- The numbers of the timing unit stay in the ranges of their rules (R60, R66, R70, R72, R74, R78), the lock count
within 0..256, the unlock count within 0..8 and the realign count within 0..4 (R67 to R69). -/
def Obligations.TimingStaysInRange : Prop :=
  ∀ s t : State, timingInRange s → step s = .next t → timingInRange t

/-- The owned-lane table and the listen list stay legal lists in ascending order (R84), and a move toward a CHANNEL
stands only on a lane whose applied use is SPARE or CALL (R91, R94, R95, R99). -/
def Obligations.LaneListsStayLegal : Prop :=
  ∀ s t : State, laneListsLegal s → step s = .next t →
    laneListsLegal t ∧ (channelMovesStand s → channelMovesStand t)

/-! ### Pin reset -/

/-- While RESET is held every block stands in its pin-reset state, and the part runs on from that state when RESET is
released: the values of the tables of R22, R39, R58, R81, R104, R123, R142, R164, R174 and R182. A channel record and
the station filter stand whole at these values; where the spec gives a field of them none, it is the model's own (logs
4, 5, 6, 15 and 36). -/
def Obligations.PinResetSetsEveryBlock : Prop :=
  ∀ (pref : Side) (s : State),
    (∃ t, exec (.pinResetAssert pref) s = .next t ∧ t.resetHeld = true ∧ atPinReset pref s t)
      ∧ (s.resetHeld = true →
          ∃ t, exec (.pinResetRelease pref) s = .next t ∧ t.resetHeld = false ∧ atPinReset pref s t)

/-! ### Receivers -/

/-- The LOS lines. LOS asserted (R5, R8, R10): the receiver enters NO_LIGHT, its store is emptied, its flags are cleared
and any candidate is dropped; the source's loss of SYNCED brings the timing unit from ACQUIRING or TRACKING into
HOLDOVER with C frozen (R63); reachability is judged again (R25, R27, R31). LOS released (R5): the receiver enters HUNT
and searches from where the stream stands (counted from there, log 6). The state entered is marked (R9), and nothing
else changes. The model's choices: positions count from where the search begins (log 6), the receiver out of SYNCED
holds no alignment (log 6), and its fault count is 0 (log 13). -/
def Obligations.LosDrivesTheReceiver : Prop :=
  ∀ (x : Side) (s : State), s.resetHeld = false →
    ((s.rx.get x).los = false →
      ∃ t, exec (.losAssert x) s = .next t
        ∧ t.rx = s.rx.set x
            { s.rx.get x with
              state := .noLight, los := true, candidate := none, alignment := none, fsaSeen := false, pbSeen := false,
              faultRun := 0 }
        ∧ t.flow = s.flow.set x.other { s.flow.get x.other with store := [], mode := .notDelivering }
        ∧ t.timing =
            (if (s.rx.get x).state = .synced ∧ s.timing.auto = true ∧ s.homing.home = x
                ∧ (s.timing.mode = .acquiring ∨ s.timing.mode = .tracking) then
              { s.timing with
                mode := .holdover, correction := clampInt (s.timing.integral / 64) (-1024) 1023, lockCount := 0,
                unlockCount := 0, realignCount := 0, armed := false, holdTimer := 0 }
            else s.timing)
        ∧ t.homing = countsJudged s.homing t
        ∧ hasMark (.rx x) RxState.noLight.code t
        ∧ onlyReports s.link t.link
        ∧ t = { s with rx := t.rx, flow := t.flow, timing := t.timing, homing := t.homing, link := t.link })
    ∧ ((s.rx.get x).los = true →
      exec (.losRelease x) s = .next
        (raise (.rx x) RxState.hunt.code
          { s with
            rx := s.rx.set x
              { s.rx.get x with state := .hunt, los := false, searchAt := 0, candidate := none } }))

/-- HUNT (R6): the marker gives a candidate alignment; a second and a third good cycle are counted; a cycle that is not
good drops the candidate, and the search goes on at the next bit position. The fourth good cycle makes the receiver
SYNCED at that alignment; its store is empty and its flow is priming (R10), the entry is marked (R9) and reachability is
judged again (R25): no message of the end has come through the store, and the end is not reachable, present or not. That
such a message counts from this entry on is the model's reading (log 36). Nothing else changes. The model's choices:
positions count modulo one cycle from where the search began (log 6); the fourth good cycle is not stored, starts
nothing and touches no flag, and its number is the number received before (log 13). -/
def Obligations.HuntNeedsFourGoodCycles : Prop :=
  ∀ (x : Side) (position : Nat) (c : Cycle) (s : State), s.resetHeld = false → (s.rx.get x).state = .hunt →
    ((s.rx.get x).candidate = none → c.h0 = 0xB2#8 →
      exec (.candidateFound x position c) s = .next
        { s with
          rx := s.rx.set x
            { s.rx.get x with
              candidate := some { position := position, good := 1, last := headerNumber c.h1 } } })
    ∧ (∀ k : Candidate, (s.rx.get x).candidate = some k →
        (c.h0 = 0xB2#8 → headerNumber c.h1 = k.last + 1#4 → k.good < 3 →
          exec (.huntCycle x c) s = .next
            { s with
              rx := s.rx.set x
                { s.rx.get x with
                  candidate := some { k with good := k.good + 1, last := headerNumber c.h1 } } })
        ∧ (¬ (c.h0 = 0xB2#8 ∧ headerNumber c.h1 = k.last + 1#4) →
          exec (.huntCycle x c) s = .next
            { s with
              rx := s.rx.set x
                { s.rx.get x with candidate := none, searchAt := (k.position + 1) % 1056 } })
        ∧ (k.good = 3 → c.h0 = 0xB2#8 → headerNumber c.h1 = k.last + 1#4 →
          ∃ t, exec (.syncAcquired x c) s = .next t ∧ exec (.huntCycle x c) s = .next t
            ∧ t.rx = s.rx.set x
                { s.rx.get x with
                  state := .synced, candidate := none, alignment := some k.position,
                  lastNumber := headerNumber c.h1, faultRun := 0 }
            ∧ t.flow = s.flow.set x.other { s.flow.get x.other with store := [], mode := .priming, heard := false }
            ∧ reachable t x = false
            ∧ t.homing = countsJudged s.homing t
            ∧ hasMark (.rx x) RxState.synced.code t
            ∧ onlyReports s.link t.link
            ∧ t = { s with rx := t.rx, flow := t.flow, homing := t.homing, link := t.link }))

/-! ### Cycles received in SYNCED -/

/-- What a SYNCED receiver does with a cycle that leaves it SYNCED (R7, R8, R10, R13), whatever the timing unit does
with its start short of a realignment: it judges the cycle by its marker and its number, keeps the number the cycle
carried, and writes the cycle into its flow's store with the received or the substituted number; in a full store the
oldest cycle is lost as an overflow slip, counted and marked. Nothing else changes but the timing unit and the homing
counts. -/
def Obligations.ReceivedCycleIsJudgedAndStored : Prop :=
  ∀ (arr : Arrival) (s : State), s.resetHeld = false → staysSynced arr s →
    ¬ (sourceAt arr s ∧ s.timing.mode = .acquiring ∧ s.timing.armed = true) →
    ∃ t, exec (.receivedCycle arr) s = .next t
      ∧ (let r := s.rx.get arr.port
         let number := headerNumber arr.cycle.h1
         let good := decide (arr.cycle.h0 = 0xB2#8) && decide (number = r.lastNumber + 1#4)
         let f := s.flow.get arr.port.other
         let stored : Stored :=
           { number := r.lastNumber + 1#4, h2 := arr.cycle.h2, h3 := arr.cycle.h3, lanes := arr.cycle.lanes }
         t.rx = s.rx.set arr.port
             (if good then
               { r with
                 lastNumber := number, faultRun := 0, fsaSeen := arr.cycle.h1.getLsbD 7,
                 pbSeen := arr.cycle.h1.getLsbD 6 }
             else { r with lastNumber := number, faultRun := r.faultRun + 1, headerFaults := r.headerFaults + 1#16 })
           ∧ t.flow = s.flow.set arr.port.other
             (if f.store.length < 4 then { f with store := f.store ++ [stored] }
             else { f with store := f.store.tail ++ [stored], overflows := f.overflows + 1#16 })
           ∧ (4 ≤ f.store.length → hasMark (.slip arr.port.other) Mark.overflowSlip t))
      ∧ (¬ sourceAt arr s → t.timing = s.timing.run arr.elapsed)
      ∧ t.homing = countsJudged s.homing t
      ∧ onlyReports s.link t.link
      ∧ t = { s with rx := t.rx, flow := t.flow, timing := t.timing, homing := t.homing, link := t.link }

/-- The fourth consecutive faulted cycle (R7, R8, R10): the receiver enters HUNT with its flags cleared, and its store,
which that cycle still reached, is emptied. Its start is still signalled (R7), and where it is used as a sample (R61)
the timing unit makes the loop step (R66) and then, the source having left SYNCED, is in HOLDOVER with C frozen from the
integral, the counts 0 and the timer 0 (R63); where it is not used the unit only runs on. The homing counts are judged
at the cycle and again as the receiver leaves SYNCED (R27, R31). Nothing else changes but the reports. With realignment
armed the start is the realignment instant (R69), and the unit is in HOLDOVER after it. That the cycle is judged and
stored first, its start signalled next, with its loop step or its realignment, and the receiver taken out of SYNCED last
is the model's choice (log 10), and so are the receiver's search position 0 and its want of an alignment (log 6), its
fault count of 0 in HUNT (log 13) and the bits of the line (log 41). -/
def Obligations.FourthFaultLosesSync : Prop :=
  ∀ (arr : Arrival) (s : State), s.resetHeld = false → (s.rx.get arr.port).state = .synced →
    (s.rx.get arr.port).faultRun = 3 → inSequence (s.rx.get arr.port) arr.cycle = false →
    (¬ (sourceAt arr s ∧ s.timing.mode = .acquiring ∧ s.timing.armed = true) →
      ∃ t, exec (.syncLost arr) s = .next t ∧ exec (.receivedCycle arr) s = .next t
        ∧ t.rx = s.rx.set arr.port
            { s.rx.get arr.port with
              state := .hunt, searchAt := 0, candidate := none, alignment := none,
              lastNumber := headerNumber arr.cycle.h1, faultRun := 0, fsaSeen := false, pbSeen := false,
              headerFaults := (s.rx.get arr.port).headerFaults + 1#16 }
        ∧ (let f := s.flow.get arr.port.other
           t.flow = s.flow.set arr.port.other
              { f with
                store := [], mode := .notDelivering,
                overflows := if f.store.length < 4 then f.overflows else f.overflows + 1#16 })
        ∧ (let run := s.timing.run arr.elapsed
           let used := sourceAt arr s
            ∧ (s.timing.mode = .acquiring ∨ s.timing.mode = .tracking ∨ s.homing.isolated = false)
           let start : Timing := if s.timing.mode = .free then { run with integral := 64 * s.timing.trim } else run
           let sampled := start.loop run.error
           (used →
              t.timing =
                { sampled with
                  mode := .holdover,
                  correction := if sampled.integral / 64 < -1024 then -1024
                    else if 1023 < sampled.integral / 64 then 1023 else sampled.integral / 64,
                  lockCount := 0, unlockCount := 0, realignCount := 0, armed := false, holdTimer := 0 }
                ∧ hasMark .timing TimingMode.holdover.code t)
            ∧ (¬ used → t.timing = run))
        ∧ t.homing = countsJudged (countsJudged s.homing s) t
        ∧ hasMark (.rx arr.port) RxState.hunt.code t
        ∧ onlyReports s.link t.link
        ∧ t = { s with rx := t.rx, flow := t.flow, timing := t.timing, homing := t.homing, link := t.link })
    ∧ (sourceAt arr s → s.timing.mode = .acquiring → s.timing.armed = true →
      ((s.timing.run arr.elapsed).phase.toNat < 2 ^ 31 →
        ∃ t, exec (.syncLost arr) s = .next t ∧ exec (.receivedCycle arr) s = .next t
          ∧ t.rx = s.rx.set arr.port
              { s.rx.get arr.port with
                state := .hunt, searchAt := 0, candidate := none, alignment := none,
                lastNumber := headerNumber arr.cycle.h1, faultRun := 0, fsaSeen := false, pbSeen := false,
                headerFaults := (s.rx.get arr.port).headerFaults + 1#16 }
          ∧ (let f := s.flow.get arr.port.other
             t.flow = s.flow.set arr.port.other
                { f with
                  store := [], mode := .notDelivering,
                  overflows := if f.store.length < 4 then f.overflows else f.overflows + 1#16 })
          ∧ t.homing = countsJudged (countsJudged s.homing s) t
          ∧ t.timing =
              { s.timing with
                phase := 0#32, mode := .holdover,
                correction := if s.timing.integral / 64 < -1024 then -1024
                  else if 1023 < s.timing.integral / 64 then 1023 else s.timing.integral / 64,
                lockCount := 0, unlockCount := 0, realignCount := 0, armed := false, holdTimer := 0 }
          ∧ t.line = { s.line with longer := s.line.longer + (s.timing.run arr.elapsed).lineBits }
          ∧ hasMark .timing Mark.realign t ∧ hasMark .timing TimingMode.holdover.code t
          ∧ hasMark (.rx arr.port) RxState.hunt.code t
          ∧ onlyReports s.link t.link
          ∧ t = { s with
                rx := t.rx, flow := t.flow, timing := t.timing, homing := t.homing, line := t.line, link := t.link })
        ∧ (2 ^ 31 ≤ (s.timing.run arr.elapsed).phase.toNat →
          ∃ t, exec (.syncLost arr) s = .next t ∧ exec (.receivedCycle arr) s = .next t
            ∧ (t.rx.get arr.port).state = .hunt
            ∧ (t.rx.get arr.port).headerFaults = (s.rx.get arr.port).headerFaults + 1#16
            ∧ (t.flow.get arr.port.other).store = [] ∧ (t.flow.get arr.port.other).mode = .notDelivering
            ∧ t.timing.phase = 0#32 ∧ t.timing.mode = .holdover ∧ t.timing.integral = s.timing.integral
            ∧ t.timing.armed = false ∧ hasMark .timing Mark.realign t
            ∧ hasMark .timing TimingMode.holdover.code t ∧ hasMark (.rx arr.port) RxState.hunt.code t
            ∧ t.line.longer = 0))

/-! ### The tracking loop -/

/-- The phase error and one loop step (R65, R66): E is Q, or Q minus 4096 from 2048 on; E is clamped to -64..63; the
integral takes I - E_c and the correction floor(I / 64) - 8 E_c, each clamped; nothing else of the timing unit changes.
An ordinary sample of the source makes that step with the counts of its mode: the lock count rises within -2..+2 and
returns to 0 outside it (R67), the realign count rises outside -64..+63 and returns to 0 within it (R69), and in
TRACKING the unlock count rises outside -16..+16 and returns to 0 within it (R68); the mode stays, and the cycle is
judged and stored (R7). -/
def Obligations.LoopStepFollowsItsRule : Prop :=
  ∀ (t : Timing) (e : Int),
    t.error = (if t.phase.toNat / 2 ^ 20 < 2048 then ((t.phase.toNat / 2 ^ 20 : Nat) : Int)
      else ((t.phase.toNat / 2 ^ 20 : Nat) : Int) - 4096)
    ∧ -2048 ≤ t.error ∧ t.error ≤ 2047
    ∧ (let ec : Int := if e < -64 then -64 else if 63 < e then 63 else e
       let i : Int :=
        if t.integral - ec < -65536 then -65536 else if 65535 < t.integral - ec then 65535 else t.integral - ec
       let c : Int := i / 64 - 8 * ec
       t.loop e =
         { t with
           integral := i, correction := if c < -1024 then -1024 else if 1023 < c then 1023 else c })
    ∧ (∀ (arr : Arrival) (s : State), s.resetHeld = false → staysSynced arr s → sourceAt arr s →
      (let run := s.timing.run arr.elapsed
       let e := run.error
       (s.timing.mode = .acquiring → s.timing.armed = false → ¬ (255 ≤ s.timing.lockCount ∧ -2 ≤ e ∧ e ≤ 2) →
          (s.timing.realignCount < 3 ∨ (-64 ≤ e ∧ e ≤ 63)) →
        ∃ u, exec (.receivedCycle arr) s = .next u ∧ takenIn arr s u
          ∧ u.timing =
              { run.loop e with
                lockCount := if -2 ≤ e ∧ e ≤ 2 then s.timing.lockCount + 1 else 0,
                realignCount := if -64 ≤ e ∧ e ≤ 63 then 0 else s.timing.realignCount + 1, armed := false })
        ∧ (s.timing.mode = .tracking → (s.timing.unlockCount < 7 ∨ (-16 ≤ e ∧ e ≤ 16)) →
          ∃ u, exec (.receivedCycle arr) s = .next u ∧ takenIn arr s u
            ∧ u.timing =
                { run.loop e with
                  unlockCount := if -16 ≤ e ∧ e ≤ 16 then 0 else s.timing.unlockCount + 1 })))

/-- A received cycle start of the source ends FREE under AUTO (R62) and HOLDOVER (R64) while the node is not ISOLATED:
the mode becomes ACQUIRING and the start is sampled as the first sample. From FREE the integral starts at 64 T; from
HOLDOVER it is kept and the holdover timer returns to 0. -/
def Obligations.CycleStartBeginsAcquisition : Prop :=
  ∀ (arr : Arrival) (s : State), s.resetHeld = false → staysSynced arr s → sourceAt arr s →
    s.homing.isolated = false → (s.timing.mode = .free ∨ s.timing.mode = .holdover) →
    ∃ t, exec (.receivedCycle arr) s = .next t
      ∧ (s.timing.mode = .free → exec (.acquireStart arr) s = .next t)
      ∧ (s.timing.mode = .holdover → exec (.holdoverExit arr) s = .next t)
      ∧ (let run := s.timing.run arr.elapsed
         let e := run.error
         let start : Timing :=
           if s.timing.mode = .free then { run with integral := 64 * s.timing.trim } else { run with holdTimer := 0 }
         t.timing =
           { start.loop e with
             mode := .acquiring, unlockCount := 0, armed := false,
             lockCount := if -2 ≤ e ∧ e ≤ 2 then 1 else 0, realignCount := if -64 ≤ e ∧ e ≤ 63 then 0 else 1 })
      ∧ hasMark .timing TimingMode.acquiring.code t ∧ takenIn arr s t

/-- The 256th consecutive sample within -2..+2 makes ACQUIRING TRACKING (R67), and the 8th consecutive sample outside
-16..+16 makes TRACKING ACQUIRING (R68), each at that sample and after its loop step. -/
def Obligations.LockAndUnlockChangeTheMode : Prop :=
  ∀ (arr : Arrival) (s : State), s.resetHeld = false → staysSynced arr s → sourceAt arr s →
    (s.timing.mode = .acquiring → s.timing.armed = false → s.timing.lockCount = 255 →
      -2 ≤ (s.timing.run arr.elapsed).error → (s.timing.run arr.elapsed).error ≤ 2 →
      ∃ t, exec (.lock arr) s = .next t ∧ exec (.receivedCycle arr) s = .next t
        ∧ t.timing =
            { (s.timing.run arr.elapsed).loop (s.timing.run arr.elapsed).error with
              mode := .tracking, lockCount := 256, unlockCount := 0, realignCount := 0, armed := false }
        ∧ hasMark .timing TimingMode.tracking.code t ∧ takenIn arr s t)
    ∧ (s.timing.mode = .tracking → s.timing.unlockCount = 7 →
      ((s.timing.run arr.elapsed).error < -16 ∨ 16 < (s.timing.run arr.elapsed).error) →
      ∃ t, exec (.unlock arr) s = .next t ∧ exec (.receivedCycle arr) s = .next t
        ∧ t.timing =
            { (s.timing.run arr.elapsed).loop (s.timing.run arr.elapsed).error with
              mode := .acquiring, lockCount := 0, unlockCount := 8, realignCount := 0, armed := false }
        ∧ hasMark .timing TimingMode.acquiring.code t ∧ takenIn arr s t)

/-- Realignment (R69): the fourth consecutive sample outside -64..+63 arms it, its loop step still made; the next start
of the source is not sampled, but sets the phase and the lock and realign counts to 0, disarms it, keeps I and C and is
marked REALIGN. Before Q reaches 2048 that makes no local cycle boundary, and the cycle in progress lasts on; from then
on it is one: the cycle in progress is cut, the raw time advances by one (R70) unless a message handed over sets it, and
each transmitter starts a cycle under the number its counter takes (R3); the mode stays ACQUIRING unless the homing unit
has a decision to make there. How many bits the line has carried is the model's reading (log 41). That the cycle
received is judged and stored before its start is signalled, so that a boundary made there reads the store with it, is
the model's choice (log 10). -/
def Obligations.RealignmentResetsThePhase : Prop :=
  ∀ (arr : Arrival) (s : State), s.resetHeld = false → staysSynced arr s → sourceAt arr s →
    s.timing.mode = .acquiring →
    (s.timing.armed = false → s.timing.realignCount = 3 →
      ((s.timing.run arr.elapsed).error < -64 ∨ 63 < (s.timing.run arr.elapsed).error) →
      ∃ t, exec (.realignArm arr) s = .next t ∧ exec (.receivedCycle arr) s = .next t
        ∧ t.timing =
            { (s.timing.run arr.elapsed).loop (s.timing.run arr.elapsed).error with
              lockCount := 0, realignCount := 4, armed := true }
        ∧ takenIn arr s t)
    ∧ (s.timing.armed = true → (s.timing.run arr.elapsed).phase.toNat < 2 ^ 31 →
      ∃ t, exec (.realign arr) s = .next t ∧ exec (.receivedCycle arr) s = .next t
        ∧ t.timing = { s.timing with phase := 0#32, lockCount := 0, realignCount := 0, armed := false }
        ∧ hasMark .timing Mark.realign t
        ∧ takenIn arr
            { s with line := { s.line with longer := s.line.longer + (s.timing.run arr.elapsed).lineBits } } t)
    ∧ (s.timing.armed = true → 2 ^ 31 ≤ (s.timing.run arr.elapsed).phase.toNat →
      ∃ t, exec (.realign arr) s = .next t ∧ exec (.receivedCycle arr) s = .next t
        ∧ t.timing.phase = 0#32 ∧ t.timing.integral = s.timing.integral ∧ t.timing.lockCount = 0
        ∧ t.timing.realignCount = 0 ∧ t.timing.armed = false ∧ hasMark .timing Mark.realign t
        ∧ (t.timing.mode = .acquiring → t.timing.correction = s.timing.correction)
        ∧ (let u := storeCycle arr.port arr.cycle s
           let lasted :=
            if s.flow.a.startUp = some 0 then 0 else s.line.longer + (s.timing.run arr.elapsed).lineBits
           ((roundBegins u → homeStays u) → t.timing.mode = .acquiring)
            ∧ (noMessage u →
                t.timing.seconds = (if s.timing.cycle < 7999 then s.timing.seconds else s.timing.seconds + 1#32)
                ∧ t.timing.cycle = (if s.timing.cycle < 7999 then s.timing.cycle + 1 else 0))
            ∧ (∀ x : Side, (t.flow.get x).counter = nextCounter x u ∧ (t.flow.get x).sent.h0 = 0xB2#8
                ∧ headerNumber (t.flow.get x).sent.h1 = nextCounter x u)
            ∧ t.line =
                { longer := 0, ended := { a := s.flow.a.sent, b := s.flow.b.sent }, bits := min lasted 1056,
                  fill := lasted - 1056 }))

/-! ### Local cycle boundaries -/

/-- A local cycle boundary and the commands that name its occasions touch no setting: receivers but for the presence
timers, homing and timing settings, lanes, floors, call levels and hooks, port functions and receive states, channel
settings and the station table's capacity stay, and so does the rest of the control link. -/
def Obligations.BoundariesKeepTheSettings : Prop :=
  ∀ (status : List Half) (x : Side) (p : PortNo) (lane : Nat) (s t : State) (c : Instr),
    c ∈ boundaryCommands status x p lane → exec c s = .next t → settingsKept s t

/-- A local cycle boundary writes frame memory only in the blocks of outbound chains: what the parsers and the station
filter assemble (R143, R157, R172). Every other byte reads as before. What a byte of a lane does at its reader: only the
parser of an ACTIVE LINK channel reads; a bad header ends the round block, and a frame in ASSEMBLING is discarded
ABORTED (R156); so is one that a START, SINGLE or ABORT finds there, and an ABORT leaves NO_FRAME (R157). The last byte
before the payload of a START or SINGLE opens a frame, or, with no free block, is an overflow (R157, R158): that instant
is the model's choice (log 45). A payload byte stands at the frame's next place, in a new block where the block in hand
is full, and its length and the running check take it in; without a free block the frame is lost OVERFLOW, and one above
the maximum length TOO_LONG, the parser SKIPPING but for a SINGLE lost to overflow (R157, R158; after a TOO_LONG SINGLE
the model's choice, log 30), and a port that has begun it sends the abort marker. The last check byte closes the frame,
or discards it TRUNK_CHECK (R157); an END in SKIPPING leaves NO_FRAME, also the END within which the frame was lost: the
model's choice (log 56). The station filter decides the target set (R171), opens a copy in the chain of each target,
writes each payload byte into every open copy, loses a copy on its own as the parser loses a frame and is SKIPPING once
none is left, ends all at a START, SINGLE, ABORT or bad header, and closes them or discards them TRUNK_CHECK (R172). -/
def Obligations.BoundariesWriteOutboundBlocksAlone : Prop :=
  (∀ (status : List Half) (x : Side) (p : PortNo) (lane : Nat) (s t : State) (c : Instr) (a : Nat),
    c ∈ boundaryCommands status x p lane → exec c s = .next t →
    (∀ (k : ChanNo) (ch : Chain), s.chans[k].outChain = some ch → ch.blocks ≠ [] ∧ a / 32 ∉ ch.blocks) →
    Memory.read t.mem a = Memory.read s.mem a)
  ∧ (∀ (k : ChanNo) (b : Byte) (s : State),
      (¬ (s.chans[k].state = .active ∧ s.chans[k].set.listen = false) → parserByte k s b = s)
      ∧ (∀ (m : Nat) (at' : ParcelAt) (c : Chain), s.chans[k].state = .active → s.chans[k].set.listen = false →
          s.chans[k].parser.stream = { left := m + 1, at' := at' } → s.chans[k].outChain = some c →
        (let u := parserByte k s b
         let ch := s.chans[k]
         let rest (place : ParcelAt) : ParcelStream := { left := m, at' := place }
         (at' = .header → b = 0xFF#8 →
            u = { s with chans := s.chans.set k { ch with parser := { ch.parser with stream := rest .header } } })
          ∧ (at' = .header → b ≠ 0xFF#8 → (m = 0 ∨ b = 0#8 ∨ 5 < b.toNat) →
              u.chans[k].parser.stream = { left := 0, at' := .header }
                ∧ (ch.parser.state ≠ .assembling →
                    u.chans[k] = { ch with parser := { ch.parser with stream := { left := 0, at' := .header } } })
                ∧ (ch.parser.state = .assembling →
                    u.chans[k].parser.state = .noFrame ∧ u.chans[k].outChain = some c.dropNewest
                      ∧ u.chans[k].counters = { ch.counters with aborted := oneMore ch.counters.aborted }
                      ∧ hasMark (.channel k) Discard.aborted.mark u))
          ∧ (∀ (kind : ParcelKind) (address : List Byte) (n : Nat), kind = .start ∨ kind = .single →
              at' = .before kind address 1 n →
              (c.occupancy < c.blocks.length →
                  u = { s with
                        chans := s.chans.set k
                          { ch with
                            outChain := some c.withOpened,
                            parser :=
                              { stream := rest (.afterAddress kind n), state := .assembling, count := 0,
                                check := 0xFFFF#16 } },
                        mem := u.mem }
                    ∧ (∀ i, i < 12 → Memory.read u.mem (32 * c.blockAt c.writer + i) = 0#8)
                    ∧ (∀ a, (a < 32 * c.blockAt c.writer ∨ 32 * c.blockAt c.writer + 12 ≤ a) →
                        Memory.read u.mem a = Memory.read s.mem a))
                ∧ (c.blocks.length ≤ c.occupancy →
                    u.chans[k] =
                        { ch with
                          parser :=
                            { ch.parser with
                              stream := rest (.afterAddress kind n),
                              state := if kind = .start then .skipping else .noFrame },
                          counters := { ch.counters with overflow := oneMore ch.counters.overflow } }
                      ∧ u.mem = s.mem ∧ hasMark (.channel k) Discard.overflow.mark u))
          ∧ (∀ (kind : ParcelKind) (n : Nat) (f : Frame), at' = .payload kind n → ch.parser.state = .assembling →
              takesByte k c f s →
              (let g := { f with length := f.length + 1 }
               let place := c.payloadAddress f f.length
               let record := 32 * c.blockAt f.start
               u = { s with
                    chans := s.chans.set k
                      { ch with
                        outChain := some (c.withNewest g),
                        parser :=
                          { stream := rest (.afterByte kind n), state := .assembling, count := ch.parser.count + 1,
                            check := c16Step ch.parser.check b } },
                    mem := u.mem }
                ∧ (∀ i, i < 12 → Memory.read u.mem (record + i) = byteAt g.record i)
                ∧ ((place < record ∨ record + 12 ≤ place) → Memory.read u.mem place = b)
                ∧ (∀ a, a ≠ place → (a < record ∨ record + 12 ≤ a) → Memory.read u.mem a = Memory.read s.mem a)))
          ∧ (∀ (kind : ParcelKind) (n : Nat) (f : Frame), at' = .payload kind n → ch.parser.state = .assembling →
              c.frames.getLast? = some f → f.length < ch.set.maxLength → 20 + 32 * (f.taken - 1) ≤ f.length →
              c.occupancy < c.blocks.length →
              (let g := { f with length := f.length + 1, taken := f.taken + 1 }
               let place := c.payloadAddress f f.length
               let record := 32 * c.blockAt f.start
               u = { s with
                    chans := s.chans.set k
                      { ch with
                        outChain := some
                          { c.withNewest g with writer := (c.writer + 1) % c.blocks.length },
                        parser :=
                          { stream := rest (.afterByte kind n), state := .assembling, count := ch.parser.count + 1,
                            check := c16Step ch.parser.check b } },
                    mem := u.mem }
                ∧ ((place < record ∨ record + 12 ≤ place) → Memory.read u.mem place = b)
                ∧ (∀ a, a ≠ place → (a < record ∨ record + 12 ≤ a) → Memory.read u.mem a = Memory.read s.mem a)))
          ∧ (∀ (kind : ParcelKind) (n : Nat) (f : Frame) (d : Discard), at' = .payload kind n →
              ch.parser.state = .assembling → losesByte k c f d s →
              u.chans[k] =
                  { ch with
                    outChain := some c.dropNewest,
                    parser :=
                      { ch.parser with
                        stream := rest (.afterByte kind n),
                        state := if d = .overflow ∧ kind = .single then .noFrame else .skipping },
                    counters := ch.counters.oneMore d }
                ∧ u.mem = s.mem ∧ hasMark (.channel k) d.mark u
                ∧ (∀ p, ch.set.port = some p → f.begun = true → s.ports[p].tx.state = .sending k →
                    s.ports[p].tx.aborting = false →
                    u.ports[p].tx =
                      { s.ports[p].tx with
                        aborting := true, closedBy := none,
                        out := [(ch.set.escape, .plain), (ch.set.delimiter, .aborted)],
                        fill := if ch.set.transparent = true then 0xFF#8 else s.ports[p].tx.fill }))
          ∧ (∀ (kind : ParcelKind) (n : Nat), at' = .payload kind n → ch.parser.state ≠ .assembling →
              u = { s with
                    chans := s.chans.set k
                      { ch with parser := { ch.parser with stream := rest (.afterByte kind n) } } })
          ∧ (∀ (kind : ParcelKind) (first : Byte), at' = .second first → first = kind.code →
              (¬ headerGood kind b (m + 2) →
                u.chans[k].parser.stream = { left := 0, at' := .header }
                  ∧ (ch.parser.state ≠ .assembling →
                      u.chans[k] = { ch with parser := { ch.parser with stream := { left := 0, at' := .header } } })
                  ∧ (ch.parser.state = .assembling →
                      u.chans[k].parser.state = .noFrame ∧ u.chans[k].outChain = some c.dropNewest
                        ∧ u.chans[k].counters = ch.counters.oneMore .aborted
                        ∧ hasMark (.channel k) Discard.aborted.mark u))
              ∧ (headerGood kind b (m + 2) →
                (let stream := rest (.afterHeader kind b)
                 ((kind = .middle ∨ kind = .last) ∨ (kind ≠ .abort ∧ ch.parser.state ≠ .assembling) →
                    u = { s with chans := s.chans.set k { ch with parser := { ch.parser with stream := stream } } })
                  ∧ (kind = .abort → ch.parser.state ≠ .assembling →
                    u = { s with
                          chans := s.chans.set k
                            { ch with parser := { ch.parser with stream := stream, state := .noFrame } } })
                  ∧ (kind ≠ .middle → kind ≠ .last → ch.parser.state = .assembling →
                    u.chans[k] =
                        { ch with
                          outChain := some c.dropNewest,
                          parser := { ch.parser with stream := stream, state := .noFrame },
                          counters := ch.counters.oneMore .aborted }
                      ∧ u.mem = s.mem ∧ hasMark (.channel k) Discard.aborted.mark u))))
          ∧ (∀ (kind : ParcelKind) (first : Byte), at' = .check kind (some first) → ch.parser.state ≠ .assembling →
              u = { s with
                    chans := s.chans.set k
                      { ch with
                        parser :=
                          { ch.parser with
                            stream := rest .header,
                            state := if kind = .single then ch.parser.state else .noFrame } } })
          ∧ (∀ (kind : ParcelKind) (first : Byte) (f : Frame), at' = .check kind (some first) →
              ch.parser.state = .assembling → ch.set.transparent = false → c.frames.getLast? = some f →
              (let carried := first.toNat * 256 + b.toNat
               (carried = (~~~ ch.parser.check).toNat →
                  u.chans = s.chans.set k
                      { ch with
                        outChain := some (c.withNewest f.closedOut),
                        parser := { ch.parser with stream := rest .header, state := .noFrame } }
                    ∧ (∀ a, (a < 32 * c.blockAt f.start ∨ 32 * c.blockAt f.start + 12 ≤ a) →
                        Memory.read u.mem a = Memory.read s.mem a)
                    ∧ u = { s with chans := u.chans, mem := u.mem })
                ∧ (carried ≠ (~~~ ch.parser.check).toNat →
                    u.chans[k] =
                        { ch with
                          outChain := some c.dropNewest,
                          parser := { ch.parser with stream := rest .header, state := .noFrame },
                          counters := { ch.counters with trunkCheck := oneMore ch.counters.trunkCheck } }
                      ∧ u.mem = s.mem ∧ hasMark (.channel k) Discard.trunkCheck.mark u))))))
  ∧ (∀ (s : State) (a : Nat) (k : ChanNo), tableSound s →
      (k ∈ targetsFor s a ↔ s.chans[k].state = .active ∧ s.chans[k].set.listen = true
        ∧ (a = 65535 ∨ (a ≠ 0 ∧ ∃ e ∈ s.filter.table, e.1 = a ∧ e.2.getLsbD k.val = true))))
  ∧ (∀ (b : Byte) (s : State),
      (s.filter.nextGroup ≠ none → filterByte s b = s)
      ∧ (∀ (m : Nat) (at' : ParcelAt), s.filter.nextGroup = none →
          s.filter.stream = { left := m + 1, at' := at' } → s.filter.copies.Nodup →
        (let u := filterByte s b
         let old := s.filter
         let rest (place : ParcelAt) : ParcelStream := { left := m, at' := place }
         (∀ (kind : ParcelKind) (address : List Byte) (n : Nat), kind = .start ∨ kind = .single →
            at' = .before kind address 1 n →
            (let targets := targetsFor s (halfAt (if address.length < 2 then address ++ [b] else address) 0)
             (targets = [] →
                u = { s with
                      filter :=
                        { old with
                          stream := rest (.afterAddress kind n), targets := [], copies := [], count := 0,
                          check := 0xFFFF#16, state := if kind = .start then .skipping else .noFrame } })
              ∧ (targets ≠ [] → (∀ k ∈ targets, ∃ c, s.chans[k].outChain = some c ∧ c.occupancy < c.blocks.length) →
                u.filter =
                    { old with
                      stream := rest (.afterAddress kind n), targets := targets, copies := targets, count := 0,
                      check := 0xFFFF#16, state := .assembling }
                  ∧ (∀ k ∈ targets, u.chans[k] =
                      { s.chans[k] with outChain := s.chans[k].outChain.map Chain.withOpened })
                  ∧ (∀ k, k ∉ targets → u.chans[k] = s.chans[k])
                  ∧ u = { s with chans := u.chans, filter := u.filter, mem := u.mem })))
          ∧ (∀ (kind : ParcelKind) (n : Nat), at' = .payload kind n → old.state = .assembling → old.copies ≠ [] →
              (∀ k ∈ old.copies, ∃ c f, takesByte k c f s) →
              u.filter =
                  { old with
                    stream := rest (.afterByte kind n), count := old.count + 1, check := c16Step old.check b }
                ∧ (∀ k ∈ old.copies, ∀ c f, takesByte k c f s →
                    u.chans[k] =
                      { s.chans[k] with outChain := some (c.withNewest { f with length := f.length + 1 }) })
                ∧ (∀ k, k ∉ old.copies → u.chans[k] = s.chans[k])
                ∧ (∀ k c f, old.copies = [k] → takesByte k c f s →
                    (c.payloadAddress f f.length < 32 * c.blockAt f.start
                      ∨ 32 * c.blockAt f.start + 12 ≤ c.payloadAddress f f.length) →
                    Memory.read u.mem (c.payloadAddress f f.length) = b)
                ∧ u = { s with chans := u.chans, filter := u.filter, mem := u.mem })
          ∧ (∀ (kind : ParcelKind) (n : Nat), at' = .payload kind n → old.state = .assembling → old.copies ≠ [] →
              (∀ k ∈ old.copies, ∃ c f, takesByte k c f s ∨ ∃ d, losesByte k c f d s) →
              (∀ k, k ∈ u.filter.copies ↔ k ∈ old.copies ∧ ∃ c f, takesByte k c f s)
                ∧ u.filter =
                    { old with
                      stream := rest (.afterByte kind n), count := old.count + 1, check := c16Step old.check b,
                      copies := u.filter.copies, state := if u.filter.copies = [] then .skipping else .assembling }
                ∧ (∀ k ∈ old.copies, ∀ c f d, losesByte k c f d s →
                    u.chans[k] =
                        { s.chans[k] with
                          outChain := some c.dropNewest, counters := s.chans[k].counters.oneMore d }
                      ∧ hasMark (.channel k) d.mark u))
          ∧ (∀ (kind : ParcelKind) (n : Nat), at' = .payload kind n → old.state ≠ .assembling →
              u = { s with filter := { old with stream := rest (.afterByte kind n) } })
          ∧ (∀ (kind : ParcelKind) (first : Byte), at' = .second first → first = kind.code →
              (let passed := headerGood kind b (m + 2) ∧ (kind = .middle ∨ kind = .last)
               let stream : ParcelStream :=
                if headerGood kind b (m + 2) then rest (.afterHeader kind b) else { left := 0, at' := .header }
               (passed → u = { s with filter := { old with stream := stream } })
                ∧ (¬ passed → old.state ≠ .assembling →
                  u = { s with
                        filter :=
                          { old with
                            stream := stream,
                            state := if kind = .abort ∧ headerGood kind b (m + 2) then .noFrame else old.state } })
                ∧ (¬ passed → old.state = .assembling →
                  u.filter = { old with stream := stream, state := .noFrame, copies := [] }
                    ∧ ∀ k ∈ old.copies, ∀ c, s.chans[k].outChain = some c →
                        u.chans[k] =
                            { s.chans[k] with
                              outChain := some c.dropNewest, counters := s.chans[k].counters.oneMore .aborted }
                          ∧ hasMark (.channel k) Discard.aborted.mark u)))
          ∧ (∀ (kind : ParcelKind) (first : Byte), at' = .check kind (some first) → old.state ≠ .assembling →
              u = { s with filter := { old with stream := rest .header, state := .noFrame } })
          ∧ (∀ (kind : ParcelKind) (first : Byte), at' = .check kind (some first) → old.state = .assembling →
              (let carried := first.toNat * 256 + b.toNat
               u.filter = { old with stream := rest .header, state := .noFrame, copies := [] }
                ∧ (∀ k ∈ old.copies, ∀ c f, s.chans[k].outChain = some c → c.frames.getLast? = some f →
                    (carried = (~~~ old.check).toNat → (∀ j ∈ old.copies, s.chans[j].set.transparent = false) →
                      u.chans[k] = { s.chans[k] with outChain := some (c.withNewest f.closedOut) })
                    ∧ (carried ≠ (~~~ old.check).toNat →
                      u.chans[k] =
                          { s.chans[k] with
                            outChain := some c.dropNewest,
                            counters :=
                              { s.chans[k].counters with trunkCheck := oneMore s.chans[k].counters.trunkCheck } }
                        ∧ hasMark (.channel k) Discard.trunkCheck.mark u)))))))

/-- The LOCAL_CYCLE_BOUNDARY (R60, R70): the oscillator runs on to the wrap, so that less than one INC is left in the
phase, and the raw time advances by one cycle, unless a message handed over at the same boundary sets it (R72). -/
def Obligations.LocalCycleMovesTheClock : Prop :=
  ∀ (status : List Half) (s : State), s.resetHeld = false → timingInRange s →
    ∃ t, exec (.localCycleBoundary status) s = .next t
      ∧ (∃ n, 1 ≤ n
          ∧ t.timing.phase.toNat + 2 ^ 32 = s.timing.phase.toNat + n * (1048576 + s.timing.correction).toNat)
      ∧ t.timing.phase.toNat < (1048576 + s.timing.correction).toNat
      ∧ (noMessage s →
          t.timing.seconds = (if s.timing.cycle = 7999 then s.timing.seconds + 1#32 else s.timing.seconds)
          ∧ t.timing.cycle = (if s.timing.cycle = 7999 then 0 else s.timing.cycle + 1))

/-- At a local cycle boundary each transmitter starts a cycle (R3): the marker; FSA while its own receiver is not SYNCED
(R15); PB for the reverse flow's receiver and start-up round (R16); bits 5 and 4 zero and its counter in the number; in
the slot the turn message of the flow toward home (R49), else what the flow delivers, else the EMPTY message (R14),
which a cycle numbered 0 makes: kind 00h, the origin, the count of its round, zeros and a good C16; a lane without a
role passes on and a DROP or SPARE lane is idle (R19). A DROP_CONTINUE lane passes on; an ADD lane of a call that speaks
carries the codec byte of its status word (R109, R125), and of one that does not the idle value; an ADD lane of a
channel carries the byte of its round block at the cycle's number and the lane's place (R153). From home, a call that
speaks is handed the byte of its DROP lane, any other the idle value (R109), each CALLPOINT port sends the control word
(R125), and the lanes of channels and of the listen group go to the parsers and to the station filter (R19). A round
block is built byte by byte up to the cycle sent, with the choices of R154 laid out as R153 gives them: where no parcel
has room, or nothing may be begun, one IDLE with a new choice after it, or IDLE to the end of the block. The model's
choices: the cycle sent is that of the boundary itself, with the home and the role tables taken at it (log 9); the round
block is built as each cycle starts (log 30); the EMPTY is fixed at its cycle numbered 0, and one that is passed over
leaves the last one (logs 31 and 37); the codec byte is the first of the status word, and the bits of both words stand
as log 51 has them. -/
def Obligations.LocalCycleSendsACycle : Prop :=
  (∀ (status : List Half) (s : State) (x : Side), s.resetHeld = false →
    ∃ t, exec (.localCycleBoundary status) s = .next t
      ∧ (let f := t.flow.get x
         let r := s.rx.get x.other
         let message := if t.homing.home = x then t.round.turnMessage else none
         let lanes := if f.mode = .delivering then f.taken.lanes else idleLanes
         f.counter = nextCounter x s
          ∧ f.sent.h0 = 0xB2#8
          ∧ f.sent.h1.getLsbD 7 = decide ((s.rx.get x).state ≠ .synced)
          ∧ f.sent.h1.getLsbD 6 =
              (decide (r.state ≠ .synced) || r.fsaSeen || r.pbSeen
                || decide (∃ n, (s.flow.get x.other).startUp = some n ∧ n < 16))
          ∧ f.sent.h1.getLsbD 5 = false ∧ f.sent.h1.getLsbD 4 = false ∧ headerNumber f.sent.h1 = f.counter
          ∧ f.fsaSent = f.sent.h1.getLsbD 7 ∧ f.pbSent = f.sent.h1.getLsbD 6
          ∧ (noMessage s → f.counter = 0#4 →
              (let count := if t.homing.home = x then t.round.localCount else t.round.receivedCount
               let origin : Byte :=
                match t.round.numbering.node with
                | none => 0xFF#8
                | some n => BitVec.ofNat 8 n
               let head : List Byte :=
                [0x00#8, origin, BitVec.extractLsb' 8 8 count, BitVec.extractLsb' 0 8 count] ++ List.replicate 26 0x00#8
               f.empty = head ++ [BitVec.extractLsb' 8 8 (c16 head), BitVec.extractLsb' 0 8 (c16 head)]))
          ∧ (f.counter ≠ 0#4 → f.empty = (s.flow.get x).empty)
          ∧ (f.sent.h2, f.sent.h3) =
              (match message with
                | some m => (byteAt m (2 * f.counter.toNat), byteAt m (2 * f.counter.toNat + 1))
                | none =>
                  if f.mode = .delivering then (f.taken.h2, f.taken.h3)
                  else (byteAt f.empty (2 * f.counter.toNat), byteAt f.empty (2 * f.counter.toNat + 1)))
          ∧ (∀ l, l ∉ f.roles.map Prod.fst → f.sent.lanes.getD l 0xFF#8 = lanes.getD l 0xFF#8)
          ∧ (∀ l u, (f.roles.map Prod.fst).Nodup → ((l, .drop u) ∈ f.roles ∨ (l, .add .spare) ∈ f.roles) →
              f.sent.lanes.getD l 0xFF#8 = 0xFF#8)
          ∧ (∀ l, (f.roles.map Prod.fst).Nodup → (l, .dropContinue) ∈ f.roles →
              f.sent.lanes.getD l 0xFF#8 = lanes.getD l 0xFF#8)
          ∧ (noMessage s → (f.roles.map Prod.fst).Nodup → ∀ l, l < lanes.length →
              (∀ p : PortNo, (l, .add (.call p)) ∈ f.roles →
                  f.sent.lanes.getD l 0xFF#8 =
                    if speaking t p then BitVec.extractLsb' 8 8 (status.getD p.val 0xFF00#16) else 0xFF#8)
                ∧ (∀ k : ChanNo, (l, .add (.channel k)) ∈ f.roles →
                  (let group := (f.roles.filter fun e => decide (e.2 = .add (.channel k))).map Prod.fst
                   f.sent.lanes.getD l 0xFF#8 =
                    t.chans[k].sender.block.getD
                      (f.counter.toNat * t.chans[k].sender.width + group.idxOf l) 0xFF#8)))
          ∧ (∀ p : PortNo, t.ports[p].status =
              if callExists s p = true ∧ (status[p.val]?).isSome = true then status[p.val]? else s.ports[p].status)
          ∧ (noMessage s → x = t.homing.home.other → ∀ p : PortNo,
              ((∀ l, (l, .drop (.call p)) ∉ f.roles) → t.calls[p].codec = 0xFF#8)
                ∧ (∀ l, (l, .drop (.call p)) ∈ f.roles → (∀ m, (m, .drop (.call p)) ∈ f.roles → m = l) →
                  t.calls[p].codec = if speaking t p then lanes.getD l 0xFF#8 else 0xFF#8)
                ∧ (portFunction t p = .callpoint →
                  t.ports[p].control = some
                    { codec := t.calls[p].codec, wait := t.calls[p].waitLamp,
                      connected := decide (t.calls[p].state = .talking),
                      ringer := decide (t.calls[p].state = .ringing) }))))
    ∧ (∀ (lanes : List Byte) (s : State) (l : Nat) (k : ChanNo),
        deliverLane lanes s (l, .drop (.channel k)) = parserByte k s (lanes.getD l 0xFF#8)
          ∧ deliverLane lanes s (l, .dropContinue) = filterByte s (lanes.getD l 0xFF#8)
          ∧ deliverLane lanes s (l, .drop .spare) = s)
    ∧ (∀ (k : ChanNo) (s : State),
        (∀ n, s.chans[k].sender.block <+: (senderReach k n s).chans[k].sender.block
          ∧ (senderReach k n s).chans[k].sender.block.length =
              max s.chans[k].sender.block.length ((n + 1) * s.chans[k].sender.width))
        ∧ (∀ (b : Byte) (payload : Bool) (rest : List (Byte × Bool)),
            s.chans[k].sender.out = (b, payload) :: rest → sendsNext k (b :: rest.map Prod.fst) s)
        ∧ (s.chans[k].sender.out = [] → s.chans[k].sender.filling = true → fillsBlock k s)
        ∧ (s.chans[k].sender.out = [] → s.chans[k].sender.filling = false → s.chans[k].sender.abortOwed = false →
            s.chans[k].state ≠ .active → idlesOnce k s)
        ∧ (∀ c : Chain, s.chans[k].sender.out = [] → s.chans[k].sender.filling = false → s.chans[k].state = .active →
            s.chans[k].inChain = some c →
          (let snd := s.chans[k].sender
           let set := s.chans[k].set
           let space := 16 * snd.width - snd.block.length
           (snd.abortOwed = true → 2 ≤ space → sendsNext k [0x05#8, 0x00#8] s)
            ∧ (snd.abortOwed = true → space < 2 → fillsBlock k s)
            ∧ (snd.abortOwed = false → c.frames = [] → idlesOnce k s)
            ∧ (∀ (f : Frame) (rest : List Frame), snd.abortOwed = false → c.frames = f :: rest →
              (let r := f.length - f.sent
               let part (n : Nat) : List Byte :=
                (List.range n).map fun i => Memory.read s.mem (c.payloadAddress f (f.sent + i))
               let flag := if f.stamp.isSome = true then 128 else 0
               let stamp : List Byte :=
                match f.stamp with
                | none => []
                | some t => fourBytes t.seconds.toNat ++ twoBytes t.cycle ++ [byteOf t.tick, byteOf t.quality.code]
               let overhead := if f.stamp.isSome = true then 12 else 4
               let least (room : Nat) : Nat := min (min 62 room) (if f.closed = true then r - 1 else r)
               (f.begun = true →
                  (f.closed = true → r ≤ 62 → r + 4 ≤ space →
                    sendsNext k
                      ([0x03#8, byteOf r] ++ part r ++ twoBytes (~~~ ((part r).foldl c16Step snd.check)).toNat) s)
                  ∧ (¬ (f.closed = true ∧ r ≤ 62 ∧ r + 4 ≤ space) → 3 ≤ space → 1 ≤ least (space - 2) →
                    sendsNext k ([0x02#8, byteOf (least (space - 2))] ++ part (least (space - 2))) s)
                  ∧ (¬ (f.closed = true ∧ r ≤ 62 ∧ r + 4 ≤ space) → ¬ (3 ≤ space ∧ 1 ≤ least (space - 2)) →
                    if f.closed = false ∧ r = 0 then idlesOnce k s else fillsBlock k s))
                ∧ (f.begun = false → (f.closed = true ∨ (set.stamping = false ∧ set.markIn ≤ f.taken - f.released)) →
                  (f.closed = true → r ≤ 62 → overhead + r + 2 ≤ space →
                    sendsNext k
                      ([0x04#8, byteOf (flag + r), 0x00#8, 0x00#8] ++ stamp ++ part r ++ twoBytes (c16 (part r)).toNat)
                      s)
                  ∧ (¬ (f.closed = true ∧ r ≤ 62 ∧ overhead + r + 2 ≤ space) → overhead + 1 ≤ space →
                    sendsNext k
                      ([0x01#8, byteOf (flag + least (space - overhead)), 0x00#8, 0x00#8] ++ stamp
                        ++ part (least (space - overhead))) s)
                  ∧ (space ≤ overhead → fillsBlock k s))
                ∧ (f.begun = false → ¬ (f.closed = true ∨ (set.stamping = false ∧ set.markIn ≤ f.taken - f.released)) →
                  idlesOnce k s))))))

/-- The store of a flow at a local cycle boundary (R10, R11, R12, R14): while the flow is not delivering, or is priming
with fewer than 2 cycles, its counter rises by 1; otherwise it delivers. It takes the oldest cycle, and its number for
the counter; from 4 cycles on the oldest is lost as an overflow slip and the next is taken; with fewer than 2 it repeats
the cycle taken before as an underflow slip, and the counter rises; that the read of an empty delivering store, which
R11 rules out, is such a slip too is the model's choice (log 13). A priming flow that starts delivering so is the
PRIMING_END. -/
def Obligations.StoreIsReadAtTheBoundary : Prop :=
  ∀ (status : List Half) (s : State) (x : Side), s.resetHeld = false →
    ∃ t, exec (.localCycleBoundary status) s = .next t
      ∧ (let f := s.flow.get x
         let g := t.flow.get x
         if f.mode = .delivering ∨ (f.mode = .priming ∧ 2 ≤ f.store.length) then
           g.mode = .delivering
            ∧ (f.mode = .priming → exec (.primingEnd x status) s = .next t)
            ∧ (match f.store with
                | c :: d :: rest =>
                  if 2 ≤ rest.length then
                    g.store = rest ∧ g.taken = d ∧ g.counter = d.number ∧ g.overflows = f.overflows + 1#16
                      ∧ g.underflows = f.underflows ∧ hasMark (.slip x) Mark.overflowSlip t
                  else
                    g.store = d :: rest ∧ g.taken = c ∧ g.counter = c.number ∧ g.overflows = f.overflows
                      ∧ g.underflows = f.underflows
                | _ =>
                  g.store = f.store ∧ g.taken = f.taken ∧ g.counter = f.counter + 1#4 ∧ g.overflows = f.overflows
                    ∧ g.underflows = f.underflows + 1#16 ∧ hasMark (.slip x) Mark.underflow t)
         else
           g.mode = f.mode ∧ g.store = f.store ∧ g.taken = f.taken ∧ g.counter = f.counter + 1#4
            ∧ g.overflows = f.overflows ∧ g.underflows = f.underflows)

/-- The start-up round (R16): a transmitter is in it for the first 16 cycles it starts, and the boundary that starts its
17th cycle ends it; that boundary is the STARTUP_ROUND_END. -/
def Obligations.StartUpRoundTakesSixteenCycles : Prop :=
  ∀ (status : List Half) (s : State) (x : Side), s.resetHeld = false →
    ∃ t, exec (.localCycleBoundary status) s = .next t
      ∧ (match (s.flow.get x).startUp with
          | none => (t.flow.get x).startUp = none
          | some n =>
            if n < 16 then (t.flow.get x).startUp = some (n + 1)
            else (t.flow.get x).startUp = none ∧ exec (.startupRoundEnd x status) s = .next t)

/-- An end's presence runs out (R17): the presence timer goes from 1 to 0 at a local round boundary, the end becomes
ABSENT and the change is marked. Only a message handed over at that same boundary starts the timer again: that the
timers count down, and ABSENT is marked, before such a message is handed over is the model's choice (log 10).

Round messages start it again. The slot bytes are gathered by the number the transmitter sends, and handed over with
number 15 (R2); that a flow that is not delivering drops what it had gathered is the model's choice (log 35). A message
that fails a test of R42 is counted invalid and not acted on; a node's message, and an end's in the other flow, are not
acted on (R43). A valid message of the end on the flow's own side sets the presence timer to 24 (R17, R43) and has come
through the store, so that the end is reachable while its receiver is SYNCED and sees neither PB nor FSA (R25), and that
is all while the end is not the home. The home end's round count c is taken as the received round count (R45), and the
local round count is kept at c or c + 1 and else jumps to c + 1 (R46); with no SENT move in flight nothing else follows
from the counts. A TIME with an index above 499 is counted rejected; in ACQUIRING and TRACKING it gives the raw time,
unless that agrees already, the validity END and the source end (R54, R71, R72). The three items of an END_NOTICE are
then taken in order (R53). -/
def Obligations.PresenceRunsOut : Prop :=
  (∀ (status : List Half) (s : State) (x : Side), s.resetHeld = false → roundBegins s → (s.rx.get x).presence = 1 →
    ∃ t, exec (.presenceExpiry x status) s = .next t ∧ exec (.localCycleBoundary status) s = .next t
      ∧ hasMark (.rx x) Mark.absent t
      ∧ (noMessage s → (t.rx.get x).presence = 0 ∧ reachable t x = false))
  ∧ (∀ (x : Side) (s : State),
      (let f := s.flow.get x
       let k := f.counter.toNat
       let old := if k = 0 then List.replicate 32 0#8 else f.gathered
       let bytes :=
        if f.mode = .delivering then (old.set (2 * k) f.taken.h2).set (2 * k + 1) f.taken.h3
        else List.replicate 32 0#8
       let u := { s with flow := s.flow.set x { f with gathered := bytes } }
       gatherMessage x s = if f.mode = .delivering ∧ k = 15 then handOver x bytes u else u))
  ∧ (∀ (x : Side) (m : List Byte) (s : State),
      (let kind := (byteAt m 0).toNat
       let origin := (byteAt m 1).toNat
       let count := halfAt m 2
       let c : Half := BitVec.ofNat 16 count
       let ofEnd := origin = 128 ∨ origin = 129
       let valid := (c16 (m.take 30)).toNat = halfAt m 30 ∧ kind ≤ 4
        ∧ (count % 2 = 0 → ofEnd) ∧ (count % 2 = 1 → origin < 64)
        ∧ ((kind = 1 ∨ kind = 2) → ofEnd) ∧ ((kind = 3 ∨ kind = 4) → origin < 64) ∧ (kind = 1 → count % 8 = 0)
       let own := origin = (match x with
        | .a => 128
        | .b => 129)
       let v := handOver x.other m s
       (¬ valid →
          v = { s with
                round :=
                  { s.round with
                    invalid := s.round.invalid.set x.other (s.round.invalid.get x.other + 1#16) } })
        ∧ (valid → ¬ own → v = s)
        ∧ (valid → own → (s.rx.get x).presence = 0 → hasMark (.rx x) Mark.present v)
        ∧ (valid → own → (v.rx.get x).presence = 24 ∧ (v.flow.get x.other).heard = true)
        ∧ (valid → own →
            (reachable v x = true ↔
              (s.rx.get x).state = .synced ∧ (s.rx.get x).pbSeen = false ∧ (s.rx.get x).fsaSeen = false))
        ∧ (valid → own → s.homing.home ≠ x →
            v = { s with
                  rx := s.rx.set x { s.rx.get x with presence := 24 },
                  flow := s.flow.set x.other { s.flow.get x.other with heard := true },
                  homing := countsJudged s.homing v, link := v.link }
              ∧ onlyReports s.link v.link)
        ∧ (valid → own → s.homing.home = x → (∀ e ∈ s.alloc.owned, ∀ n, e.move = some n → n.effect = none) →
          ∃ u, v = (if kind = 2 then takeItem m (takeItem m (takeItem m u 4) 12) 20 else u)
            ∧ u = { s with
                  rx := s.rx.set x { s.rx.get x with presence := 24 },
                  flow := s.flow.set x.other { s.flow.get x.other with heard := true },
                  homing := countsJudged s.homing u,
                  round :=
                    { s.round with
                      receivedCount := c,
                      localCount := if s.round.localCount = c ∨ s.round.localCount = c + 1#16 then s.round.localCount
                        else c + 1#16 },
                  timing := u.timing, link := u.link }
            ∧ onlyReports s.link u.link
            ∧ (kind ≠ 1 → u.timing = s.timing)
            ∧ (kind = 1 → 499 < halfAt m 8 →
                u.timing = { s.timing with rejected := s.timing.rejected + 1#16 })
            ∧ (kind = 1 → halfAt m 8 ≤ 499 → (s.timing.mode = .free ∨ s.timing.mode = .holdover) →
                u.timing = s.timing)
            ∧ (kind = 1 → halfAt m 8 ≤ 499 → (s.timing.mode = .acquiring ∨ s.timing.mode = .tracking) →
              (let seconds : Word := BitVec.ofNat 32 (wordAt m 4)
               let cycle := 16 * halfAt m 8 + 15
               let agrees := s.timing.seconds = seconds ∧ s.timing.cycle = cycle
               let step : Int := (seconds - s.timing.seconds).toInt * 8000 + ((cycle : Int) - (s.timing.cycle : Int))
               u.timing =
                  { s.timing with
                    seconds := seconds, cycle := cycle, validity := .fromEnd, source := some x,
                    lastStep := if agrees then s.timing.lastStep
                      else if step < -32767 then -32767 else if 32767 < step then 32767 else step }
                ∧ (¬ agrees → hasMark .timing Mark.timeStep u)
                ∧ (¬ (s.timing.validity = .fromEnd ∧ s.timing.source = some x) →
                    hasMark .timing Mark.validity u))))))

/-! ### Homing at a local round boundary -/

/-- The hold-off expires in a HOMED state with the home unreachable (R27): the node re-homes to the other end while it
is reachable (R28), also where the wait-to-restore expires at the same boundary (R32), and is ISOLATED with its home
kept while it is not (R29). The change is counted, recorded and marked (R26), a forced flag is cleared with FORCE_OFF
(R36), and a unit that was ACQUIRING or TRACKING is in HOLDOVER (R63). -/
def Obligations.HoldOffExpiryChangesTheHome : Prop :=
  ∀ (status : List Half) (s : State) (n : Nat), s.resetHeld = false → roundBegins s → s.homing.isolated = false →
    s.homing.pendingForce = none → reachable s s.homing.home = false → s.homing.holdOff = some n →
    s.homing.holdOffSetting ≤ n + 1 →
    ((reachable s s.homing.home.other = true ∧ (s.rx.get s.homing.home.other).presence ≠ 1)
      ∨ reachable s s.homing.home.other = false) →
    ∃ t, exec (.holdOffExpiry status) s = .next t ∧ exec (.localCycleBoundary status) s = .next t
      ∧ t.homing.changes = s.homing.changes + 1#16 ∧ t.homing.forced = none
      ∧ (s.homing.forced.isSome = true → hasMark .home Mark.forceOff t)
      ∧ (s.timing.mode = .acquiring ∨ s.timing.mode = .tracking → t.timing.mode = .holdover)
      ∧ (if reachable s s.homing.home.other = true then
          t.homing.home = s.homing.home.other ∧ t.homing.isolated = false
            ∧ t.homing.last = some { old := s.homing.home, new := s.homing.home.other, cause := .failure }
            ∧ hasMark .home HomeCause.failure.code t
        else
          t.homing.home = s.homing.home ∧ t.homing.isolated = true
            ∧ t.homing.last = some { old := s.homing.home, new := s.homing.home, cause := .isolation }
            ∧ hasMark .home HomeCause.isolation.code t)

/-- The other changes at a local round boundary: a pending forced change takes the forced end (R34); ISOLATED ends with
a RECOVERY, to the one end that is reachable or, of two, the preferred (R30); and an expired wait-to-restore reverts to
the preferred end (R31). Each is counted, recorded and marked (R26).

What a change of home does, whatever its cause, at a boundary that is no turn and at which no message is handed over:
every move in flight is applied on both sides, counted, and marked HOME_APPLIED, the moves that follow from it are
QUEUED with their LANE items, and no other LANE item is left in the queue (R101, R55); the roster is owed and the
received round count is the local one (R55); both role tables are those of the new home (R20); a timing unit that was
ACQUIRING or TRACKING is in HOLDOVER (R63). A return from ISOLATED to the last home owes the roster and an entry into
ISOLATED does not, and both keep the queue (R55). Every LINK channel's sender abandons the frame it has begun, counted
ABORTED, owes no ABORT, and a writer still writing that frame becomes DISCARDING; its parser discards the frame open in
ASSEMBLING and starts in NO_FRAME (R160). The station filter discards every open copy ABORTED and becomes NO_FRAME
(R173). A port that has begun a discarded frame ends it with the abort marker. The order of the blocks within a boundary
is the model's choice (log 10), that an ABORT kept by a LISTEN channel stays owed log 21, the marker in place of bytes
chosen log 25, and where the writer's next frame opens after a CLOSED frame is abandoned log 57. -/
def Obligations.HomeChangesAtTheRoundBoundary : Prop :=
  (∀ (status : List Half) (s : State), s.resetHeld = false → roundBegins s →
    (∀ x, s.homing.pendingForce = some x →
      ∃ t, exec (.forcedChange status) s = .next t ∧ exec (.localCycleBoundary status) s = .next t
        ∧ t.homing.home = x ∧ t.homing.isolated = false ∧ t.homing.pendingForce = none
        ∧ t.homing.changes = s.homing.changes + 1#16
        ∧ t.homing.last = some { old := s.homing.home, new := x, cause := .forced }
        ∧ hasMark .home HomeCause.forced.code t)
    ∧ (∀ x, s.homing.pendingForce = none → s.homing.isolated = true → reachable s x = true →
        (s.rx.get x).presence ≠ 1 → (reachable s x.other = false ∨ s.homing.preferred = x) →
      ∃ t, exec (.recovery status) s = .next t ∧ exec (.localCycleBoundary status) s = .next t
        ∧ t.homing.home = x ∧ t.homing.isolated = false ∧ t.homing.changes = s.homing.changes + 1#16
        ∧ t.homing.last = some { old := s.homing.home, new := x, cause := .recovery }
        ∧ hasMark .home HomeCause.recovery.code t)
    ∧ (∀ n, s.homing.pendingForce = none → s.homing.isolated = false → reachable s s.homing.home = true →
        (s.rx.get s.homing.home).presence ≠ 1 → s.homing.holdOff = none → restoreRuns s = true →
        (s.rx.get s.homing.preferred).presence ≠ 1 → s.homing.restore = some n →
        s.homing.restoreSetting * 500 ≤ n + 1 →
      ∃ t, exec (.restoreExpiry status) s = .next t ∧ exec (.localCycleBoundary status) s = .next t
        ∧ t.homing.home = s.homing.preferred ∧ t.homing.isolated = false
        ∧ t.homing.changes = s.homing.changes + 1#16
        ∧ t.homing.last = some { old := s.homing.home, new := s.homing.preferred, cause := .revert }
        ∧ hasMark .home HomeCause.revert.code t)
    ∧ (∀ t : State, exec (.localCycleBoundary status) s = .next t → noMessage s →
        nextCounter s.homing.home.other s ≠ 0#4 → s.round.localCount.toNat % 2 = 1 →
        t.round.localCount = s.round.localCount + 1#16
          ∧ (t.homing.home ≠ s.homing.home → laneListsLegal s →
              (s.timing.mode = .acquiring ∨ s.timing.mode = .tracking → t.timing.mode = .holdover)
              ∧ t.round.receivedCount = t.round.localCount ∧ t.round.rosterOwed = true
              ∧ t.alloc.owned.map (fun e => (e.lane, e.use)) = s.alloc.owned.map (fun e => (e.lane,
                  match e.move with
                  | none => e.use
                  | some m => m.target))
              ∧ t.alloc.applied =
                  s.alloc.applied + BitVec.ofNat 16 (s.alloc.owned.filter fun e => decide (e.move ≠ none)).length
              ∧ ((∃ e ∈ s.alloc.owned, e.move ≠ none) → hasMark .lane Mark.homeApplied t)
              ∧ (∀ e ∈ t.alloc.owned, ∀ m, e.move = some m →
                  m.effect = none ∧ m.tx = false ∧ m.rx = false ∧ .lane e.lane m.target ∈ t.round.queue)
              ∧ (∀ lane use, .lane lane use ∈ t.round.queue →
                  ∃ e ∈ t.alloc.owned, ∃ m, e.lane = lane ∧ e.move = some m ∧ m.target = use)
              ∧ (t.flow.get t.homing.home).roles = t.alloc.owned.map (fun e => (e.lane, .add e.use))
              ∧ (∀ l u, (l, .drop u) ∈ (t.flow.get t.homing.home.other).roles ↔
                  ∃ e ∈ t.alloc.owned, e.lane = l ∧ e.use = u)
              ∧ (∀ l, (l, .dropContinue) ∈ (t.flow.get t.homing.home.other).roles ↔ l ∈ s.alloc.listen)
              ∧ (∀ k : ChanNo, s.chans[k].set.listen = false → t.chans[k].sender.abortOwed = false
                  ∧ (s.chans[k].parser.state = .assembling → hasMark (.channel k) Discard.aborted.mark t))
              ∧ (s.filter.state = .assembling → ∀ k ∈ s.filter.copies, hasMark (.channel k) Discard.aborted.mark t))
          ∧ ((∀ e ∈ s.alloc.owned, e.move = none) → (∀ p : PortNo, s.calls[p].state ≠ .ringing) →
              (t.homing.home ≠ s.homing.home →
                ∀ p event, .call p event ∈ s.round.queue → .call p event ∈ t.round.queue)
              ∧ (t.homing.home = s.homing.home → t.round.queue = s.round.queue))
          ∧ (t.homing.home = s.homing.home → s.homing.isolated = true → t.homing.isolated = false →
              t.round.rosterOwed = true)
          ∧ (t.homing.home = s.homing.home → s.homing.isolated = false → t.homing.isolated = true →
              t.round.rosterOwed = s.round.rosterOwed)))
  ∧ (∀ (s : State) (k : ChanNo),
      (let v := packetsHomeChange s
       let c := s.chans[k]
       let clear : Channel :=
        { c with
          sender := { c.sender with out := [], kind := none, abortOwed := false, filling := false },
          parser := { c.parser with stream := { left := 0, at' := .header }, state := .noFrame } }
       let ended (ch : Channel) : Channel :=
        if c.parser.state = .assembling then
          { ch with outChain := ch.outChain.map Chain.dropNewest, counters := ch.counters.oneMore .aborted }
        else ch
       (c.set.listen = true → v.chans[k] = c)
        ∧ (c.set.listen = false →
          ((∀ ch f, c.inChain = some ch → ch.frames.head? = some f → f.begun = false) → v.chans[k] = ended clear)
          ∧ (∀ ch f rest, c.inChain = some ch → ch.frames = f :: rest → f.begun = true →
              v.chans[k] = ended
                  { clear with
                    inChain := some
                      { ch with
                        frames := rest,
                        writer := if rest = [] then (f.start + f.released) % ch.blocks.length else ch.writer },
                    writer := if f.closed = true then c.writer else .discarding,
                    counters := c.counters.oneMore .aborted }
                ∧ hasMark (.channel k) Discard.aborted.mark v)
          ∧ (c.parser.state = .assembling → hasMark (.channel k) Discard.aborted.mark v
              ∧ (∀ p ch f, c.set.port = some p → c.outChain = some ch → ch.frames.getLast? = some f →
                  f.begun = true → s.ports[p].tx.state = .sending k → s.ports[p].tx.aborting = false →
                  v.ports[p].tx =
                    { s.ports[p].tx with
                      aborting := true, closedBy := none,
                      out := [(c.set.escape, .plain), (c.set.delimiter, .aborted)],
                      fill := if c.set.transparent = true then 0xFF#8 else s.ports[p].tx.fill })))))
  ∧ (∀ s : State, s.filter.copies.Nodup →
      (let v := filterBreak s
       v.filter =
          { s.filter with
            stream := { left := 0, at' := .header }, state := .noFrame,
            copies := if s.filter.state = .assembling then [] else s.filter.copies }
        ∧ (s.filter.state ≠ .assembling → v = { s with filter := v.filter })
        ∧ (∀ k : ChanNo, k ∉ s.filter.copies → v.chans[k] = s.chans[k])
        ∧ (s.filter.state = .assembling → ∀ k ∈ s.filter.copies, ∀ c, s.chans[k].outChain = some c →
          v.chans[k] =
              { s.chans[k] with outChain := some c.dropNewest, counters := s.chans[k].counters.oneMore .aborted }
            ∧ hasMark (.channel k) Discard.aborted.mark v
            ∧ (∀ p f, s.chans[k].set.port = some p → c.frames.getLast? = some f → f.begun = true →
                s.ports[p].tx.state = .sending k → s.ports[p].tx.aborting = false →
                v.ports[p].tx =
                  { s.ports[p].tx with
                    aborting := true, closedBy := none,
                    out := [(s.chans[k].set.escape, .plain), (s.chans[k].set.delimiter, .aborted)],
                    fill := if s.chans[k].set.transparent = true then 0xFF#8 else s.ports[p].tx.fill }))))

/-- The holdover timer passes its limit (R74): at the local round boundary that brings it to limit x 500 + 1 the mark
HOLD_LIMIT is set, and the mode stays HOLDOVER. -/
def Obligations.HoldLimitIsMarked : Prop :=
  ∀ (status : List Half) (s : State), s.resetHeld = false → timingInRange s → roundBegins s →
    s.timing.mode = .holdover → s.timing.holdTimer = s.timing.holdLimit * 500 →
    ∃ t, exec (.holdLimit status) s = .next t ∧ exec (.localCycleBoundary status) s = .next t
      ∧ t.timing.mode = .holdover ∧ t.timing.holdTimer = s.timing.holdLimit * 500 + 1
      ∧ hasMark .timing Mark.holdLimit t

/-! ### Lanes, lists and numbering at a boundary -/

/-- A SENT move takes effect (R47, R85, R20): at the local round boundary whose count reaches its effect round the
toward-home role table adds the lane for its target; at the cycle numbered 0 of the from-home flow whose received count
reaches it the from-home table drops the lane for its target. With the second side it completes there (R86).

What each side does. A count that has not reached the effect round, and a side already taken, change nothing; the first
side is noted in the move. The second completes it (R86, R88): the target becomes the applied use, the move leaves the
entry, the applied count rises and LANE is marked APPLIED. A call point in CLEARING that the lane has left is IDLE, or
in LOCKOUT off-hook (R117). A call point that connects is ALERTING, or RINGING for a ring, and with an answer pending
TALKING with CALL ANSWERED (R112); one in any other state stays. A STOPPING channel that holds no lane any more, applied
or moving, is STOPPED with its mark (R100, R163), and no other channel changes; that an ABORT it owes stays owed and its
sender stands at its start is the model's choice (logs 21 and 44). Then a lane that is SPARE is offered (R95); a lane of a
call that was to be followed up is released, and of a channel moves on to SPARE (R88); for a lane of a channel, else,
the pending list is walked (R93). -/
def Obligations.SentMovesReachTheLine : Prop :=
  (∀ (status : List Half) (s : State) (lane : Nat) (e : Entry) (m : Move) (r : Half), s.resetHeld = false →
    laneListsLegal s → homeStays s → e ∈ s.alloc.owned → e.lane = lane → e.move = some m → m.effect = some r →
    (m.tx = false → roundBegins s → reached (s.round.localCount + 1#16) r = true →
      ∃ t, exec (.moveEffectTransmit lane status) s = .next t ∧ exec (.localCycleBoundary status) s = .next t
        ∧ t.homing.home = s.homing.home ∧ (lane, .add m.target) ∈ (t.flow.get t.homing.home).roles
        ∧ (m.rx = true → noMessage s →
            (∃ g ∈ t.alloc.owned, g.lane = lane ∧ g.use = m.target) ∧ hasMark .lane Mark.applied t))
    ∧ (m.rx = false → s.alloc.listsDue = false → nextCounter s.homing.home.other s = 0#4 →
        reached (s.round.receivedCount + 1#16) r = true →
      ∃ t, exec (.moveEffectReceive lane status) s = .next t ∧ exec (.localCycleBoundary status) s = .next t
        ∧ t.homing.home = s.homing.home ∧ (lane, .drop m.target) ∈ (t.flow.get t.homing.home.other).roles
        ∧ (m.tx = true → noMessage s →
            (∃ g ∈ t.alloc.owned, g.lane = lane ∧ g.use = m.target) ∧ hasMark .lane Mark.applied t)))
  ∧ (∀ (transmit : Bool) (count r : Half) (s : State) (e : Entry) (m : Move), laneListsLegal s → e ∈ s.alloc.owned →
      e.move = some m → m.effect = some r →
      (let u := takeEffect transmit count e.lane s
       let due := (if transmit = true then m.tx else m.rx) = false ∧ reached count r = true
       let other := if transmit = true then m.rx else m.tx
       let v := freedStopped (landedMove e m.target s)
       (¬ due → u = s)
        ∧ (due → other = false →
          u = { s with
            alloc :=
              { s.alloc with
                owned := s.alloc.owned.map fun g =>
                  if g.lane = e.lane then
                    { g with
                      move := some
                        { m with tx := if transmit = true then true else m.tx,
                                 rx := if transmit = true then m.rx else true } }
                  else g } })
        ∧ (due → other = true →
          onlyReports s.link u.link ∧ hasMark .lane Mark.applied u
          ∧ (∀ k : ChanNo, s.chans[k].state = .stopping → v.chans[k].state = .stopped →
              hasMark (.channel k) ChanState.stopped.mark u)
          ∧ (∀ p : PortNo, e.use = .call p → s.calls[p].state = .clearing →
              hasMark (.call p) (if s.calls[p].offHook = true then CallState.lockout else CallState.idle).code u)
          ∧ (m.target = .spare → lanePlaced e.lane none v u)
          ∧ (∀ k : ChanNo, m.target = .channel k →
              (m.followUp = true → u = movedTo e.lane .spare { v with link := u.link })
                ∧ (m.followUp = false → s.alloc.waiting = [] → u = { v with link := u.link })
                ∧ (∀ (q : PortNo) (level : Nat) (rest : List (PortNo × Nat)), m.followUp = false →
                    s.alloc.waiting = (q, level) :: rest →
                    (level ≤ s.alloc.floor ∨ laneFor v level = none → u = { v with link := u.link })
                      ∧ (∀ l, s.alloc.floor < level → laneFor v level = some l → rest = [] →
                          u = grantedTo q l { v with link := u.link })))
          ∧ (∀ q : PortNo, m.target = .call q →
              (let connects := v.calls[q].state = .connecting ∨ v.calls[q].state = .ringConnecting
               (connects → m.followUp = false →
                  u = reachedCall q { v with link := u.link } ∧ hasMark (.call q) u.calls[q].state.code u
                    ∧ (v.calls[q].answerPending = true → hasMark (.call q) Mark.answeredSent u))
                ∧ (¬ connects → m.followUp = false → u = { v with link := u.link })
                ∧ (¬ connects → m.followUp = true → lanePlaced e.lane (some .spare) v u))))))

/-- The lists of a LANES_SET reach the trunk (R188): at the next local round boundary both role tables are taken from
them (R18), the owned lanes toward home as ADD, each for its entry's use on transmit then, and from home as DROP, the
listen lanes as DROP_CONTINUE. The station filter takes the listen group that these lists gave it at the next cycle
numbered 0 of the from-home flow, in NO_FRAME with the new width (R165). That this cycle may be the one that starts at
the boundary itself is the model's reading (log 9). -/
def Obligations.NewListsReachTheTrunk : Prop :=
  ∀ (status : List Half) (s : State), s.resetHeld = false → laneListsLegal s → homeStays s →
    (s.alloc.listsDue = true → roundBegins s →
      ∃ t, exec (.roleTablesTaken status) s = .next t ∧ exec (.localCycleBoundary status) s = .next t
        ∧ t.alloc.listsDue = false ∧ t.homing.home = s.homing.home
        ∧ (t.flow.get t.homing.home).roles =
            (s.alloc.owned.map fun e => (e.lane, .add (useOnTransmit (s.round.localCount + 1#16) e)))
        ∧ (∀ l, (∃ u, (l, .drop u) ∈ (t.flow.get t.homing.home.other).roles) ↔ l ∈ s.alloc.owned.map Entry.lane)
        ∧ (∀ l, (l, .dropContinue) ∈ (t.flow.get t.homing.home.other).roles ↔ l ∈ s.alloc.listen))
    ∧ (∀ group, (s.alloc.listsDue = true → roundBegins s → group = s.alloc.listen) →
        (¬ (s.alloc.listsDue = true ∧ roundBegins s) → s.filter.nextGroup = some group) →
        nextCounter s.homing.home.other s = 0#4 →
      ∃ t, exec (.listenGroupTaken status) s = .next t ∧ exec (.localCycleBoundary status) s = .next t
        ∧ t.filter.nextGroup = none ∧ t.filter.group = group
        ∧ ((t.flow.get t.homing.home.other).mode ≠ .delivering → t.filter.state = .noFrame)
        ∧ (∀ u : State, u.filter.nextGroup = some group →
            (filterRound u).filter =
              { u.filter with
                group := group, nextGroup := none, state := .noFrame,
                stream := { left := 16 * group.length, at' := .header } }))

/-- At a local round boundary the numbering of a NODE_SET comes into force (R56), and a station update in flight is
applied to the table and its reply becomes ready (R169). The local round count rises by one and the turn is judged on it
(R44): a round is the node's turn when its count L is odd and (L - 1) / 2 modulo turns is the node number (R48). Then a
turn message is written (R49): a ROSTER of the applied uses while one is owed (R52), else a NODE_NOTICE with the first
three items of the queue, whose LANE items carry the effect round L + 4 and make their moves SENT with it (R47, R51). A
STATION_PUT gives its address the new channel set and leaves every other address as it was (R169). -/
def Obligations.RoundBoundaryTakesNumberingAndUpdate : Prop :=
  putByRule
  ∧ (∀ (status : List Half) (s : State), s.resetHeld = false → roundBegins s →
    (∀ n, s.round.nextNumbering = some n →
      ∃ t, exec (.numberingInForce status) s = .next t ∧ exec (.localCycleBoundary status) s = .next t
        ∧ t.round.numbering = n ∧ t.round.nextNumbering = none)
    ∧ (∀ u, s.filter.update = some u →
      ∃ t, exec (.stationUpdateApplied status) s = .next t ∧ exec (.localCycleBoundary status) s = .next t
        ∧ t.filter.update = none
        ∧ t.filter.table =
            (match u with
              | .put a c => putStation a c s.filter.table
              | .drop a => s.filter.table.filter fun e => decide (e.1 ≠ a))
        ∧ t.link.replies = s.link.replies.map fun r => { r with ready := true })
    ∧ (noMessage s →
      ∃ t, exec (.localCycleBoundary status) s = .next t ∧ t.round.localCount = s.round.localCount + 1#16
        ∧ (t.round.turnMessage ≠ none ↔ isTurn t.round.numbering t.round.localCount = true)))
  ∧ (∀ (n : Numbering) (count : Half),
      isTurn n count = true ↔
        count.toNat % 2 = 1 ∧ ∃ k, n.node = some k ∧ (count.toNat - 1) / 2 % n.turns = k)
  ∧ (∀ s : State,
      (let count := s.round.localCount
       let turn := isTurn s.round.numbering count = true
       let header (kind : Byte) : List Byte := [kind, originCode s.round.numbering.node] ++ twoBytes count.toNat
       let checked (bytes : List Byte) : List Byte := bytes ++ twoBytes (c16 bytes).toNat
       (¬ turn → judgeTurn s = { s with round := { s.round with turnMessage := none } })
        ∧ (turn → s.round.rosterOwed = true → s.alloc.owned.length ≤ 12 →
          judgeTurn s =
            { s with
              round :=
                { s.round with
                  rosterOwed := false,
                  turnMessage := some (checked
                    (header 0x04#8 ++ (s.alloc.owned.map fun e => [byteOf e.lane, byteOf e.use.code]).flatten
                      ++ (List.replicate (12 - s.alloc.owned.length) [0xFF#8, 0x00#8]).flatten
                      ++ [0x00#8, 0x00#8])) } })
        ∧ (turn → s.round.rosterOwed = false →
          (let effect := count + 4#16
           let items := s.round.queue.take 3
           let bytes (i : Item) : List Byte :=
            match i with
            | .lane l u => [0x01#8, byteOf l, byteOf u.code, 0x00#8] ++ twoBytes effect.toNat ++ [0x00#8, 0x00#8]
            | .call p (.down c) => [0x02#8, byteOf p.val, 0x01#8, byteOf c.code, 0#8, 0#8, 0#8, 0#8]
            | .call p .answered => [0x02#8, byteOf p.val, 0x02#8, 0x00#8, 0#8, 0#8, 0#8, 0#8]
            | .call p .busy => [0x02#8, byteOf p.val, 0x03#8, 0x00#8, 0#8, 0#8, 0#8, 0#8]
           judgeTurn s =
            { s with
              round :=
                { s.round with
                  queue := s.round.queue.drop 3,
                  turnMessage := some (checked
                    (header 0x03#8 ++ (items.map bytes).flatten ++ List.replicate (26 - 8 * items.length) 0x00#8)) },
              alloc :=
                { s.alloc with
                  owned := s.alloc.owned.map fun e =>
                    if items.any (Item.isLaneOf e.lane) = true then
                      { e with move := e.move.map fun m => { m with effect := some effect } }
                    else e } }))))

/-- The ring timer runs out (R115, R116): the local round boundary that brings it to 0 clears the call with the cause
NO_ANSWER. Where the call point holds a lane in use, it enters CLEARING and CALL DOWN joins the notice queue; both are
marked (R121). -/
def Obligations.RingTimerExpiryClearsTheCall : Prop :=
  ∀ (status : List Half) (s : State) (p : PortNo) (e : Entry), s.resetHeld = false → roundBegins s → noMessage s →
    laneListsLegal s → s.calls[p].state = .ringing → s.calls[p].ringTimer = 1 →
    e ∈ s.alloc.owned → e.use = .call p → e.move = none → s.calls[p].lane = some e.lane →
    (∀ w ∈ s.alloc.waiting, w.1 ≠ p) →
    ∃ t, exec (.ringTimerExpiry p status) s = .next t ∧ exec (.localCycleBoundary status) s = .next t
      ∧ t.calls[p].state = .clearing ∧ t.calls[p].cause = some .noAnswer ∧ t.calls[p].ringTimer = 0
      ∧ Item.call p (.down .noAnswer) ∈ t.round.queue
      ∧ hasMark (.call p) CallState.clearing.code t ∧ hasMark (.call p) Mark.downSent t

/-! ### Lanes for calls, and call points -/

/-- The lane a request at a level is given (R91): the lowest SPARE lane with no move; with none, the highest lane
without a move of the donor; and none when there is no donor either. A channel may donate that is an ACTIVE LINK channel
of a level below the request's, whose committed width is above its W_min, and of whose lanes one has no move; the donor
is, of these, the one of the lowest level and, of two, the higher number. The committed lanes of a channel are its lanes
with no move and those that move toward it with no follow-up mark (R89). -/
def Obligations.RequestIsGivenTheRuleLane : Prop :=
  ∀ (s : State) (level : Nat), laneListsLegal s →
    (let rests (l : Nat) (use : Use) : Prop := ∃ e ∈ s.alloc.owned, e.lane = l ∧ e.use = use ∧ e.move = none
     let width (k : ChanNo) : Nat := (s.alloc.owned.filter fun e =>
      match e.move with
      | none => decide (e.use = .channel k)
      | some m => decide (m.target = .channel k) && !m.followUp).length
     let donates (k : ChanNo) : Prop :=
      s.chans[k].state = .active ∧ s.chans[k].set.listen = false ∧ s.chans[k].set.level < level
        ∧ s.chans[k].set.wmin < width k ∧ ∃ l, rests l (.channel k)
     (∀ l, laneFor s level = some l →
        (rests l .spare ∧ ∀ m, rests m .spare → l ≤ m)
          ∨ ((∀ m, ¬ rests m .spare)
            ∧ ∃ k : ChanNo, donates k ∧ rests l (.channel k) ∧ (∀ m, rests m (.channel k) → m ≤ l)
              ∧ ∀ j : ChanNo, donates j →
                  s.chans[k].set.level < s.chans[j].set.level
                    ∨ (s.chans[k].set.level = s.chans[j].set.level ∧ j ≤ k)))
      ∧ (laneFor s level = none → (∀ m, ¬ rests m .spare) ∧ ∀ k : ChanNo, ¬ donates k)
      ∧ (∀ k : ChanNo, mayDonate s level k = true ↔ donates k))

/-- Off-hook (R110, R91, R92, R115). An IDLE call point asks for a lane: at or below the floor it waits in the pending
list without a mark on LANE; above it, it enters CONNECTING with a QUEUED move of the lane it is given, or waits with
the mark PENDING when there is none. A RINGING call point enters TALKING and sends CALL ANSWERED.

The items of the end do the rest. An item that is not addressed to the node, of no item kind, or for a call point that
does not exist is skipped (R53, R106); ROSTER_ASK owes the roster. ANSWER makes ALERTING TALKING and is else ignored
(R113). RING places a call at an IDLE call point, with the ring mark while it waits and answer-pending as the hook
stands, sets answer-pending in CONNECTING, answers ALERTING with CALL ANSWERED, and is else answered BUSY, which joins
the queue only where no CALL item of the call point stands (R114). CLEAR ends a waiting call with the cause END, clears
a call in TALKING, ALERTING or RINGING, its lane, with no call waiting and no channel to regrow, moving to SPARE, and
one that connects as R116 has it for the state of its move, and is ignored in IDLE, CLEARING and LOCKOUT (R118, R116).

A call joins the pending list behind the calls of its level and above (R92). In RING_CONNECTING, and in WAITING with the
ring mark, an off-hook sets answer-pending; in the other states it changes the hook alone (R115, R107). It is taken only
while the hook is ON, and while the hook switch reads OFF in the status word the port took last (R107, R125): that an
event may come before any status word, and where the hook level stands in the word, are the model's choices (log 51). -/
def Obligations.OffHookPlacesOrAnswers : Prop :=
  (∀ (p : PortNo) (s : State), s.resetHeld = false →
    (callExists s p = false ∨ s.calls[p].offHook = true ∨ ¬ hookReads p true s) → exec (.hookOff p) s = .next s)
  ∧ (∀ (p : PortNo) (level : Nat) (waiting : List (PortNo × Nat)),
      List.Pairwise (fun a b : PortNo × Nat => b.2 ≤ a.2) waiting →
      insertWaiting p level waiting =
        (waiting.filter fun w => decide (level ≤ w.2)) ++ (p, level) :: waiting.filter fun w => decide (w.2 < level))
  ∧ (∀ (p : PortNo) (s : State), s.resetHeld = false → callExists s p = true → s.calls[p].offHook = false →
    hookReads p true s →
    ((s.calls[p].state = .ringConnecting ∨ (s.calls[p].state = .waiting ∧ s.calls[p].ringMark = true)) →
      ∃ t, exec (.hookOff p) s = .next t ∧ onlyReports s.link t.link
        ∧ t = { s with
              calls := s.calls.set p { s.calls[p] with offHook := true, answerPending := true }, link := t.link }
        ∧ hasMark (.call p) Mark.hookOff t)
    ∧ ((s.calls[p].state = .connecting ∨ s.calls[p].state = .alerting ∨ s.calls[p].state = .talking
          ∨ s.calls[p].state = .clearing ∨ s.calls[p].state = .lockout
          ∨ (s.calls[p].state = .waiting ∧ s.calls[p].ringMark = false)) →
      ∃ t, exec (.hookOff p) s = .next t ∧ onlyReports s.link t.link
        ∧ t = { s with calls := s.calls.set p { s.calls[p] with offHook := true }, link := t.link }
        ∧ hasMark (.call p) Mark.hookOff t)
    ∧ (s.calls[p].state = .idle →
      ∃ t, exec (.hookOff p) s = .next t ∧ onlyReports s.link t.link
        ∧ (let c : CallPoint :=
            { s.calls[p] with offHook := true, ringMark := false, answerPending := false, ringTimer := 0 }
           let waits : State :=
            { s with
              calls := s.calls.set p { c with state := .waiting },
              alloc := { s.alloc with waiting := insertWaiting p c.level s.alloc.waiting }, link := t.link }
           (s.calls[p].level ≤ s.alloc.floor →
              t = waits ∧ hasMark (.call p) CallState.waiting.code t
                ∧ marksOf .lane t.link.reports = marksOf .lane s.link.reports)
            ∧ (s.alloc.floor < s.calls[p].level → laneFor s s.calls[p].level = none →
              t = waits ∧ hasMark (.call p) CallState.waiting.code t ∧ hasMark .lane Mark.pending t)
            ∧ (∀ l, s.alloc.floor < s.calls[p].level → laneFor s s.calls[p].level = some l →
              t = { s with
                    calls := s.calls.set p { c with state := .connecting, lane := some l },
                    alloc := { s.alloc with owned := withMove l (.call p) s.alloc.owned },
                    round := { s.round with queue := s.round.queue ++ [.lane l (.call p)] }, link := t.link }
                ∧ hasMark (.call p) CallState.connecting.code t)))
    ∧ (s.calls[p].state = .ringing →
      ∃ t, exec (.hookOff p) s = .next t ∧ onlyReports s.link t.link
        ∧ t = { s with
              calls := s.calls.set p
                { s.calls[p] with
                  offHook := true, state := .talking, ringMark := false, answerPending := false, ringTimer := 0 },
              round := { s.round with queue := withCallItem p .answered s.round.queue }, link := t.link }
        ∧ hasMark (.call p) CallState.talking.code t ∧ hasMark (.call p) Mark.answeredSent t))
  ∧ (∀ (m : List Byte) (o : Nat) (s : State),
      (let kind := byteAt m o
       let here := byteAt m (o + 1) = 0xFF#8 ∨ s.round.numbering.node = some (byteAt m (o + 1)).toNat
       let t := takeItem m s o
       (¬ here → t = s)
        ∧ (here → kind = 0x14#8 → t = { s with round := { s.round with rosterOwed := true } })
        ∧ (kind ≠ 0x11#8 → kind ≠ 0x12#8 → kind ≠ 0x13#8 → kind ≠ 0x14#8 → t = s)
        ∧ (kind ≠ 0x14#8 → 7 < (byteAt m (o + 2)).toNat → t = s)
        ∧ (∀ p : PortNo, kind ≠ 0x14#8 → (byteAt m (o + 2)).toNat = p.val → callExists s p = false → t = s)
        ∧ (∀ p : PortNo, here → (byteAt m (o + 2)).toNat = p.val → callExists s p = true →
          (let st := s.calls[p].state
           let quiet (c : CallPoint) : CallPoint := { c with ringMark := false, answerPending := false, ringTimer := 0 }
           (kind = 0x11#8 → st ≠ .alerting → t = s)
            ∧ (kind = 0x11#8 → st = .alerting →
                t = { s with calls := s.calls.set p { quiet s.calls[p] with state := .talking }, link := t.link }
                  ∧ onlyReports s.link t.link ∧ hasMark (.call p) CallState.talking.code t)
            ∧ (kind = 0x13#8 → st = .idle →
                (let c : CallPoint := { quiet s.calls[p] with answerPending := s.calls[p].offHook }
                 ((s.calls[p].level ≤ s.alloc.floor ∨ laneFor s s.calls[p].level = none) →
                    t = { s with
                          calls := s.calls.set p { c with state := .waiting, ringMark := true },
                          alloc := { s.alloc with waiting := insertWaiting p c.level s.alloc.waiting }, link := t.link }
                      ∧ hasMark (.call p) CallState.waiting.code t)
                  ∧ (∀ l, s.alloc.floor < s.calls[p].level → laneFor s s.calls[p].level = some l →
                    t = { s with
                          calls := s.calls.set p { c with state := .ringConnecting, lane := some l },
                          alloc := { s.alloc with owned := withMove l (.call p) s.alloc.owned },
                          round := { s.round with queue := s.round.queue ++ [.lane l (.call p)] }, link := t.link }
                      ∧ hasMark (.call p) CallState.ringConnecting.code t)
                  ∧ onlyReports s.link t.link))
            ∧ (kind = 0x13#8 → st = .connecting →
                t = { s with calls := s.calls.set p { s.calls[p] with answerPending := true } })
            ∧ (kind = 0x13#8 → st = .alerting →
                t = { s with
                      calls := s.calls.set p { quiet s.calls[p] with state := .talking },
                      round := { s.round with queue := withCallItem p .answered s.round.queue }, link := t.link }
                  ∧ onlyReports s.link t.link ∧ hasMark (.call p) CallState.talking.code t
                  ∧ hasMark (.call p) Mark.answeredSent t)
            ∧ (kind = 0x13#8 → st ≠ .idle → st ≠ .connecting → st ≠ .alerting →
                t = { s with
                      round :=
                        { s.round with
                          queue := if s.round.queue.any (Item.isCallOf p) = true then s.round.queue
                            else s.round.queue ++ [.call p .busy] },
                      link := t.link }
                  ∧ onlyReports s.link t.link ∧ hasMark (.call p) Mark.busy t)
            ∧ (kind = 0x12#8 → (st = .idle ∨ st = .clearing ∨ st = .lockout) → t = s)
            ∧ (kind = 0x12#8 → st = .waiting →
                t = { s with
                      calls := s.calls.set p { quiet s.calls[p] with state := .idle, cause := some .ended },
                      alloc := { s.alloc with waiting := s.alloc.waiting.filter fun w => decide (w.1 ≠ p) },
                      link := t.link }
                  ∧ onlyReports s.link t.link ∧ hasMark (.call p) CallState.idle.code t)
            ∧ (∀ e : Entry, kind = 0x12#8 → (st = .talking ∨ st = .alerting ∨ st = .ringing) → laneListsLegal s →
                s.calls[p].lane = some e.lane → e ∈ s.alloc.owned → e.use = .call p → e.move = none →
                s.alloc.waiting = [] → regrower s = none →
                t = { s with
                      calls := s.calls.set p { quiet s.calls[p] with state := .clearing, cause := some .ended },
                      alloc := { s.alloc with owned := withMove e.lane .spare s.alloc.owned },
                      round :=
                        { s.round with
                          queue := withCallItem p (.down .ended) s.round.queue ++ [.lane e.lane .spare] },
                      link := t.link }
                  ∧ onlyReports s.link t.link ∧ hasMark (.call p) CallState.clearing.code t
                  ∧ hasMark (.call p) Mark.downSent t)
            ∧ (∀ (e : Entry) (m : Move), kind = 0x12#8 → (st = .connecting ∨ st = .ringConnecting) →
                laneListsLegal s → s.calls[p].lane = some e.lane → e ∈ s.alloc.owned → e.move = some m →
                m.target = .call p →
                onlyReports s.link t.link ∧ clearsConnecting p .ended e m s t)))))

/-- On-hook (R110, R116, R117). In TALKING and ALERTING the call is cleared with the cause HOOK: the call point enters
CLEARING, CALL DOWN is queued, and its lane, with no call waiting and no channel to regrow, gets a QUEUED move to SPARE.
Else the lane goes to the head of the pending list, where its level is above the floor, and that call point connects; or
to the channel that regrows (R94, R111). In CONNECTING with the move toward it still QUEUED the call ends at once, and
nothing reaches the end: the move is withdrawn with its LANE item and the lane keeps its old use, here SPARE with
nothing to offer it to, or an ACTIVE channel's with no call waiting (R87, R116); with the move SENT the call is cleared
as in TALKING and the move is to be followed up (R88). A call of its own that waits is withdrawn and the call point is
IDLE. LOCKOUT ends in IDLE. In RING_CONNECTING, and in WAITING with the ring mark, an on-hook clears answer-pending; in
IDLE, RINGING and CLEARING it changes the hook alone (R115, R107). It is taken only while the hook is OFF, and while the
hook switch reads ON in the status word the port took last (R107, R125): that an event may come before any status word,
and where the hook level stands in the word, are the model's choices (log 51). The channel that regrows is the one of
R94. -/
def Obligations.OnHookClearsTheCall : Prop :=
  (∀ s : State, regrowerByRule s)
  ∧ (∀ (p : PortNo) (s : State), s.resetHeld = false →
    (callExists s p = false ∨ s.calls[p].offHook = false ∨ ¬ hookReads p false s) → exec (.hookOn p) s = .next s)
  ∧ ∀ (p : PortNo) (s : State), s.resetHeld = false → callExists s p = true → s.calls[p].offHook = true →
    hookReads p false s →
    ((s.calls[p].state = .ringConnecting ∨ (s.calls[p].state = .waiting ∧ s.calls[p].ringMark = true)) →
      ∃ t, exec (.hookOn p) s = .next t ∧ onlyReports s.link t.link
        ∧ t = { s with
              calls := s.calls.set p { s.calls[p] with offHook := false, answerPending := false }, link := t.link }
        ∧ hasMark (.call p) Mark.hookOn t)
    ∧ ((s.calls[p].state = .idle ∨ s.calls[p].state = .ringing ∨ s.calls[p].state = .clearing) →
      ∃ t, exec (.hookOn p) s = .next t ∧ onlyReports s.link t.link
        ∧ t = { s with calls := s.calls.set p { s.calls[p] with offHook := false }, link := t.link }
        ∧ hasMark (.call p) Mark.hookOn t)
    ∧ (∀ e : Entry, laneListsLegal s → (s.calls[p].state = .talking ∨ s.calls[p].state = .alerting) →
        s.calls[p].lane = some e.lane →
        e ∈ s.alloc.owned → e.use = .call p → e.move = none → s.alloc.waiting = [] → regrower s = none →
      ∃ t, exec (.hookOn p) s = .next t ∧ onlyReports s.link t.link
        ∧ t = { s with
              calls := s.calls.set p
                { s.calls[p] with
                  offHook := false, state := .clearing, ringMark := false, answerPending := false, ringTimer := 0,
                  cause := some .hook },
              alloc := { s.alloc with owned := withMove e.lane .spare s.alloc.owned },
              round :=
                { s.round with
                  queue := withCallItem p (.down .hook) s.round.queue ++ [.lane e.lane .spare] },
              link := t.link }
        ∧ hasMark (.call p) CallState.clearing.code t ∧ hasMark (.call p) Mark.downSent t)
    ∧ (∀ (e : Entry) (next : Use), laneListsLegal s →
        (s.calls[p].state = .talking ∨ s.calls[p].state = .alerting) → s.calls[p].lane = some e.lane →
        e ∈ s.alloc.owned → e.use = .call p → e.move = none →
      (let cleared : CallPoint :=
        { s.calls[p] with
          offHook := false, state := .clearing, ringMark := false, answerPending := false, ringTimer := 0,
          cause := some .hook }
       let taken (t : State) : State :=
        { s with
          calls := s.calls.set p cleared, alloc := { s.alloc with owned := withMove e.lane next s.alloc.owned },
          round :=
            { s.round with queue := withCallItem p (.down .hook) s.round.queue ++ [.lane e.lane next] },
          link := t.link }
       (∀ (q : PortNo) (level : Nat) (rest : List (PortNo × Nat)), s.alloc.waiting = (q, level) :: rest → q ≠ p →
          s.alloc.floor < level → next = .call q →
          ∃ t, exec (.hookOn p) s = .next t ∧ onlyReports s.link t.link
            ∧ (let c := s.calls[q]
               t = { taken t with
                calls := (taken t).calls.set q
                  { c with
                    lane := some e.lane, state := if c.ringMark = true then .ringConnecting else .connecting,
                    ringMark := false, answerPending := c.ringMark && c.offHook, ringTimer := 0 },
                alloc :=
                  { (taken t).alloc with waiting := s.alloc.waiting.filter fun w => decide (w.1 ≠ q) } })
            ∧ hasMark (.call p) CallState.clearing.code t)
        ∧ (∀ j : ChanNo, (∀ w ∈ s.alloc.waiting.head?, w.2 ≤ s.alloc.floor) → regrower s = some j →
            next = .channel j →
          ∃ t, exec (.hookOn p) s = .next t ∧ onlyReports s.link t.link ∧ t = taken t
            ∧ hasMark (.call p) CallState.clearing.code t)))
    ∧ (∀ (e : Entry) (m : Move), laneListsLegal s → s.calls[p].state = .connecting → s.calls[p].lane = some e.lane →
        e ∈ s.alloc.owned → e.move = some m → m.target = .call p →
      ∃ t, exec (.hookOn p) s = .next t ∧ onlyReports s.link t.link
        ∧ clearsConnecting p .hook e m
            { s with calls := s.calls.set p { s.calls[p] with offHook := false } } t)
    ∧ (s.calls[p].state = .waiting → s.calls[p].ringMark = false →
      ∃ t, exec (.hookOn p) s = .next t ∧ onlyReports s.link t.link
        ∧ t = { s with
              calls := s.calls.set p
                { s.calls[p] with
                  offHook := false, state := .idle, ringMark := false, answerPending := false, ringTimer := 0,
                  cause := some .hook },
              alloc := { s.alloc with waiting := s.alloc.waiting.filter fun w => decide (w.1 ≠ p) },
              link := t.link }
        ∧ hasMark (.call p) CallState.idle.code t)
    ∧ (s.calls[p].state = .lockout →
      ∃ t, exec (.hookOn p) s = .next t ∧ onlyReports s.link t.link
        ∧ t = { s with
              calls := s.calls.set p
                { s.calls[p] with
                  offHook := false, state := .idle, ringMark := false, answerPending := false, ringTimer := 0 },
              link := t.link }
        ∧ hasMark (.call p) CallState.idle.code t)

/-! ### Contact inputs -/

/-- Contact inputs (R138, R139, R140). A change of a line's level starts or drops the test of its input and touches
nothing else. An input of a CONTACTS port whose level has held for the debounce time takes it as its debounced state,
with its mark, and the incident-active flag is set exactly while a tagged input is ACTIVE; while the flag stays, nothing
else changes. That the level is recorded whatever the port's function, and that the time it has held is counted in local
cycles, is the model's choice (log 7). -/
def Obligations.ContactsAreDebouncedAndJudged : Prop :=
  ∀ (p : PortNo) (n : Fin 4) (s : State),
    (∀ closed : Bool,
      exec (.contactLevelChange p n closed) s = .next
        { s with
          ports := s.ports.set p
            { s.ports[p] with
              contacts := s.ports[p].contacts.set n
                { s.ports[p].contacts[n] with
                  level := closed,
                  held := if s.ports[p].contacts[n].level = closed then s.ports[p].contacts[n].held else 0 } } })
    ∧ (s.resetHeld = false → portFunction s p = .contacts →
        s.ports[p].contacts[n].level ≠ s.ports[p].contacts[n].active →
      ∃ t, exec (.contactChange p n) s = .next t
        ∧ (let level := s.ports[p].contacts[n].level
           t.ports = s.ports.set p
              { s.ports[p] with
                contacts := s.ports[p].contacts.set n { level := level, active := level, held := 0 } }
            ∧ hasMark (.contact p) (if level = true then n.val else 4 + n.val) t
            ∧ (t.alloc.incident = true ↔ incidentHolds t)
            ∧ (t.alloc.incident = s.alloc.incident →
                onlyReports s.link t.link ∧ t = { s with ports := t.ports, link := t.link })
            ∧ (t.alloc.floor ≠ s.alloc.floor → hasMark .lane Mark.floor t)))

/-! ### Drop ports: receiving -/

/-- A byte taken between frames (R133, R134): the delimiter opens a frame, or after an escape byte leaves the state
IDLE; any other byte is remembered only as being the escape byte or not. With no ACTIVE LINK channel on the port nothing
is received (R128). A character error is there on an ASYNC port alone (R133): between frames it is ignored, and in a
frame the frame is thrown away, uncounted while its span is empty and else ABORTED (R134, R136, R151).

The bits of the line (R125, R133). An ASYNC character is a start bit, the data bits of the byte with the least
significant first, and a stop bit; with its stop bit at the start-bit level it is a character error. That a data bit of
1 stands at the stop-bit level is the model's choice (log 18). A SYNC port takes its bits one at a time. In IDLE,
transparent mode off, they are searched for the delimiter byte in the channel's first-bit order: it opens a frame, or
right after an escape byte leaves the port in IDLE with the search begun afresh, which is the model's choice (log 18).
Once aligned, each eighth bit completes a byte, which is taken as a whole one. -/
def Obligations.ByteBetweenFrames : Prop :=
  (∀ (p : PortNo) (k : ChanNo) (s : State), s.resetHeld = false → receiver s p = some k → portFunction s p = .async →
    ∀ b : Byte,
      exec (.portByteReceived p (.bits (false :: lsbBits b ++ [true]))) s = exec (.portByteReceived p (.byte b)) s
        ∧ exec (.portByteReceived p (.bits (false :: lsbBits b ++ [false]))) s
            = exec (.portByteReceived p .charError) s)
  ∧ (∀ (p : PortNo) (k : ChanNo) (s : State), s.resetHeld = false → receiver s p = some k → portFunction s p = .sync →
    (let r := s.ports[p].rx
     let set := s.chans[k].set
     let received (rx : PortRx) : State := { s with ports := s.ports.set p { s.ports[p] with rx := rx } }
     (∀ levels : List Bool,
        receiveByte p (.bits levels) s = levels.foldl (fun u bit => takeBit p bit u) s)
      ∧ (∀ bit : Bool, set.transparent = false → r.isOpen = false → r.bits.length ≤ 15 →
        (let bits := r.bits ++ [bit]
         let found := syncBits set set.delimiter <:+ bits
         let marker := bits = syncBits set set.escape ++ syncBits set set.delimiter
         exec (.portByteReceived p (.bits [bit])) s = .next
          (if marker then received PortRx.initial
          else if found then received { PortRx.initial with isOpen := true }
          else received { r with bits := bits.drop (bits.length - 15) })))
      ∧ (∀ bit : Bool, set.transparent = true ∨ r.isOpen = true → r.bits.length < 7 →
        exec (.portByteReceived p (.bits [bit])) s = .next (received { r with bits := r.bits ++ [bit] }))
      ∧ (∀ (bit : Bool) (b : Byte), set.transparent = true ∨ r.isOpen = true → r.bits ++ [bit] = syncBits set b →
        exec (.portByteReceived p (.bits [bit])) s
          = exec (.portByteReceived p (.byte b)) (received { r with bits := [] }))))
  ∧ ∀ (p : PortNo) (s : State), s.resetHeld = false →
    (∀ taken : LineByte, receiver s p = none → exec (.portByteReceived p taken) s = .next s)
    ∧ (∀ (b : Byte) (k : ChanNo), receiver s p = some k → s.chans[k].set.transparent = false →
        s.ports[p].rx.isOpen = false →
      exec (.portByteReceived p (.byte b)) s = .next
        { s with
          ports := s.ports.set p
            { s.ports[p] with
              rx :=
                if b = s.chans[k].set.delimiter then
                  (if s.ports[p].rx.escaped = true then PortRx.initial else { PortRx.initial with isOpen := true })
                else { s.ports[p].rx with escaped := decide (b = s.chans[k].set.escape) } } })
    ∧ (∀ k : ChanNo, receiver s p = some k →
      (let r := s.ports[p].rx
       ((portFunction s p ≠ .async ∨ r.isOpen = false) → exec (.portByteReceived p .charError) s = .next s)
        ∧ (portFunction s p = .async → r.isOpen = true → r.raw = 0 → s.chans[k].set.transparent = false →
          exec (.portByteReceived p .charError) s = .next
            { s with ports := s.ports.set p { s.ports[p] with rx := PortRx.initial } })
        ∧ (portFunction s p = .async → r.isOpen = true → ¬ (r.raw = 0 ∧ s.chans[k].set.transparent = false) →
          ∃ t, exec (.portByteReceived p .charError) s = .next t
            ∧ t = { s with
                  ports := s.ports.set p { s.ports[p] with rx := PortRx.initial, ready := t.ports[p].ready },
                  chans := s.chans.set k (s.chans[k].thrown .aborted), link := t.link }
            ∧ onlyReports s.link t.link
            ∧ (s.chans[k].writer ≠ .discarding → hasMark (.channel k) Discard.aborted.mark t))))

/-- A byte taken in a frame (R134): the escape byte is remembered; any other byte but the delimiter joins the check hold
while the hold has room, with 20h taken off after an escape byte; an escaped delimiter ends the frame, without count
while its span holds the escape byte alone, and else discarded ABORTED, its blocks released and an ABORT owed where the
sender has begun it (R151, R155). A full hold gives its oldest byte as payload: the count and the running checks take it
in, and the writer opens a frame with it, writes it at the frame's next payload place, in a new block where the block in
hand is full, or, with no free block, loses the frame OVERFLOW and is DISCARDING (R145, R146, R151, R152), RDY following
the free blocks (R137). One byte above the maximum frame length discards the frame TOO_LONG; that the byte reaches the
writer first, and so stands at its place, is the model's choice (log 30). -/
def Obligations.ByteOfAFrame : Prop :=
  ∀ (p : PortNo) (b : Byte) (k : ChanNo) (s : State), s.resetHeld = false → receiver s p = some k →
    s.chans[k].set.transparent = false → s.ports[p].rx.isOpen = true →
    (let r := s.ports[p].rx
     let set := s.chans[k].set
     (b = set.escape →
        exec (.portByteReceived p (.byte b)) s = .next
          { s with
            ports := s.ports.set p
              { s.ports[p] with
                rx := { r with escaped := true, raw := r.raw + 1, allFill := r.allFill && decide (b = 0xFF#8) } } })
      ∧ (b ≠ set.escape → b ≠ set.delimiter → r.hold.length < set.check.size →
        exec (.portByteReceived p (.byte b)) s = .next
          { s with
            ports := s.ports.set p
              { s.ports[p] with
                rx :=
                  { r with
                    escaped := false, raw := r.raw + 1, allFill := r.allFill && decide (b = 0xFF#8),
                    hold := r.hold ++ [if r.escaped = true then b - 0x20#8 else b] } } })
      ∧ (b = set.delimiter → b ≠ set.escape → r.escaped = true → r.raw < 2 →
        exec (.portByteReceived p (.byte b)) s = .next
          { s with ports := s.ports.set p { s.ports[p] with rx := PortRx.initial } })
      ∧ (b = set.delimiter → b ≠ set.escape → r.escaped = true → 2 ≤ r.raw → s.chans[k].writer = .idle →
        ∃ t, exec (.portByteReceived p (.byte b)) s = .next t
          ∧ t = { s with
                ports := s.ports.set p { s.ports[p] with rx := PortRx.initial },
                chans := s.chans.set k
                  { s.chans[k] with
                    counters :=
                      { s.chans[k].counters with
                        aborted :=
                          if s.chans[k].counters.aborted < 65535 then s.chans[k].counters.aborted + 1 else 65535 } },
                link := t.link }
          ∧ onlyReports s.link t.link ∧ hasMark (.channel k) Discard.aborted.mark t)
      ∧ (b = set.delimiter → b ≠ set.escape → r.escaped = true → 2 ≤ r.raw → s.chans[k].writer ≠ .idle →
        ∃ t, exec (.portByteReceived p (.byte b)) s = .next t
          ∧ t = { s with
                ports := s.ports.set p { s.ports[p] with rx := PortRx.initial, ready := t.ports[p].ready },
                chans := s.chans.set k (s.chans[k].thrown .aborted), link := t.link }
          ∧ onlyReports s.link t.link
          ∧ (s.chans[k].writer = .writing → hasMark (.channel k) Discard.aborted.mark t))
      ∧ (∀ (o : Byte) (rest : List Byte), b ≠ set.escape → b ≠ set.delimiter → set.check.size ≤ r.hold.length →
          r.hold ++ [if r.escaped = true then b - 0x20#8 else b] = o :: rest →
        (let ch := s.chans[k]
         let taken : PortRx :=
          { r with
            escaped := false, raw := r.raw + 1, allFill := r.allFill && decide (b = 0xFF#8), hold := rest,
            count := r.count + 1, check16 := c16Step r.check16 o, check32 := c32Step r.check32 o }
         (∀ (c : Chain) (f : Frame), r.count < set.maxLength → ch.writer = .writing → ch.inChain = some c →
            c.frames.getLast? = some f →
            (f.length < 20 + 32 * (f.taken - 1) ∨ c.occupancy < c.blocks.length) →
          ∃ t, exec (.portByteReceived p (.byte b)) s = .next t
            ∧ (let place := c.payloadAddress f f.length
               let record := 32 * c.blockAt f.start
               t = { s with
                  ports := s.ports.set p
                    { s.ports[p] with rx := taken, ready := readyAfter s p (c.withByte f) },
                  chans := s.chans.set k { ch with inChain := some (c.withByte f) }, mem := t.mem }
                ∧ ((place < record ∨ record + 12 ≤ place) → Memory.read t.mem place = o)
                ∧ (∀ a, a ≠ place → (a < record ∨ record + 12 ≤ a) → Memory.read t.mem a = Memory.read s.mem a)))
          ∧ (∀ (c : Chain) (f : Frame), r.count < set.maxLength → ch.writer = .writing → ch.inChain = some c →
              c.frames.getLast? = some f → 20 + 32 * (f.taken - 1) ≤ f.length → c.blocks.length ≤ c.occupancy →
            ∃ t, exec (.portByteReceived p (.byte b)) s = .next t
              ∧ t = { s with
                    ports := s.ports.set p { s.ports[p] with rx := taken, ready := t.ports[p].ready },
                    chans := s.chans.set k { ch.lost .overflow with writer := .discarding }, link := t.link }
              ∧ onlyReports s.link t.link ∧ hasMark (.channel k) Discard.overflow.mark t)
          ∧ (∀ c : Chain, r.count < set.maxLength → ch.writer = .idle → ch.inChain = some c →
              c.occupancy < c.blocks.length →
            ∃ t, exec (.portByteReceived p (.byte b)) s = .next t
              ∧ (let place := 32 * c.blockAt c.writer + 12
                 ∃ f : Frame, c.withOpened.frames.getLast? = some f
                  ∧ t = { s with
                        ports := s.ports.set p
                          { s.ports[p] with rx := taken, ready := readyAfter s p c.withOpened },
                        chans := s.chans.set k
                          { ch with
                            inChain := some (c.withOpened.withNewest { f with length := 1 }), writer := .writing },
                        mem := t.mem }
                  ∧ Memory.read t.mem place = o
                  ∧ (∀ a, (a < 32 * c.blockAt c.writer ∨ place < a) → Memory.read t.mem a = Memory.read s.mem a)))
          ∧ (∀ c : Chain, r.count < set.maxLength → ch.writer = .idle → ch.inChain = some c →
              c.blocks.length ≤ c.occupancy →
            ∃ t, exec (.portByteReceived p (.byte b)) s = .next t
              ∧ t = { s with
                    ports := s.ports.set p { s.ports[p] with rx := taken },
                    chans := s.chans.set k
                      { ch with writer := .discarding, counters := ch.counters.oneMore .overflow },
                    link := t.link }
              ∧ onlyReports s.link t.link ∧ hasMark (.channel k) Discard.overflow.mark t)
          ∧ (r.count < set.maxLength → ch.writer = .discarding →
            exec (.portByteReceived p (.byte b)) s = .next
              { s with ports := s.ports.set p { s.ports[p] with rx := taken } })
          ∧ (set.maxLength ≤ r.count → ch.writer = .discarding →
            exec (.portByteReceived p (.byte b)) s = .next
              { s with
                ports := s.ports.set p { s.ports[p] with rx := PortRx.initial },
                chans := s.chans.set k { ch with writer := .idle } })
          ∧ (∀ (c : Chain) (f : Frame), set.maxLength ≤ r.count → ch.writer = .writing → ch.inChain = some c →
              c.frames.getLast? = some f →
              (f.length < 20 + 32 * (f.taken - 1) ∨ c.occupancy < c.blocks.length) →
            ∃ t, exec (.portByteReceived p (.byte b)) s = .next t
              ∧ (let place := c.payloadAddress f f.length
                 let record := 32 * c.blockAt f.start
                 t = { s with
                      ports := s.ports.set p { s.ports[p] with rx := PortRx.initial, ready := t.ports[p].ready },
                      chans := s.chans.set k (ch.thrown .tooLong), mem := t.mem, link := t.link }
                  ∧ ((place < record ∨ record + 12 ≤ place) → Memory.read t.mem place = o)
                  ∧ (∀ a, a ≠ place → (a < record ∨ record + 12 ≤ a) → Memory.read t.mem a = Memory.read s.mem a))
              ∧ onlyReports s.link t.link ∧ hasMark (.channel k) Discard.tooLong.mark t))))

/-- The delimiter closes a span (R135, R151, R145): of a frame that the writer is writing, with 2 payload bytes or more,
the state stays OPEN with a new empty span; when the held bytes are its check, the frame is CLOSED, with a stamp while
stamping is on, its record stands in its first block, and frames in rises; when they are not, it is counted DROP_CHECK
and its blocks are released. Outside the record no byte of frame memory changes. An empty span changes nothing else; a
span of FFh bytes alone, with the fill value FFh, is thrown away without count; and one with fewer than 2 payload bytes
is discarded ABORTED. In every case the state stays OPEN with a new empty span.

The stamp (R76): the delay of the source end is added to the tick, and what runs over goes to the cycle and from the
cycle to the seconds; without line time all fields are 0 and the quality is NONE. The quality mark (R75) follows the
mode, the validity and the holdover timer. -/
def Obligations.SpanClosesOnTheDelimiter : Prop :=
  (∀ t : Timing,
    (let d : Nat :=
      match t.validity, t.source with
      | .fromEnd, some .a => t.delay.a
      | .fromEnd, some .b => t.delay.b
      | _, _ => 0
     let ticks := t.phase.toNat / 2 ^ 24 + d
     let cycles := t.cycle + ticks / 256
     t.stamp =
        (if t.validity = .none then { seconds := 0#32, cycle := 0, tick := 0, quality := .none }
        else
          { seconds := BitVec.ofNat 32 (t.seconds.toNat + cycles / 8000), cycle := cycles % 8000, tick := ticks % 256,
            quality := t.quality })
      ∧ (t.quality = .traced ↔ t.mode = .tracking ∧ t.validity = .fromEnd)
      ∧ (t.quality = .settling ↔ t.mode = .acquiring ∧ t.validity = .fromEnd)
      ∧ (t.quality = .hold ↔ t.mode = .holdover ∧ t.validity = .fromEnd ∧ t.holdTimer ≤ t.holdLimit * 500)
      ∧ (t.quality = .localTime ↔ t.validity = .fromHost
          ∨ (t.validity = .fromEnd
            ∧ (t.mode = .free ∨ (t.mode = .holdover ∧ t.holdLimit * 500 < t.holdTimer))))
      ∧ (t.quality = .none ↔ t.validity = .none)))
  ∧ (∀ (p : PortNo) (k : ChanNo) (s : State), s.resetHeld = false → receiver s p = some k →
      s.chans[k].set.transparent = false → s.ports[p].rx.isOpen = true →
      s.chans[k].set.delimiter ≠ s.chans[k].set.escape → s.ports[p].rx.escaped = false →
    (let r := s.ports[p].rx
     let fill := s.chans[k].set.fillIdle = true ∧ r.allFill = true
     let delimiter : Instr := .portByteReceived p (.byte s.chans[k].set.delimiter)
     let span : PortRx := { PortRx.initial with isOpen := true }
     (r.raw = 0 → exec delimiter s = .next { s with ports := s.ports.set p { s.ports[p] with rx := span } })
      ∧ (r.raw ≠ 0 → fill →
        ∃ t, exec delimiter s = .next t
          ∧ t = { s with
                ports := s.ports.set p { s.ports[p] with rx := span, ready := t.ports[p].ready },
                chans := s.chans.set k s.chans[k].thrownUncounted })
      ∧ (r.raw ≠ 0 → ¬ fill → r.count < 2 →
        ∃ t, exec delimiter s = .next t
          ∧ t = { s with
                ports := s.ports.set p { s.ports[p] with rx := span, ready := t.ports[p].ready },
                chans := s.chans.set k (s.chans[k].thrown .aborted), link := t.link }
          ∧ onlyReports s.link t.link
          ∧ (s.chans[k].writer ≠ .discarding → hasMark (.channel k) Discard.aborted.mark t))))
  ∧ ∀ (p : PortNo) (k : ChanNo) (c : Chain) (f : Frame) (s : State), s.resetHeld = false → receiver s p = some k →
    s.chans[k].set.transparent = false → s.ports[p].rx.isOpen = true →
    s.chans[k].set.delimiter ≠ s.chans[k].set.escape → s.ports[p].rx.escaped = false → s.ports[p].rx.raw ≠ 0 →
    ¬ (s.chans[k].set.fillIdle = true ∧ s.ports[p].rx.allFill = true) → 2 ≤ s.ports[p].rx.count →
    s.chans[k].writer = .writing → s.chans[k].inChain = some c → c.frames.getLast? = some f → f.released = 0 →
    ∃ t, exec (.portByteReceived p (.byte s.chans[k].set.delimiter)) s = .next t
      ∧ t.ports[p].rx = { PortRx.initial with isOpen := true } ∧ t.chans[k].writer = .idle
      ∧ (let r := s.ports[p].rx
         let set := s.chans[k].set
         if r.hold = portCheckBytes set.check r.check16 r.check32 false then
           (let g :=
              { f with
                closed := true, stamp := if set.stamping = true then some s.timing.stamp else none,
                released := if f.firstGone = true ∧ f.length ≤ f.sent then f.taken else 0 }
            let record := Config.blockBytes * c.blockAt f.start
            t.chans = s.chans.set k
                { s.chans[k] with
                  inChain := some { c with frames := c.frames.dropLast ++ [g] }, writer := .idle,
                  counters := { s.chans[k].counters with framesIn := s.chans[k].counters.framesIn + 1#32 } }
              ∧ (∀ i, i < 12 → Memory.read t.mem (record + i) = byteAt g.record i)
              ∧ (∀ a, (a < record ∨ record + 12 ≤ a) → Memory.read t.mem a = Memory.read s.mem a)
              ∧ t.link = s.link)
         else
           t.chans[k].inChain = some c.dropNewest
            ∧ t.chans[k].counters =
                { s.chans[k].counters with
                  dropCheck :=
                    if s.chans[k].counters.dropCheck < 65535 then s.chans[k].counters.dropCheck + 1 else 65535 }
            ∧ (t.chans[k].sender.abortOwed = true ↔ s.chans[k].sender.abortOwed = true ∨ f.begun = true)
            ∧ hasMark (.channel k) Discard.dropCheck.mark t ∧ t.mem = s.mem)
      ∧ t = { s with ports := t.ports, chans := t.chans, mem := t.mem, link := t.link }
      ∧ (∀ q, q ≠ p → t.ports[q] = s.ports[q]) ∧ (∀ j, j ≠ k → t.chans[j] = s.chans[j])

/-- Transparent frames (R136, R145, R151). The first byte opens a frame and is its first payload byte; on a SYNC port
FFh bytes before it are passed over. While the frame is being written, has room in the block in hand and stays below its
effective length, a byte stands at the frame's next payload place, the length rises by 1 and the record follows; outside
that place and the record no byte of frame memory changes. On a SYNC port FFh bytes are kept apart until the run is
known to be payload, as they are when another byte follows up to three of them (kept apart: the model's choice, log 19);
the fourth closes the frame. The byte that brings the frame to its effective length, with the FFh bytes kept apart before
it, stands at the next payload places and closes it, and on an ASYNC port the idle gap closes it: it is CLOSED as good,
frames in rises and the receive state is IDLE. In every case no byte changes outside those places and the record. -/
def Obligations.TransparentFramesAreStoredAndClosed : Prop :=
  ∀ (p : PortNo) (k : ChanNo) (s : State), s.resetHeld = false → receiver s p = some k →
    s.chans[k].set.transparent = true →
    (let r := s.ports[p].rx
     let ch := s.chans[k]
     let most := min 32 ch.set.maxLength
     let text (b : Byte) : Prop := portFunction s p = .async ∨ b ≠ 0xFF#8
     (portFunction s p = .sync → r.isOpen = false → exec (.portByteReceived p (.byte 0xFF#8)) s = .next s)
      ∧ (portFunction s p = .sync → r.isOpen = true → r.fillRun < 3 → r.count + r.fillRun + 1 < most →
          exec (.portByteReceived p (.byte 0xFF#8)) s = .next
            { s with ports := s.ports.set p { s.ports[p] with rx := { r with fillRun := r.fillRun + 1 } } })
      ∧ (∀ (b : Byte) (c : Chain), text b → r = PortRx.initial → ch.writer = .idle → ch.inChain = some c →
          c.occupancy < c.blocks.length → 1 < most →
        ∃ t, exec (.portByteReceived p (.byte b)) s = .next t
          ∧ (let place := 32 * c.blockAt c.writer + 12
             ∃ f : Frame, c.withOpened.frames.getLast? = some f
              ∧ t = { s with
                    ports := s.ports.set p
                      { s.ports[p] with
                        rx := { r with isOpen := true, count := 1 }, ready := readyAfter s p c.withOpened },
                    chans := s.chans.set k
                      { ch with
                        inChain := some (c.withOpened.withNewest { f with length := 1 }), writer := .writing },
                    mem := t.mem }
              ∧ Memory.read t.mem place = b
              ∧ (∀ a, (a < 32 * c.blockAt c.writer ∨ place < a) → Memory.read t.mem a = Memory.read s.mem a)))
      ∧ (∀ (c : Chain) (f : Frame), ch.writer = .writing → ch.inChain = some c → c.frames.getLast? = some f →
          f.released = 0 →
        (let record := Config.blockBytes * c.blockAt f.start
         let good (length : Nat) : Frame :=
          { f with
            length := length, closed := true, stamp := if ch.set.stamping = true then some s.timing.stamp else none,
            released := if f.firstGone = true ∧ length ≤ f.sent then f.taken else 0 }
         let closedAs (length : Nat) (t : State) : Prop :=
          t.ports[p].rx = PortRx.initial
            ∧ t.chans = s.chans.set k
                { ch with
                  inChain := some { c with frames := c.frames.dropLast ++ [good length] }, writer := .idle,
                  counters := { ch.counters with framesIn := ch.counters.framesIn + 1#32 } }
            ∧ (∀ i, i < 12 → Memory.read t.mem (record + i) = byteAt (good length).record i)
            ∧ t = { s with ports := t.ports, chans := t.chans, mem := t.mem }
            ∧ (∀ q, q ≠ p → t.ports[q] = s.ports[q])
         (∀ b : Byte, text b → r.fillRun = 0 → r.count + 1 < most → f.length < 20 + 32 * (f.taken - 1) →
          ∃ t, exec (.portByteReceived p (.byte b)) s = .next t
            ∧ (let g := { f with length := f.length + 1 }
               let place := c.payloadAddress f f.length
               t.chans = s.chans.set k { ch with inChain := some { c with frames := c.frames.dropLast ++ [g] } }
                ∧ (∀ i, i < 12 → Memory.read t.mem (record + i) = byteAt g.record i)
                ∧ ((place < record ∨ record + 12 ≤ place) → Memory.read t.mem place = b)
                ∧ (∀ a, a ≠ place → (a < record ∨ record + 12 ≤ a) → Memory.read t.mem a = Memory.read s.mem a))
            ∧ t.ports[p].rx = { r with isOpen := true, count := r.count + 1 }
            ∧ t = { s with ports := t.ports, chans := t.chans, mem := t.mem }
            ∧ (∀ q, q ≠ p → t.ports[q] = s.ports[q]))
          ∧ (∀ b : Byte, portFunction s p = .sync → b ≠ 0xFF#8 → r.count + r.fillRun + 1 < most →
              f.length + r.fillRun < 20 + 32 * (f.taken - 1) →
            ∃ t, exec (.portByteReceived p (.byte b)) s = .next t
              ∧ t.chans = s.chans.set k
                  { ch with
                    inChain := some
                      { c with frames := c.frames.dropLast ++ [{ f with length := f.length + r.fillRun + 1 }] } }
              ∧ (∀ i, i ≤ r.fillRun →
                  (let place := c.payloadAddress f (f.length + i)
                   (place < record ∨ record + 12 ≤ place) →
                   (∀ j, j ≤ r.fillRun → c.payloadAddress f (f.length + j) = place → j = i) →
                    Memory.read t.mem place = if i < r.fillRun then 0xFF#8 else b))
              ∧ (∀ a, (a < record ∨ record + 12 ≤ a) →
                  (∀ i, i ≤ r.fillRun → a ≠ c.payloadAddress f (f.length + i)) →
                    Memory.read t.mem a = Memory.read s.mem a)
              ∧ t.ports[p].rx = { r with isOpen := true, count := r.count + r.fillRun + 1, fillRun := 0 }
              ∧ t = { s with ports := t.ports, chans := t.chans, mem := t.mem }
              ∧ (∀ q, q ≠ p → t.ports[q] = s.ports[q]))
          ∧ (∀ b : Byte, text b ∨ (r.isOpen = true ∧ r.fillRun < 3) → most ≤ r.count + r.fillRun + 1 →
              f.length + r.fillRun < 20 + 32 * (f.taken - 1) →
            ∃ t, exec (.portByteReceived p (.byte b)) s = .next t ∧ closedAs (f.length + r.fillRun + 1) t
              ∧ (∀ i, i ≤ r.fillRun →
                  (let place := c.payloadAddress f (f.length + i)
                   (place < record ∨ record + 12 ≤ place) →
                   (∀ j, j ≤ r.fillRun → c.payloadAddress f (f.length + j) = place → j = i) →
                    Memory.read t.mem place = if i < r.fillRun then 0xFF#8 else b))
              ∧ (∀ a, (a < record ∨ record + 12 ≤ a) →
                  (∀ i, i ≤ r.fillRun → a ≠ c.payloadAddress f (f.length + i)) →
                    Memory.read t.mem a = Memory.read s.mem a))
          ∧ (portFunction s p = .sync → r.isOpen = true → 3 ≤ r.fillRun →
            ∃ t, exec (.portByteReceived p (.byte 0xFF#8)) s = .next t ∧ closedAs f.length t
              ∧ (∀ a, (a < record ∨ record + 12 ≤ a) → Memory.read t.mem a = Memory.read s.mem a))
          ∧ (portFunction s p = .async → r.isOpen = true →
            ∃ t, exec (.transparentIdleGap p) s = .next t ∧ closedAs f.length t
              ∧ (∀ a, (a < record ∨ record + 12 ≤ a) → Memory.read t.mem a = Memory.read s.mem a)))))

/-! ### Drop ports: transmitting -/

/-- The arbiter serves an IDLE port (R129, R131): of two ready channels the one that was not served last, or the
lower-numbered one when the last served is neither. The frame is begun, the channel is the last served, and the opening
delimiter is chosen unless the frame is transparent or the channel's own closing delimiter, with no gap, was the last
thing sent. A channel is ready while it is ACTIVE and the oldest frame of its outbound chain has not been begun and is
CLOSED or holds M_out blocks (R159, R147). A SYNC port sends the channel's bits in its first-bit order from here on
(R130; for fill bytes still to send the model's choice, log 52). -/
def Obligations.ArbiterServesInTurn : Prop :=
  (∀ (k : ChanNo) (s : State), readyOut s k = true ↔
    s.chans[k].state = .active ∧ ∃ c f, sendsFrom k c f s ∧ f.begun = false
      ∧ (f.closed = true ∨ s.chans[k].set.markOut ≤ f.taken - f.released))
  ∧ (∀ (p : PortNo) (s : State), List.Pairwise (· < ·) (boundChannels s p)
      ∧ ∀ k : ChanNo, k ∈ boundChannels s p ↔ s.chans[k].set.port = some p)
  ∧ ∀ (p : PortNo) (k : ChanNo) (c : Chain) (f : Frame) (s : State), s.resetHeld = false →
    (portFunction s p = .async ∨ portFunction s p = .sync) → s.ports[p].tx.state = .idle → sendsFrom k c f s →
    ((boundChannels s p).filter (readyOut s) = [k]
      ∨ (∃ j, (boundChannels s p).filter (readyOut s) = [k, j] ∧ s.ports[p].lastServed ≠ some k)
      ∨ (∃ j, (boundChannels s p).filter (readyOut s) = [j, k] ∧ s.ports[p].lastServed = some j)) →
    ∃ t, exec (.arbiterChoice p) s = .next t
      ∧ (let set := s.chans[k].set
         let tx := s.ports[p].tx
         t.ports = s.ports.set p
            { s.ports[p] with
              lastServed := some k,
              tx :=
                { tx with
                  state := .sending k, aborting := false, closedBy := none, check16 := 0xFFFF#16,
                  check32 := 0xFFFFFFFF#32, msbFirst := set.msbFirst,
                  out := tx.out ++
                    (if set.transparent = true ∨ (tx.closedBy = some k ∧ set.gap = 0) then []
                    else [(set.delimiter, .plain)]) } }
          ∧ ∃ g : Frame, g = { f with begun := true, released := g.released } ∧ f.released ≤ g.released
            ∧ t.chans = s.chans.set k { s.chans[k] with outChain := some { c with frames := g :: c.frames.tail } })
      ∧ t = { s with ports := t.ports, chans := t.chans }

/-- A payload byte of the frame in SENDING goes out (R131): the byte at the frame's next payload place, which the check
takes in; the delimiter and the escape byte go out as the escape byte and, next, the byte plus 20h. When it is whole the
frame has one more byte sent.

After the last payload byte of a CLOSED frame come its check bytes and the closing delimiter (R131): the check over the
payload, least significant byte first (R187), inverted with the check-invert flag on, and escaped as the payload is;
none for the check type NONE. A transparent frame is its payload bytes as they are, with no check and no delimiter
(R136): with its last byte, where it is CLOSED by then, it has been sent whole, and that byte is the FRAME_SENT: the
model's choice (log 26). The port then rests with the fill value FFh.

The bits on line 0 (R125): of an ASYNC port the start bit, the data bits with the least significant first and the stop
bit; of a SYNC port the eight bits in the first-bit order; of a CALLPOINT port the codec byte of the control word and
then the levels of WAIT, CONNECTED and RINGER, in the order of log 51, which is the model's choice. -/
def Obligations.PayloadByteIsSent : Prop :=
  (∀ (p : PortNo) (s : State),
    (∀ b : Byte, portFunction s p = .async → s.ports[p].tx.line = some b →
        lineBits s p = false :: lsbBits b ++ [true])
      ∧ (∀ b : Byte, portFunction s p = .sync → s.ports[p].tx.line = some b →
        lineBits s p = if s.ports[p].tx.msbFirst = true then (lsbBits b).reverse else lsbBits b)
      ∧ (∀ w : ControlWord, portFunction s p = .callpoint → s.ports[p].control = some w →
        lineBits s p =
          (lsbBits w.codec).reverse ++ [w.wait, w.connected, w.ringer] ++ [false, false, false, false, false]))
  ∧ (∀ (p : PortNo) (k : ChanNo) (c : Chain) (f : Frame) (s : State), s.resetHeld = false → sends p k [] s →
      sendsFrom k c f s → s.chans[k].set.transparent = false → f.closed = true → f.length ≤ f.sent →
    (let set := s.chans[k].set
     let tx := s.ports[p].tx
     let v16 := ~~~ tx.check16
     let v32 := ~~~ tx.check32
     let check : List Byte :=
      match set.check with
      | .none => []
      | .c16 => [BitVec.extractLsb' 0 8 v16, BitVec.extractLsb' 8 8 v16]
      | .c32 =>
        [BitVec.extractLsb' 0 8 v32, BitVec.extractLsb' 8 8 v32, BitVec.extractLsb' 16 8 v32,
          BitVec.extractLsb' 24 8 v32]
     let sent : List Byte := if set.invert = true then check.map fun b => ~~~ b else check
     let line : List (Byte × TxMark) :=
      (sent.map fun b =>
        if b = set.delimiter ∨ b = set.escape then [(set.escape, .plain), (b + 0x20#8, .plain)]
        else [(b, .plain)]).flatten ++ [(set.delimiter, .whole)]
     exec (.portByteSent p) s
        = exec (.portByteSent p) { s with ports := s.ports.set p { s.ports[p] with tx := { tx with out := line } } }
      ∧ (∀ b rest, line = (b, .plain) :: rest →
          exec (.portByteSent p) s = .next
            { s with ports := s.ports.set p { s.ports[p] with tx := { tx with out := rest, line := some b } } })))
  ∧ (∀ (p : PortNo) (k : ChanNo) (c : Chain) (f : Frame) (s : State), s.resetHeld = false → sends p k [] s →
      sendsFrom k c f s → s.chans[k].set.transparent = true → f.sent < f.length →
    ∃ t, exec (.portByteSent p) s = .next t
      ∧ (let tx := s.ports[p].tx
         let b := Memory.read s.mem (c.payloadAddress f f.sent)
         let tx' : PortTx :=
          { tx with
            check16 := c16Step tx.check16 b, check32 := c32Step tx.check32 b, out := [], line := some b }
         (¬ (f.closed = true ∧ f.length = f.sent + 1) →
            t.ports = s.ports.set p { s.ports[p] with tx := tx' }
              ∧ ∃ g : Frame, g = { f with sent := f.sent + 1, released := g.released }
                ∧ t.chans = s.chans.set k { s.chans[k] with outChain := some { c with frames := g :: c.frames.tail } })
          ∧ (f.closed = true ∧ f.length = f.sent + 1 →
            exec (.frameSent p) s = .next t
              ∧ t.ports = s.ports.set p
                { s.ports[p] with tx := { tx' with state := .idle, closedBy := none, fill := 0xFF#8 } }
              ∧ t.chans = s.chans.set k
                { s.chans[k] with
                  outChain := some { c with frames := c.frames.tail },
                  counters := { s.chans[k].counters with framesOut := s.chans[k].counters.framesOut + 1#32 } }))
      ∧ t = { s with ports := t.ports, chans := t.chans })
  ∧ ∀ (p : PortNo) (k : ChanNo) (c : Chain) (f : Frame) (s : State), s.resetHeld = false → sends p k [] s →
    sendsFrom k c f s → s.chans[k].set.transparent = false → f.sent < f.length →
    ∃ t, exec (.portByteSent p) s = .next t
      ∧ (let set := s.chans[k].set
         let tx := s.ports[p].tx
         let b := Memory.read s.mem (c.payloadAddress f f.sent)
         let escaped := b = set.delimiter ∨ b = set.escape
         t.ports = s.ports.set p
            { s.ports[p] with
              tx :=
                { tx with
                  check16 := c16Step tx.check16 b, check32 := c32Step tx.check32 b,
                  out := if escaped then [(b + 0x20#8, .payload)] else [],
                  line := some (if escaped then set.escape else b) } }
          ∧ (escaped → t.chans = s.chans)
          ∧ (¬ escaped → ∃ g : Frame, g = { f with sent := f.sent + 1, released := g.released }
              ∧ t.chans = s.chans.set k { s.chans[k] with outChain := some { c with frames := g :: c.frames.tail } }))
      ∧ t = { s with ports := t.ports, chans := t.chans }

/-- The closing delimiter goes out (R131, R159, R161): the frame has been sent whole, leaves its chain and is counted in
frames out; the port is IDLE, with the gap's fill bytes still to send, and with no gap the delimiter may open the
channel's next frame. That byte is the FRAME_SENT. -/
def Obligations.ClosingDelimiterEndsTheFrame : Prop :=
  ∀ (p : PortNo) (k : ChanNo) (c : Chain) (f : Frame) (s : State), s.resetHeld = false →
    sends p k [(s.chans[k].set.delimiter, .whole)] s → sendsFrom k c f s → s.chans[k].set.transparent = false →
    ∃ t, exec (.frameSent p) s = .next t ∧ exec (.portByteSent p) s = .next t
      ∧ (let set := s.chans[k].set
         let fill := if set.fillIdle = true then 0xFF#8 else set.delimiter
         t = { s with
              ports := s.ports.set p
                { s.ports[p] with
                  tx :=
                    { s.ports[p].tx with
                      state := .idle, line := some set.delimiter, fill := fill,
                      out := List.replicate (set.gap - 1) (fill, .plain),
                      closedBy := if set.gap = 0 then some k else none } },
              chans := s.chans.set k
                { s.chans[k] with
                  outChain := some { c with frames := c.frames.tail },
                  counters := { s.chans[k].counters with framesOut := s.chans[k].counters.framesOut + 1#32 } } })

/-- The port needs a byte that has not been written (R159): the frame is discarded UNDERRUN and what is still being
written of it is thrown away; the port sends the abort marker, its escape byte now and its delimiter next. That byte is
the UNDERRUN.

Continuous break (R132): a port is HELD while an ACTIVE channel bound to it has it on. As it becomes so, a frame being
sent is ended with the abort marker and counted ABORTED; a marker that has begun is finished, and bytes chosen for
between frames are dropped (the model's choice, log 25). As it leaves, the port is IDLE and the next frame opens with a
delimiter. That it keeps what it has still to send of a marker then, and drops it if it becomes HELD again before that has gone
(log 55), and where the writer's next frame opens
after a CLOSED frame has been ended (log 57), are the model's choices. In HELD no frame is begun: an ASYNC port holds
its line at the start-bit level, and a SYNC port sends the marker of the lower-numbered such channel again and again, in
its first-bit order (R130; in HELD, and for what is sent after it until a frame begins, the model's choice, log 52).

The delimiter of a marker leaves the port IDLE. A port that is IDLE with no frame ready and no byte chosen rests (R131,
R136): a SYNC port sends its fill byte, FFh after a transparent frame that an abort marker has ended; that a framed one ended
so leaves the fill byte as it was is the model's reading (log 25). An ASYNC line rests.

RDY (R137): each change of the inbound chain of an ACTIVE LINK channel judges the RDY line of its SYNC port: withdrawn
below 2 free blocks, raised from 4 on, and kept between; any other port of a LINK channel has it withdrawn. -/
def Obligations.UnderrunSendsTheAbortMarker : Prop :=
  (∀ (p : PortNo) (k : ChanNo) (c : Chain) (f : Frame) (s : State), s.resetHeld = false → sends p k [] s →
    sendsFrom k c f s → s.chans[k].set.port = some p → f.closed = false → f.length ≤ f.sent →
    ∃ t, exec (.underrun p) s = .next t ∧ exec (.portByteSent p) s = .next t
      ∧ (let set := s.chans[k].set
         t.ports = s.ports.set p
            { s.ports[p] with
              tx :=
                { s.ports[p].tx with
                  aborting := true, closedBy := none, line := some set.escape,
                  out := [(set.delimiter, .aborted)],
                  fill := if set.transparent = true then 0xFF#8 else s.ports[p].tx.fill } }
          ∧ t.chans[k].outChain = some c.dropOldest
          ∧ t.chans[k].counters =
              { s.chans[k].counters with
                underrun := if s.chans[k].counters.underrun < 65535 then s.chans[k].counters.underrun + 1 else 65535 }
          ∧ (set.listen = false → t.chans[k].parser.state =
              (if s.chans[k].parser.state = .assembling then .skipping else s.chans[k].parser.state))
          ∧ hasMark (.channel k) Discard.underrun.mark t)
      ∧ onlyReports s.link t.link
      ∧ t = { s with ports := t.ports, chans := t.chans, filter := t.filter, link := t.link }
      ∧ (∀ j, j ≠ k → t.chans[j] = s.chans[j]))
  ∧ (∀ (p : PortNo) (s : State), (portFunction s p = .async ∨ portFunction s p = .sync) →
      (let tx := s.ports[p].tx
       let breaks (k : ChanNo) : Prop :=
        s.chans[k].state = .active ∧ s.chans[k].set.port = some p ∧ s.chans[k].set.continuousBreak = true
       let t := judgeHeld p s
       let sent (tx' : PortTx) : State := { s with ports := s.ports.set p { s.ports[p] with tx := tx' } }
       (t.ports[p].tx.state = .held ↔ ∃ k, breaks k)
        ∧ ((∃ k, breaks k) → tx.state = .held → t = s)
        ∧ ((∃ k, breaks k) → tx.state = .idle →
            t = sent { tx with state := .held, aborting := false, closedBy := none, out := [] })
        ∧ (∀ k : ChanNo, (∃ j, breaks j) → tx.state = .sending k → tx.aborting = true →
            t = sent
              { tx with
                state := .held, aborting := false, closedBy := none, out := tx.out.map fun e => (e.1, .plain) })
        ∧ (∀ (k : ChanNo) (c : Chain) (f : Frame), (∃ j, breaks j) → tx.state = .sending k → tx.aborting = false →
            s.chans[k].set.port = some p → sendsFrom k c f s →
            t.ports = (sent
                { tx with
                  state := .held, aborting := false, closedBy := none,
                  out := [(s.chans[k].set.escape, .plain), (s.chans[k].set.delimiter, .plain)],
                  fill := if s.chans[k].set.transparent = true then 0xFF#8 else tx.fill }).ports
              ∧ t.chans[k].outChain = some c.dropOldest
              ∧ t.chans[k].counters = s.chans[k].counters.oneMore .aborted
              ∧ (∀ j, j ≠ k → t.chans[j] = s.chans[j])
              ∧ hasMark (.channel k) Discard.aborted.mark t ∧ onlyReports s.link t.link
              ∧ t = { s with ports := t.ports, chans := t.chans, filter := t.filter, link := t.link })
        ∧ ((¬ ∃ k, breaks k) → tx.state = .held → t = sent { tx with state := .idle, closedBy := none })
        ∧ ((¬ ∃ k, breaks k) → tx.state ≠ .held → t = s)
        ∧ (s.resetHeld = false → tx.state = .held →
          exec (.arbiterChoice p) s = .next s
            ∧ (∀ e rest, tx.out = e :: rest →
                exec (.portByteSent p) s = .next (sent { tx with line := some e.1, out := rest }))
            ∧ (tx.out = [] → portFunction s p = .async →
                exec (.portByteSent p) s = .next s ∧ transmitLine s p = .startLevel)
            ∧ (∀ k : ChanNo, tx.out = [] → portFunction s p = .sync → breaks k → (∀ j, breaks j → k ≤ j) →
                exec (.portByteSent p) s = .next
                  (sent
                    { tx with
                      line := some s.chans[k].set.escape, out := [(s.chans[k].set.delimiter, .plain)],
                      msbFirst := s.chans[k].set.msbFirst })))))
  ∧ (∀ (p : PortNo) (s : State), s.resetHeld = false → (portFunction s p = .async ∨ portFunction s p = .sync) →
      (let tx := s.ports[p].tx
       let sent (tx' : PortTx) : State := { s with ports := s.ports.set p { s.ports[p] with tx := tx' } }
       (∀ (k : ChanNo) (b : Byte), tx.state = .sending k → tx.out = [(b, .aborted)] →
          exec (.portByteSent p) s = .next
            (sent { tx with state := .idle, aborting := false, closedBy := none, out := [], line := some b }))
        ∧ (tx.state = .idle → tx.out = [] → (boundChannels s p).filter (readyOut s) = [] →
          exec (.portByteSent p) s = .next
            (sent { tx with closedBy := none, line := if portFunction s p = .sync then some tx.fill else tx.line }))))
  ∧ (∀ (p : PortNo) (k : ChanNo) (c : Chain) (mem : List Host.Cell) (s : State), s.chans[k].set.port = some p →
      s.chans[k].set.listen = false →
      setIn k c mem s =
        { s with
          chans := s.chans.set k { s.chans[k] with inChain := some c }, mem := mem,
          ports := s.ports.set p
            { s.ports[p] with
              ready := if s.chans[k].state = .active then readyAfter s p c else false } })

/-! ### The control link -/

/-- A transaction (R175, R176, R180). Its start chooses the message: the head reply if it is ready, else the report at
the head of the set, built now, else EMPTY. Fewer than 4 bytes make it void: no message is consumed. A null request of 4
bytes or more consumes a message that fitted, zeros behind it: the reply leaves its queue and the overrun flag that it
carried is cleared; the source leaves the set, and joins again at the tail with the marks that came meanwhile. A HOME
report that is consumed gives the home it carried as the old one of the next HOME report: the model's reading of R37
(log 28). An EMPTY message leaves nothing to consume. That a reply ahead of a RESTART's clears the overrun flag too is
the model's choice (log 49). A message that did not fit is cut to its header with the truncation mark and is not
consumed. -/
def Obligations.TransactionsChooseAndConsume : Prop :=
  ∀ s : State, s.resetHeld = false →
    (s.link.transaction = none →
      exec .transactionStart s = .next
        { s with
          link :=
            { s.link with
              transaction := some
                { message :=
                    (match s.link.replies.head?.filter Reply.ready, s.link.reports.head? with
                      | some _, _ => .reply
                      | none, some e => .report e.1
                      | none, none => .empty),
                  bytes :=
                    (match s.link.replies.head?.filter Reply.ready, s.link.reports.head? with
                      | some r, _ =>
                        [0x80#8, r.tag] ++ twoBytes (2 + r.content.length)
                          ++ [byteOf r.status.code, flagByte s.link.overrun] ++ r.content
                      | none, some e =>
                        [0x81#8, 0#8] ++ twoBytes (5 + (reportContent s e.1).length) ++ [byteOf e.1.code]
                          ++ fourBytes e.2.toNat ++ reportContent s e.1
                      | none, none => [0#8, 0#8, 0#8, 0#8]),
                  later := 0#32,
                  overrun := (s.link.replies.head?.filter Reply.ready).isSome && s.link.overrun,
                  home := s.homing.home } } })
    ∧ (∀ (n : Nat) (tr : Transaction), s.link.transaction = some tr → n < 4 →
      exec (.voidTransaction n) s = .next
        { s with link := { s.link with transaction := none, sent := sentBytes tr.bytes n } })
    ∧ (∀ (n : Nat) (tr : Transaction), s.link.transaction = some tr → 4 ≤ n → n < tr.bytes.length →
      exec (.nullRequest n) s = .next
        { s with
          link :=
            { s.link with
              transaction := none,
              sent :=
                [byteAt tr.bytes 0, byteAt tr.bytes 1, byteAt tr.bytes 2 ||| 0x80#8, byteAt tr.bytes 3]
                  ++ List.replicate (n - 4) 0#8 } })
    ∧ (∀ (n : Nat) (tr : Transaction) (r : Reply) (rest : List Reply), s.link.transaction = some tr → 4 ≤ n →
        tr.bytes.length ≤ n → tr.message = .reply → s.link.replies = r :: rest → r.restart = false →
      exec (.nullRequest n) s = .next
        { s with
          link :=
            { s.link with
              transaction := none, sent := tr.bytes ++ List.replicate (n - tr.bytes.length) 0#8, replies := rest,
              overrun := s.link.overrun && !tr.overrun } })
    ∧ (∀ (n : Nat) (tr : Transaction) (src : Source), s.link.transaction = some tr → 4 ≤ n → tr.bytes.length ≤ n →
        tr.message = .report src →
      exec (.nullRequest n) s = .next
        { s with
          homing := { s.homing with reported := if src = .home then tr.home else s.homing.reported },
          link :=
            { s.link with
              transaction := none, sent := tr.bytes ++ List.replicate (n - tr.bytes.length) 0#8,
              reports := (s.link.reports.filter fun e => decide (e.1 ≠ src))
                ++ (if tr.later = 0#32 then [] else [(src, tr.later)]) } })
    ∧ (∀ (n : Nat) (tr : Transaction), s.link.transaction = some tr → 4 ≤ n → tr.bytes.length ≤ n →
        tr.message = .empty →
      exec (.nullRequest n) s = .next
        { s with
          link :=
            { s.link with
              transaction := none, sent := tr.bytes ++ List.replicate (n - tr.bytes.length) 0#8 } })

/-- Requests that are not taken (R177, R178, R183). While RESTART waits every request is discarded; with 8 replies in
the queue it is discarded and the overrun flag is set; the transaction's message has been consumed before. A request
whose length field or body does not hold together is refused FORMAT and one of no request type UNKNOWN, with the tag of
its second byte and no content, and nothing else changes. A body holds when it has the length of its request's fields
(R186), a list that of its count. The model's choices: the widths of the bodies where R186 leaves one open (log 17), the
body of a HOME_FORCE or PORT_SET with a code that is none, which holds what it carries (log 20), and the judging of a
longer transaction on its first 1028 bytes, its frame test among them (log 32). -/
def Obligations.RequestsAreDiscardedOrRefused : Prop :=
  (∀ body : List Byte,
    (let n := body.length
     let field (i : Nat) : Nat := (body.getD i 0#8).toNat
     let fixed (types : List Byte) (length : Nat) : Prop := ∀ t ∈ types, (bodyHolds t body = true ↔ n = length)
     fixed [0x01#8, 0x02#8, 0x15#8, 0x16#8, 0x17#8, 0x18#8, 0x1A#8, 0x1B#8] 0
      ∧ fixed [0x07#8, 0x0E#8, 0x0F#8, 0x14#8] 1 ∧ fixed [0x09#8, 0x0B#8, 0x10#8, 0x12#8, 0x19#8] 2
      ∧ fixed [0x13#8] 3 ∧ fixed [0x11#8] 4 ∧ fixed [0x08#8] 6 ∧ fixed [0x03#8] 7 ∧ fixed [0x06#8] 14
      ∧ fixed [0x0C#8] 40
      ∧ (bodyHolds 0x04#8 body = true ↔ n = 2 + field 0 + field (1 + field 0))
      ∧ (bodyHolds 0x05#8 body = true ↔
          (field 0 = 0 ∧ n = 2) ∨ (field 0 = 1 ∧ n = 1) ∨ (1 < field 0 ∧ (n = 1 ∨ n = 2)))
      ∧ (bodyHolds 0x0A#8 body = true ↔
          ((field 1 = 0 ∨ field 1 = 2) ∧ n = 2) ∨ ((field 1 = 1 ∨ field 1 = 3) ∧ n = 4) ∨ (field 1 = 4 ∧ n = 13)
            ∨ (4 < field 1 ∧ 2 ≤ n))
      ∧ (bodyHolds 0x0D#8 body = true ↔ n = 3 + 4 * field 2)))
  ∧ ∀ s : State, s.resetHeld = false →
    (∀ (c : Instr) (n : Nat), requestBody c = some n →
      ((carried (4 + n) s).link.restartWaiting = true → exec c s = .next (carried (4 + n) s))
        ∧ ((carried (4 + n) s).link.restartWaiting = false → 8 ≤ (carried (4 + n) s).link.replies.length →
          exec c s = .next
            { carried (4 + n) s with link := { (carried (4 + n) s).link with overrun := true } }))
    ∧ (∀ bytes : List Byte, takesRequest (carried bytes.length s) →
        (let u := carried bytes.length s
         let judged := bytes.take 1028
         let type := (byteAt judged 0).toNat
         let frame := halfAt judged 2 ≤ 1024 ∧ 4 + halfAt judged 2 = judged.length
         4 ≤ judged.length → ¬ (∀ b ∈ judged.take 4, b = 0#8) →
          ((¬ frame ∨ (1 ≤ type ∧ type ≤ 0x1B ∧ bodyHolds (byteAt judged 0) (judged.drop 4) = false)) →
            exec (.malformedRequest bytes) s = .next
              { u with link := u.link.answered (byteAt judged 1) .format [] })
          ∧ (frame → (type = 0 ∨ 0x1B < type) →
            exec (.unknownRequest bytes) s = .next
              { u with link := u.link.answered (byteAt judged 1) .unknown [] })))

/-- IDENTIFY (R181): OK with the vendor code, the part code, the revision, the PREF strap as sampled and the start
cause, and nothing else changes. -/
def Obligations.IdentifyNamesThePart : Prop :=
  ∀ (tag : Byte) (s : State), takesRequest (carried 4 s) →
    exec (.identify tag) s = .next
      { carried 4 s with
        link := (carried 4 s).link.answered tag .ok
          [0x0A#8, 0x17#8, 0x24#8, 0x08#8, 0x01#8,
            (match (carried 4 s).homing.prefStrap with
              | .a => 0x00#8
              | .b => 0x01#8),
            if (carried 4 s).link.startedByRestart = true then 0x01#8 else 0x00#8] }

/-- RESTART is taken (R183): a station update in flight is applied and the replies become ready; RESTART's own joins the
queue and RESTART waits. It is carried out at the end of the transaction that consumes that reply (R184): the role
tables (R23), homing settings (R40), round message unit (R59), lane allocator (R105), call unit (R124), ports (R142),
channels (R164), station filter (R174) and control link take the values of their chapters; receivers, stores, counters
of the flows and the timing unit stay. The model's choices: the values of CallPoint.initial, Port.initial and
Channel.initial that the chapters do not give (log 6) and of Contact.initial (log 7); frame memory stays (log 5), the
turn message of the local round in progress is kept (log 10), and the home that the next HOME report gives as the old
one is the home then in force (log 28). Of the report pending set RX, SLIP, HOME and TIMING keep their places and marks;
START joins at the tail with the mark RESTART, or keeps its place and gathers it. -/
def Obligations.RestartWaitsAndIsCarriedOut : Prop :=
  ∀ s : State,
    (∀ tag : Byte, takesRequest (carried 4 s) →
      exec (.restart tag) s = .next
        { carried 4 s with
          filter :=
            (match (carried 4 s).filter.update with
              | none => (carried 4 s).filter
              | some (.put a c) =>
                { (carried 4 s).filter with update := none, table := putStation a c (carried 4 s).filter.table }
              | some (.drop a) =>
                { (carried 4 s).filter with
                  update := none, table := (carried 4 s).filter.table.filter fun e => decide (e.1 ≠ a) }),
          link :=
            { (carried 4 s).link with
              replies :=
                (if (carried 4 s).filter.update.isSome = true then
                  (carried 4 s).link.replies.map fun r => { r with ready := true }
                else (carried 4 s).link.replies)
                  ++ [{ tag := tag, status := .ok, content := [], ready := true, restart := true }],
              restartWaiting := true } })
    ∧ (∀ (n : Nat) (tr : Transaction) (r : Reply) (rest : List Reply), s.resetHeld = false →
        s.link.transaction = some tr → 4 ≤ n → tr.bytes.length ≤ n → tr.message = .reply →
        s.link.replies = r :: rest → r.restart = true →
      ∃ t, exec (.restartCarriedOut n) s = .next t ∧ exec (.nullRequest n) s = .next t
        ∧ (∀ x : Side, t.flow.get x = { s.flow.get x with roles := [] })
        ∧ t.homing = countsJudged
            { s.homing with
              preferred := s.homing.prefStrap, restoreSetting := 60, holdOffSetting := 4, forced := none,
              pendingForce := none, reported := s.homing.home,
              restore := if s.homing.preferred = s.homing.prefStrap then s.homing.restore else none } t
        ∧ t.round =
            { s.round with
              numbering := { node := none, turns := 64 }, nextNumbering := none, queue := [], rosterOwed := false,
              invalid := { a := 0#16, b := 0#16 } }
        ∧ t.alloc = Allocator.initial ∧ t.filter = Filter.initial
        ∧ (∀ p : PortNo, t.calls[p] = CallPoint.initial 7 ∧ portFunction t p = .off
            ∧ t.ports[p] =
                { Port.initial with contacts := s.ports[p].contacts.map fun c => Contact.initial c.level })
        ∧ (∀ k : ChanNo, t.chans[k] = Channel.initial)
        ∧ t.link.replies = rest ∧ t.link.overrun = false ∧ t.link.restartWaiting = false
        ∧ t.link.startedByRestart = true ∧ t.link.transaction = none
        ∧ hasMark .start Mark.restart t
        ∧ (∀ src m, (src, m) ∈ t.link.reports →
            src = .start ∨ (keptAtRestart src = true ∧ (src, m) ∈ s.link.reports))
        ∧ (let kept := s.link.reports.filter fun e => keptAtRestart e.1
           reportsDistinct s →
            t.link.reports =
              if kept.any (fun e => decide (e.1 = .start)) = true then
                kept.map fun e => if e.1 = .start then (e.1, e.2 ||| markSet Mark.restart) else e
              else kept ++ [(.start, markSet Mark.restart)])
        ∧ t = { s with
              flow := t.flow, homing := t.homing, round := t.round, alloc := t.alloc, calls := t.calls,
              ports := t.ports, merged := Vector.replicate 4 false, chans := t.chans, filter := t.filter,
              link := t.link })

/-! ### Requests of the node, its lanes and its home -/

/-- NODE_SET (R33, R56, R98): refused RANGE for a preferred end that is not one, turns other than 4, 8, 16, 32 or 64, or
a node number not below them; that the turns are carried as that number is the model's choice (log 22), and the widths
of the body are its reading of R186 (log 17). Taken, the homing settings act at once, clamped, and both counts are
judged under them; the numbering waits for the next local round boundary and the roster is owed; the incident floor is
in force, clamped. While no incident is active nothing else changes. -/
def Obligations.NodeSetActs : Prop :=
  ∀ (tag preferred : Byte) (restoreSeconds : Half) (holdOff node turns incidentFloor : Byte) (s : State),
    takesRequest (carried 11 s) →
    (let u := carried 11 s
     let legal := (turns = 4#8 ∨ turns = 8#8 ∨ turns = 16#8 ∨ turns = 32#8 ∨ turns = 64#8) ∧ node.toNat < turns.toNat
     let c : Instr := .nodeSet tag preferred restoreSeconds holdOff node turns incidentFloor
     (¬ (legal ∧ (preferred = 0#8 ∨ preferred = 1#8)) →
        exec c s = .next { u with link := u.link.answered tag .range [] })
      ∧ (legal → (preferred = 0#8 ∨ preferred = 1#8) →
        ∃ t, exec c s = .next t
          ∧ (let x : Side := if preferred = 0#8 then .a else .b
             t.homing = countsJudged
                { u.homing with
                  preferred := x, restoreSetting := min restoreSeconds.toNat 600,
                  holdOffSetting := min (max holdOff.toNat 1) 64,
                  restore := if u.homing.preferred = x then u.homing.restore else none } t)
          ∧ t.round.nextNumbering = some { node := some node.toNat, turns := turns.toNat }
          ∧ t.round.numbering = u.round.numbering ∧ t.round.rosterOwed = true
          ∧ t.alloc.incidentFloor = min incidentFloor.toNat 6
          ∧ (t.alloc.floor ≠ u.alloc.floor → hasMark .lane Mark.floor t)
          ∧ t.link.replies = (u.link.answered tag .ok []).replies
          ∧ (u.alloc.incident = false →
              t = { u with
                    homing := t.homing,
                    round :=
                      { u.round with
                        nextNumbering := some { node := some node.toNat, turns := turns.toNat },
                        rosterOwed := true },
                    alloc := { u.alloc with incidentFloor := min incidentFloor.toNat 6 },
                    link := u.link.answered tag .ok [] })))

/-- LANES_SET (R84): RANGE for a lane above 127, more than 12 owned or more than 8 listen lanes; then OVERLAP for a lane
named twice; then BUSY while a channel is not STOPPED or a call point not IDLE. Taken, the table is one SPARE entry for
each owned lane and the listen list holds the listen lanes, both ascending; the roster is owed; nothing else changes. -/
def Obligations.LanesSetActs : Prop :=
  ∀ (tag : Byte) (owned listen : List Byte) (s : State),
    (let u := carried (6 + owned.length + listen.length) s
     let o := owned.map BitVec.toNat
     let l := listen.map BitVec.toNat
     let c : Instr := .lanesSet tag owned listen
     let inRange := o.length ≤ 12 ∧ l.length ≤ 8 ∧ ∀ n ∈ o ++ l, n < 128
     let quiet := (∀ k : ChanNo, u.chans[k].state = .stopped)
      ∧ ∀ p : PortNo, callExists u p = true → u.calls[p].state = .idle
     takesRequest u →
      (¬ inRange → exec c s = .next { u with link := u.link.answered tag .range [] })
      ∧ (inRange → ¬ (o ++ l).Nodup → exec c s = .next { u with link := u.link.answered tag .overlap [] })
      ∧ (inRange → (o ++ l).Nodup → ¬ quiet → exec c s = .next { u with link := u.link.answered tag .busy [] })
      ∧ (inRange → (o ++ l).Nodup → quiet →
        ∃ os ls : List Nat, List.Pairwise (· < ·) os ∧ List.Pairwise (· < ·) ls ∧ (∀ n, n ∈ os ↔ n ∈ o)
          ∧ (∀ n, n ∈ ls ↔ n ∈ l)
          ∧ exec c s = .next
              { u with
                alloc :=
                  { u.alloc with
                    owned := os.map fun n => { lane := n, use := .spare, move := none }, listen := ls,
                    listsDue := true },
                round := { u.round with rosterOwed := true },
                link := u.link.answered tag .ok [] }))

/-- HOME_FORCE (R34, R35): a body of an action and an end is refused FORMAT for the action RELEASE, which has no end
(R177), and RANGE for an action that is none (log 20); FORCE to an end is refused RANGE for a byte that names none and
NO_PATH while the end is unreachable; taken, the forced flag is set, the change is pending unless the node is homed
there already, and the restore count is stopped and cleared, with the mark FORCE_ON. RELEASE clears the flag, with
FORCE_OFF when it was set, and a pending change; a restore count that then runs starts at 0, also where it ran already.
Any other action is not taken. -/
def Obligations.HomeForceActs : Prop :=
  ∀ (tag : Byte) (s : State),
    (∀ side : Byte, takesRequest (carried 6 s) →
      (let u := carried 6 s
       let c : Instr := .homeForceForce tag { action := 0#8, side := side }
       exec (.homeForceForce tag { action := 1#8, side := side }) s = .next
          { u with link := u.link.answered tag .format [] }
        ∧ (∀ action : Byte, 1 < action.toNat →
            exec (.homeForceForce tag { action := action, side := side }) s = .next
              { u with link := u.link.answered tag .range [] })
        ∧ (1 < side.toNat → exec c s = .next { u with link := u.link.answered tag .range [] })
        ∧ (∀ x : Side, side = (match x with
              | .a => 0#8
              | .b => 1#8) →
          (reachable u x = false → exec c s = .next { u with link := u.link.answered tag .noPath [] })
          ∧ (reachable u x = true →
            ∃ t, exec c s = .next t ∧ onlyReports (u.link.answered tag .ok []) t.link
              ∧ hasMark .home Mark.forceOn t
              ∧ t = { u with
                    homing :=
                      { u.homing with
                        forced := some x, restore := none,
                        pendingForce := if u.homing.isolated = true ∨ u.homing.home ≠ x then some x else none },
                    link := t.link }))))
    ∧ (∀ action : Byte, takesRequest (carried 5 s) →
      (let u := carried 5 s
       let c : Instr := .homeForceRelease tag action
       (action = 0#8 → exec c s = .next { u with link := u.link.answered tag .format [] })
        ∧ (1 < action.toNat → exec c s = .next { u with link := u.link.answered tag .range [] })
        ∧ (action = 1#8 →
          ∃ t, exec c s = .next t ∧ onlyReports (u.link.answered tag .ok []) t.link
            ∧ (u.homing.forced.isSome = true → hasMark .home Mark.forceOff t)
            ∧ t.homing = countsJudged { u.homing with forced := none, pendingForce := none, restore := none } t
            ∧ t = { u with homing := t.homing, link := t.link })))

/-! ### Requests of the timing unit -/

/-- TIMING_SET (R78, R74) and TIMING_MODE (R77). TIMING_SET: RANGE for a presence byte that is neither, before anything
else is judged (the model's choice, log 20), WRONG_STATE for a trim outside FREE; else present fields act at once,
clamped, absent ones stay, and a limit below the running holdover timer is marked. TIMING_MODE: FREE is taken in every
mode, with C = T, the counts 0 and the timer 0; AUTO changes nothing when it is selected, and else is taken while the
home-facing receiver is SYNCED and the node not ISOLATED, or refused NO_SOURCE; another selection is refused RANGE. -/
def Obligations.TimingRequestsAct : Prop :=
  ∀ (tag : Byte) (s : State),
    (∀ (trim delayA delayB : Marked Half) (limit : Marked Word), takesRequest (carried 18 s) →
      (let u := carried 18 s
       let c : Instr := .timingSet tag trim delayA delayB limit
       let marked := trim.present.toNat ≤ 1 ∧ delayA.present.toNat ≤ 1 ∧ delayB.present.toNat ≤ 1
        ∧ limit.present.toNat ≤ 1
       let newTrim : Int := max (-1024) (min trim.value.toInt 1023)
       (¬ marked → exec c s = .next { u with link := u.link.answered tag .range [] })
        ∧ (marked → trim.present = 1#8 → u.timing.mode ≠ .free →
          exec c s = .next { u with link := u.link.answered tag .wrongState [] })
        ∧ (marked → ¬ (trim.present = 1#8 ∧ u.timing.mode ≠ .free) →
          ∃ t, exec c s = .next t ∧ onlyReports (u.link.answered tag .ok []) t.link
            ∧ t = { u with
                  timing :=
                    { u.timing with
                      trim := if trim.present = 1#8 then newTrim else u.timing.trim,
                      correction := if trim.present = 1#8 then newTrim else u.timing.correction,
                      delay :=
                        { a := if delayA.present = 1#8 then delayA.value.toNat else u.timing.delay.a,
                          b := if delayB.present = 1#8 then delayB.value.toNat else u.timing.delay.b },
                      holdLimit :=
                        if limit.present = 1#8 then min (max limit.value.toNat 1) 86400 else u.timing.holdLimit },
                  link := t.link }
            ∧ (u.timing.holdTimer ≤ u.timing.holdLimit * 500 → t.timing.holdLimit * 500 < u.timing.holdTimer →
                hasMark .timing Mark.holdLimit t))))
    ∧ (takesRequest (carried 5 s) →
      (let u := carried 5 s
       (∃ t, exec (.timingModeFree tag) s = .next t ∧ exec (.timingModeAuto tag 0#8) s = .next t
          ∧ onlyReports (u.link.answered tag .ok []) t.link
          ∧ (u.timing.mode ≠ .free → hasMark .timing TimingMode.free.code t)
          ∧ t = { u with
                timing :=
                  { u.timing with
                    auto := false, mode := .free, correction := u.timing.trim, lockCount := 0, unlockCount := 0,
                    realignCount := 0, armed := false, holdTimer := 0 },
                link := t.link })
        ∧ exec (.timingModeAuto tag 1#8) s = .next
            (if u.timing.auto = true then { u with link := u.link.answered tag .ok [] }
            else if (u.rx.get u.homing.home).state = .synced ∧ u.homing.isolated = false then
              { u with timing := { u.timing with auto := true }, link := u.link.answered tag .ok [] }
            else { u with link := u.link.answered tag .noSource [] })
        ∧ ∀ selection : Byte, 1 < selection.toNat →
            exec (.timingModeAuto tag selection) s = .next { u with link := u.link.answered tag .range [] }))

/-- TIME_SET (R73): RANGE for a cycle above 7999, TIME_OWNED while a present end owns line time; else the raw time is
set, the tick is not touched, the validity is HOST and the source end none, with the marks TIME_SET and, on a change of
validity, VALIDITY. The mode and the loop do not change, nor anything else. -/
def Obligations.TimeSetGivesTheTime : Prop :=
  ∀ (tag : Byte) (seconds : Word) (cycle : Half) (s : State), takesRequest (carried 10 s) →
    (let u := carried 10 s
     let c : Instr := .timeSet tag seconds cycle
     let ended := u.timing.validity = .fromEnd ∧ ∃ x, u.timing.source = some x ∧ 0 < (u.rx.get x).presence
     (7999 < cycle.toNat → exec c s = .next { u with link := u.link.answered tag .range [] })
      ∧ (cycle.toNat ≤ 7999 → ended → exec c s = .next { u with link := u.link.answered tag .timeOwned [] })
      ∧ (cycle.toNat ≤ 7999 → ¬ ended →
        ∃ t, exec c s = .next t ∧ onlyReports (u.link.answered tag .ok []) t.link
          ∧ t = { u with
                timing :=
                  { u.timing with seconds := seconds, cycle := cycle.toNat, validity := .fromHost, source := none },
                link := t.link }
          ∧ hasMark .timing Mark.timeSet t
          ∧ (u.timing.validity ≠ .fromHost → hasMark .timing Mark.validity t)))

/-! ### Floors, ports and channels -/

/-- FLOOR_SET (R97, R90, R96): RANGE for a flag that is neither; else the reply carries the host floor as it stood and
the floor takes the clamped value, with the mark FLOOR when the effective floor changes. Without the flag, a floor that
does not fall moves no lane. With it a shed follows what the request does without it, no ACTIVE LINK channel at or below
the floor is left wider than its W_min, and a shed that changed a lane, the floor not falling, is marked SHED.

A shed treats the ACTIVE LINK channels at or below the floor in ascending order, and each a lane at a time while it is
wider than W_min: QUEUED moves toward it are withdrawn (R87), highest lane first, then SENT ones take the follow-up mark
(R88), lowest first, then its resting lanes move to SPARE, highest first. A withdrawn SPARE lane is offered and that of
a call in CLEARING is released afresh. Each channel treated ends at its W_min, or at the width it had below it; no
applied use changes, no lane that is not committed to such a channel, and nothing else but the notice queue, the calls
that were waiting, the withdrawn count and the reports.

When the floor falls the pending list is walked and the
spare lanes are swept: where no shed follows, no call at the head of the list that is above the floor is left for which
there is a lane (R93), and no channel that may regrow while a lane is SPARE with no move (R95); the calls that are left
stand in their order. The channel that may regrow is the one of R94. -/
def Obligations.FloorSetActs : Prop :=
  (∀ s : State, regrowerByRule s)
  ∧ (∀ s : State, laneListsLegal s → channelMovesStand s →
      shedTo s (Sys2Proof.Machine.shed s) ∧ (∀ k : ChanNo, shedsInOrder k s)
        ∧ Sys2Proof.Machine.shed s =
          { (List.finRange 16).foldl (fun t k => shedChannel k t) s with link := (Sys2Proof.Machine.shed s).link }
        ∧ (∀ (k : ChanNo) (e : Entry) (m : Move), s.chans[k].state = .active → e ∈ s.alloc.owned → e.move = some m →
            m.effect = none →
            m.target = .channel k → (∀ j : ChanNo, s.chans[j].state = .stopping → ¬ holdsNoLane j s) →
            withdrawnToward e s (withdraw e.lane s)))
  ∧ ∀ (tag floor shed : Byte) (s : State), takesRequest (carried 6 s) →
    (let u := carried 6 s
     let c : Instr := .floorSet tag floor shed
     let raised : Allocator := { u.alloc with hostFloor := min floor.toNat 6 }
     (1 < shed.toNat → exec c s = .next { u with link := u.link.answered tag .range [] })
      ∧ (shed.toNat ≤ 1 →
        ∃ t, exec c s = .next t
          ∧ t.link.replies = (u.link.answered tag .ok [byteOf u.alloc.hostFloor]).replies
          ∧ t.alloc.hostFloor = min floor.toNat 6 ∧ t.alloc.floor = raised.floor
          ∧ (t.alloc.floor ≠ u.alloc.floor → hasMark .lane Mark.floor t)
          ∧ (shed = 0#8 → u.alloc.floor ≤ raised.floor →
              onlyReports (u.link.answered tag .ok [byteOf u.alloc.hostFloor]) t.link
                ∧ t = { u with alloc := raised, link := t.link })
          ∧ (shed = 1#8 → ∃ r r', exec (.floorSet tag floor 0#8) s = .next r' ∧ r = { r' with link := r.link }
              ∧ t = { Sys2Proof.Machine.shed r with link := t.link })
          ∧ (shed = 1#8 → laneListsLegal u → channelMovesStand u → ∀ k : ChanNo, t.chans[k].state = .active →
              t.chans[k].set.listen = false → t.chans[k].set.level ≤ t.alloc.floor →
              (committed t k).length ≤ t.chans[k].set.wmin)
          ∧ (shed = 1#8 → u.alloc.floor ≤ raised.floor → t.alloc.owned ≠ u.alloc.owned → hasMark .lane Mark.shed t)
          ∧ (shed = 0#8 → raised.floor < u.alloc.floor → laneListsLegal u → (u.alloc.waiting.map Prod.fst).Nodup →
              t.alloc.waiting <:+ u.alloc.waiting
                ∧ (∀ w ∈ t.alloc.waiting.head?, t.alloc.floor < w.2 → laneFor t w.2 = none)
                ∧ (spareLanes t ≠ [] → regrower t = none))))

/-- PORT_SET (R126) and PAIR_SET (R127). RANGE for a port, function, setting, pair or action that is none (log 20); BUSY
while a channel bound to the port (either port of the pair) is not STOPPED or its call point is not IDLE. In a merged
pair the setting is kept and nothing else changes. A function that stays takes its new settings at once: a call point
its level (absent, 7: log 27), contact inputs their tags and their debounce time, an input that has held its level for
it being taken (held in local cycles, log 7). A new function starts afresh, with its contacts INACTIVE and its call
point at the level, and so do both functions of a pair that PAIR_SET changes. The incident-active flag follows the
contacts (R139); while it stays, nothing else changes, and as it changes, lanes may move. Each setting is read with its
presence byte and its range: the rate one of eight, absent 9600 bit/s, the level and the debounce clamped, absent 7 and
50 ms, the tags 00h tagged and 01h untagged, absent untagged (R126, R186). That the flag is judged once, after all
inputs that a shorter debounce time takes at once, so that nothing else changes where it stands as before, is the
model's choice (log 42). The function decides what the four lines of a port are used for (R125, R127); of a MERGED port
that lines 0 and 3 are the inactive ones and line 1 the ignored one is the model's reading (log 53). -/
def Obligations.PortRequestsAct : Prop :=
  (∀ (p : PortNo) (s : State),
    (portFunction s p = .off → lineUses s p = [.inactive, .ignored, .ignored, .inactive])
      ∧ (portFunction s p = .async → lineUses s p = [.transmitData, .receiveData, .ignored, .inactive])
      ∧ (portFunction s p = .sync →
          lineUses s p =
            [.transmitData, .receiveData,
              if (s.merged[p.val / 2]'(by omega)) = true then .transmitClock else .clock, .ready s.ports[p].ready])
      ∧ (portFunction s p = .callpoint → lineUses s p = [.control, .status, .cycleClock, .cycleSync])
      ∧ (portFunction s p = .contacts → ∀ n : Fin 4,
          (lineUses s p)[n.val]? = some (.contact s.ports[p].contacts[n].level))
      ∧ (portFunction s p = .merged → lineUses s p = [.inactive, .ignored, .receiveClock, .inactive]))
  ∧ ∀ (tag : Byte) (s : State),
    (∀ (port : Byte) (fields : PortFields), takesRequest (carried (6 + fields.size) s) →
      (let u := carried (6 + fields.size) s
       let c : Instr := .portSet tag port fields
       ((portOf port = none ∨ portSetting fields = none) →
          exec c s = .next { u with link := u.link.answered tag .range [] })
        ∧ (∀ (p : PortNo) (setting : PortSetting), port.toNat = p.val → portSetting fields = some setting →
          (let pair := u.merged[p.val / 2]'(by omega)
           let ports := u.ports.set p { u.ports[p] with own := setting }
           (portBusy u p = true → exec c s = .next { u with link := u.link.answered tag .busy [] })
            ∧ (portBusy u p = false → pair = true →
                exec c s = .next { u with ports := ports, link := u.link.answered tag .ok [] })
            ∧ (portBusy u p = false → pair = false → settingFunction setting ≠ portFunction u p →
              ∃ t, exec c s = .next t ∧ portsChanged tag u t ∧ portFunction t p = settingFunction setting
                ∧ t.ports = u.ports.set p (startedAfresh setting u.ports[p])
                ∧ (t.alloc.incident = u.alloc.incident →
                    t.calls = u.calls.set p (CallPoint.initial (callLevel setting))))
            ∧ (∀ level, portBusy u p = false → pair = false → portFunction u p = .callpoint →
                setting = .callpoint level →
                exec c s = .next
                  { u with
                    ports := ports, calls := u.calls.set p { u.calls[p] with level := level },
                    link := u.link.answered tag .ok [] })
            ∧ (∀ (debounce : Nat) (tags : Vector Bool 4), portBusy u p = false → pair = false →
                portFunction u p = .contacts → setting = .contacts debounce tags →
              ∃ t, exec c s = .next t ∧ portsChanged tag u t
                ∧ t.ports = u.ports.set p
                    { u.ports[p] with own := setting, contacts := u.ports[p].contacts.map (retested debounce) }
                ∧ (t.alloc.incident = u.alloc.incident → t.calls = u.calls)
                ∧ (∀ n : Fin 4, u.ports[p].contacts[n].level ≠ u.ports[p].contacts[n].active →
                    8 * debounce ≤ u.ports[p].contacts[n].held →
                    hasMark (.contact p) (if u.ports[p].contacts[n].level = true then n.val else 4 + n.val) t))
            ∧ (portBusy u p = false → pair = false → settingFunction setting = portFunction u p →
                portFunction u p ≠ .callpoint → portFunction u p ≠ .contacts →
                exec c s = .next { u with ports := ports, link := u.link.answered tag .ok [] })))))
    ∧ (∀ (pair action : Byte), takesRequest (carried 6 s) →
      (let u := carried 6 s
       let c : Instr := if action = 0#8 then .pairSetMerge tag pair else .pairSetSplit tag pair action
       ((3 < pair.toNat ∨ 1 < action.toNat) → exec c s = .next { u with link := u.link.answered tag .range [] })
        ∧ (∀ k : Fin 4, pair.toNat = k.val → action.toNat ≤ 1 →
          ((portBusy u (evenPort k) = true ∨ portBusy u (oddPort k) = true) →
            exec c s = .next { u with link := u.link.answered tag .busy [] })
          ∧ (portBusy u (evenPort k) = false → portBusy u (oddPort k) = false →
              u.merged[k] = decide (action = 0#8) → exec c s = .next { u with link := u.link.answered tag .ok [] })
          ∧ (portBusy u (evenPort k) = false → portBusy u (oddPort k) = false →
              u.merged[k] ≠ decide (action = 0#8) →
            ∃ t, exec c s = .next t ∧ t.merged = u.merged.set k (decide (action = 0#8))
              ∧ portsChanged tag { u with merged := t.merged } t
              ∧ (∀ p : PortNo, t.ports[p] =
                  (if p.val / 2 = k.val then startedAfresh u.ports[p].own u.ports[p] else u.ports[p]))
              ∧ (t.alloc.incident = u.alloc.incident → ∀ p : PortNo, t.calls[p] =
                  (if p.val / 2 = k.val then CallPoint.initial (callLevel u.ports[p].own) else u.calls[p]))
              ∧ (action = 0#8 → portFunction t (evenPort k) = .sync ∧ portFunction t (oddPort k) = .merged)
              ∧ (action = 1#8 → ∀ p : PortNo, p.val / 2 = k.val →
                  portFunction t p = settingFunction u.ports[p].own)))))
    ∧ (∀ p : PortNo, portBusy s p = true ↔
        (∃ k : ChanNo, s.chans[k].set.port = some p ∧ s.chans[k].state ≠ .stopped)
          ∨ (portFunction s p = .callpoint ∧ s.calls[p].state ≠ .idle))
    ∧ (∀ fields : PortFields,
      (let tagged (m : Marked Byte) : Bool := decide (m.present = 1#8 ∧ m.value = 0#8)
       let tagHolds (m : Marked Byte) : Prop := m.present = 0#8 ∨ (m.present = 1#8 ∧ (m.value = 0#8 ∨ m.value = 1#8))
       match fields with
       | .off => portSetting fields = some .off
       | .sync => portSetting fields = some .sync
       | .async rate =>
         (rate.present = 0#8 → portSetting fields = some (.async 3))
          ∧ (rate.present = 1#8 → rate.value.toNat ≤ 7 → portSetting fields = some (.async rate.value.toNat))
          ∧ (rate.present = 1#8 → 7 < rate.value.toNat → portSetting fields = none)
          ∧ (1 < rate.present.toNat → portSetting fields = none)
       | .callpoint level =>
         (level.present = 0#8 → portSetting fields = some (.callpoint 7))
          ∧ (level.present = 1#8 → portSetting fields = some (.callpoint (min (max level.value.toNat 5) 7)))
          ∧ (1 < level.present.toNat → portSetting fields = none)
       | .contacts debounce tag0 tag1 tag2 tag3 =>
         (let holds := debounce.present.toNat ≤ 1 ∧ tagHolds tag0 ∧ tagHolds tag1 ∧ tagHolds tag2 ∧ tagHolds tag3
          (¬ holds → portSetting fields = none)
            ∧ (holds → portSetting fields = some
                (.contacts (if debounce.present = 0#8 then 50 else min (max debounce.value.toNat 10) 1000)
                  #v[tagged tag0, tagged tag1, tagged tag2, tagged tag3])))
       | .other _ _ => portSetting fields = none))

/-- CHANNEL_SET (R148, R128) and CHAIN_SET (R144), each judged in its order of steps. CHANNEL_SET replaces every
setting, an absent one by its default, and frees the inbound chain of a channel that becomes LISTEN; a field outside its
range is refused RANGE, the maximum frame length alone being clamped (R148, R130), and so is a presence byte that is
neither 00h nor 01h (R186); a binding fails while another channel of the same kind is bound to the port, unless the
channel keeps its port and its kind (R128). The rest of the record stays; that an ABORT that is owed stays owed with it,
also as the channel becomes LISTEN, is the model's choice (log 21). CHAIN_SET replaces the chain of one direction by an
empty one over the listed blocks, in their order; an empty list leaves no chain. -/
def Obligations.ChannelSettingsAct : Prop :=
  ∀ (tag channel : Byte) (s : State),
    (∀ fields : ChannelFields, takesRequest (carried 44 s) →
      (let u := carried 44 s
       let c : Instr := .channelSet tag channel fields
       ((15 < channel.toNat ∨ channelSettings fields = none) →
          exec c s = .next { u with link := u.link.answered tag .range [] })
        ∧ (∀ (k : ChanNo) (new : ChannelSettings), channel.toNat = k.val → channelSettings fields = some new →
          (u.chans[k].state ≠ .stopped → exec c s = .next { u with link := u.link.answered tag .busy [] })
          ∧ (u.chans[k].state = .stopped → bindingTaken u k new = true →
            exec c s = .next { u with link := u.link.answered tag .overlap [] })
          ∧ (u.chans[k].state = .stopped → bindingTaken u k new = false →
            exec c s = .next
              { u with
                chans := u.chans.set k
                  { u.chans[k] with
                    set := new, inChain := if new.listen = true then none else u.chans[k].inChain },
                link := u.link.answered tag .ok [] }))))
    ∧ (∀ (direction : Byte) (runs : List (Half × Half)), takesRequest (carried (7 + 4 * runs.length) s) →
      (let u := carried (7 + 4 * runs.length) s
       let c : Instr := .chainSet tag channel direction runs
       let ns := runs.map runOf
       let blocks := (ns.map fun r => (List.range r.2).map (r.1 + ·)).flatten
       let bad := 64 < runs.length ∨ ∃ r ∈ ns, r.2 = 0 ∨ 2048 < r.1 + r.2
       ((15 < channel.toNat ∨ 1 < direction.toNat ∨ bad) →
          exec c s = .next { u with link := u.link.answered tag .range [] })
        ∧ (∀ (k : ChanNo) (out : Bool), channel.toNat = k.val → direction = (if out = true then 1#8 else 0#8) →
          ¬ bad →
          (let taken := ¬ blocks.Nodup ∨ ∃ b ∈ blocks, ownerOf u b ≠ .free
            ∧ ownerOf u b ≠ (if out = true then .outbound k else .inbound k)
           (out = false → u.chans[k].set.listen = true →
              exec c s = .next { u with link := u.link.answered tag .wrongState [] })
            ∧ ((out = true ∨ u.chans[k].set.listen = false) → u.chans[k].state ≠ .stopped →
              exec c s = .next { u with link := u.link.answered tag .busy [] })
            ∧ ((out = true ∨ u.chans[k].set.listen = false) → u.chans[k].state = .stopped → taken →
              exec c s = .next { u with link := u.link.answered tag .overlap [] })
            ∧ ((out = true ∨ u.chans[k].set.listen = false) → u.chans[k].state = .stopped → ¬ taken →
              (blocks.length = 1 ∨ blocks.length = 2 ∨ blocks.length = 3) →
              exec c s = .next { u with link := u.link.answered tag .tooShort [] })
            ∧ ((out = true ∨ u.chans[k].set.listen = false) → u.chans[k].state = .stopped → ¬ taken →
              (blocks.length = 0 ∨ 4 ≤ blocks.length) →
              (let chain : Option Chain :=
                if runs = [] then none else some { runs := ns, blocks := blocks, writer := 0, frames := [] }
               exec c s = .next
                { u with
                  chans := u.chans.set k
                    (if out = true then { u.chans[k] with outChain := chain }
                    else { u.chans[k] with inChain := chain }),
                  link := u.link.answered tag .ok [] }))))))
    ∧ (∀ (k : ChanNo) (new : ChannelSettings), bindingTaken s k new = true ↔
        ∃ p : PortNo, new.port = some p
          ∧ ¬ (s.chans[k].set.port = some p ∧ s.chans[k].set.listen = new.listen)
          ∧ ∃ j : ChanNo, j ≠ k ∧ s.chans[j].set.port = some p ∧ s.chans[j].set.listen = new.listen)
    ∧ (∀ f : ChannelFields,
      (let on (m : Marked Byte) : Bool := decide (m.present = 1#8 ∧ m.value = 1#8)
       let either (default : Nat) (m : Marked Byte) : Nat := if m.present = 1#8 then m.value.toNat else default
       let upTo (n : Nat) (m : Marked Byte) : Prop := m.present = 0#8 ∨ (m.present = 1#8 ∧ m.value.toNat ≤ n)
       let mark (m : Marked Half) : Prop :=
        m.present = 0#8 ∨ (m.present = 1#8 ∧ 1 ≤ m.value.toNat ∧ m.value.toNat ≤ 2048)
       let delimiter : Byte := if f.delimiter.present = 1#8 then f.delimiter.value else 0x7C#8
       let escape : Byte := if f.escape.present = 1#8 then f.escape.value else 0x7D#8
       let new : ChannelSettings :=
        { listen := on f.kind, port := if f.port.present = 1#8 then portOf f.port.value else none,
          wn := either 0 f.wn, wmin := either 0 f.wmin, level := either 2 f.level, delimiter := delimiter,
          escape := escape, gap := either 0 f.gap, fillIdle := on f.fill,
          check :=
            if f.check.present = 1#8 then
              (if f.check.value = 0#8 then .none else if f.check.value = 1#8 then .c16 else .c32)
            else .c16,
          invert := on f.invert, msbFirst := on f.bitOrder, transparent := on f.transparent,
          continuousBreak := on f.continuousBreak, stamping := on f.stamping,
          maxLength := if f.maxLength.present = 1#8 then min (max f.maxLength.value.toNat 16) 4096 else 1024,
          markIn := if f.markIn.present = 1#8 then f.markIn.value.toNat else 1,
          markOut := if f.markOut.present = 1#8 then f.markOut.value.toNat else 1 }
       let legal := (∀ m ∈ [f.kind, f.fill, f.invert, f.bitOrder, f.transparent, f.continuousBreak, f.stamping], upTo 1 m)
        ∧ (f.port.present = 0#8
          ∨ (f.port.present = 1#8 ∧ (f.port.value.toNat < 8 ∨ f.port.value = 0xFF#8)))
        ∧ upTo 12 f.wn ∧ upTo 12 f.wmin ∧ upTo 6 f.level ∧ f.delimiter.present.toNat ≤ 1
        ∧ f.escape.present.toNat ≤ 1 ∧ upTo 15 f.gap ∧ upTo 2 f.check ∧ f.maxLength.present.toNat ≤ 1
        ∧ mark f.markIn ∧ mark f.markOut
        ∧ new.wmin ≤ new.wn ∧ (new.listen = true → new.wn = 0 ∧ new.stamping = false) ∧ delimiter ≠ escape
        ∧ escape + 0x20#8 ≠ delimiter
       (legal → channelSettings f = some new) ∧ (¬ legal → channelSettings f = none)))

/-- CHANNEL_START (R149, R99) and CHANNEL_STOP (R150, R100). START is judged in its order of steps, the water marks
against the chains as R147 gives their ranges; taken, the channel is ACTIVE, with both chains empty and no frame
anywhere, and the W_min lowest SPARE lanes of a LINK channel get moves toward it; its port, where it serves only ACTIVE
channels, keeps the counters of this one as they are. An ABORT that is owed stays owed at a start: the model's choice
(log 21). STOP changes nothing unless the channel is ACTIVE; then its chains are emptied, a LISTEN channel is STOPPED,
and a LINK channel is STOPPED when it holds no lane, applied or moving, and else STOPPING (R100). A frame that the
sender has begun owes an ABORT and is counted ABORTED, and so are a frame being written and the frame that the port
sends, once when they are one; the port ends its frame with the abort marker, unless the other channel of the port holds
it in a break at that moment (R150): that the marker takes the place of the bytes chosen and not yet sent is the model's
choice (log 25), and that a port whose marker is still going out sends no frame (log 43). The resting lanes of a LINK
channel move to SPARE; no QUEUED move toward it is left, and every SENT one is marked to follow up (R100). At both the
port is HELD exactly while an ACTIVE channel bound to it has continuous break on (R132); a LINK channel's receive state
is IDLE (R128), RDY of its SYNC port is raised at a start and withdrawn at a stop (R137). Both entries are marked
(R163); that a LINK channel STOPPED at once, for want of lanes, is marked STOPPING too is the model's choice (log 29).
-/
def Obligations.ChannelsStartAndStop : Prop :=
  ∀ (tag channel : Byte) (s : State), takesRequest (carried 5 s) →
    (let u := carried 5 s
     (15 < channel.toNat →
        exec (.channelStart tag channel) s = .next { u with link := u.link.answered tag .range [] }
          ∧ exec (.channelStop tag channel) s = .next { u with link := u.link.answered tag .range [] })
      ∧ (∀ k : ChanNo, channel.toNat = k.val →
        (let set := u.chans[k].set
         let lacks := u.chans[k].outChain = none ∨ (set.listen = false ∧ u.chans[k].inChain = none)
          ∨ ¬ ∃ p, set.port = some p ∧ (portFunction u p = .async ∨ portFunction u p = .sync)
         let size (o : Option Chain) : Nat :=
          match o with
          | none => 0
          | some c => c.blocks.length
         let marks : Prop := 1 ≤ set.markOut ∧ set.markOut + 2 ≤ size u.chans[k].outChain
          ∧ (set.listen = false → 1 ≤ set.markIn ∧ set.markIn + 1 ≤ size u.chans[k].inChain)
         let breaks (t : State) (p : PortNo) : Prop :=
          ∃ j : ChanNo, t.chans[j].state = .active ∧ t.chans[j].set.port = some p
            ∧ t.chans[j].set.continuousBreak = true
         (u.chans[k].state = .stopping →
            exec (.channelStart tag channel) s = .next { u with link := u.link.answered tag .busy [] })
          ∧ (u.chans[k].state = .active →
            exec (.channelStart tag channel) s = .next { u with link := u.link.answered tag .ok [] })
          ∧ (u.chans[k].state = .stopped → lacks →
            exec (.channelStart tag channel) s = .next { u with link := u.link.answered tag .wrongState [] })
          ∧ (u.chans[k].state = .stopped → ¬ lacks → ¬ marks →
            exec (.channelStart tag channel) s = .next { u with link := u.link.answered tag .range [] })
          ∧ (u.chans[k].state = .stopped → ¬ lacks → marks → set.listen = false →
            (spareLanes u).length < set.wmin →
            exec (.channelStart tag channel) s = .next { u with link := u.link.answered tag .noLanes [] })
          ∧ (u.chans[k].state = .stopped → ¬ lacks → marks →
            (set.listen = true ∨ set.wmin ≤ (spareLanes u).length) →
            ∃ t, exec (.channelStart tag channel) s = .next t
              ∧ t.link.replies = (u.link.answered tag .ok []).replies
              ∧ hasMark (.channel k) ChanState.active.mark t
              ∧ t.chans[k].state = .active ∧ t.chans[k].set = set
              ∧ t.chans[k].inChain = u.chans[k].inChain.map Chain.emptied
              ∧ (portsServeActive u → t.chans[k] =
                  { u.chans[k] with
                    state := .active, inChain := u.chans[k].inChain.map Chain.emptied,
                    outChain := u.chans[k].outChain.map Chain.emptied, writer := .idle,
                    sender := { Sender.initial with abortOwed := u.chans[k].sender.abortOwed },
                    parser := Parser.initial })
              ∧ (∀ p, set.port = some p →
                  (t.ports[p].tx.state = .held ↔ breaks t p)
                    ∧ (set.listen = false → t.ports[p].rx = PortRx.initial)
                    ∧ (∀ c, set.listen = false → u.chans[k].inChain = some c → 4 ≤ c.blocks.length →
                        t.ports[p].ready = decide (portFunction u p = .sync)))
              ∧ (set.listen = true → t.alloc = u.alloc)
              ∧ (set.listen = false → laneListsLegal u →
                  ∀ l ∈ (spareLanes u).take set.wmin, ∃ e ∈ t.alloc.owned,
                    e = { lane := l, use := .spare,
                          move := some { target := .channel k, effect := none, tx := false, rx := false,
                                         followUp := false } }))
          ∧ (u.chans[k].state ≠ .active →
            exec (.channelStop tag channel) s = .next { u with link := u.link.answered tag .ok [] })
          ∧ (u.chans[k].state = .active →
            ∃ t, exec (.channelStop tag channel) s = .next t
              ∧ t.link.replies = (u.link.answered tag .ok []).replies
              ∧ t.chans[k].inChain = u.chans[k].inChain.map Chain.emptied
              ∧ t.chans[k].outChain = u.chans[k].outChain.map Chain.emptied
              ∧ t.chans[k].writer = .idle ∧ t.chans[k].set = set
              ∧ (∀ p, set.port = some p →
                  ((portFunction u p = .async ∨ portFunction u p = .sync) →
                    (t.ports[p].tx.state = .held ↔ breaks t p))
                    ∧ (set.listen = false → t.ports[p].rx = PortRx.initial ∧ t.ports[p].ready = false))
              ∧ (set.listen = true → t.chans[k].state = .stopped ∧ t.alloc = u.alloc
                  ∧ hasMark (.channel k) ChanState.stopped.mark t)
              ∧ (set.listen = false → hasMark (.channel k) ChanState.stopping.mark t
                  ∧ (t.chans[k].state = .stopping ∨ t.chans[k].state = .stopped)
                  ∧ (laneListsLegal u → (t.chans[k].state = .stopped ↔ holdsNoLane k t))
                  ∧ (laneListsLegal u → ∀ e ∈ u.alloc.owned, e.use = .channel k → e.move = none →
                      ∃ g ∈ t.alloc.owned, g =
                        { e with
                          move := some { target := .spare, effect := none, tx := false, rx := false,
                                         followUp := false } })
                  ∧ (laneListsLegal u → ∀ e ∈ t.alloc.owned, ∀ m, e.move = some m → m.target = .channel k →
                      m.effect ≠ none ∧ m.followUp = true)
                  ∧ (laneListsLegal u → ∀ e ∈ u.alloc.owned, ∀ m, e.move = some m → m.target = .channel k →
                      m.effect = none → hasMark .lane Mark.withdrawn t))
              ∧ (let begun := ∃ c f, u.chans[k].inChain = some c ∧ c.frames.head? = some f ∧ f.begun = true
                 let writing := if set.listen = true then k ∈ u.filter.copies
                  else u.chans[k].parser.state = .assembling
                 let sending := ∃ p, set.port = some p ∧ u.ports[p].tx.state = .sending k
                  ∧ u.ports[p].tx.aborting = false
                 let same := writing ∧ sending
                  ∧ ∃ c f, u.chans[k].outChain = some c ∧ c.frames.head? = some f ∧ f.closed = false
                 (t.chans[k].sender.abortOwed = true ↔ u.chans[k].sender.abortOwed = true ∨ begun)
                  ∧ (∀ a b n : Nat, (begun ∧ a = 1 ∨ ¬ begun ∧ a = 0) → (writing ∧ b = 1 ∨ ¬ writing ∧ b = 0) →
                      ((sending ∧ ¬ same) ∧ n = 1 ∨ ¬ (sending ∧ ¬ same) ∧ n = 0) →
                      u.chans[k].counters.aborted ≤ 65535 →
                      t.chans[k].counters =
                        { u.chans[k].counters with aborted := min 65535 (u.chans[k].counters.aborted + a + b + n) })
                  ∧ (begun ∨ writing ∨ sending → hasMark (.channel k) Discard.aborted.mark t)
                  ∧ (∀ p, set.port = some p → sending → ¬ breaks t p →
                      t.ports[p].tx =
                        { u.ports[p].tx with
                          aborting := true, closedBy := none,
                          out := [(set.escape, .plain), (set.delimiter, .aborted)],
                          fill := if set.transparent = true then 0xFF#8 else u.ports[p].tx.fill }))))))

/-! ### The station table, call points and status -/

/-- The station requests (R168, R169, R170), each judged in its order of steps. STATION_SIZE sets the capacity,
and that it is refused BUSY in its step also for the capacity already in force is the model's choice (log 60);
STATION_PUT and STATION_DROP that pass become the update in flight, with a reply that is withheld and the table not yet
changed; STATION_READ answers the table and changes nothing: the capacity and the number of entries, the update in
flight with its kind, address and channel set, and the entries asked for, stopping at the last one held (R170). That no
update is all ones, and a STATION_DROP has the channel set 0000h, is the model's choice (log 16). A STATION_PUT, when it
is applied, gives its address the new channel set and leaves every other address as it was (R169). -/
def Obligations.StationRequestsAct : Prop :=
  putByRule
  ∧ (∀ (first count : Nat) (s : State),
      (let two (h : Half) : List Byte := [BitVec.extractLsb' 8 8 h, BitVec.extractLsb' 0 8 h]
       let number (n : Nat) : List Byte := two (BitVec.ofNat 16 n)
       let entries := (s.filter.table.drop first).take count
       stationContent s first count =
        number s.filter.capacity ++ number s.filter.table.length
          ++ (match s.filter.update with
              | none => [0xFF#8, 0xFF#8, 0xFF#8, 0xFF#8, 0xFF#8]
              | some (.put a c) => [0x00#8] ++ number a ++ two c
              | some (.drop a) => [0x01#8] ++ number a ++ [0x00#8, 0x00#8])
          ++ [BitVec.ofNat 8 entries.length] ++ (entries.map fun e => number e.1 ++ two e.2).flatten))
  ∧ ∀ (tag : Byte) (s : State),
    (∀ capacity : Half, takesRequest (carried 6 s) →
      (let u := carried 6 s
       let n := capacity.toNat
       let busy := (∃ k, activeListen u k = true) ∨ u.filter.update ≠ none
       let overlap := (List.range (n / 8)).any fun i =>
        decide (ownerOf u (2048 - n / 8 + i) ≠ .free ∧ ownerOf u (2048 - n / 8 + i) ≠ .station)
       exec (.stationSize tag capacity) s = .next
        (if n % 8 ≠ 0 ∨ 1024 < n then { u with link := u.link.answered tag .range [] }
        else if busy then { u with link := u.link.answered tag .busy [] }
        else if n < u.filter.table.length then { u with link := u.link.answered tag .full [] }
        else if overlap = true then { u with link := u.link.answered tag .overlap [] }
        else { u with filter := { u.filter with capacity := n }, link := u.link.answered tag .ok [] })))
    ∧ (∀ address channels : Half, takesRequest (carried 8 s) →
      (let u := carried 8 s
       let held := (lookupStation address.toNat u.filter.table).isSome
       exec (.stationPut tag address channels) s = .next
        (if address = 0#16 ∨ address = 0xFFFF#16 ∨ channels = 0#16 then
          { u with link := u.link.answered tag .range [] }
        else if u.filter.update.isSome = true then { u with link := u.link.answered tag .busy [] }
        else if held = false ∧ u.filter.capacity ≤ u.filter.table.length then
          { u with link := u.link.answered tag .full [] }
        else
          { u with
            filter := { u.filter with update := some (.put address.toNat channels) },
            link :=
              { u.link with
                replies := u.link.replies
                  ++ [{ tag := tag, status := .ok, content := [], ready := false, restart := false }] } })))
    ∧ (∀ address : Half, takesRequest (carried 6 s) →
      (let u := carried 6 s
       let held := (lookupStation address.toNat u.filter.table).isSome
       exec (.stationDrop tag address) s = .next
        (if address = 0#16 ∨ address = 0xFFFF#16 then { u with link := u.link.answered tag .range [] }
        else if u.filter.update.isSome = true then { u with link := u.link.answered tag .busy [] }
        else if held = false then { u with link := u.link.answered tag .range [] }
        else
          { u with
            filter := { u.filter with update := some (.drop address.toNat) },
            link :=
              { u.link with
                replies := u.link.replies
                  ++ [{ tag := tag, status := .ok, content := [], ready := false, restart := false }] } })))
    ∧ (∀ (first : Half) (count : Byte), takesRequest (carried 7 s) →
      (let u := carried 7 s
       exec (.stationRead tag first count) s = .next
        (if 1023 < first.toNat ∨ 128 < count.toNat then { u with link := u.link.answered tag .range [] }
        else { u with link := u.link.answered tag .ok (stationContent u first.toNat count.toNat) })))

/-- CALL_CLEAR (R119, R116): RANGE for a number that is none; WRONG_STATE for a call point that does not exist, is IDLE
or in LOCKOUT; nothing changes in CLEARING. A call that waits is withdrawn with the cause HOST, and one that the end
began sends CALL DOWN; a call in TALKING, ALERTING or RINGING is cleared with the cause HOST, its lane, with no call
waiting and no channel to regrow, moving to SPARE. A call that connects is cleared the same way while its move is SENT:
the move is marked to follow up (R88). While the move is QUEUED, it is withdrawn with its LANE item and the call is at
an end, IDLE or, off-hook, in LOCKOUT (R116, R117): in CONNECTING the end hears nothing, of a ring CALL DOWN is sent all
the same. -/
def Obligations.CallClearActs : Prop :=
  ∀ (tag point : Byte) (s : State), takesRequest (carried 5 s) →
    (let u := carried 5 s
     let c : Instr := .callClear tag point
     (7 < point.toNat → exec c s = .next { u with link := u.link.answered tag .range [] })
      ∧ (∀ p : PortNo, point.toNat = p.val →
        (let idle : CallPoint := { u.calls[p] with cause := some .host, answerPending := false, ringTimer := 0 }
         ((callExists u p = false ∨ u.calls[p].state = .idle ∨ u.calls[p].state = .lockout) →
            exec c s = .next { u with link := u.link.answered tag .wrongState [] })
          ∧ (callExists u p = true → u.calls[p].state = .clearing →
            exec c s = .next { u with link := u.link.answered tag .ok [] })
          ∧ (callExists u p = true → u.calls[p].state = .waiting →
            ∃ t, exec c s = .next t ∧ onlyReports (u.link.answered tag .ok []) t.link
              ∧ hasMark (.call p) CallState.idle.code t
              ∧ t = { u with
                    calls := u.calls.set p { idle with state := .idle, ringMark := false },
                    alloc := { u.alloc with waiting := u.alloc.waiting.filter fun w => decide (w.1 ≠ p) },
                    round :=
                      (if u.calls[p].ringMark = true then
                        { u.round with queue := withCallItem p (.down .host) u.round.queue }
                      else u.round),
                    link := t.link })
          ∧ (∀ e : Entry, laneListsLegal u → callExists u p = true →
              (u.calls[p].state = .talking ∨ u.calls[p].state = .alerting ∨ u.calls[p].state = .ringing) →
              u.calls[p].lane = some e.lane → e ∈ u.alloc.owned → e.use = .call p → e.move = none →
              u.alloc.waiting = [] → regrower u = none →
            ∃ t, exec c s = .next t ∧ onlyReports (u.link.answered tag .ok []) t.link
              ∧ hasMark (.call p) CallState.clearing.code t ∧ hasMark (.call p) Mark.downSent t
              ∧ t = { u with
                    calls := u.calls.set p { idle with state := .clearing, ringMark := false },
                    alloc := { u.alloc with owned := withMove e.lane .spare u.alloc.owned },
                    round :=
                      { u.round with
                        queue := withCallItem p (.down .host) u.round.queue ++ [.lane e.lane .spare] },
                    link := t.link })
          ∧ (∀ (e : Entry) (m : Move), laneListsLegal u → callExists u p = true →
              (u.calls[p].state = .connecting ∨ u.calls[p].state = .ringConnecting) →
              u.calls[p].lane = some e.lane → e ∈ u.alloc.owned → e.move = some m → m.target = .call p →
            ∃ t, exec c s = .next t ∧ onlyReports (u.link.answered tag .ok []) t.link
              ∧ clearsConnecting p .host e m u t))))

/-- The status requests (R21, R38, R57, R80, R103, R120, R141, R162) answer from the state of the moment they are taken
and change nothing; CHANNEL_STATUS is refused RANGE for a channel or flag that is none, and with its flag set the six
discard counters, and no other, are 0 after the reply. The bytes of all seven replies and of every report (R9, R13, R37,
R79, R102, R121, R140, R163, R182), field by field at the widths of R186. The next turn of LANE_STATUS is the first turn
of the node after the round in progress (R48, R57). What R186 leaves of the layout is the model's choice (log 16): all
ones for an end, a cause, a receiver state or a channel state that is none; a presence byte and zeros for a move, a
chain or a frame that is absent; the place in the pending list counted from its head 0; the channel number that leads a
channel's entry; no count byte before the eight entries of CALL_STATUS and PORT_STATUS; 01h for the level of a LOS line
while LOS is asserted; the 8 bytes of a notice item with their zero bytes. That a lane group shown is that of the role
tables in force, also after a jump of a round count, is log 54. That the port is not sending a frame while its abort
marker goes out is log 43, that an inbound frame which was discarded is shown as none while its ABORT is owed log 48;
that the wait-to-restore of HOME_STATUS takes two bytes is read from R186 (log 17), and that LANE_STATUS gives the turns
as a number in one byte is the model's choice (log 22). -/
def Obligations.StatusRequestsAnswer : Prop :=
  (∀ (tag : Byte) (s : State),
    (takesRequest (carried 4 s) →
      (let u := carried 4 s
       exec (.trunkStatus tag) s = .next { u with link := u.link.answered tag .ok (trunkContent u) }
        ∧ exec (.homeStatus tag) s = .next { u with link := u.link.answered tag .ok (homeContent u) }
        ∧ exec (.timingStatus tag) s = .next { u with link := u.link.answered tag .ok (timingContent u) }
        ∧ exec (.laneStatus tag) s = .next { u with link := u.link.answered tag .ok (laneContent u) }
        ∧ exec (.callStatus tag) s = .next { u with link := u.link.answered tag .ok (callContent u) }
        ∧ exec (.portStatus tag) s = .next { u with link := u.link.answered tag .ok (portContent u) }))
    ∧ (∀ channel clear : Byte, takesRequest (carried 6 s) →
      (let u := carried 6 s
       ((15 < channel.toNat ∨ 1 < clear.toNat) →
          exec (.channelStatus tag channel clear) s = .next { u with link := u.link.answered tag .range [] })
        ∧ (∀ k : ChanNo, channel.toNat = k.val → clear.toNat ≤ 1 →
          exec (.channelStatus tag channel clear) s = .next
            { u with
              chans :=
                (if clear = 1#8 then
                  u.chans.set k
                    { u.chans[k] with
                      counters :=
                        { Counters.initial with
                          framesIn := u.chans[k].counters.framesIn,
                          framesOut := u.chans[k].counters.framesOut } }
                else u.chans),
              link := u.link.answered tag .ok (channelContent u k) }))))
  ∧ (∀ s : State,
      (let flag (b : Bool) : Byte := if b = true then 0x01#8 else 0x00#8
       let side (x : Side) : Byte :=
        match x with
        | .a => 0x00#8
        | .b => 0x01#8
       let endOr (o : Option Side) : Byte :=
        match o with
        | none => 0xFF#8
        | some x => side x
       let portOr (o : Option Side) : Byte :=
        match o with
        | none => 0x02#8
        | some x => side x
       let cause : Byte :=
        match s.homing.last with
        | none => 0xFF#8
        | some c =>
          match c.cause with
          | .failure => 0x00#8
          | .isolation => 0x01#8
          | .recovery => 0x02#8
          | .revert => 0x03#8
          | .forced => 0x04#8
       let receiver (x : Side) : Byte :=
        match (s.rx.get x).state with
        | .noLight => 0x00#8
        | .hunt => 0x01#8
        | .synced => 0x02#8
       let delivers (x : Side) : Byte :=
        match (s.flow.get x).mode with
        | .delivering => 0x00#8
        | .priming => 0x01#8
        | .notDelivering => 0x02#8
       let homed : Byte := if s.homing.isolated = true then 0x02#8 else side s.homing.home
       let h := s.homing
       let t := s.timing
       let source : Option Side := if t.auto = true then some h.home else none
       let conditions (x : Side) : List Byte :=
        [flag (reachable s x), flag (decide ((s.rx.get x).state = .synced)), flag (decide (0 < (s.rx.get x).presence)),
          flag (s.rx.get x).pbSeen, flag (s.rx.get x).fsaSeen]
       let seen (x : Side) : List Byte := [flag (s.rx.get x).fsaSeen, flag (s.rx.get x).pbSeen]
       let present (x : Side) : List Byte :=
        [flag (decide (0 < (s.rx.get x).presence)), byteOf (s.rx.get x).presence]
       let store (x : Side) : List Byte := [byteOf (s.flow.get x).store.length, delivers x]
       let slips (x : Side) : List Byte :=
        twoBytes (s.flow.get x).underflows.toNat ++ twoBytes (s.flow.get x).overflows.toNat
       trunkContent s =
          [receiver .a, receiver .b, flag s.rx.a.los, flag s.rx.b.los] ++ seen .a ++ seen .b ++ present .a ++ present .b
            ++ twoBytes s.rx.a.headerFaults.toNat ++ twoBytes s.rx.b.headerFaults.toNat ++ store .a ++ store .b
            ++ slips .a ++ slips .b ++ [byteOf s.flow.a.counter.toNat, byteOf s.flow.b.counter.toNat]
            ++ [flag s.flow.a.fsaSent, flag s.flow.a.pbSent, flag s.flow.b.fsaSent, flag s.flow.b.pbSent]
            ++ [flag s.flow.a.startUp.isSome, flag s.flow.b.startUp.isSome]
        ∧ homeContent s =
          [homed, side h.home, side h.preferred, side h.prefStrap, flag h.forced.isSome, endOr h.forced,
              endOr h.pendingForce] ++ conditions .a ++ conditions .b
            ++ [byteOf h.holdOffSetting, byteOf (h.holdOff.getD 0), if h.holdOff.isSome = true then 0x00#8 else 0x01#8]
            ++ twoBytes h.restoreSetting ++ fourBytes (h.restore.getD 0)
            ++ [if h.restore.isSome = true then 0x00#8 else 0x01#8] ++ twoBytes h.changes.toNat
            ++ [endOr (h.last.map HomeChange.old), endOr (h.last.map HomeChange.new), cause]
        ∧ timingContent s =
          [flag t.auto,
              (match t.mode with
                | .free => 0x00#8
                | .acquiring => 0x01#8
                | .tracking => 0x02#8
                | .holdover => 0x03#8),
              portOr source, if t.auto = true then receiver h.home else 0xFF#8]
            ++ twoBytes (BitVec.ofInt 16 t.correction).toNat ++ fourBytes (BitVec.ofInt 32 t.integral).toNat
            ++ twoBytes (BitVec.ofInt 16 t.trim).toNat ++ [byteOf (t.phase.toNat / 2 ^ 24)] ++ twoBytes t.lockCount
            ++ [byteOf t.unlockCount, byteOf t.realignCount, flag t.armed] ++ fourBytes t.seconds.toNat
            ++ twoBytes t.cycle
            ++ [(match t.validity with
                | .none => 0x00#8
                | .fromEnd => 0x01#8
                | .fromHost => 0x02#8), portOr t.source, byteOf t.quality.code]
            ++ twoBytes t.delay.a ++ twoBytes t.delay.b ++ fourBytes t.holdLimit ++ fourBytes t.holdTimer
            ++ twoBytes (BitVec.ofInt 16 t.lastStep).toNat ++ twoBytes t.rejected.toNat
        ∧ (∀ x : Side, reportContent s (.rx x) =
            [receiver x, flag (s.rx.get x).los] ++ seen x ++ [flag (decide (0 < (s.rx.get x).presence))])
        ∧ (∀ x : Side, reportContent s (.slip x) = slips x)
        ∧ reportContent s .home =
          [side h.home, homed, side h.reported, cause, side h.preferred, flag h.forced.isSome, endOr h.forced,
              flag (reachable s .a), flag (reachable s .b)] ++ twoBytes h.changes.toNat))
  ∧ (∀ s : State,
      (let flag (b : Bool) : Byte := if b = true then 0x01#8 else 0x00#8
       let orNone (o : Option Nat) : Byte :=
        match o with
        | none => 0xFF#8
        | some n => byteOf n
       let listed (entries : List (List Byte)) : List Byte := byteOf entries.length :: entries.flatten
       let a := s.alloc
       let r := s.round
       let t := s.timing
       let useByte (u : Use) : Byte :=
        match u with
        | .spare => 0x01#8
        | .channel k => byteOf (0x10 + k.val)
        | .call p => byteOf (0x20 + p.val)
       let moveOf (e : Entry) : List Byte :=
        match e.move with
        | none => [0x00#8, 0x00#8, 0x00#8, 0x00#8, 0x00#8, 0x00#8, 0x00#8]
        | some m =>
          [0x01#8, useByte m.target]
            ++ (match m.effect with
              | none => [0x00#8, 0xFF#8, 0xFF#8]
              | some n => 0x01#8 :: twoBytes n.toNat)
            ++ [if m.tx = true then (if m.rx = true then 0x03#8 else 0x01#8)
                else if m.rx = true then 0x02#8 else 0x00#8, flag m.followUp]
       let onSide (e : Entry) (taken : Move → Bool) : Byte :=
        match e.move with
        | none => useByte e.use
        | some m => if taken m = true then useByte m.target else useByte e.use
       let floors : List Byte :=
        [byteOf a.hostFloor, byteOf a.incidentFloor, flag a.incident,
          byteOf (if a.incident = true then max a.hostFloor a.incidentFloor else a.hostFloor)]
       let waiting : List Byte := listed (a.waiting.map fun w => [byteOf w.1.val, byteOf w.2])
       let moves : List Byte := twoBytes a.applied.toNat ++ twoBytes a.withdrawn.toNat
       let causeOf (c : ClearCause) : Byte :=
        match c with
        | .hook => 0x01#8
        | .ended => 0x02#8
        | .noAnswer => 0x03#8
        | .host => 0x04#8
       let itemOf (i : Item) : List Byte :=
        match i with
        | .lane l u => [0x01#8, byteOf l, useByte u, 0x00#8, 0x00#8, 0x00#8, 0x00#8, 0x00#8]
        | .call p (.down c) => [0x02#8, byteOf p.val, 0x01#8, causeOf c, 0x00#8, 0x00#8, 0x00#8, 0x00#8]
        | .call p .answered => [0x02#8, byteOf p.val, 0x02#8, 0x00#8, 0x00#8, 0x00#8, 0x00#8, 0x00#8]
        | .call p .busy => [0x02#8, byteOf p.val, 0x03#8, 0x00#8, 0x00#8, 0x00#8, 0x00#8, 0x00#8]
       let width (k : ChanNo) : Byte :=
        byteOf (a.owned.filter fun e =>
          match e.move with
          | none => decide (e.use = .channel k)
          | some m => decide (m.target = .channel k ∧ m.followUp = false)).length
       let group (k : ChanNo) (x : Side) : List Nat :=
        ((s.flow.get x).roles.filter fun l => decide (l.2 = .add (.channel k))).map Prod.fst
          ++ ((s.flow.get x).roles.filter fun l => decide (l.2 = .drop (.channel k))).map Prod.fst
       let stateOf (k : ChanNo) : Byte :=
        match s.chans[k].state with
        | .stopped => 0x00#8
        | .active => 0x01#8
        | .stopping => 0x02#8
       let linkOf (k : ChanNo) : List Byte :=
        [byteOf k.val, stateOf k, byteOf s.chans[k].set.level, byteOf s.chans[k].set.wmin, byteOf s.chans[k].set.wn,
            width k]
          ++ listed ((group k .a).map fun l => [byteOf l]) ++ listed ((group k .b).map fun l => [byteOf l])
       let turn (c : Half) (k : Nat) : Prop := c.toNat % 2 = 1 ∧ (c.toNat - 1) / 2 % r.numbering.turns = k
       (∃ next : List Byte,
          laneContent s =
            [orNone r.numbering.node, byteOf r.numbering.turns] ++ twoBytes r.localCount.toNat
              ++ twoBytes r.receivedCount.toNat ++ next ++ [flag r.rosterOwed] ++ listed (r.queue.map itemOf)
              ++ twoBytes r.invalid.a.toNat ++ twoBytes r.invalid.b.toNat
              ++ listed (a.owned.map fun e =>
                  [byteOf e.lane, useByte e.use, onSide e Move.tx, onSide e Move.rx] ++ moveOf e)
              ++ listed (a.listen.map fun l => [byteOf l]) ++ floors
              ++ listed ((allChans.filter fun k => decide (s.chans[k].set.listen = false)).map linkOf)
              ++ waiting ++ moves
            ∧ (r.numbering.node = none → next = [0xFF#8, 0xFF#8])
            ∧ (∀ k : Nat, r.numbering.node = some k → k < r.numbering.turns →
                (r.numbering.turns = 4 ∨ r.numbering.turns = 8 ∨ r.numbering.turns = 16 ∨ r.numbering.turns = 32
                  ∨ r.numbering.turns = 64) →
                ∃ d : Nat, 1 ≤ d ∧ d ≤ 2 * r.numbering.turns
                  ∧ next = twoBytes (r.localCount + BitVec.ofNat 16 d).toNat
                  ∧ turn (r.localCount + BitVec.ofNat 16 d) k
                  ∧ ∀ e : Nat, 1 ≤ e → e < d → ¬ turn (r.localCount + BitVec.ofNat 16 e) k))
        ∧ reportContent s .lane =
          floors ++ listed (a.owned.map fun e => [byteOf e.lane, useByte e.use] ++ moveOf e) ++ waiting ++ moves
        ∧ (let endOr (o : Option Side) : Byte :=
            match o with
            | none => 0x02#8
            | some .a => 0x00#8
            | some .b => 0x01#8
           reportContent s .timing =
            [flag t.auto,
                (match t.mode with
                  | .free => 0x00#8
                  | .acquiring => 0x01#8
                  | .tracking => 0x02#8
                  | .holdover => 0x03#8),
                endOr (if t.auto = true then some s.homing.home else none),
                (match t.validity with
                  | .none => 0x00#8
                  | .fromEnd => 0x01#8
                  | .fromHost => 0x02#8), endOr t.source, byteOf t.quality.code]
              ++ fourBytes t.seconds.toNat ++ twoBytes t.cycle ++ [byteOf (t.phase.toNat / 2 ^ 24)]
              ++ twoBytes (BitVec.ofInt 16 t.correction).toNat ++ fourBytes (BitVec.ofInt 32 t.integral).toNat
              ++ fourBytes t.holdTimer ++ twoBytes (BitVec.ofInt 16 t.lastStep).toNat)
        ∧ reportContent s .start =
          [(match s.homing.prefStrap with
              | .a => 0x00#8
              | .b => 0x01#8), 0x01#8, flag s.link.startedByRestart]
        ∧ (∀ p : PortNo,
            (let c := s.calls[p]
             let entry := callEntry s p
             reportContent s (.call p) = byteOf p.val :: entry
              ∧ (callExists s p = false → entry = [0x00#8])
              ∧ (callExists s p = true → entry =
                  [0x01#8, byteOf c.level,
                      (match c.state with
                        | .idle => 0x00#8
                        | .waiting => 0x01#8
                        | .connecting => 0x02#8
                        | .alerting => 0x03#8
                        | .talking => 0x04#8
                        | .ringConnecting => 0x05#8
                        | .ringing => 0x06#8
                        | .clearing => 0x07#8
                        | .lockout => 0x08#8),
                      flag c.offHook, flag c.ringMark, flag c.answerPending, orNone c.lane]
                    ++ (match c.lane.bind fun l => (a.owned.find? fun e => decide (e.lane = l)).bind Entry.move with
                      | none => [0x00#8, 0x00#8, 0x00#8]
                      | some m => [0x01#8, useByte m.target, flag m.effect.isSome])
                    ++ [flag (a.waiting.any fun w => decide (w.1 = p)),
                        orNone (a.waiting.findIdx? fun w => decide (w.1 = p))]
                    ++ twoBytes c.ringTimer
                    ++ [(match c.state with
                          | .waiting => flag (!c.ringMark || c.offHook)
                          | .connecting => 0x01#8
                          | .alerting => 0x01#8
                          | .ringConnecting => flag c.offHook
                          | .idle => 0x00#8
                          | .talking => 0x00#8
                          | .ringing => 0x00#8
                          | .clearing => 0x00#8
                          | .lockout => 0x00#8),
                        flag (decide (c.state = .talking)), flag (decide (c.state = .ringing)),
                        (match c.cause with
                          | none => 0x00#8
                          | some x => causeOf x)])))
        ∧ callContent s = (allPorts.map (callEntry s)).flatten
        ∧ portContent s = (allPorts.map (portEntry s)).flatten
        ∧ (∀ p : PortNo,
            (let q := s.ports[p]
             let bound (listen : Bool) : List Byte :=
              match allChans.find? fun k => decide (s.chans[k].set.port = some p ∧ s.chans[k].set.listen = listen) with
              | none => [0xFF#8, 0xFF#8]
              | some k => [byteOf k.val, stateOf k]
             let tagAt (tagged : Bool) : Byte := if tagged = true then 0x00#8 else 0x01#8
             let kept : List Byte :=
              match q.own with
              | .off => [0x00#8]
              | .async rate => [0x01#8, byteOf rate]
              | .sync => [0x02#8]
              | .callpoint level => [0x03#8, byteOf level]
              | .contacts debounce tags =>
                [0x04#8] ++ twoBytes debounce ++ [tagAt tags[0], tagAt tags[1], tagAt tags[2], tagAt tags[3]]
             let levelAt (n : Fin 4) : Byte := flag q.contacts[n].level
             let stateAt (n : Fin 4) : Byte := if q.contacts[n].active = true then 0x00#8 else 0x01#8
             portEntry s p =
              [(match portFunction s p with
                  | .off => 0x00#8
                  | .async => 0x01#8
                  | .sync => 0x02#8
                  | .callpoint => 0x03#8
                  | .contacts => 0x04#8
                  | .merged => 0x05#8)]
                ++ kept ++ [flag (s.merged[p.val / 2]'(by omega))] ++ bound false ++ bound true
                ++ [flag q.rx.isOpen] ++ twoBytes q.rx.count
                ++ (match q.tx.state with
                  | .idle => [0x00#8, 0xFF#8]
                  | .sending k => [0x01#8, byteOf k.val]
                  | .held => [0x02#8, 0xFF#8])
                ++ [orNone (q.lastServed.map Fin.val)]
                ++ (if portFunction s p = .sync then [if q.ready = true then 0x00#8 else 0x01#8] else [])
                ++ (match portFunction s p, q.own with
                  | .contacts, .contacts _ tags =>
                    [levelAt 0, stateAt 0, tagAt tags[0], levelAt 1, stateAt 1, tagAt tags[1],
                      levelAt 2, stateAt 2, tagAt tags[2], levelAt 3, stateAt 3, tagAt tags[3]]
                  | _, _ => [])
              ∧ (∀ (debounce : Nat) (tags : Vector Bool 4), portFunction s p = .contacts →
                  q.own = .contacts debounce tags →
                  reportContent s (.contact p) =
                    [byteOf p.val, stateAt 0, levelAt 0, tagAt tags[0], stateAt 1, levelAt 1, tagAt tags[1],
                        stateAt 2, levelAt 2, tagAt tags[2], stateAt 3, levelAt 3, tagAt tags[3]]
                      ++ twoBytes debounce ++ [flag a.incident])))
        ∧ (∀ k : ChanNo,
            (let c := s.chans[k]
             let frames (o : Option Chain) : List Frame :=
              match o with
              | none => []
              | some x => x.frames
             let held (o : Option Chain) : Nat := ((frames o).map fun f => f.taken - f.released).sum
             let chain (o : Option Chain) : List Byte :=
              match o with
              | none => [0x00#8, 0x00#8, 0x00#8, 0x00#8, 0x00#8, 0x00#8, 0x00#8, 0x00#8]
              | some x =>
                [0x01#8] ++ twoBytes x.blocks.length ++ listed (x.runs.map fun n => twoBytes n.1 ++ twoBytes n.2)
                  ++ twoBytes (held o) ++ twoBytes (x.blocks.length - held o)
             let ready (o : Option Chain) : Nat :=
              ((frames o).filter fun f => decide (f.closed = true ∧ f.begun = false)).length
             let settings : List Byte :=
              [flag c.set.listen, orNone (c.set.port.map Fin.val), byteOf c.set.wn, byteOf c.set.wmin,
                  byteOf c.set.level, c.set.delimiter, c.set.escape, byteOf c.set.gap, flag c.set.fillIdle,
                  (match c.set.check with
                    | .none => 0x00#8
                    | .c16 => 0x01#8
                    | .c32 => 0x02#8),
                  flag c.set.invert, flag c.set.msbFirst, flag c.set.transparent, flag c.set.continuousBreak,
                  flag c.set.stamping]
                ++ twoBytes c.set.maxLength ++ twoBytes c.set.markIn ++ twoBytes c.set.markOut
             let inbound : List Byte :=
              (match c.writer with
                  | .idle => [0x00#8, 0x00#8, 0x00#8]
                  | .writing =>
                    0x01#8 :: twoBytes (match (frames c.inChain).getLast? with
                      | none => 0
                      | some f => f.length)
                  | .discarding => [0x02#8, 0x00#8, 0x00#8])
                ++ twoBytes (ready c.inChain)
                ++ (match (frames c.inChain).head? with
                  | none => [0x00#8, 0x00#8, 0x00#8]
                  | some f => if f.begun = true then 0x01#8 :: twoBytes f.sent else [0x00#8, 0x00#8, 0x00#8])
                ++ [flag c.sender.abortOwed]
             let assembled : List Byte :=
              if c.set.listen = true then
                (if k ∈ s.filter.copies then 0x01#8 :: twoBytes s.filter.count else [0x00#8, 0x00#8, 0x00#8])
              else
                match c.parser.state with
                | .noFrame => [0x00#8, 0x00#8, 0x00#8]
                | .assembling => 0x01#8 :: twoBytes c.parser.count
                | .skipping => [0x02#8, 0x00#8, 0x00#8]
             let sends : Byte :=
              flag (match c.set.port with
                | none => false
                | some p => decide (s.ports[p].tx.state = .sending k ∧ s.ports[p].tx.aborting = false))
             let counts : List Byte :=
              fourBytes c.counters.framesIn.toNat ++ fourBytes c.counters.framesOut.toNat
                ++ twoBytes c.counters.overflow ++ twoBytes c.counters.underrun ++ twoBytes c.counters.dropCheck
                ++ twoBytes c.counters.trunkCheck ++ twoBytes c.counters.tooLong ++ twoBytes c.counters.aborted
             channelContent s k =
              settings ++ [stateOf k] ++ chain c.inChain ++ chain c.outChain ++ inbound ++ assembled
                ++ twoBytes (ready c.outChain) ++ [sends]
                ++ [width k, byteOf (group k .a).length, byteOf (group k .b).length] ++ counts
              ∧ reportContent s (.channel k) =
                [byteOf k.val, flag c.set.listen, orNone (c.set.port.map Fin.val), stateOf k]
                  ++ twoBytes (held c.inChain) ++ twoBytes (held c.outChain) ++ [width k] ++ counts))))
end

