-- ==== Sys2Proof/Laws/State.lean ====
section
/-! SUPPORT. One lemma for each field of the state under each update, and the reads of the two-sided tables and of the
vectors after a write. -/

namespace Sys2Proof

@[simp] theorem Side.other_other (x : Side) : x.other.other = x := by cases x <;> rfl
@[simp] theorem Side.other_ne (x : Side) : x.other ≠ x := by cases x <;> decide
@[simp] theorem Side.ne_other (x : Side) : x ≠ x.other := by cases x <;> decide
theorem Side.eq_or_other (x y : Side) : y = x ∨ y = x.other := by cases x <;> cases y <;> decide

@[simp] theorem Two.get_set_same {α : Type} (t : Two α) (x : Side) (v : α) : (t.set x v).get x = v := by
  cases x <;> rfl
theorem Two.get_set_of_ne {α : Type} (t : Two α) {x y : Side} (v : α) (h : y ≠ x) : (t.set x v).get y = t.get y := by
  cases x <;> cases y <;> first | rfl | exact absurd rfl h
theorem Two.get_set {α : Type} (t : Two α) (x y : Side) (v : α) :
    (t.set x v).get y = if y = x then v else t.get y := by
  cases x <;> cases y <;> rfl
@[simp] theorem Two.get_set_other {α : Type} (t : Two α) (x : Side) (v : α) :
    (t.set x v).get x.other = t.get x.other := by cases x <;> rfl
@[simp] theorem Two.get_other_set {α : Type} (t : Two α) (x : Side) (v : α) :
    (t.set x.other v).get x = t.get x := by cases x <;> rfl
@[simp] theorem Two.set_get {α : Type} (t : Two α) (x : Side) : t.set x (t.get x) = t := by cases x <;> rfl
theorem Two.ext_get {α : Type} {t u : Two α} (h : ∀ x, t.get x = u.get x) : t = u := by
  have ha := h .a
  have hb := h .b
  cases t; cases u
  simp only [Two.get] at ha hb
  rw [ha, hb]

end Sys2Proof

namespace Sys2Proof.Machine

/-! ### updRx -/

@[simp] theorem State.updRx_resetHeld (s : State) (x : Side) (f : Receiver → Receiver) :
    (s.updRx x f).resetHeld = s.resetHeld := rfl
@[simp] theorem State.updRx_rx (s : State) (x : Side) (f : Receiver → Receiver) :
    (s.updRx x f).rx = s.rx.set x (f (s.rx.get x)) := rfl
@[simp] theorem State.updRx_flow (s : State) (x : Side) (f : Receiver → Receiver) :
    (s.updRx x f).flow = s.flow := rfl
@[simp] theorem State.updRx_line (s : State) (x : Side) (f : Receiver → Receiver) :
    (s.updRx x f).line = s.line := rfl
@[simp] theorem State.updRx_homing (s : State) (x : Side) (f : Receiver → Receiver) :
    (s.updRx x f).homing = s.homing := rfl
@[simp] theorem State.updRx_round (s : State) (x : Side) (f : Receiver → Receiver) :
    (s.updRx x f).round = s.round := rfl
@[simp] theorem State.updRx_timing (s : State) (x : Side) (f : Receiver → Receiver) :
    (s.updRx x f).timing = s.timing := rfl
@[simp] theorem State.updRx_alloc (s : State) (x : Side) (f : Receiver → Receiver) :
    (s.updRx x f).alloc = s.alloc := rfl
@[simp] theorem State.updRx_calls (s : State) (x : Side) (f : Receiver → Receiver) :
    (s.updRx x f).calls = s.calls := rfl
@[simp] theorem State.updRx_ports (s : State) (x : Side) (f : Receiver → Receiver) :
    (s.updRx x f).ports = s.ports := rfl
@[simp] theorem State.updRx_merged (s : State) (x : Side) (f : Receiver → Receiver) :
    (s.updRx x f).merged = s.merged := rfl
@[simp] theorem State.updRx_chans (s : State) (x : Side) (f : Receiver → Receiver) :
    (s.updRx x f).chans = s.chans := rfl
@[simp] theorem State.updRx_filter (s : State) (x : Side) (f : Receiver → Receiver) :
    (s.updRx x f).filter = s.filter := rfl
@[simp] theorem State.updRx_link (s : State) (x : Side) (f : Receiver → Receiver) :
    (s.updRx x f).link = s.link := rfl
@[simp] theorem State.updRx_mem (s : State) (x : Side) (f : Receiver → Receiver) :
    (s.updRx x f).mem = s.mem := rfl
@[simp] theorem State.updRx_pending (s : State) (x : Side) (f : Receiver → Receiver) :
    (s.updRx x f).pending = s.pending := rfl

/-! ### updFlow -/

@[simp] theorem State.updFlow_resetHeld (s : State) (x : Side) (f : Flow → Flow) :
    (s.updFlow x f).resetHeld = s.resetHeld := rfl
@[simp] theorem State.updFlow_rx (s : State) (x : Side) (f : Flow → Flow) :
    (s.updFlow x f).rx = s.rx := rfl
@[simp] theorem State.updFlow_flow (s : State) (x : Side) (f : Flow → Flow) :
    (s.updFlow x f).flow = s.flow.set x (f (s.flow.get x)) := rfl
@[simp] theorem State.updFlow_line (s : State) (x : Side) (f : Flow → Flow) :
    (s.updFlow x f).line = s.line := rfl
@[simp] theorem State.updFlow_homing (s : State) (x : Side) (f : Flow → Flow) :
    (s.updFlow x f).homing = s.homing := rfl
@[simp] theorem State.updFlow_round (s : State) (x : Side) (f : Flow → Flow) :
    (s.updFlow x f).round = s.round := rfl
@[simp] theorem State.updFlow_timing (s : State) (x : Side) (f : Flow → Flow) :
    (s.updFlow x f).timing = s.timing := rfl
@[simp] theorem State.updFlow_alloc (s : State) (x : Side) (f : Flow → Flow) :
    (s.updFlow x f).alloc = s.alloc := rfl
@[simp] theorem State.updFlow_calls (s : State) (x : Side) (f : Flow → Flow) :
    (s.updFlow x f).calls = s.calls := rfl
@[simp] theorem State.updFlow_ports (s : State) (x : Side) (f : Flow → Flow) :
    (s.updFlow x f).ports = s.ports := rfl
@[simp] theorem State.updFlow_merged (s : State) (x : Side) (f : Flow → Flow) :
    (s.updFlow x f).merged = s.merged := rfl
@[simp] theorem State.updFlow_chans (s : State) (x : Side) (f : Flow → Flow) :
    (s.updFlow x f).chans = s.chans := rfl
@[simp] theorem State.updFlow_filter (s : State) (x : Side) (f : Flow → Flow) :
    (s.updFlow x f).filter = s.filter := rfl
@[simp] theorem State.updFlow_link (s : State) (x : Side) (f : Flow → Flow) :
    (s.updFlow x f).link = s.link := rfl
@[simp] theorem State.updFlow_mem (s : State) (x : Side) (f : Flow → Flow) :
    (s.updFlow x f).mem = s.mem := rfl
@[simp] theorem State.updFlow_pending (s : State) (x : Side) (f : Flow → Flow) :
    (s.updFlow x f).pending = s.pending := rfl

/-! ### updLine -/

@[simp] theorem State.updLine_resetHeld (s : State) (f : TrunkLine → TrunkLine) :
    (s.updLine f).resetHeld = s.resetHeld := rfl
@[simp] theorem State.updLine_rx (s : State) (f : TrunkLine → TrunkLine) :
    (s.updLine f).rx = s.rx := rfl
@[simp] theorem State.updLine_flow (s : State) (f : TrunkLine → TrunkLine) :
    (s.updLine f).flow = s.flow := rfl
@[simp] theorem State.updLine_line (s : State) (f : TrunkLine → TrunkLine) :
    (s.updLine f).line = f s.line := rfl
@[simp] theorem State.updLine_homing (s : State) (f : TrunkLine → TrunkLine) :
    (s.updLine f).homing = s.homing := rfl
@[simp] theorem State.updLine_round (s : State) (f : TrunkLine → TrunkLine) :
    (s.updLine f).round = s.round := rfl
@[simp] theorem State.updLine_timing (s : State) (f : TrunkLine → TrunkLine) :
    (s.updLine f).timing = s.timing := rfl
@[simp] theorem State.updLine_alloc (s : State) (f : TrunkLine → TrunkLine) :
    (s.updLine f).alloc = s.alloc := rfl
@[simp] theorem State.updLine_calls (s : State) (f : TrunkLine → TrunkLine) :
    (s.updLine f).calls = s.calls := rfl
@[simp] theorem State.updLine_ports (s : State) (f : TrunkLine → TrunkLine) :
    (s.updLine f).ports = s.ports := rfl
@[simp] theorem State.updLine_merged (s : State) (f : TrunkLine → TrunkLine) :
    (s.updLine f).merged = s.merged := rfl
@[simp] theorem State.updLine_chans (s : State) (f : TrunkLine → TrunkLine) :
    (s.updLine f).chans = s.chans := rfl
@[simp] theorem State.updLine_filter (s : State) (f : TrunkLine → TrunkLine) :
    (s.updLine f).filter = s.filter := rfl
@[simp] theorem State.updLine_link (s : State) (f : TrunkLine → TrunkLine) :
    (s.updLine f).link = s.link := rfl
@[simp] theorem State.updLine_mem (s : State) (f : TrunkLine → TrunkLine) :
    (s.updLine f).mem = s.mem := rfl
@[simp] theorem State.updLine_pending (s : State) (f : TrunkLine → TrunkLine) :
    (s.updLine f).pending = s.pending := rfl

/-! ### updHoming -/

@[simp] theorem State.updHoming_resetHeld (s : State) (f : Homing → Homing) :
    (s.updHoming f).resetHeld = s.resetHeld := rfl
@[simp] theorem State.updHoming_rx (s : State) (f : Homing → Homing) :
    (s.updHoming f).rx = s.rx := rfl
@[simp] theorem State.updHoming_flow (s : State) (f : Homing → Homing) :
    (s.updHoming f).flow = s.flow := rfl
@[simp] theorem State.updHoming_line (s : State) (f : Homing → Homing) :
    (s.updHoming f).line = s.line := rfl
@[simp] theorem State.updHoming_homing (s : State) (f : Homing → Homing) :
    (s.updHoming f).homing = f s.homing := rfl
@[simp] theorem State.updHoming_round (s : State) (f : Homing → Homing) :
    (s.updHoming f).round = s.round := rfl
@[simp] theorem State.updHoming_timing (s : State) (f : Homing → Homing) :
    (s.updHoming f).timing = s.timing := rfl
@[simp] theorem State.updHoming_alloc (s : State) (f : Homing → Homing) :
    (s.updHoming f).alloc = s.alloc := rfl
@[simp] theorem State.updHoming_calls (s : State) (f : Homing → Homing) :
    (s.updHoming f).calls = s.calls := rfl
@[simp] theorem State.updHoming_ports (s : State) (f : Homing → Homing) :
    (s.updHoming f).ports = s.ports := rfl
@[simp] theorem State.updHoming_merged (s : State) (f : Homing → Homing) :
    (s.updHoming f).merged = s.merged := rfl
@[simp] theorem State.updHoming_chans (s : State) (f : Homing → Homing) :
    (s.updHoming f).chans = s.chans := rfl
@[simp] theorem State.updHoming_filter (s : State) (f : Homing → Homing) :
    (s.updHoming f).filter = s.filter := rfl
@[simp] theorem State.updHoming_link (s : State) (f : Homing → Homing) :
    (s.updHoming f).link = s.link := rfl
@[simp] theorem State.updHoming_mem (s : State) (f : Homing → Homing) :
    (s.updHoming f).mem = s.mem := rfl
@[simp] theorem State.updHoming_pending (s : State) (f : Homing → Homing) :
    (s.updHoming f).pending = s.pending := rfl

/-! ### updRound -/

@[simp] theorem State.updRound_resetHeld (s : State) (f : RoundUnit → RoundUnit) :
    (s.updRound f).resetHeld = s.resetHeld := rfl
@[simp] theorem State.updRound_rx (s : State) (f : RoundUnit → RoundUnit) :
    (s.updRound f).rx = s.rx := rfl
@[simp] theorem State.updRound_flow (s : State) (f : RoundUnit → RoundUnit) :
    (s.updRound f).flow = s.flow := rfl
@[simp] theorem State.updRound_line (s : State) (f : RoundUnit → RoundUnit) :
    (s.updRound f).line = s.line := rfl
@[simp] theorem State.updRound_homing (s : State) (f : RoundUnit → RoundUnit) :
    (s.updRound f).homing = s.homing := rfl
@[simp] theorem State.updRound_round (s : State) (f : RoundUnit → RoundUnit) :
    (s.updRound f).round = f s.round := rfl
@[simp] theorem State.updRound_timing (s : State) (f : RoundUnit → RoundUnit) :
    (s.updRound f).timing = s.timing := rfl
@[simp] theorem State.updRound_alloc (s : State) (f : RoundUnit → RoundUnit) :
    (s.updRound f).alloc = s.alloc := rfl
@[simp] theorem State.updRound_calls (s : State) (f : RoundUnit → RoundUnit) :
    (s.updRound f).calls = s.calls := rfl
@[simp] theorem State.updRound_ports (s : State) (f : RoundUnit → RoundUnit) :
    (s.updRound f).ports = s.ports := rfl
@[simp] theorem State.updRound_merged (s : State) (f : RoundUnit → RoundUnit) :
    (s.updRound f).merged = s.merged := rfl
@[simp] theorem State.updRound_chans (s : State) (f : RoundUnit → RoundUnit) :
    (s.updRound f).chans = s.chans := rfl
@[simp] theorem State.updRound_filter (s : State) (f : RoundUnit → RoundUnit) :
    (s.updRound f).filter = s.filter := rfl
@[simp] theorem State.updRound_link (s : State) (f : RoundUnit → RoundUnit) :
    (s.updRound f).link = s.link := rfl
@[simp] theorem State.updRound_mem (s : State) (f : RoundUnit → RoundUnit) :
    (s.updRound f).mem = s.mem := rfl
@[simp] theorem State.updRound_pending (s : State) (f : RoundUnit → RoundUnit) :
    (s.updRound f).pending = s.pending := rfl

/-! ### updTiming -/

@[simp] theorem State.updTiming_resetHeld (s : State) (f : Timing → Timing) :
    (s.updTiming f).resetHeld = s.resetHeld := rfl
@[simp] theorem State.updTiming_rx (s : State) (f : Timing → Timing) :
    (s.updTiming f).rx = s.rx := rfl
@[simp] theorem State.updTiming_flow (s : State) (f : Timing → Timing) :
    (s.updTiming f).flow = s.flow := rfl
@[simp] theorem State.updTiming_line (s : State) (f : Timing → Timing) :
    (s.updTiming f).line = s.line := rfl
@[simp] theorem State.updTiming_homing (s : State) (f : Timing → Timing) :
    (s.updTiming f).homing = s.homing := rfl
@[simp] theorem State.updTiming_round (s : State) (f : Timing → Timing) :
    (s.updTiming f).round = s.round := rfl
@[simp] theorem State.updTiming_timing (s : State) (f : Timing → Timing) :
    (s.updTiming f).timing = f s.timing := rfl
@[simp] theorem State.updTiming_alloc (s : State) (f : Timing → Timing) :
    (s.updTiming f).alloc = s.alloc := rfl
@[simp] theorem State.updTiming_calls (s : State) (f : Timing → Timing) :
    (s.updTiming f).calls = s.calls := rfl
@[simp] theorem State.updTiming_ports (s : State) (f : Timing → Timing) :
    (s.updTiming f).ports = s.ports := rfl
@[simp] theorem State.updTiming_merged (s : State) (f : Timing → Timing) :
    (s.updTiming f).merged = s.merged := rfl
@[simp] theorem State.updTiming_chans (s : State) (f : Timing → Timing) :
    (s.updTiming f).chans = s.chans := rfl
@[simp] theorem State.updTiming_filter (s : State) (f : Timing → Timing) :
    (s.updTiming f).filter = s.filter := rfl
@[simp] theorem State.updTiming_link (s : State) (f : Timing → Timing) :
    (s.updTiming f).link = s.link := rfl
@[simp] theorem State.updTiming_mem (s : State) (f : Timing → Timing) :
    (s.updTiming f).mem = s.mem := rfl
@[simp] theorem State.updTiming_pending (s : State) (f : Timing → Timing) :
    (s.updTiming f).pending = s.pending := rfl

/-! ### updAlloc -/

@[simp] theorem State.updAlloc_resetHeld (s : State) (f : Allocator → Allocator) :
    (s.updAlloc f).resetHeld = s.resetHeld := rfl
@[simp] theorem State.updAlloc_rx (s : State) (f : Allocator → Allocator) :
    (s.updAlloc f).rx = s.rx := rfl
@[simp] theorem State.updAlloc_flow (s : State) (f : Allocator → Allocator) :
    (s.updAlloc f).flow = s.flow := rfl
@[simp] theorem State.updAlloc_line (s : State) (f : Allocator → Allocator) :
    (s.updAlloc f).line = s.line := rfl
@[simp] theorem State.updAlloc_homing (s : State) (f : Allocator → Allocator) :
    (s.updAlloc f).homing = s.homing := rfl
@[simp] theorem State.updAlloc_round (s : State) (f : Allocator → Allocator) :
    (s.updAlloc f).round = s.round := rfl
@[simp] theorem State.updAlloc_timing (s : State) (f : Allocator → Allocator) :
    (s.updAlloc f).timing = s.timing := rfl
@[simp] theorem State.updAlloc_alloc (s : State) (f : Allocator → Allocator) :
    (s.updAlloc f).alloc = f s.alloc := rfl
@[simp] theorem State.updAlloc_calls (s : State) (f : Allocator → Allocator) :
    (s.updAlloc f).calls = s.calls := rfl
@[simp] theorem State.updAlloc_ports (s : State) (f : Allocator → Allocator) :
    (s.updAlloc f).ports = s.ports := rfl
@[simp] theorem State.updAlloc_merged (s : State) (f : Allocator → Allocator) :
    (s.updAlloc f).merged = s.merged := rfl
@[simp] theorem State.updAlloc_chans (s : State) (f : Allocator → Allocator) :
    (s.updAlloc f).chans = s.chans := rfl
@[simp] theorem State.updAlloc_filter (s : State) (f : Allocator → Allocator) :
    (s.updAlloc f).filter = s.filter := rfl
@[simp] theorem State.updAlloc_link (s : State) (f : Allocator → Allocator) :
    (s.updAlloc f).link = s.link := rfl
@[simp] theorem State.updAlloc_mem (s : State) (f : Allocator → Allocator) :
    (s.updAlloc f).mem = s.mem := rfl
@[simp] theorem State.updAlloc_pending (s : State) (f : Allocator → Allocator) :
    (s.updAlloc f).pending = s.pending := rfl

/-! ### updCall -/

@[simp] theorem State.updCall_resetHeld (s : State) (p : PortNo) (f : CallPoint → CallPoint) :
    (s.updCall p f).resetHeld = s.resetHeld := rfl
@[simp] theorem State.updCall_rx (s : State) (p : PortNo) (f : CallPoint → CallPoint) :
    (s.updCall p f).rx = s.rx := rfl
@[simp] theorem State.updCall_flow (s : State) (p : PortNo) (f : CallPoint → CallPoint) :
    (s.updCall p f).flow = s.flow := rfl
@[simp] theorem State.updCall_line (s : State) (p : PortNo) (f : CallPoint → CallPoint) :
    (s.updCall p f).line = s.line := rfl
@[simp] theorem State.updCall_homing (s : State) (p : PortNo) (f : CallPoint → CallPoint) :
    (s.updCall p f).homing = s.homing := rfl
@[simp] theorem State.updCall_round (s : State) (p : PortNo) (f : CallPoint → CallPoint) :
    (s.updCall p f).round = s.round := rfl
@[simp] theorem State.updCall_timing (s : State) (p : PortNo) (f : CallPoint → CallPoint) :
    (s.updCall p f).timing = s.timing := rfl
@[simp] theorem State.updCall_alloc (s : State) (p : PortNo) (f : CallPoint → CallPoint) :
    (s.updCall p f).alloc = s.alloc := rfl
@[simp] theorem State.updCall_calls (s : State) (p : PortNo) (f : CallPoint → CallPoint) :
    (s.updCall p f).calls = s.calls.set p (f s.calls[p]) := rfl
@[simp] theorem State.updCall_ports (s : State) (p : PortNo) (f : CallPoint → CallPoint) :
    (s.updCall p f).ports = s.ports := rfl
@[simp] theorem State.updCall_merged (s : State) (p : PortNo) (f : CallPoint → CallPoint) :
    (s.updCall p f).merged = s.merged := rfl
@[simp] theorem State.updCall_chans (s : State) (p : PortNo) (f : CallPoint → CallPoint) :
    (s.updCall p f).chans = s.chans := rfl
@[simp] theorem State.updCall_filter (s : State) (p : PortNo) (f : CallPoint → CallPoint) :
    (s.updCall p f).filter = s.filter := rfl
@[simp] theorem State.updCall_link (s : State) (p : PortNo) (f : CallPoint → CallPoint) :
    (s.updCall p f).link = s.link := rfl
@[simp] theorem State.updCall_mem (s : State) (p : PortNo) (f : CallPoint → CallPoint) :
    (s.updCall p f).mem = s.mem := rfl
@[simp] theorem State.updCall_pending (s : State) (p : PortNo) (f : CallPoint → CallPoint) :
    (s.updCall p f).pending = s.pending := rfl

/-! ### updPort -/

@[simp] theorem State.updPort_resetHeld (s : State) (p : PortNo) (f : Port → Port) :
    (s.updPort p f).resetHeld = s.resetHeld := rfl
@[simp] theorem State.updPort_rx (s : State) (p : PortNo) (f : Port → Port) :
    (s.updPort p f).rx = s.rx := rfl
@[simp] theorem State.updPort_flow (s : State) (p : PortNo) (f : Port → Port) :
    (s.updPort p f).flow = s.flow := rfl
@[simp] theorem State.updPort_line (s : State) (p : PortNo) (f : Port → Port) :
    (s.updPort p f).line = s.line := rfl
@[simp] theorem State.updPort_homing (s : State) (p : PortNo) (f : Port → Port) :
    (s.updPort p f).homing = s.homing := rfl
@[simp] theorem State.updPort_round (s : State) (p : PortNo) (f : Port → Port) :
    (s.updPort p f).round = s.round := rfl
@[simp] theorem State.updPort_timing (s : State) (p : PortNo) (f : Port → Port) :
    (s.updPort p f).timing = s.timing := rfl
@[simp] theorem State.updPort_alloc (s : State) (p : PortNo) (f : Port → Port) :
    (s.updPort p f).alloc = s.alloc := rfl
@[simp] theorem State.updPort_calls (s : State) (p : PortNo) (f : Port → Port) :
    (s.updPort p f).calls = s.calls := rfl
@[simp] theorem State.updPort_ports (s : State) (p : PortNo) (f : Port → Port) :
    (s.updPort p f).ports = s.ports.set p (f s.ports[p]) := rfl
@[simp] theorem State.updPort_merged (s : State) (p : PortNo) (f : Port → Port) :
    (s.updPort p f).merged = s.merged := rfl
@[simp] theorem State.updPort_chans (s : State) (p : PortNo) (f : Port → Port) :
    (s.updPort p f).chans = s.chans := rfl
@[simp] theorem State.updPort_filter (s : State) (p : PortNo) (f : Port → Port) :
    (s.updPort p f).filter = s.filter := rfl
@[simp] theorem State.updPort_link (s : State) (p : PortNo) (f : Port → Port) :
    (s.updPort p f).link = s.link := rfl
@[simp] theorem State.updPort_mem (s : State) (p : PortNo) (f : Port → Port) :
    (s.updPort p f).mem = s.mem := rfl
@[simp] theorem State.updPort_pending (s : State) (p : PortNo) (f : Port → Port) :
    (s.updPort p f).pending = s.pending := rfl

/-! ### updChan -/

@[simp] theorem State.updChan_resetHeld (s : State) (k : ChanNo) (f : Channel → Channel) :
    (s.updChan k f).resetHeld = s.resetHeld := rfl
@[simp] theorem State.updChan_rx (s : State) (k : ChanNo) (f : Channel → Channel) :
    (s.updChan k f).rx = s.rx := rfl
@[simp] theorem State.updChan_flow (s : State) (k : ChanNo) (f : Channel → Channel) :
    (s.updChan k f).flow = s.flow := rfl
@[simp] theorem State.updChan_line (s : State) (k : ChanNo) (f : Channel → Channel) :
    (s.updChan k f).line = s.line := rfl
@[simp] theorem State.updChan_homing (s : State) (k : ChanNo) (f : Channel → Channel) :
    (s.updChan k f).homing = s.homing := rfl
@[simp] theorem State.updChan_round (s : State) (k : ChanNo) (f : Channel → Channel) :
    (s.updChan k f).round = s.round := rfl
@[simp] theorem State.updChan_timing (s : State) (k : ChanNo) (f : Channel → Channel) :
    (s.updChan k f).timing = s.timing := rfl
@[simp] theorem State.updChan_alloc (s : State) (k : ChanNo) (f : Channel → Channel) :
    (s.updChan k f).alloc = s.alloc := rfl
@[simp] theorem State.updChan_calls (s : State) (k : ChanNo) (f : Channel → Channel) :
    (s.updChan k f).calls = s.calls := rfl
@[simp] theorem State.updChan_ports (s : State) (k : ChanNo) (f : Channel → Channel) :
    (s.updChan k f).ports = s.ports := rfl
@[simp] theorem State.updChan_merged (s : State) (k : ChanNo) (f : Channel → Channel) :
    (s.updChan k f).merged = s.merged := rfl
@[simp] theorem State.updChan_chans (s : State) (k : ChanNo) (f : Channel → Channel) :
    (s.updChan k f).chans = s.chans.set k (f s.chans[k]) := rfl
@[simp] theorem State.updChan_filter (s : State) (k : ChanNo) (f : Channel → Channel) :
    (s.updChan k f).filter = s.filter := rfl
@[simp] theorem State.updChan_link (s : State) (k : ChanNo) (f : Channel → Channel) :
    (s.updChan k f).link = s.link := rfl
@[simp] theorem State.updChan_mem (s : State) (k : ChanNo) (f : Channel → Channel) :
    (s.updChan k f).mem = s.mem := rfl
@[simp] theorem State.updChan_pending (s : State) (k : ChanNo) (f : Channel → Channel) :
    (s.updChan k f).pending = s.pending := rfl

/-! ### updFilter -/

@[simp] theorem State.updFilter_resetHeld (s : State) (f : Filter → Filter) :
    (s.updFilter f).resetHeld = s.resetHeld := rfl
@[simp] theorem State.updFilter_rx (s : State) (f : Filter → Filter) :
    (s.updFilter f).rx = s.rx := rfl
@[simp] theorem State.updFilter_flow (s : State) (f : Filter → Filter) :
    (s.updFilter f).flow = s.flow := rfl
@[simp] theorem State.updFilter_line (s : State) (f : Filter → Filter) :
    (s.updFilter f).line = s.line := rfl
@[simp] theorem State.updFilter_homing (s : State) (f : Filter → Filter) :
    (s.updFilter f).homing = s.homing := rfl
@[simp] theorem State.updFilter_round (s : State) (f : Filter → Filter) :
    (s.updFilter f).round = s.round := rfl
@[simp] theorem State.updFilter_timing (s : State) (f : Filter → Filter) :
    (s.updFilter f).timing = s.timing := rfl
@[simp] theorem State.updFilter_alloc (s : State) (f : Filter → Filter) :
    (s.updFilter f).alloc = s.alloc := rfl
@[simp] theorem State.updFilter_calls (s : State) (f : Filter → Filter) :
    (s.updFilter f).calls = s.calls := rfl
@[simp] theorem State.updFilter_ports (s : State) (f : Filter → Filter) :
    (s.updFilter f).ports = s.ports := rfl
@[simp] theorem State.updFilter_merged (s : State) (f : Filter → Filter) :
    (s.updFilter f).merged = s.merged := rfl
@[simp] theorem State.updFilter_chans (s : State) (f : Filter → Filter) :
    (s.updFilter f).chans = s.chans := rfl
@[simp] theorem State.updFilter_filter (s : State) (f : Filter → Filter) :
    (s.updFilter f).filter = f s.filter := rfl
@[simp] theorem State.updFilter_link (s : State) (f : Filter → Filter) :
    (s.updFilter f).link = s.link := rfl
@[simp] theorem State.updFilter_mem (s : State) (f : Filter → Filter) :
    (s.updFilter f).mem = s.mem := rfl
@[simp] theorem State.updFilter_pending (s : State) (f : Filter → Filter) :
    (s.updFilter f).pending = s.pending := rfl

/-! ### updLink -/

@[simp] theorem State.updLink_resetHeld (s : State) (f : Link → Link) :
    (s.updLink f).resetHeld = s.resetHeld := rfl
@[simp] theorem State.updLink_rx (s : State) (f : Link → Link) :
    (s.updLink f).rx = s.rx := rfl
@[simp] theorem State.updLink_flow (s : State) (f : Link → Link) :
    (s.updLink f).flow = s.flow := rfl
@[simp] theorem State.updLink_line (s : State) (f : Link → Link) :
    (s.updLink f).line = s.line := rfl
@[simp] theorem State.updLink_homing (s : State) (f : Link → Link) :
    (s.updLink f).homing = s.homing := rfl
@[simp] theorem State.updLink_round (s : State) (f : Link → Link) :
    (s.updLink f).round = s.round := rfl
@[simp] theorem State.updLink_timing (s : State) (f : Link → Link) :
    (s.updLink f).timing = s.timing := rfl
@[simp] theorem State.updLink_alloc (s : State) (f : Link → Link) :
    (s.updLink f).alloc = s.alloc := rfl
@[simp] theorem State.updLink_calls (s : State) (f : Link → Link) :
    (s.updLink f).calls = s.calls := rfl
@[simp] theorem State.updLink_ports (s : State) (f : Link → Link) :
    (s.updLink f).ports = s.ports := rfl
@[simp] theorem State.updLink_merged (s : State) (f : Link → Link) :
    (s.updLink f).merged = s.merged := rfl
@[simp] theorem State.updLink_chans (s : State) (f : Link → Link) :
    (s.updLink f).chans = s.chans := rfl
@[simp] theorem State.updLink_filter (s : State) (f : Link → Link) :
    (s.updLink f).filter = s.filter := rfl
@[simp] theorem State.updLink_link (s : State) (f : Link → Link) :
    (s.updLink f).link = f s.link := rfl
@[simp] theorem State.updLink_mem (s : State) (f : Link → Link) :
    (s.updLink f).mem = s.mem := rfl
@[simp] theorem State.updLink_pending (s : State) (f : Link → Link) :
    (s.updLink f).pending = s.pending := rfl

/-! ### withPending -/

@[simp] theorem State.withPending_resetHeld (s : State) (q : List Instr) :
    (s.withPending q).resetHeld = s.resetHeld := rfl
@[simp] theorem State.withPending_rx (s : State) (q : List Instr) :
    (s.withPending q).rx = s.rx := rfl
@[simp] theorem State.withPending_flow (s : State) (q : List Instr) :
    (s.withPending q).flow = s.flow := rfl
@[simp] theorem State.withPending_line (s : State) (q : List Instr) :
    (s.withPending q).line = s.line := rfl
@[simp] theorem State.withPending_homing (s : State) (q : List Instr) :
    (s.withPending q).homing = s.homing := rfl
@[simp] theorem State.withPending_round (s : State) (q : List Instr) :
    (s.withPending q).round = s.round := rfl
@[simp] theorem State.withPending_timing (s : State) (q : List Instr) :
    (s.withPending q).timing = s.timing := rfl
@[simp] theorem State.withPending_alloc (s : State) (q : List Instr) :
    (s.withPending q).alloc = s.alloc := rfl
@[simp] theorem State.withPending_calls (s : State) (q : List Instr) :
    (s.withPending q).calls = s.calls := rfl
@[simp] theorem State.withPending_ports (s : State) (q : List Instr) :
    (s.withPending q).ports = s.ports := rfl
@[simp] theorem State.withPending_merged (s : State) (q : List Instr) :
    (s.withPending q).merged = s.merged := rfl
@[simp] theorem State.withPending_chans (s : State) (q : List Instr) :
    (s.withPending q).chans = s.chans := rfl
@[simp] theorem State.withPending_filter (s : State) (q : List Instr) :
    (s.withPending q).filter = s.filter := rfl
@[simp] theorem State.withPending_link (s : State) (q : List Instr) :
    (s.withPending q).link = s.link := rfl
@[simp] theorem State.withPending_mem (s : State) (q : List Instr) :
    (s.withPending q).mem = s.mem := rfl
@[simp] theorem State.withPending_pending (s : State) (q : List Instr) :
    (s.withPending q).pending = q := rfl

/-! ### Vectors of records -/

@[simp] theorem calls_updCall_same (s : State) (p : PortNo) (f : CallPoint → CallPoint) :
    (s.updCall p f).calls[p] = f s.calls[p] := by simp [State.updCall]
theorem calls_updCall_of_ne (s : State) {p q : PortNo} (f : CallPoint → CallPoint) (h : q ≠ p) :
    (s.updCall p f).calls[q] = s.calls[q] := by
  have : (p : Nat) ≠ q := fun e => h (Fin.ext e.symm)
  simp [State.updCall, Vector.getElem_set_ne _ _ this]
@[simp] theorem ports_updPort_same (s : State) (p : PortNo) (f : Port → Port) :
    (s.updPort p f).ports[p] = f s.ports[p] := by simp [State.updPort]
theorem ports_updPort_of_ne (s : State) {p q : PortNo} (f : Port → Port) (h : q ≠ p) :
    (s.updPort p f).ports[q] = s.ports[q] := by
  have : (p : Nat) ≠ q := fun e => h (Fin.ext e.symm)
  simp [State.updPort, Vector.getElem_set_ne _ _ this]
@[simp] theorem chans_updChan_same (s : State) (k : ChanNo) (f : Channel → Channel) :
    (s.updChan k f).chans[k] = f s.chans[k] := by simp [State.updChan]
theorem chans_updChan_of_ne (s : State) {k j : ChanNo} (f : Channel → Channel) (h : j ≠ k) :
    (s.updChan k f).chans[j] = s.chans[j] := by
  have : (k : Nat) ≠ j := fun e => h (Fin.ext e.symm)
  simp [State.updChan, Vector.getElem_set_ne _ _ this]

/-! ### Reads of one side after a write -/

@[simp] theorem rx_updRx_same (s : State) (x : Side) (f : Receiver → Receiver) :
    (s.updRx x f).rx.get x = f (s.rx.get x) := by simp
@[simp] theorem flow_updFlow_same (s : State) (x : Side) (f : Flow → Flow) :
    (s.updFlow x f).flow.get x = f (s.flow.get x) := by simp

end Sys2Proof.Machine
end

