-- ==== Sys2Proof/Laws/Keeps.lean ====
section
/-! SUPPORT. What the lane allocator and the call unit can do, said once: any property that their few updates keep is
kept by every one of their operations. The frame of an operation is the case of a property that reads only what the
updates do not touch. -/

namespace Sys2Proof.Machine

/-- A channel record with the settings and the blocks of another. -/
structure Channel.sameArea (c d : Channel) : Prop where
  set : d.set = c.set
  inBlocks : chainBlocks d.inChain = chainBlocks c.inChain
  outBlocks : chainBlocks d.outChain = chainBlocks c.outChain

/-- The updates of the lane allocator, the call unit and the notice queue. The lanes of the owned-lane table, the
listen list, the incident floor's and the host floor's places in the table, a call point's hook and level and a
channel's settings are left alone by each. -/
structure Keeps (P : State → Prop) : Prop where
  raise : ∀ {s : State} (src : Source) (m : Nat), P s → P (raise src m s)
  round : ∀ {s : State} (f : RoundUnit → RoundUnit), P s → P (s.updRound f)
  alloc : ∀ {s : State} (f : Allocator → Allocator),
    (∀ a, (f a).owned.map Entry.lane = a.owned.map Entry.lane ∧ (f a).listen = a.listen) → P s → P (s.updAlloc f)
  call : ∀ {s : State} (p : PortNo) (f : CallPoint → CallPoint),
    (∀ c, (f c).offHook = c.offHook ∧ (f c).level = c.level) → P s → P (s.updCall p f)
  chan : ∀ {s : State} (k : ChanNo) (f : Channel → Channel), Channel.sameArea s.chans[k] (f s.chans[k]) → P s →
    P (s.updChan k f)

variable {P : State → Prop} {s : State}

/-- A property kept by each pass of a loop is kept by the loop. -/
theorem keeps_foldl {α : Type} {f : State → α → State} (h : ∀ s a, P s → P (f s a)) (l : List α) (hs : P s) :
    P (l.foldl f s) := by
  induction l generalizing s with
  | nil => exact hs
  | cons a l ih => exact ih (h s a hs)

/-- The same where each pass is known to act on a member of the list. -/
theorem keeps_foldl_mem {α : Type} {f : State → α → State} (l : List α) (h : ∀ s, ∀ a ∈ l, P s → P (f s a))
    (hs : P s) : P (l.foldl f s) := by
  induction l generalizing s with
  | nil => exact hs
  | cons a l ih => exact ih (fun s b hb => h s b (List.mem_cons_of_mem _ hb)) (h s a List.mem_cons_self hs)

/-- A property that both branches keep is kept by the choice. -/
theorem keeps_ite {c : Prop} [Decidable c] {a b : State} (ha : P a) (hb : P b) : P (if c then a else b) := by
  split
  · exact ha
  · exact hb

/-- The same with what each branch may suppose. -/
theorem keeps_dite {c : Prop} [Decidable c] {a b : State} (ha : c → P a) (hb : ¬ c → P b) : P (if c then a else b) := by
  split
  · exact ha ‹_›
  · exact hb ‹_›

/-- A move that is to be followed up leaves the lane out of every committed width (R88, R89). -/
theorem Entry.uncommitted_of_followsUp {e : Entry} (he : e.followsUp = true) (k : ChanNo) : e.committedTo k = false := by
  unfold Entry.followsUp at he
  unfold Entry.committedTo
  split at he
  · simp [*]
  · cases he

namespace Keeps

variable (h : Keeps P)
include h

/-! ### The notice queue and the call unit's part of moves -/

theorem queueLane (lane : Nat) (u : Use) (hs : P s) : P (queueLane lane u s) := h.round _ hs

theorem queueCall (p : PortNo) (e : CallEvent) (hs : P s) : P (queueCall p e s) := h.round _ hs

theorem sendAnswered (p : PortNo) (hs : P s) : P (sendAnswered p s) := h.raise _ _ (h.queueCall _ _ hs)

theorem sendDown (p : PortNo) (c : ClearCause) (hs : P s) : P (sendDown p c s) := h.raise _ _ (h.queueCall _ _ hs)

theorem enterCallState (p : PortNo) (st : CallState) (hs : P s) : P (enterCallState p st s) :=
  h.raise _ _ (h.call _ _ (fun _ => ⟨rfl, rfl⟩) hs)

theorem endCall (p : PortNo) (hs : P s) : P (endCall p s) :=
  h.enterCallState _ _ (h.call _ _ (fun _ => ⟨rfl, rfl⟩) hs)

theorem callGranted (p : PortNo) (lane : Nat) (hs : P s) : P (callGranted p lane s) :=
  h.enterCallState _ _ (h.call _ _ (fun _ => ⟨rfl, rfl⟩) hs)

theorem callArrived (p : PortNo) (hs : P s) : P (callArrived p s) := by
  unfold Machine.callArrived
  dsimp only
  split
  · split
    · exact h.sendAnswered _ (h.enterCallState _ _ hs)
    · exact h.enterCallState _ _ hs
  · split
    · exact h.sendAnswered _ (h.enterCallState _ _ hs)
    · exact h.enterCallState _ _ hs
  · exact hs

theorem callDeparted (p : PortNo) (hs : P s) : P (callDeparted p s) := by
  unfold Machine.callDeparted
  split
  · exact h.endCall _ hs
  · exact hs

/-! ### Moves -/

theorem updEntry (lane : Nat) (f : Entry → Entry) (hf : ∀ e, (f e).lane = e.lane) (hs : P s) :
    P (updEntry lane f s) := by
  refine h.alloc _ (fun a => ⟨?_, rfl⟩) hs
  simp only [List.map_map]
  refine List.map_congr_left fun e _ => ?_
  simp only [Function.comp]
  split
  · exact hf e
  · rfl

theorem createMove (lane : Nat) (u : Use) (hs : P s) : P (createMove lane u s) :=
  h.queueLane _ _ (h.updEntry _ _ (fun _ => rfl) hs)

theorem joinWaiting (p : PortNo) (level : Nat) (hs : P s) : P (joinWaiting p level s) :=
  h.alloc _ (fun _ => ⟨rfl, rfl⟩) hs

theorem leaveWaiting (p : PortNo) (hs : P s) : P (leaveWaiting p s) := h.alloc _ (fun _ => ⟨rfl, rfl⟩) hs

theorem grantWaiting (p : PortNo) (lane : Nat) (hs : P s) : P (grantWaiting p lane s) :=
  h.callGranted _ _ (h.createMove _ _ (h.leaveWaiting _ hs))

theorem walkEntries (l : List (PortNo × Nat)) (hs : P s) : P (walkEntries l s) := by
  induction l generalizing s with
  | nil => exact hs
  | cons w l ih =>
    unfold Machine.walkEntries
    split
    · exact hs
    · split
      · exact hs
      · exact ih (h.grantWaiting _ _ hs)

theorem walk (hs : P s) : P (walk s) := h.walkEntries _ hs

theorem assignLane (lane : Nat) (o : Option Use) (hs : P s) : P (assignLane lane o s) := by
  have toChannel : P (match regrower s with
      | some j => Machine.createMove lane (.channel j) s
      | none =>
        match o with
        | some u => Machine.createMove lane u s
        | none => s) := by
    split
    · exact h.createMove _ _ hs
    · split
      · exact h.createMove _ _ hs
      · exact hs
  unfold Machine.assignLane
  dsimp only
  split
  · exact toChannel
  · split
    · exact h.grantWaiting _ _ hs
    · exact toChannel

theorem offer (lane : Nat) (hs : P s) : P (offer lane s) := by
  unfold Machine.offer
  split
  · exact h.assignLane _ _ hs
  · exact hs

theorem sweep (hs : P s) : P (sweep s) := by
  refine keeps_foldl (fun _ _ hs => ?_) _ hs
  exact h.offer _ hs

theorem enterChanState (k : ChanNo) (st : ChanState) (hs : P s) : P (enterChanState k st s) :=
  h.raise _ _ (h.chan _ _ ⟨rfl, rfl, rfl⟩ hs)

theorem settleStopping (hs : P s) : P (settleStopping s) := by
  refine keeps_foldl (fun s k hs => ?_) _ hs
  dsimp only
  split
  · exact h.enterChanState _ _ (h.chan _ _ ⟨rfl, rfl, rfl⟩ hs)
  · exact hs

theorem withdraw (lane : Nat) (hs : P s) : P (withdraw lane s) := by
  unfold Machine.withdraw
  dsimp only
  apply h.settleStopping
  have h3 := h.raise .lane Mark.withdrawn
    (h.alloc (fun a => { a with withdrawn := a.withdrawn + 1#16 }) (fun _ => ⟨rfl, rfl⟩)
      (h.updEntry lane (fun e => { e with move := none }) (fun _ => rfl)
        (h.round (fun r => { r with queue := r.queue.filter fun i => !i.isLaneOf lane }) hs)))
  split
  · exact h.offer _ h3
  · split
    · exact h.walk h3
    · exact h.createMove _ _ h3
  · split
    · exact h.assignLane _ _ h3
    · exact h3

theorem markFollowUp (lane : Nat) (hs : P s) : P (markFollowUp lane s) := h.updEntry _ _ (fun _ => rfl) hs

theorem cancelMove (lane : Nat) (hs : P s) : P (cancelMove lane s) := by
  unfold Machine.cancelMove
  split
  · split
    · split
      · exact h.withdraw _ hs
      · exact h.markFollowUp _ hs
    · exact hs
  · exact hs

theorem releaseCall (p : PortNo) (lane : Nat) (hs : P s) : P (releaseCall p lane s) := by
  unfold Machine.releaseCall
  split
  · exact hs
  · split
    · split
      · exact h.assignLane _ _ hs
      · exact hs
    · split
      · exact h.cancelMove _ hs
      · exact hs

theorem applyMove (lane : Nat) (hs : P s) : P (applyMove lane s) := by
  unfold Machine.applyMove
  split
  · exact hs
  · split
    · exact hs
    · rename_i e he _ m hm
      dsimp only
      apply h.settleStopping
      have h2 := h.alloc (fun a => { a with applied := a.applied + 1#16 }) (fun _ => ⟨rfl, rfl⟩)
        (h.updEntry lane (fun e => { e with use := m.target, move := none }) (fun _ => rfl) hs)
      split
      · apply h.callArrived
        split
        · exact h.callDeparted _ h2
        · exact h2
      · split
        · exact h.callDeparted _ h2
        · exact h2

theorem afterMove (lane : Nat) (b : Bool) (hs : P s) : P (afterMove lane b s) := by
  unfold Machine.afterMove
  split
  · split
    · exact h.offer _ hs
    · split
      · exact h.createMove _ _ hs
      · split
        · exact hs
        · exact h.walk hs
    · split
      · exact h.assignLane _ _ hs
      · exact hs
  · exact hs

theorem completeMove (lane : Nat) (hs : P s) : P (completeMove lane s) :=
  h.afterMove _ _ (h.raise _ _ (h.applyMove _ hs))

theorem takeEffect (b : Bool) (c : Half) (lane : Nat) (hs : P s) : P (takeEffect b c lane s) := by
  unfold Machine.takeEffect
  split
  · exact hs
  · split
    · exact hs
    · split
      · exact hs
      · have h1 := fun m => h.updEntry lane (fun e => { e with move := some m }) (fun _ => rfl) hs
        have h2 := fun (m : Move) => h.completeMove lane (h1 m)
        rename_i m _ _ _ _
        by_cases hb : ((if b then m.tx else m.rx) || !reached c ‹Half›) = true
        · rw [if_pos hb]
          exact hs
        · rw [if_neg hb]
          dsimp only
          split
          · split
            · exact h2 _
            · exact h1 _
          · split
            · exact h2 _
            · exact h1 _

theorem effectsOnTransmit (hs : P s) : P (effectsOnTransmit s) := by
  refine keeps_foldl (fun _ _ hs => ?_) _ hs
  exact h.takeEffect _ _ _ hs

theorem effectsOnReceive (hs : P s) : P (effectsOnReceive s) := by
  refine keeps_foldl (fun _ _ hs => ?_) _ hs
  exact h.takeEffect _ _ _ hs

theorem applyAtHome (e : Entry) (hs : P s) : P (applyAtHome e s) :=
  keeps_ite (h.updEntry _ _ (fun _ => rfl) (h.applyMove _ hs)) (h.applyMove _ hs)

theorem afterHome (e : Entry) (hs : P s) : P (afterHome e s) :=
  h.afterMove _ _ (keeps_ite (h.updEntry _ _ (fun _ => rfl) hs) hs)

theorem applyAllMoves (hs : P s) : P (applyAllMoves s) := by
  have h1 := keeps_foldl (fun _ e hs => h.applyAtHome e hs) (s.alloc.owned.filter fun e => e.move.isSome) hs
  exact keeps_foldl (fun _ e hs => h.afterHome e hs) _ (keeps_ite h1 (h.raise _ _ h1))

/-! ### Grants, floors and sheds -/

theorem requestLane (p : PortNo) (level : Nat) (hs : P s) : P (requestLane p level s).1 := by
  unfold Machine.requestLane
  split
  · exact h.joinWaiting _ _ hs
  · split
    · exact h.createMove _ _ hs
    · exact h.raise _ _ (h.joinWaiting _ _ hs)

theorem shedQueued (k : ChanNo) (n : Nat) (hs : P s) : P (shedQueued k n s) := by
  induction n generalizing s with
  | zero => exact hs
  | succ n ih =>
    unfold Machine.shedQueued
    split
    · split
      · exact ih (h.withdraw _ hs)
      · exact hs
    · exact hs

theorem shedSent (k : ChanNo) (n : Nat) (hs : P s) : P (shedSent k n s) := by
  induction n generalizing s with
  | zero => exact hs
  | succ n ih =>
    unfold Machine.shedSent
    split
    · split
      · exact ih (h.markFollowUp _ hs)
      · exact hs
    · exact hs

theorem shedIdle (k : ChanNo) (n : Nat) (hs : P s) : P (shedIdle k n s) := by
  induction n generalizing s with
  | zero => exact hs
  | succ n ih =>
    unfold Machine.shedIdle
    split
    · split
      · exact ih (h.createMove _ _ hs)
      · exact hs
    · exact hs

theorem shedChannel (k : ChanNo) (hs : P s) : P (shedChannel k s) := by
  unfold Machine.shedChannel
  split
  · exact h.shedIdle _ _ (h.shedSent _ _ (h.shedQueued _ _ hs))
  · exact hs

theorem shed (hs : P s) : P (shed s) := by
  have ht : P (allChans.foldl (fun s k => Machine.shedChannel k s) s) :=
    keeps_foldl (fun _ k hs => h.shedChannel k hs) _ hs
  unfold Machine.shed
  dsimp only
  split
  · exact ht
  · exact h.raise _ _ ht

theorem noteFloor (old : Nat) (hs : P s) : P (noteFloor old s) := by
  unfold Machine.noteFloor
  split
  · exact hs
  · exact h.raise _ _ hs

theorem floorFallen (old : Nat) (hs : P s) : P (floorFallen old s) := by
  unfold Machine.floorFallen
  split
  · exact h.sweep (h.walk hs)
  · exact hs

theorem setIncident (b : Bool) (hs : P s) : P (setIncident b s) := by
  have h1 := h.noteFloor s.alloc.floor
    (h.alloc (fun a => { a with incident := b }) (fun _ => ⟨rfl, rfl⟩) hs)
  unfold Machine.setIncident
  dsimp only
  split
  · exact h.shed h1
  · exact h.floorFallen _ h1

theorem setIncidentFloor (v : Nat) (hs : P s) : P (setIncidentFloor v s) := by
  have h1 := h.noteFloor s.alloc.floor
    (h.alloc (fun a => { a with incidentFloor := clampNat v 0 6 }) (fun _ => ⟨rfl, rfl⟩) hs)
  unfold Machine.setIncidentFloor
  dsimp only
  split
  · split
    · exact h.shed h1
    · exact h.floorFallen _ h1
  · exact h1

theorem setHostFloor (v : Nat) (b : Bool) (hs : P s) : P (setHostFloor v b s) := by
  have h2 := h.floorFallen s.alloc.floor (h.noteFloor s.alloc.floor
    (h.alloc (fun a => { a with hostFloor := clampNat v 0 6 }) (fun _ => ⟨rfl, rfl⟩) hs))
  unfold Machine.setHostFloor
  dsimp only
  split
  · exact h.shed h2
  · exact h2

theorem startLanes (k : ChanNo) (hs : P s) : P (startLanes k s) :=
  by
  refine h.sweep (h.walk (keeps_foldl (fun _ _ hs => ?_) _ hs))
  exact h.createMove _ _ hs

theorem stopLane (k : ChanNo) (lane : Nat) (hs : P s) : P (stopLane k lane s) := by
  unfold Machine.stopLane
  split
  · exact hs
  · split
    · split
      · exact h.cancelMove _ hs
      · exact hs
    · split
      · exact h.createMove _ _ hs
      · exact hs

theorem stopLanes (k : ChanNo) (hs : P s) : P (stopLanes k s) :=
  by
  refine h.settleStopping (keeps_foldl (fun _ _ hs => ?_) _ hs)
  exact h.stopLane _ _ hs

/-! ### Calls -/

theorem placeCall (p : PortNo) (ring : Bool) (hs : P s) : P (placeCall p ring s) := by
  have h1 := h.requestLane p s.calls[p].level hs
  unfold Machine.placeCall
  dsimp only
  split
  · rename_i hr
    rw [hr] at h1
    exact h.enterCallState _ _ (h.call _ _ (fun _ => ⟨rfl, rfl⟩) h1)
  · rename_i hr
    rw [hr] at h1
    exact h.enterCallState _ _ (h.call _ _ (fun _ => ⟨rfl, rfl⟩) h1)

theorem clearCall (p : PortNo) (c : ClearCause) (hs : P s) : P (clearCall p c s) := by
  have h0 := h.call p (fun q => { q with cause := some c }) (fun _ => ⟨rfl, rfl⟩) hs
  have h1 := h.sendDown p c (h.enterCallState p .clearing h0)
  unfold Machine.clearCall
  dsimp only
  split
  · exact h.endCall _ h1
  · split
    · exact h.withdraw _ (h.endCall _ h0)
    · split
      · exact h.endCall _ (h.releaseCall _ _ h1)
      · exact h.releaseCall _ _ h1

theorem withdrawCall (p : PortNo) (c : ClearCause) (hs : P s) : P (withdrawCall p c s) :=
  h.enterCallState _ _ (h.call _ _ (fun _ => ⟨rfl, rfl⟩) (h.leaveWaiting _ hs))

theorem answerBusy (p : PortNo) (hs : P s) : P (answerBusy p s) := by
  unfold Machine.answerBusy
  apply h.raise
  split
  · exact hs
  · exact h.queueCall _ _ hs

theorem takeRing (p : PortNo) (hs : P s) : P (takeRing p s) := by
  unfold Machine.takeRing
  split
  · exact h.placeCall _ _ hs
  · exact h.call _ _ (fun _ => ⟨rfl, rfl⟩) hs
  · exact h.sendAnswered _ (h.enterCallState _ _ hs)
  · exact h.answerBusy _ hs

theorem takeAnswer (p : PortNo) (hs : P s) : P (takeAnswer p s) := by
  unfold Machine.takeAnswer
  split
  · exact h.enterCallState _ _ hs
  · exact hs

theorem takeClear (p : PortNo) (hs : P s) : P (takeClear p s) := by
  unfold Machine.takeClear
  dsimp only
  split
  · exact h.clearCall _ _ hs
  · split
    · exact h.withdrawCall _ _ hs
    · exact hs

theorem hostClear (p : PortNo) (hs : P s) : P (hostClear p s).1 := by
  unfold Machine.hostClear
  dsimp only
  split
  · dsimp only
    split
    · exact h.sendDown _ _ (h.withdrawCall _ _ hs)
    · exact h.withdrawCall _ _ hs
  · exact hs
  · exact hs
  · exact hs
  · exact h.clearCall _ _ hs

theorem countRings (l : List PortNo) (hs : P s) : P (countRings l s) := by
  refine keeps_foldl (fun s p hs => ?_) _ hs
  have h1 := h.call p (fun c => { c with ringTimer := c.ringTimer - 1 }) (fun _ => ⟨rfl, rfl⟩) hs
  dsimp only
  split
  · exact h.clearCall _ _ h1
  · exact h1

/-! ### The round message unit -/

theorem markSent (e : Half) (i : Item) (hs : P s) : P (markSent e s i) := by
  unfold Machine.markSent
  split
  · exact h.updEntry _ _ (fun _ => rfl) hs
  · exact hs

theorem judgeTurn (hs : P s) : P (judgeTurn s) := by
  unfold Machine.judgeTurn
  split
  · unfold Machine.buildTurn
    dsimp only
    split
    · exact h.round _ hs
    · exact keeps_foldl (fun _ _ hs => h.markSent _ _ hs) _ (h.round _ hs)
  · exact h.round _ hs

theorem takeNumbering (hs : P s) : P (takeNumbering s) := by
  unfold Machine.takeNumbering
  split
  · exact hs
  · exact h.round _ hs

theorem setReceivedCount (c : Half) (hs : P s) : P (setReceivedCount c s) := by
  unfold Machine.setReceivedCount
  split
  · exact hs
  · exact h.effectsOnReceive (h.round _ hs)

theorem riseReceivedCount (hs : P s) : P (riseReceivedCount s) := h.effectsOnReceive (h.round _ hs)

theorem adoptLocalCount (c : Half) (hs : P s) : P (adoptLocalCount c s) := by
  unfold Machine.adoptLocalCount
  split
  · exact hs
  · exact h.effectsOnTransmit (h.round _ hs)

theorem takeItem (m : List Byte) (o : Nat) (hs : P s) : P (takeItem m s o) := by
  unfold Machine.takeItem
  dsimp only
  split
  · split
    · exact h.round _ hs
    · split
      · exact hs
      · split
        · split
          · exact h.takeAnswer _ hs
          · split
            · exact h.takeClear _ hs
            · split
              · exact h.takeRing _ hs
              · exact hs
        · exact hs
  · exact hs

end Keeps

end Sys2Proof.Machine
end

