-- ==== Sys2Proof/Laws/Memory.lean ====
section
/-! SUPPORT. Frame memory: the canonical form is kept by every write, a read after a write, and what a chain of writes
can do. -/

namespace Sys2Proof.Machine

/-! ### The canonical form -/

theorem Memory.wfFrom_mono {low low' : Nat} {m : List Host.Cell} (hl : low' ≤ low) (h : Memory.wfFrom low m = true) :
    Memory.wfFrom low' m = true := by
  cases m with
  | nil => rfl
  | cons e rest =>
    obtain ⟨a, v⟩ := e
    simp only [Memory.wfFrom, Bool.and_eq_true, decide_eq_true_eq] at h ⊢
    exact ⟨⟨by omega, h.1.2⟩, h.2⟩

theorem Memory.wfFrom_write {low x : Nat} {v : Byte} {m : List Host.Cell} (hx : low ≤ x)
    (h : Memory.wfFrom low m = true) : Memory.wfFrom low (Memory.write m x v) = true := by
  induction m generalizing low with
  | nil =>
    unfold Memory.write
    split
    · rfl
    · rename_i hv
      simp [Memory.wfFrom, hx, hv]
  | cons e rest ih =>
    obtain ⟨a, w⟩ := e
    have hh := h
    simp only [Memory.wfFrom, Bool.and_eq_true, decide_eq_true_eq] at h
    unfold Memory.write
    split
    · rename_i hlt
      split
      · exact hh
      · rename_i hv
        simp only [Memory.wfFrom, Bool.and_eq_true, decide_eq_true_eq]
        exact ⟨⟨hx, by simpa using hv⟩, ⟨by omega, h.1.2⟩, h.2⟩
    · split
      · rename_i hne heq
        subst heq
        split
        · exact Memory.wfFrom_mono (by omega) h.2
        · rename_i hv
          simp only [Memory.wfFrom, Bool.and_eq_true, decide_eq_true_eq]
          exact ⟨⟨hx, by simpa using hv⟩, h.2⟩
      · rename_i hlt hne
        simp only [Memory.wfFrom, Bool.and_eq_true, decide_eq_true_eq]
        exact ⟨h.1, ih (by omega) h.2⟩

/-- A write keeps the canonical form. -/
theorem Memory.wf_write {m : List Host.Cell} (x : Nat) (v : Byte) (h : Memory.wf m = true) :
    Memory.wf (Memory.write m x v) = true := Memory.wfFrom_write (Nat.zero_le x) h

theorem Memory.wf_writeAll {m : List Host.Cell} (x : Nat) (vs : List Byte) (h : Memory.wf m = true) :
    Memory.wf (Memory.writeAll m x vs) = true := by
  induction vs generalizing m x with
  | nil => exact h
  | cons v vs ih => exact ih (x + 1) (Memory.wf_write x v h)

/-! ### Reads after writes -/

/-- An address below every listed one reads as unwritten. -/
theorem Memory.read_below {m : List Host.Cell} {low y : Nat} (h : Memory.wfFrom low m = true) (hy : y < low) :
    Memory.read m y = Config.unwritten := by
  induction m generalizing low with
  | nil => rfl
  | cons e rest ih =>
    obtain ⟨a, w⟩ := e
    simp only [Memory.wfFrom, Bool.and_eq_true, decide_eq_true_eq] at h
    unfold Memory.read
    rw [if_neg (by omega)]
    exact ih h.2 (by omega)

theorem Memory.read_write_from {m : List Host.Cell} {low : Nat} (x y : Nat) (v : Byte)
    (h : Memory.wfFrom low m = true) :
    Memory.read (Memory.write m x v) y = if y = x then v else Memory.read m y := by
  induction m generalizing low with
  | nil =>
    unfold Memory.write
    split
    · rename_i hv
      rw [hv]
      split <;> rfl
    · simp only [Memory.read]
      by_cases hyx : y = x
      · simp [hyx]
      · have : x ≠ y := fun e => hyx e.symm
        simp [hyx, this]
  | cons e rest ih =>
    obtain ⟨a, w⟩ := e
    simp only [Memory.wfFrom, Bool.and_eq_true, decide_eq_true_eq] at h
    have hrest : ∀ z, z ≤ a → Memory.read rest z = Config.unwritten := fun z hz => Memory.read_below h.2 (by omega)
    unfold Memory.write
    split
    · rename_i hlt
      split
      · rename_i hv
        by_cases hyx : y = x
        · have h1 : a ≠ y := by omega
          simp [Memory.read, hyx, hv, hrest x (by omega)]
          omega
        · simp [hyx]
      · by_cases hyx : y = x
        · simp [Memory.read, hyx]
        · have h1 : x ≠ y := fun e => hyx e.symm
          simp [Memory.read, hyx, h1]
    · split
      · rename_i hne heq
        subst heq
        split
        · rename_i hv
          by_cases hyx : y = x
          · simp [hyx, hv, hrest x (Nat.le_refl x)]
          · have h1 : x ≠ y := fun e => hyx e.symm
            simp [Memory.read, hyx, h1]
        · by_cases hyx : y = x
          · simp [Memory.read, hyx]
          · have h1 : x ≠ y := fun e => hyx e.symm
            simp [Memory.read, hyx, h1]
      · rename_i hlt hne
        simp only [Memory.read]
        split
        · rename_i hay
          have : y ≠ x := by omega
          simp [this]
        · exact ih h.2

/-- A read after a write gives the value written at its address and what stood there elsewhere. -/
theorem Memory.read_write {m : List Host.Cell} (x y : Nat) (v : Byte) (h : Memory.wf m = true) :
    Memory.read (Memory.write m x v) y = if y = x then v else Memory.read m y := Memory.read_write_from x y v h

/-- Bytes written one after another leave every address outside them alone. -/
theorem Memory.read_writeAll_outside {m : List Host.Cell} (x y : Nat) (vs : List Byte) (h : Memory.wf m = true)
    (hy : y < x ∨ x + vs.length ≤ y) : Memory.read (Memory.writeAll m x vs) y = Memory.read m y := by
  induction vs generalizing m x with
  | nil => rfl
  | cons v vs ih =>
    simp only [List.length_cons] at hy
    unfold Memory.writeAll
    rw [ih (x + 1) (Memory.wf_write x v h) (by omega), Memory.read_write x y v h, if_neg (by omega)]

/-- A read inside the bytes written gives the byte written there. -/
theorem Memory.read_writeAll_inside {m : List Host.Cell} (x i : Nat) (vs : List Byte) (h : Memory.wf m = true)
    (hi : i < vs.length) : Memory.read (Memory.writeAll m x vs) (x + i) = vs[i] := by
  induction vs generalizing m x i with
  | nil => simp at hi
  | cons v vs ih =>
    unfold Memory.writeAll
    cases i with
    | zero =>
      rw [Memory.read_writeAll_outside _ _ _ (Memory.wf_write x v h) (by omega), Memory.read_write _ _ _ h]
      simp
    | succ i =>
      have : x + (i + 1) = x + 1 + i := by omega
      rw [this, ih (x + 1) i (Memory.wf_write x v h) (by simpa using hi)]
      rfl

/-! ### What a chain of writes can do -/

/-- A memory that comes from another by single writes. -/
inductive Memory.Writes : List Host.Cell → List Host.Cell → Prop where
  | none (m : List Host.Cell) : Memory.Writes m m
  | one {m m' : List Host.Cell} (x : Nat) (v : Byte) (h : Memory.Writes m m') : Memory.Writes m (Memory.write m' x v)

theorem Memory.Writes.trans {m m' m'' : List Host.Cell} (h : Memory.Writes m m') (h' : Memory.Writes m' m'') :
    Memory.Writes m m'' := by
  induction h' with
  | none => exact h
  | one x v _ ih => exact .one x v ih

theorem Memory.writes_writeAll (m : List Host.Cell) (x : Nat) (vs : List Byte) :
    Memory.Writes m (Memory.writeAll m x vs) := by
  induction vs generalizing m x with
  | nil => exact .none m
  | cons v vs ih => exact .trans (.one x v (.none m)) (ih (Memory.write m x v) (x + 1))

theorem Memory.Writes.wf {m m' : List Host.Cell} (h : Memory.Writes m m') (hm : Memory.wf m = true) :
    Memory.wf m' = true := by
  induction h with
  | none => exact hm
  | one x v _ ih => exact Memory.wf_write x v ih

theorem Chain.writes_writeRecord (c : Chain) (f : Frame) (m : List Host.Cell) :
    Memory.Writes m (c.writeRecord f m) := by
  unfold Chain.writeRecord
  split
  · exact Memory.writes_writeAll _ _ _
  · exact .none m

theorem Chain.open?_writes {c c' : Chain} {m m' : List Host.Cell} (h : c.open? m = some (c', m')) :
    Memory.Writes m m' := by
  unfold Chain.open? at h
  split at h
  · cases h
  · cases h
    exact Chain.writes_writeRecord _ _ _

theorem Chain.append?_writes {c c' : Chain} {b : Byte} {m m' : List Host.Cell} (h : c.append? b m = some (c', m')) :
    Memory.Writes m m' := by
  unfold Chain.append? at h
  split at h
  · cases h
  · dsimp only at h
    split at h
    · cases h
    · cases h
      exact .trans (.one _ _ (.none m)) (Chain.writes_writeRecord _ _ _)

/-! ### The blocks of a chain, which no writing and no release changes -/

theorem Chain.open?_blocks {c c' : Chain} {m m' : List Host.Cell} (h : c.open? m = some (c', m')) :
    c'.blocks = c.blocks := by
  unfold Chain.open? at h
  split at h
  · cases h
  · cases h
    rfl

theorem Chain.append?_blocks {c c' : Chain} {b : Byte} {m m' : List Host.Cell} (h : c.append? b m = some (c', m')) :
    c'.blocks = c.blocks := by
  unfold Chain.append? at h
  split at h
  · cases h
  · dsimp only at h
    split at h
    · cases h
    · cases h
      rfl

@[simp] theorem Chain.emptied_blocks (c : Chain) : c.emptied.blocks = c.blocks := rfl
@[simp] theorem Chain.finishOldest_blocks (c : Chain) : c.finishOldest.blocks = c.blocks := rfl
@[simp] theorem Chain.dropNewest_blocks (c : Chain) : c.dropNewest.blocks = c.blocks := by
  unfold Chain.dropNewest
  split <;> rfl
@[simp] theorem Chain.dropOldest_blocks (c : Chain) : c.dropOldest.blocks = c.blocks := by
  unfold Chain.dropOldest
  split
  · exact Chain.dropNewest_blocks c
  · rfl
@[simp] theorem Chain.updOldest_blocks (b : Bool) (g : Frame → Frame) (c : Chain) : (c.updOldest b g).blocks = c.blocks := by
  unfold Chain.updOldest
  split <;> rfl
@[simp] theorem chainBlocks_some (c : Chain) : chainBlocks (some c) = c.blocks := rfl
@[simp] theorem chainBlocks_map_emptied (o : Option Chain) : chainBlocks (o.map Chain.emptied) = chainBlocks o := by
  cases o <;> rfl

end Sys2Proof.Machine
end

