-- ==== Sys2Proof/Laws/KeepsPackets.lean ====
section
/-! SUPPORT. What the packet engine and the station filter can do, said once, as for the lane allocator: a property
that their updates keep is kept by every one of their operations. -/

namespace Sys2Proof.Machine

/-- The updates of the packet engine and the station filter. A channel's settings and the blocks of its chains, a port's
own setting, receive side and contact inputs, and the station table are left alone by each; frame memory changes by
single writes. -/
structure KeepsPackets (P : State → Prop) : Prop where
  raise : ∀ {s : State} (src : Source) (m : Nat), P s → P (raise src m s)
  chan : ∀ {s : State} (k : ChanNo) (f : Channel → Channel), Channel.sameArea s.chans[k] (f s.chans[k]) → P s →
    P (s.updChan k f)
  port : ∀ {s : State} (p : PortNo) (f : Port → Port),
    (∀ q, (f q).own = q.own ∧ (f q).rx = q.rx ∧ (f q).contacts = q.contacts) → P s → P (s.updPort p f)
  filter : ∀ {s : State} (f : Filter → Filter),
    (∀ x, (f x).capacity = x.capacity ∧ (f x).table = x.table ∧ (f x).update = x.update) → P s → P (s.updFilter f)
  mem : ∀ {s : State} (m : List Host.Cell), Memory.Writes s.mem m → P s → P { s with mem := m }

variable {P : State → Prop} {s : State}

namespace KeepsPackets

variable (h : KeepsPackets P)
include h

/-! ### Chains and the inbound writer -/

theorem countDiscard (k : ChanNo) (d : Discard) (hs : P s) : P (countDiscard k d s) :=
  h.raise _ _ (h.chan _ _ ⟨rfl, rfl, rfl⟩ hs)

theorem enterChanState (k : ChanNo) (st : ChanState) (hs : P s) : P (enterChanState k st s) :=
  h.raise _ _ (h.chan _ _ ⟨rfl, rfl, rfl⟩ hs)

theorem refreshReady (k : ChanNo) (hs : P s) : P (refreshReady k s) := by
  unfold Machine.refreshReady
  dsimp only
  split
  · exact hs
  · split
    · exact hs
    · split
      · split
        · exact hs
        · exact h.port _ _ (fun _ => ⟨rfl, rfl, rfl⟩) hs
      · exact h.port _ _ (fun _ => ⟨rfl, rfl, rfl⟩) hs

theorem setIn {k : ChanNo} {c : Chain} {m : List Host.Cell} (hc : c.blocks = chainBlocks s.chans[k].inChain)
    (hm : Memory.Writes s.mem m) (hs : P s) : P (setIn k c m s) :=
  h.refreshReady _ (h.mem (s := s.updChan k fun ch => { ch with inChain := some c }) m hm
    (h.chan _ _ ⟨rfl, hc, rfl⟩ hs))

theorem setOut {k : ChanNo} {c : Chain} {m : List Host.Cell} (hc : c.blocks = chainBlocks s.chans[k].outChain)
    (hm : Memory.Writes s.mem m) (hs : P s) : P (setOut k c m s) :=
  h.mem (s := s.updChan k fun ch => { ch with outChain := some c }) m hm (h.chan _ _ ⟨rfl, rfl, hc⟩ hs)

theorem oweAbort (k : ChanNo) (hs : P s) : P (oweAbort k s) := h.chan _ _ ⟨rfl, rfl, rfl⟩ hs

theorem setWriter (k : ChanNo) (w : WriterState) (hs : P s) : P (setWriter k w s) := h.chan _ _ ⟨rfl, rfl, rfl⟩ hs

theorem loseWriting (k : ChanNo) (hs : P s) : P (loseWriting k s) := by
  unfold Machine.loseWriting
  split
  · exact hs
  · rename_i hc
    have h1 := h.setIn (by rw [hc]; exact Chain.dropNewest_blocks _) (.none s.mem) hs
    exact keeps_ite (h.oweAbort _ h1) h1

theorem writeInbound (k : ChanNo) (b : Byte) (hs : P s) : P (writeInbound k b s) := by
  unfold Machine.writeInbound
  split
  · exact hs
  · rename_i hc
    split
    · rename_i ha
      exact h.setWriter _ _ (h.setIn (by rw [hc]; exact Chain.append?_blocks ha) (Chain.append?_writes ha) hs)
    · exact h.setWriter _ _ (h.countDiscard _ _ (h.loseWriting _ hs))

theorem writerByte (k : ChanNo) (b : Byte) (hs : P s) : P (writerByte k b s) := by
  unfold Machine.writerByte
  split
  · exact hs
  · exact h.writeInbound _ _ hs
  · split
    · exact hs
    · rename_i hc
      split
      · rename_i ha
        exact h.writeInbound _ _ (h.setIn (by rw [hc]; exact Chain.open?_blocks ha) (Chain.open?_writes ha) hs)
      · exact h.setWriter _ _ (h.countDiscard _ _ hs)

theorem writerDiscard (k : ChanNo) (o : Option Discard) (hs : P s) : P (writerDiscard k o s) := by
  have hc : P (match o with
      | none => s
      | some d => Machine.countDiscard k d s) := by
    split
    · exact hs
    · exact h.countDiscard _ _ hs
  unfold Machine.writerDiscard
  dsimp only
  split
  · exact h.setWriter _ _ hs
  · exact h.setWriter _ _ (h.loseWriting _ hc)
  · exact hc

theorem writerClose (k : ChanNo) (hs : P s) : P (writerClose k s) := by
  unfold Machine.writerClose
  split
  · rename_i hc
    split
    · exact h.setWriter _ _ hs
    · exact h.chan _ _ ⟨rfl, rfl, rfl⟩ (h.setIn (by rw [hc]; rfl) (Chain.writes_writeRecord _ _ _) hs)
  · exact h.setWriter _ _ hs

/-! ### Outbound frames -/

theorem abortOnPort (k : ChanNo) (hs : P s) : P (abortOnPort k s) := by
  unfold Machine.abortOnPort
  dsimp only
  split
  · exact hs
  · split
    · exact h.port _ _ (fun _ => ⟨rfl, rfl, rfl⟩) hs
    · exact hs

omit h in
theorem abortOnPort_chans (k : ChanNo) (s : State) : (Machine.abortOnPort k s).chans = s.chans := by
  unfold Machine.abortOnPort
  dsimp only
  split
  · rfl
  · split <;> rfl

theorem loseAssembled (k : ChanNo) (hs : P s) : P (loseAssembled k s) := by
  unfold Machine.loseAssembled
  split
  · exact hs
  · rename_i c hc
    have lost : ∀ b : Bool, P (Machine.setOut k c.dropNewest (if b then Machine.abortOnPort k s else s).mem
        (if b then Machine.abortOnPort k s else s)) := by
      intro b
      refine h.setOut ?_ (.none _) (keeps_ite (h.abortOnPort _ hs) hs)
      cases b <;> simp only [Bool.false_eq_true, if_false, if_true, abortOnPort_chans, hc, Chain.dropNewest_blocks, chainBlocks_some]
    exact lost _

theorem openOutbound (k : ChanNo) (hs : P s) : P (openOutbound k s).1 := by
  unfold Machine.openOutbound
  split
  · exact hs
  · rename_i hc
    split
    · rename_i ha
      exact h.setOut (by rw [hc]; exact Chain.open?_blocks ha) (Chain.open?_writes ha) hs
    · exact h.countDiscard _ _ hs

theorem writeOutbound (k : ChanNo) (b : Byte) (hs : P s) : P (writeOutbound k b s).1 := by
  have lost := fun d => h.loseAssembled k (h.countDiscard k d hs)
  unfold Machine.writeOutbound
  split
  · exact hs
  · rename_i c hc
    have body : ∀ n : Nat, P (if s.chans[k].set.maxLength ≤ n then
          (Machine.loseAssembled k (Machine.countDiscard k .tooLong s), OutResult.tooLong)
        else
          match c.append? b s.mem with
          | some (c1, mem) => (Machine.setOut k c1 mem s, OutResult.written)
          | none => (Machine.loseAssembled k (Machine.countDiscard k .overflow s), OutResult.overflow)).1 := by
      intro n
      split
      · exact lost _
      · split
        · rename_i ha
          exact h.setOut (by rw [hc]; exact Chain.append?_blocks ha) (Chain.append?_writes ha) hs
        · exact lost _
    exact body _

/-! ### Frames sent whole -/

theorem updPortTx (p : PortNo) (f : PortTx → PortTx) (hs : P s) : P (updPortTx p f s) :=
  h.port _ _ (fun _ => ⟨rfl, rfl, rfl⟩) hs

theorem frameWhole (p : PortNo) (k : ChanNo) (hs : P s) : P (frameWhole p k s) := by
  unfold Machine.frameWhole
  refine h.updPortTx _ _ (h.chan _ _ ⟨rfl, rfl, rfl⟩ ?_)
  split
  · exact hs
  · rename_i hc
    exact h.setOut (by rw [hc]; rfl) (.none _) hs

theorem settleTransparent (p : PortNo) (hs : P s) : P (settleTransparent p s) := by
  unfold Machine.settleTransparent
  split
  · split
    · split
      · exact keeps_ite (h.frameWhole _ _ hs) hs
      · exact hs
    · exact hs
  · exact hs

theorem settleChannel (k : ChanNo) (hs : P s) : P (settleChannel k s) := by
  unfold Machine.settleChannel
  split
  · exact hs
  · exact keeps_ite (h.settleTransparent _ hs) hs

theorem closeOutbound (k : ChanNo) (hs : P s) : P (closeOutbound k s) := by
  unfold Machine.closeOutbound
  split
  · exact hs
  · rename_i hc
    split
    · exact hs
    · exact h.settleChannel _ (h.setOut (by rw [hc]; rfl) (Chain.writes_writeRecord _ _ _) hs)

/-! ### The sender -/

theorem beginParcel (k : ChanNo) (kind : ParcelKind) (n : Nat) (hs : P s) : P (beginParcel k kind n s) := by
  unfold Machine.beginParcel
  dsimp only
  split
  · exact hs
  · rename_i hc
    split
    · exact hs
    · refine h.chan _ _ ⟨rfl, rfl, rfl⟩ ?_
      split
      · exact h.setIn (by rw [hc]; exact Chain.updOldest_blocks _ _ _) (.none _) hs
      · exact hs

theorem chooseNext (k : ChanNo) (hs : P s) : P (chooseNext k s) := by
  unfold Machine.chooseNext
  dsimp only
  split
  · exact h.chan _ _ ⟨rfl, rfl, rfl⟩ hs
  · exact h.chan _ _ ⟨rfl, rfl, rfl⟩ hs
  · exact h.chan _ _ ⟨rfl, rfl, rfl⟩ hs
  · exact h.beginParcel _ _ _ hs
  · exact h.beginParcel _ _ _ hs
  · exact h.beginParcel _ _ _ hs
  · exact h.beginParcel _ _ _ hs

theorem finishParcel (k : ChanNo) (hs : P s) : P (finishParcel k s) := by
  have h1 := h.chan (s := s) k (fun c => { c with sender := { c.sender with kind := none } }) ⟨rfl, rfl, rfl⟩ hs
  unfold Machine.finishParcel
  dsimp only
  split
  · rename_i hc
    exact h.setIn (by simp only [chans_updChan_same, hc, Chain.updOldest_blocks, chainBlocks_some]) (.none _) h1
  · rename_i hc
    exact h.setIn (by simp only [chans_updChan_same, hc, Chain.finishOldest_blocks, chainBlocks_some]) (.none _) h1
  · rename_i hc
    exact h.setIn (by simp only [chans_updChan_same, hc, Chain.finishOldest_blocks, chainBlocks_some]) (.none _) h1
  · exact h.chan _ _ ⟨rfl, rfl, rfl⟩ h1
  · exact h1

theorem senderByte (k : ChanNo) (hs : P s) : P (senderByte k s) := by
  have h1 : P (if s.chans[k].sender.out.isEmpty && !s.chans[k].sender.filling then Machine.chooseNext k s else s) := by
    split
    · exact h.chooseNext _ hs
    · exact hs
  unfold Machine.senderByte
  dsimp only
  split
  · exact h.chan _ _ ⟨rfl, rfl, rfl⟩ h1
  · rename_i b isPayload rest _
    have h2 := h.chan k (fun c => { c with sender := { c.sender with block := c.sender.block ++ [b], out := rest } })
      ⟨rfl, rfl, rfl⟩ h1
    split
    · apply h.finishParcel
      split
      · rename_i hc _
        exact h.setIn (by simp only [chans_updChan_same, hc, Chain.updOldest_blocks, chainBlocks_some]) (.none _) h2
      · exact h2
    · split
      · rename_i hc _
        exact h.setIn (by simp only [chans_updChan_same, hc, Chain.updOldest_blocks, chainBlocks_some]) (.none _) h2
      · exact h2

theorem senderBytes (k : ChanNo) (n : Nat) (hs : P s) : P (senderBytes k n s) := by
  induction n generalizing s with
  | zero => exact hs
  | succ n ih => exact ih (h.senderByte _ hs)

theorem senderReach (k : ChanNo) (number : Nat) (hs : P s) : P (senderReach k number s) := h.senderBytes _ _ hs

theorem senderRound (k : ChanNo) (w : Nat) (hs : P s) : P (senderRound k w s) :=
  h.chan _ (fun c => { c with sender := { c.sender with width := w, block := [], filling := false } })
    ⟨rfl, rfl, rfl⟩ (h.senderReach k 15 hs)

theorem reachSenders (number : Nat) (hs : P s) : P (reachSenders number s) := by
  refine keeps_foldl (fun _ _ hs => ?_) _ hs
  exact h.senderReach _ _ hs

theorem startSenders (hs : P s) : P (startSenders s) := by
  refine keeps_foldl (fun _ _ hs => ?_) _ hs
  exact h.senderRound _ _ hs

/-! ### The parser -/

theorem setParser (k : ChanNo) (st : ParseState) (hs : P s) : P (setParser k st s) := h.chan _ _ ⟨rfl, rfl, rfl⟩ hs

theorem parserDiscard (k : ChanNo) (d : Discard) (st : ParseState) (hs : P s) : P (parserDiscard k d st s) :=
  h.setParser _ _ (h.loseAssembled _ (h.countDiscard _ _ hs))

theorem parserEvent (k : ChanNo) (e : ParcelEvent) (hs : P s) : P (parserEvent k s e) := by
  unfold Machine.parserEvent
  dsimp only
  split
  · split
    · exact h.parserDiscard _ _ _ hs
    · exact hs
  · split
    · split
      · exact h.parserDiscard _ _ _ hs
      · exact hs
    · split
      · exact h.parserDiscard _ _ _ hs
      · exact hs
    · split
      · exact h.parserDiscard _ _ _ hs
      · exact h.setParser _ _ hs
    · exact hs
  · have h1 := h.openOutbound k hs
    split
    · rename_i ho
      rw [ho] at h1
      exact h.chan _ _ ⟨rfl, rfl, rfl⟩ h1
    · rename_i ho
      rw [ho] at h1
      exact h.setParser _ _ h1
  · split
    · rename_i b _
      have h1 := h.writeOutbound k b hs
      split
      · rename_i ho
        rw [ho] at h1
        exact h.chan _ _ ⟨rfl, rfl, rfl⟩ h1
      · rename_i ho
        rw [ho] at h1
        exact h.setParser _ _ h1
      · rename_i ho
        rw [ho] at h1
        exact h.setParser _ _ h1
    · exact hs
  · split
    · split
      · exact h.setParser _ _ (h.closeOutbound _ hs)
      · exact h.parserDiscard _ _ _ hs
    · exact keeps_ite hs (h.setParser _ _ hs)

theorem parserByte (k : ChanNo) (b : Byte) (hs : P s) : P (parserByte k s b) := by
  unfold Machine.parserByte
  split
  · exact keeps_foldl (fun _ _ hs => h.parserEvent _ _ hs) _ (h.chan _ _ ⟨rfl, rfl, rfl⟩ hs)
  · exact hs

theorem parserRound (k : ChanNo) (w : Nat) (hs : P s) : P (parserRound k w s) := by
  unfold Machine.parserRound
  dsimp only
  split
  · exact keeps_foldl (fun _ _ hs => h.parserEvent _ _ hs) _ (h.chan _ _ ⟨rfl, rfl, rfl⟩ hs)
  · exact h.chan _ _ ⟨rfl, rfl, rfl⟩ hs

theorem senderHomeChange (k : ChanNo) (hs : P s) : P (senderHomeChange k s) := by
  have h0 := h.chan k (fun c =>
    { c with sender := { c.sender with out := [], kind := none, abortOwed := false, filling := false } })
    ⟨rfl, rfl, rfl⟩ hs
  unfold Machine.senderHomeChange
  dsimp only
  split
  · exact h0
  · rename_i ch hc
    split
    · exact h0
    · split
      · have h1 := h.countDiscard k .aborted (h.setIn (k := k) (c := ch.dropOldest)
          (by simp only [chans_updChan_same, hc, Chain.dropOldest_blocks, chainBlocks_some]) (.none _) h0)
        split
        · exact h1
        · exact h.setWriter _ _ h1
      · exact h0

theorem parserHomeChange (k : ChanNo) (hs : P s) : P (parserHomeChange k s) := by
  unfold Machine.parserHomeChange
  dsimp only
  refine h.chan _ _ ⟨rfl, rfl, rfl⟩ ?_
  split
  · exact h.parserDiscard _ _ _ hs
  · exact h.setParser _ _ hs

theorem packetsHomeChange (hs : P s) : P (packetsHomeChange s) := by
  refine keeps_foldl (fun _ _ hs => ?_) _ hs
  split
  · exact hs
  · exact h.parserHomeChange _ (h.senderHomeChange _ hs)

/-! ### The station filter -/

theorem discardCopies (d : Discard) (hs : P s) : P (discardCopies d s) := by
  refine h.filter _ (fun _ => ⟨rfl, rfl, rfl⟩) (keeps_foldl (fun _ _ hs => ?_) _ hs)
  exact h.loseAssembled _ (h.countDiscard _ _ hs)

theorem setFilter (st : ParseState) (hs : P s) : P (setFilter st s) := h.filter _ (fun _ => ⟨rfl, rfl, rfl⟩) hs

theorem openCopies (l : List ChanNo) (hs : P s) : P (openCopies l s) := by
  refine keeps_foldl (fun s k hs => ?_) _ hs
  have h1 := h.openOutbound k hs
  split
  · rename_i ho
    rw [ho] at h1
    exact h.filter _ (fun _ => ⟨rfl, rfl, rfl⟩) h1
  · rename_i ho
    rw [ho] at h1
    exact h1

theorem writeCopies (b : Byte) (hs : P s) : P (writeCopies b s) := by
  refine keeps_foldl (fun s k hs => ?_) _ hs
  have h1 := h.writeOutbound k b hs
  split
  · rename_i ho
    rw [ho] at h1
    exact h1
  · rename_i ho
    rw [ho] at h1
    exact h.filter _ (fun _ => ⟨rfl, rfl, rfl⟩) h1

theorem skipIfLost (hs : P s) : P (skipIfLost s) := by
  unfold Machine.skipIfLost
  split
  · exact h.setFilter _ hs
  · exact hs

theorem filterEvent (e : ParcelEvent) (hs : P s) : P (filterEvent s e) := by
  unfold Machine.filterEvent
  split
  · split
    · exact h.setFilter _ (h.discardCopies _ hs)
    · exact hs
  · split
    · split
      · exact h.setFilter _ (h.discardCopies _ hs)
      · exact hs
    · split
      · exact h.setFilter _ (h.discardCopies _ hs)
      · exact hs
    · apply h.setFilter
      split
      · exact h.discardCopies _ hs
      · exact hs
    · exact hs
  · rename_i kind address
    have h2 := h.filter (fun f => { f with state := .assembling, count := 0, check := c16Start })
      (fun _ => ⟨rfl, rfl, rfl⟩)
      (h.openCopies (targetsFor s address)
        (h.filter (fun f => { f with targets := targetsFor s address, copies := [] }) (fun _ => ⟨rfl, rfl, rfl⟩) hs))
    dsimp only
    split
    · exact h.setFilter _ h2
    · exact h2
  · split
    · exact h.skipIfLost (h.filter _ (fun _ => ⟨rfl, rfl, rfl⟩) (h.writeCopies _ hs))
    · exact hs
  · split
    · split
      · refine h.setFilter _ (h.filter _ (fun _ => ⟨rfl, rfl, rfl⟩) (keeps_foldl (fun _ _ hs => ?_) _ hs))
        exact h.closeOutbound _ hs
      · exact h.setFilter _ (h.discardCopies _ hs)
    · exact h.setFilter _ hs

theorem filterByte (b : Byte) (hs : P s) : P (filterByte s b) := by
  unfold Machine.filterByte
  split
  · exact hs
  · exact keeps_foldl (fun _ _ hs => h.filterEvent _ hs) _ (h.filter _ (fun _ => ⟨rfl, rfl, rfl⟩) hs)

theorem filterRound (hs : P s) : P (filterRound s) := by
  unfold Machine.filterRound
  split
  · exact h.filter _ (fun _ => ⟨rfl, rfl, rfl⟩) hs
  · exact keeps_foldl (fun _ _ hs => h.filterEvent _ hs) _ (h.filter _ (fun _ => ⟨rfl, rfl, rfl⟩) hs)

theorem filterBreak (hs : P s) : P (filterBreak s) := by
  unfold Machine.filterBreak
  refine h.filter _ (fun _ => ⟨rfl, rfl, rfl⟩) ?_
  split
  · exact h.discardCopies _ hs
  · exact hs

theorem stopWriting (k : ChanNo) (hs : P s) : P (stopWriting k s) := by
  unfold Machine.stopWriting
  split
  · exact h.skipIfLost (h.filter _ (fun _ => ⟨rfl, rfl, rfl⟩) hs)
  · split
    · exact h.setParser _ _ hs
    · exact hs

end KeepsPackets

end Sys2Proof.Machine
end

