-- ==== Sys2Proof/Laws/Storage.lean ====
section
/-! SUPPORT. What keeps the owners of the blocks (R143) and the station table (R167 to R169) sound: the laws of the
table's updates, of a block's owner, and of the requests that give blocks away. -/

namespace Sys2Proof.Machine

/-! ### The station table -/

theorem mem_putStation {a : Nat} {c : Half} {t : List (Nat × Half)} {e : Nat × Half} (h : e ∈ putStation a c t) :
    e = (a, c) ∨ e ∈ t := by
  induction t with
  | nil => simpa [putStation] using h
  | cons x t ih =>
    unfold putStation at h
    split at h
    · simpa using h
    · split at h
      · rcases List.mem_cons.mp h with h | h <;> simp [h]
      · rcases List.mem_cons.mp h with h | h
        · simp [h]
        · rcases ih h with h | h <;> simp [h]

theorem sorted_putStation {a : Nat} {c : Half} {t : List (Nat × Half)} (h : List.Pairwise (· < ·) (t.map Prod.fst)) :
    List.Pairwise (· < ·) ((putStation a c t).map Prod.fst) := by
  induction t with
  | nil => simp [putStation]
  | cons x t ih =>
    rw [List.map_cons, List.pairwise_cons] at h
    unfold putStation
    split
    · rename_i hlt
      rw [List.map_cons, List.map_cons, List.pairwise_cons, List.pairwise_cons]
      refine ⟨fun b hb => ?_, h⟩
      rcases List.mem_cons.mp hb with rfl | hb
      · exact hlt
      · exact Nat.lt_trans hlt (h.1 b hb)
    · split
      · rename_i _ he
        rw [List.map_cons, List.pairwise_cons]
        exact ⟨fun b hb => by have := h.1 b hb; omega, h.2⟩
      · rw [List.map_cons, List.pairwise_cons]
        refine ⟨fun b hb => ?_, ih h.2⟩
        obtain ⟨e, he, rfl⟩ := List.mem_map.mp hb
        rcases mem_putStation he with rfl | he
        · show _ < a
          omega
        · exact h.1 _ (List.mem_map_of_mem he)

theorem lookupStation_none_of_lt {a : Nat} {t : List (Nat × Half)} (h : ∀ b ∈ t.map Prod.fst, a < b) :
    lookupStation a t = none := by
  induction t with
  | nil => rfl
  | cons x t ih =>
    simp only [List.map_cons, List.mem_cons, forall_eq_or_imp] at h
    unfold lookupStation
    rw [if_neg (by have := h.1; omega)]
    exact ih h.2

theorem length_putStation_le (a : Nat) (c : Half) (t : List (Nat × Half)) :
    (putStation a c t).length ≤ t.length + 1 := by
  induction t with
  | nil => simp [putStation]
  | cons x t ih =>
    unfold putStation
    split
    · simp
    · split
      · simp
      · simpa using ih

/-- An entry put in place of the one of its address leaves the table's length. -/
theorem length_putStation_held {a : Nat} {c : Half} {t : List (Nat × Half)}
    (h : List.Pairwise (· < ·) (t.map Prod.fst)) (hl : (lookupStation a t).isSome = true) :
    (putStation a c t).length = t.length := by
  induction t with
  | nil => simp [lookupStation] at hl
  | cons x t ih =>
    obtain ⟨x, v⟩ := x
    rw [List.map_cons, List.pairwise_cons] at h
    simp only [putStation]
    unfold lookupStation at hl
    by_cases he : x = a
    · subst he
      simp
    · rw [if_neg he] at hl
      by_cases hlt : a < x
      · rw [lookupStation_none_of_lt fun b hb => Nat.lt_trans hlt (h.1 b hb)] at hl
        cases hl
      · rw [if_neg hlt, if_neg (fun e => he e.symm), List.length_cons, ih h.2 hl, List.length_cons]

/-- The table stays sound as a PUT in flight is applied. -/
theorem Filter.sound.applyPut {f : Filter} {a : Nat} {c : Half} (h : f.sound) (hu : f.update = some (.put a c)) :
    Filter.sound { f with update := none, table := putStation a c f.table } := by
  obtain ⟨h1, h2, hf⟩ := h.update a c hu
  refine ⟨sorted_putStation h.sorted, fun e he => ?_, ?_, h.capacity, fun _ _ hx => by cases hx⟩
  · rcases mem_putStation he with rfl | he
    · exact ⟨h1, h2⟩
    · exact h.addresses e he
  · show (putStation a c f.table).length ≤ f.capacity
    rcases hf with hf | hf
    · rw [length_putStation_held h.sorted hf]
      exact h.size
    · exact Nat.le_trans (length_putStation_le _ _ _) hf

/-- The table stays sound as a DROP in flight is applied. -/
theorem Filter.sound.applyDrop {f : Filter} (a : Nat) (h : f.sound) :
    Filter.sound { f with update := none, table := dropStation a f.table } := by
  refine ⟨?_, fun e he => h.addresses e (List.mem_filter.mp he).1, ?_, h.capacity, fun _ _ hx => by cases hx⟩
  · exact h.sorted.sublist (List.filter_sublist.map _)
  · exact Nat.le_trans (List.length_filter_le _ _) h.size

/-! ### Owners of blocks -/

theorem mem_allChans (k : ChanNo) : k ∈ allChans := by
  revert k
  decide

/-- A block that is FREE lies in no chain and outside the station area. -/
theorem ownerOf_free {s : State} {b : Nat} (h : ownerOf s b = .free) :
    b < stationStart s ∧ ∀ k : ChanNo, b ∉ heldBlocks s k := by
  unfold ownerOf at h
  split at h
  · cases h
  · rename_i hs
    split at h
    · cases h
    · rename_i hin
      split at h
      · cases h
      · rename_i hout
        refine ⟨Nat.lt_of_not_le hs, fun k => ?_⟩
        have h1 := List.find?_eq_none.mp hin k (mem_allChans k)
        have h2 := List.find?_eq_none.mp hout k (mem_allChans k)
        simp only [List.contains_eq_mem, decide_eq_true_eq] at h1 h2
        simp only [heldBlocks, List.mem_append, not_or]
        exact ⟨h1, h2⟩

/-- A block of channel k's inbound chain lies there, outside the station area. -/
theorem ownerOf_inbound {s : State} {b : Nat} {k : ChanNo} (h : ownerOf s b = .inbound k) :
    b < stationStart s ∧ b ∈ chainBlocks s.chans[k].inChain := by
  unfold ownerOf at h
  split at h
  · cases h
  · rename_i hs
    split at h
    · rename_i j hj
      cases h
      have := List.find?_some hj
      simp only [List.contains_eq_mem, decide_eq_true_eq] at this
      exact ⟨Nat.lt_of_not_le hs, this⟩
    · split at h <;> cases h

/-- A block of channel k's outbound chain lies there, outside the station area. -/
theorem ownerOf_outbound {s : State} {b : Nat} {k : ChanNo} (h : ownerOf s b = .outbound k) :
    b < stationStart s ∧ b ∈ chainBlocks s.chans[k].outChain := by
  unfold ownerOf at h
  split at h
  · cases h
  · rename_i hs
    split at h
    · cases h
    · split at h
      · rename_i j hj
        cases h
        have := List.find?_some hj
        simp only [List.contains_eq_mem, decide_eq_true_eq] at this
        exact ⟨Nat.lt_of_not_le hs, this⟩
      · cases h

/-- Owners stay sound as channel k's chains are replaced by chains over blocks of its own and FREE ones, without
repeats. -/
theorem blocksOwnedOnce.updChan {s : State} {k : ChanNo} {f : Channel → Channel} (h : blocksOwnedOnce s)
    (hn : (heldBlocks (s.updChan k f) k).Nodup)
    (hf : ∀ b ∈ heldBlocks (s.updChan k f) k, b ∈ heldBlocks s k ∨ ownerOf s b = .free) :
    blocksOwnedOnce (s.updChan k f) := by
  have other : ∀ j : ChanNo, j ≠ k → heldBlocks (s.updChan k f) j = heldBlocks s j := fun j hj => by
    simp only [heldBlocks, chans_updChan_of_ne s f hj]
  have below : ∀ b ∈ heldBlocks (s.updChan k f) k, b < stationStart s := fun b hb => by
    rcases hf b hb with hb | hb
    · exact h.below k b hb
    · exact (ownerOf_free hb).1
  have away : ∀ j : ChanNo, j ≠ k → ∀ b ∈ heldBlocks (s.updChan k f) k, b ∉ heldBlocks s j := fun j hj b hb => by
    rcases hf b hb with hb | hb
    · exact h.apart k j (Ne.symm hj) b hb
    · exact (ownerOf_free hb).2 j
  refine ⟨fun j => ?_, fun i j hij b hb => ?_, fun j b hb => ?_⟩
  · by_cases hj : j = k
    · subst hj
      exact hn
    · rw [other j hj]
      exact h.once j
  · by_cases hi : i = k
    · subst hi
      rw [other j (Ne.symm hij)]
      exact away j (Ne.symm hij) b hb
    · rw [other i hi] at hb
      by_cases hj : j = k
      · subst hj
        exact fun hm => away i hi b hm hb
      · rw [other j hj]
        exact h.apart i j hij b hb
  · by_cases hj : j = k
    · subst hj
      exact below b hb
    · rw [other j hj] at hb
      exact h.below j b hb

theorem nodup_of_noRepeat {l : List Nat} (h : noRepeat l = true) : l.Nodup := by
  induction l with
  | nil => exact List.nodup_nil
  | cons a l ih =>
    simp only [noRepeat, Bool.and_eq_true, Bool.not_eq_true', List.contains_eq_mem, decide_eq_false_iff_not] at h
    exact List.nodup_cons.mpr ⟨h.1, ih h.2⟩

theorem chainBlocks_chainOf (runs : List (Nat × Nat)) : chainBlocks (chainOf runs) = runBlocks runs := by
  cases runs <;> rfl

/-- The blocks of a channel whose inbound or outbound chain is laid over blocks that the request may take. -/
theorem blocksOwnedOnce.chainSet {s : State} {k : ChanNo} {out : Bool} {runs : List (Nat × Nat)} (h : blocksOwnedOnce s)
    (hr : noRepeat (runBlocks runs) = true)
    (ho : ∀ b ∈ runBlocks runs,
      ownerOf s b = .free ∨ ownerOf s b = (if out then Owner.outbound k else Owner.inbound k)) :
    blocksOwnedOnce (s.updChan k fun c =>
      if out then { c with outChain := chainOf runs } else { c with inChain := chainOf runs }) := by
  have hk := List.nodup_append.mp (h.once k)
  have hd := nodup_of_noRepeat hr
  cases out with
  | true =>
    have hb : heldBlocks (s.updChan k fun c => { c with outChain := chainOf runs }) k
        = chainBlocks s.chans[k].inChain ++ runBlocks runs := by
      simp only [heldBlocks, chans_updChan_same, chainBlocks_chainOf]
    refine h.updChan ?_ fun b hm => ?_
    · show (heldBlocks (s.updChan k fun c => { c with outChain := chainOf runs }) k).Nodup
      rw [hb]
      refine List.nodup_append.mpr ⟨hk.1, hd, fun a ha b hm e => ?_⟩
      subst e
      rcases ho a hm with ho | ho
      · exact (ownerOf_free ho).2 k (List.mem_append_left _ ha)
      · exact hk.2.2 a ha a (ownerOf_outbound ho).2 rfl
    · change b ∈ heldBlocks (s.updChan k fun c => { c with outChain := chainOf runs }) k at hm
      rw [hb] at hm
      rcases List.mem_append.mp hm with hm | hm
      · exact .inl (List.mem_append_left _ hm)
      · rcases ho b hm with ho | ho
        · exact .inr ho
        · exact .inl (List.mem_append_right _ (ownerOf_outbound ho).2)
  | false =>
    have hb : heldBlocks (s.updChan k fun c => { c with inChain := chainOf runs }) k
        = runBlocks runs ++ chainBlocks s.chans[k].outChain := by
      simp only [heldBlocks, chans_updChan_same, chainBlocks_chainOf]
    refine h.updChan ?_ fun b hm => ?_
    · show (heldBlocks (s.updChan k fun c => { c with inChain := chainOf runs }) k).Nodup
      rw [hb]
      refine List.nodup_append.mpr ⟨hd, hk.2.1, fun a ha b hm e => ?_⟩
      subst e
      rcases ho a ha with ho | ho
      · exact (ownerOf_free ho).2 k (List.mem_append_right _ hm)
      · exact hk.2.2 a (ownerOf_inbound ho).2 a hm rfl
    · change b ∈ heldBlocks (s.updChan k fun c => { c with inChain := chainOf runs }) k at hm
      rw [hb] at hm
      rcases List.mem_append.mp hm with hm | hm
      · rcases ho b hm with ho | ho
        · exact .inr ho
        · exact .inl (List.mem_append_left _ (ownerOf_inbound ho).2)
      · exact .inl (List.mem_append_right _ hm)

/-- Owners stay sound as the station area takes a size over FREE blocks and its own (R168). -/
theorem blocksOwnedOnce.resize {s : State} {n : Nat} {f : Filter → Filter} (h : blocksOwnedOnce s)
    (hf : (f s.filter).capacity = n)
    (ho : ∀ i, i < n / 8 → ownerOf s (Config.blocks - n / 8 + i) = .free
      ∨ ownerOf s (Config.blocks - n / 8 + i) = .station)
    (hb : ∀ k : ChanNo, ∀ b ∈ heldBlocks s k, b < Config.blocks) : blocksOwnedOnce (s.updFilter f) := by
  refine ⟨h.once, h.apart, fun k b hm => ?_⟩
  have hm : b ∈ heldBlocks s k := hm
  show b < Config.blocks - (f s.filter).capacity / 8
  rw [hf]
  have hlt := hb k b hm
  refine Nat.lt_of_not_le fun hle => ?_
  have ho := ho (b - (Config.blocks - n / 8)) (by omega)
  rw [Nat.add_sub_of_le hle] at ho
  rcases ho with ho | ho
  · exact (ownerOf_free ho).2 k hm
  · unfold ownerOf at ho
    split at ho
    · rename_i hs
      exact Nat.not_lt.mpr hs (h.below k b hm)
    · split at ho
      · cases ho
      · split at ho <;> cases ho

/-- Every block held is a block of frame memory. -/
theorem blocksOwnedOnce.inMemory {s : State} (h : blocksOwnedOnce s) (k : ChanNo) (b : Nat) (hb : b ∈ heldBlocks s k) :
    b < Config.blocks := Nat.lt_of_lt_of_le (h.below k b hb) (Nat.sub_le _ _)

end Sys2Proof.Machine
end

