-- ==== Sys2Proof/Laws/KeepsCycle.lean ====
section
/-! SUPPORT. What a local cycle boundary, a received cycle and a round message can do, said once, over the laws of the
lane allocator and the packet engine. -/

namespace Sys2Proof.Machine

/-- The updates made as cycles are exchanged and round messages are used: with those of the lane allocator and the
packet engine, the homing counts, line time, the presence timers, and of a flow what it gathers and sends, and that an
end has been heard through it while it delivers. -/
structure KeepsCycle (P : State → Prop) : Prop extends Keeps P, KeepsPackets P where
  counts : ∀ {s : State} (f : Homing → Homing),
    (∀ g, f g = { g with holdOff := (f g).holdOff, restore := (f g).restore }) → P s → P (s.updHoming f)
  time : ∀ {s : State} (f : Timing → Timing),
    (∀ t, f t = { t with seconds := (f t).seconds, cycle := (f t).cycle, validity := (f t).validity,
                         source := (f t).source, lastStep := (f t).lastStep, rejected := (f t).rejected }) →
    (Timing.inRange s.timing → Timing.inRange (f s.timing)) → P s → P (s.updTiming f)
  presence : ∀ {s : State} (x : Side) (f : Receiver → Receiver),
    (∀ r, f r = { r with presence := (f r).presence } ∧
      (r.presence ≤ Config.presenceRounds → (f r).presence ≤ Config.presenceRounds)) → P s → P (s.updRx x f)
  flowOut : ∀ {s : State} (x : Side) (f : Flow → Flow),
    (∀ g, f g = { g with fsaSent := (f g).fsaSent, pbSent := (f g).pbSent, sent := (f g).sent,
                         gathered := (f g).gathered, empty := (f g).empty }) → P s → P (s.updFlow x f)
  heard : ∀ {s : State} (x : Side), (s.flow.get x).mode = .delivering → P s →
    P (s.updFlow x fun g => { g with heard := true })

/-- The updates of a local cycle boundary and of a received cycle: any change of the homing unit, and the changes of
the timing unit, a flow, a receiver, the filter and a port that keep what the spec bounds, and of the trunk lines. -/
structure KeepsBoundary (P : State → Prop) : Prop extends KeepsCycle P where
  homing : ∀ {s : State} (f : Homing → Homing), P s → P (s.updHoming f)
  timing : ∀ {s : State} (f : Timing → Timing), (Timing.inRange s.timing → Timing.inRange (f s.timing)) → P s →
    P (s.updTiming f)
  flow : ∀ {s : State} (x : Side) (f : Flow → Flow),
    ((s.flow.get x).bounded → (f (s.flow.get x)).bounded) → P s → P (s.updFlow x f)
  rx : ∀ {s : State} (x : Side) (f : Receiver → Receiver),
    (∀ r, r.presence ≤ Config.presenceRounds → (f r).presence ≤ Config.presenceRounds) → P s → P (s.updRx x f)
  line : ∀ {s : State} (f : TrunkLine → TrunkLine), P s → P (s.updLine f)
  anyFilter : ∀ {s : State} (f : Filter → Filter), (blocksOwnedOnce s → blocksOwnedOnce (s.updFilter f)) →
    (tableSound s → tableSound (s.updFilter f)) → P s → P (s.updFilter f)
  anyPort : ∀ {s : State} (p : PortNo) (f : Port → Port), P s → P (s.updPort p f)
  ready : ∀ {s : State}, P s →
    P (s.updLink fun l => { l with replies := l.replies.map fun r => { r with ready := true } })

variable {P : State → Prop} {s : State}

/-! ### Timing in range -/

theorem clampNat_bounds {x low high : Nat} (h : low ≤ high) : low ≤ clampNat x low high ∧ clampNat x low high ≤ high := by
  unfold clampNat
  split
  · omega
  · split <;> omega

theorem clampInt_bounds {x low high : Int} (h : low ≤ high) : low ≤ clampInt x low high ∧ clampInt x low high ≤ high := by
  unfold clampInt
  split
  · omega
  · split <;> omega

namespace KeepsCycle

variable (h : KeepsCycle P)
include h

theorem judgeReachability (hs : P s) : P (judgeReachability s) := h.counts _ (fun _ => rfl) hs

/-! ### Round messages -/

theorem adoptTime (x : Side) (seconds : Word) (index : Nat) (hi : index ≤ 499) (hs : P s) :
    P (adoptTime x seconds index s) := by
  unfold Machine.adoptTime
  dsimp only
  have h2 : ∀ u : State, P u → P (u.updTiming fun t => { t with validity := .fromEnd, source := some x }) :=
    fun u hu => h.time _ (fun _ => rfl) (fun hr => { hr with }) hu
  have h1 : P (if s.timing.seconds = seconds ∧ s.timing.cycle = 16 * index + 15 then s
      else
        Machine.raise .timing Mark.timeStep
          (s.updTiming fun t =>
            { t with
              seconds := seconds, cycle := 16 * index + 15,
              lastStep := stepCycles seconds (16 * index + 15) t.seconds t.cycle })) := by
    refine keeps_ite hs (h.raise _ _ (h.time _ (fun _ => rfl) (fun hr => ?_) hs))
    refine { hr with cycle := ?_, lastStep := ?_ }
    · show 16 * index + 15 < 8000
      omega
    · exact clampInt_bounds (by omega)
  exact keeps_ite (h2 _ h1) (h.raise _ _ (h2 _ h1))

theorem takeTime (x : Side) (seconds : Word) (index : Nat) (hs : P s) : P (takeTime x seconds index s) := by
  unfold Machine.takeTime
  split
  · exact h.time _ (fun _ => rfl) (fun hr => { hr with }) hs
  · rename_i hi
    split
    · exact h.adoptTime _ _ _ (by omega) hs
    · exact h.adoptTime _ _ _ (by omega) hs
    · exact hs

omit h in
/-- A valid message of an end starts its presence timer again. -/
theorem restartPresence_rx (x : Side) (s : State) :
    (Machine.restartPresence x s).rx = s.rx.set x { s.rx.get x with presence := Config.presenceRounds } := by
  unfold Machine.restartPresence
  dsimp only
  split <;> rfl

omit h in
/-- A valid message of an end is heard through the flow that brought it. -/
theorem restartPresence_flow (x : Side) (s : State) :
    (Machine.restartPresence x s).flow = s.flow.set x.other { s.flow.get x.other with heard := true } := by
  unfold Machine.restartPresence
  dsimp only
  split <;> rfl

omit h in
/-- A flow that is priming makes no end reachable (R25). -/
theorem unreachable_of_priming {x : Side} (hb : (s.flow.get x.other).bounded)
    (hp : (s.flow.get x.other).mode = .priming) : reachable s x = false := by
  simp [reachable, hb.unheard hp]

/-- A valid message of an end comes through a delivering flow. -/
theorem restartPresence (x : Side) (hd : (s.flow.get x.other).mode = .delivering) (hs : P s) :
    P (restartPresence x s) := by
  have h0 := h.presence x (fun r => { r with presence := Config.presenceRounds }) (fun _ => ⟨rfl, fun _ => Nat.le_refl _⟩) hs
  have h1 := h.heard (s := s.updRx x fun r => { r with presence := Config.presenceRounds }) x.other hd h0
  unfold Machine.restartPresence
  exact h.judgeReachability (keeps_ite h1 (h.raise _ _ h1))

theorem tickPresence (x : Side) (hs : P s) : P (tickPresence x s) := by
  have h1 := h.presence x (fun r => { r with presence := r.presence - 1 })
    (fun r => ⟨rfl, fun hr => Nat.le_trans (Nat.sub_le _ _) hr⟩) hs
  unfold Machine.tickPresence
  exact h.judgeReachability (keeps_ite (h.raise _ _ h1) h1)

theorem useHomeMessage (x : Side) (m : List Byte) (hs : P s) : P (useHomeMessage x m s) := by
  have h1 := h.adoptLocalCount (BitVec.ofNat 16 (halfAt m 2)) (h.setReceivedCount (BitVec.ofNat 16 (halfAt m 2)) hs)
  unfold Machine.useHomeMessage
  dsimp only
  refine keeps_ite (h.takeTime _ _ _ h1) (keeps_ite (keeps_foldl (fun _ _ hs => ?_) _ h1) h1)
  exact h.takeItem _ _ hs

/-- A round message of a delivering flow is handed over. -/
theorem handOver (x : Side) (m : List Byte) (hd : (s.flow.get x).mode = .delivering) (hs : P s) :
    P (handOver x m s) := by
  unfold Machine.handOver
  split
  · split
    · have h1 := h.restartPresence x.other (by rw [Side.other_other]; exact hd) hs
      exact keeps_ite (h.useHomeMessage _ _ h1) h1
    · exact hs
  · exact h.round _ hs

theorem gatherMessage (x : Side) (hs : P s) : P (gatherMessage x s) := by
  have h1 : P (s.updFlow x Flow.gather) := by
    refine h.flowOut _ _ (fun g => ?_) hs
    unfold Flow.gather
    split <;> rfl
  unfold Machine.gatherMessage
  exact keeps_dite (fun hd => h.handOver _ _ hd.1 h1) (fun _ => h1)

/-! ### The exchange of a cycle -/

theorem latchEmpty (x : Side) (hs : P s) : P (latchEmpty x s) := by
  unfold Machine.latchEmpty
  exact keeps_ite (h.flowOut _ _ (fun _ => rfl) hs) hs

theorem sendCycle (x : Side) (codec : List Byte) (hs : P s) : P (sendCycle x codec s) := by
  unfold Machine.sendCycle
  exact h.flowOut _ _ (fun _ => rfl) hs

theorem deliverLane (lanes : List Byte) (e : Nat × Role) (hs : P s) : P (deliverLane lanes s e) := by
  unfold Machine.deliverLane
  dsimp only
  split
  · exact h.parserByte _ _ hs
  · exact keeps_ite (h.call _ _ (fun _ => ⟨rfl, rfl⟩) hs) hs
  · exact hs
  · exact h.filterByte _ hs
  · exact hs

theorem deliver (hs : P s) : P (deliver s) := by
  have h1 : P (allPorts.foldl (fun s p => s.updCall p fun c => { c with codec := Config.idle }) s) := by
    refine keeps_foldl (fun _ _ hs => ?_) _ hs
    exact h.call _ _ (fun _ => ⟨rfl, rfl⟩) hs
  unfold Machine.deliver
  dsimp only
  refine keeps_foldl (fun _ _ hs => h.deliverLane _ _ hs) _ ?_
  refine keeps_ite (h.filterRound (keeps_foldl (fun _ _ hs => ?_) _ h1)) h1
  exact h.parserRound _ _ hs

theorem sendControl (hs : P s) : P (sendControl s) := by
  refine keeps_foldl (fun _ _ hs => ?_) _ hs
  exact keeps_ite (h.port _ _ (fun _ => ⟨rfl, rfl, rfl⟩) hs) hs

theorem exchange (codec : List Byte) (hs : P s) : P (exchange codec s) := by
  unfold Machine.exchange
  exact h.sendControl (h.deliver (h.sendCycle _ _ (h.sendCycle _ _ (h.reachSenders _ (h.latchEmpty _ (h.latchEmpty _ hs))))))

end KeepsCycle

namespace KeepsBoundary

variable (h : KeepsBoundary P)
include h

/-! ### The timing unit -/

theorem enterHoldover (hs : P s) : P (enterHoldover s) := by
  have h1 : P (Machine.raise .timing TimingMode.holdover.code
      (s.updTiming fun t =>
        { t with
          mode := .holdover, correction := clampInt (t.integral / 64) (-1024) 1023, lockCount := 0, unlockCount := 0,
          realignCount := 0, armed := false, holdTimer := 0 })) :=
    h.raise _ _ (h.timing _ (fun hr =>
      { hr with
        correction := clampInt_bounds (by omega), holdTimer := Nat.zero_le _, lock := ⟨Nat.zero_le _, fun hm => by cases hm⟩,
        unlock := ⟨Nat.zero_le _, fun hm => by cases hm⟩, realign := ⟨Nat.zero_le _, fun hm => by cases hm⟩ }) hs)
  unfold Machine.enterHoldover
  split
  · exact h1
  · exact h1
  · exact hs

theorem countHoldover (hs : P s) : P (countHoldover s) := by
  have h1 := h.timing (s := s) (fun t => { t with holdTimer := min (t.holdTimer + 1) Config.holdoverCap })
    (fun hr => { hr with holdTimer := Nat.min_le_right _ _ }) hs
  unfold Machine.countHoldover
  split
  · exact keeps_ite (h.raise _ _ h1) h1
  · exact hs

omit h in
/-- A loop step keeps the ranges. -/
theorem loop_inRange {t : Timing} (hr : t.inRange) (e : Int) : (t.loop e).inRange :=
  { hr with correction := clampInt_bounds (by omega), integral := clampInt_bounds (by omega) }

/-- A sample, made in ACQUIRING only while realignment is not armed. -/
theorem takeSample (ha : s.timing.mode = .acquiring → s.timing.armed = false) (hs : P s) : P (takeSample s) := by
  have loop : P (s.updTiming (Timing.loop s.timing.error)) := h.timing _ (fun hr => loop_inRange hr _) hs
  have acquires : ∀ lock re, (s.timing.inRange → lock ≤ 255 ∧ re ≤ 4) →
      P ((s.updTiming (Timing.loop s.timing.error)).updTiming fun t =>
        { t with lockCount := lock, realignCount := re, armed := decide (4 ≤ re) }) := fun lock re hc =>
    h.timing (s := s) (fun t => { t.loop s.timing.error with lockCount := lock, realignCount := re, armed := decide (4 ≤ re) })
      (fun hr =>
        { loop_inRange hr s.timing.error with
          lock := ⟨Nat.le_trans (hc hr).1 (by decide), fun _ => (hc hr).1⟩,
          realign := ⟨(hc hr).2, fun _ hn => Nat.le_of_lt_succ (Nat.lt_of_not_le (of_decide_eq_false hn))⟩ }) hs
  have locks : ∀ lock re, (s.timing.inRange → lock ≤ 256 ∧ re ≤ 4) →
      P (((s.updTiming (Timing.loop s.timing.error)).updTiming fun t =>
        { t with lockCount := lock, realignCount := re, armed := decide (4 ≤ re) }).updTiming fun t =>
          { t with mode := .tracking, unlockCount := 0 }) := fun lock re hc =>
    h.timing (s := s) (fun t =>
        { t.loop s.timing.error with
          lockCount := lock, realignCount := re, armed := decide (4 ≤ re), mode := .tracking, unlockCount := 0 })
      (fun hr =>
        { loop_inRange hr s.timing.error with
          lock := ⟨(hc hr).1, fun hx => by cases hx⟩, unlock := ⟨Nat.zero_le _, fun _ => Nat.zero_le _⟩,
          realign := ⟨(hc hr).2, fun hx => by cases hx⟩ }) hs
  have tracks : ∀ un, (s.timing.inRange → un ≤ 7) →
      P ((s.updTiming (Timing.loop s.timing.error)).updTiming fun t => { t with unlockCount := un }) := fun un hc =>
    h.timing (s := s) (fun t => { t.loop s.timing.error with unlockCount := un })
      (fun hr =>
        { loop_inRange hr s.timing.error with
          unlock := ⟨Nat.le_trans (hc hr) (by decide), fun _ => hc hr⟩ }) hs
  have unlocks : ∀ un, (s.timing.inRange → un ≤ 8) →
      P (((s.updTiming (Timing.loop s.timing.error)).updTiming fun t => { t with unlockCount := un }).updTiming fun t =>
          { t with mode := .acquiring, lockCount := 0, realignCount := 0, armed := false }) := fun un hc =>
    h.timing (s := s) (fun t =>
        { t.loop s.timing.error with
          unlockCount := un, mode := .acquiring, lockCount := 0, realignCount := 0, armed := false })
      (fun hr =>
        { loop_inRange hr s.timing.error with
          lock := ⟨Nat.zero_le _, fun _ => Nat.zero_le _⟩, unlock := ⟨hc hr, fun hx => by cases hx⟩,
          realign := ⟨Nat.zero_le _, fun _ _ => Nat.zero_le _⟩ }) hs
  have counted : ∀ (b : Bool) (n m : Nat), n ≤ m → (if b then n + 1 else 0) ≤ m + 1 ∧ (if b then 0 else n + 1) ≤ m + 1 := by
    intro b n m hn
    constructor <;> split <;> omega
  unfold Machine.takeSample
  dsimp only
  split
  · rename_i hm
    have hm : s.timing.mode = .acquiring := hm
    have hl : s.timing.inRange → _ := fun hr => counted (decide (-2 ≤ s.timing.error) && decide (s.timing.error ≤ 2)) _ _ (hr.lock.2 hm)
    have hre : s.timing.inRange → _ :=
      fun hr => counted (decide (-64 ≤ s.timing.error) && decide (s.timing.error ≤ 63)) _ _ (hr.realign.2 hm (ha hm))
    refine keeps_dite (fun _ => h.raise _ _ (locks _ _ fun hr => ⟨(hl hr).1, (hre hr).2⟩)) fun hn => ?_
    exact acquires _ _ fun hr => ⟨Nat.le_of_lt_succ (Nat.lt_of_not_le hn), (hre hr).2⟩
  · rename_i hm
    have hm : s.timing.mode = .tracking := hm
    have hu : s.timing.inRange → _ :=
      fun hr => counted (decide (-16 ≤ s.timing.error) && decide (s.timing.error ≤ 16)) _ _ (hr.unlock.2 hm)
    refine keeps_dite (fun _ => h.raise _ _ (unlocks _ fun hr => (hu hr).2)) fun hn => ?_
    exact tracks _ fun _ => Nat.le_of_lt_succ (Nat.lt_of_not_le hn)
  · exact loop

theorem startAcquiring (hs : P s) : P (startAcquiring s) :=
  h.raise _ _ (h.timing _ (fun hr =>
    { hr with
      integral := by
        have := hr.trim
        dsimp only
        omega
      lock := ⟨Nat.zero_le _, fun _ => Nat.zero_le _⟩, unlock := ⟨Nat.zero_le _, fun hm => by cases hm⟩,
      realign := ⟨Nat.zero_le _, fun _ _ => Nat.zero_le _⟩ }) hs)

theorem leaveHoldover (hs : P s) : P (leaveHoldover s) :=
  h.raise _ _ (h.timing _ (fun hr =>
    { hr with
      holdTimer := Nat.zero_le _, lock := ⟨Nat.zero_le _, fun _ => Nat.zero_le _⟩,
      unlock := ⟨Nat.zero_le _, fun hm => by cases hm⟩, realign := ⟨Nat.zero_le _, fun _ _ => Nat.zero_le _⟩ }) hs)

theorem realignPhase (hs : P s) : P (realignPhase s) :=
  h.raise _ _ (h.timing _ (fun hr =>
    { hr with
      lock := ⟨Nat.zero_le _, fun _ => Nat.zero_le _⟩, realign := ⟨Nat.zero_le _, fun _ _ => Nat.zero_le _⟩ })
    (h.line _ hs))

theorem cycleStart (x : Side) (hs : P s) : P (cycleStart x s).1 := by
  unfold Machine.cycleStart
  split
  · exact hs
  · split
    · split
      · exact hs
      · exact h.takeSample (fun _ => rfl) (h.startAcquiring hs)
    · split
      · exact h.realignPhase hs
      · rename_i ha
        exact h.takeSample (fun _ => by simpa using ha) hs
    · rename_i hm
      exact h.takeSample (fun hx => by rw [hm] at hx; cases hx) hs
    · split
      · exact hs
      · exact h.takeSample (fun _ => rfl) (h.leaveHoldover hs)

/-! ### The homing unit -/

theorem handOnHome (hs : P s) : P (handOnHome s) := by
  unfold Machine.handOnHome
  exact h.enterHoldover (h.applyAllMoves (h.filterBreak (h.packetsHomeChange (h.round _ hs))))

theorem changeHome (new : Side) (b : Bool) (c : HomeCause) (hs : P s) : P (changeHome new b c s) := by
  unfold Machine.changeHome
  dsimp only
  have h1 := fun f => h.raise .home c.code (h.homing f hs)
  exact h.judgeReachability
    (keeps_ite (h.handOnHome (h1 _)) (keeps_ite (h.enterHoldover (h1 _)) (h.round _ (h1 _))))

theorem clearForce (hs : P s) : P (clearForce s) := by
  unfold Machine.clearForce
  split
  · exact hs
  · exact h.raise _ _ (h.homing _ hs)

theorem decideHome (hs : P s) : P (decideHome s) := by
  unfold Machine.decideHome
  split
  · exact h.changeHome _ _ _ (h.homing _ hs)
  · split
    · split
      · exact h.changeHome _ _ _ hs
      · exact hs
    · split
      · exact keeps_ite (h.changeHome _ _ _ (h.clearForce hs)) (h.changeHome _ _ _ (h.clearForce hs))
      · exact keeps_ite (h.changeHome _ _ _ hs) hs

theorem setHoming (x : Side) (r o : Nat) (hs : P s) : P (setHoming x r o s) :=
  h.judgeReachability (h.homing _ hs)

theorem forceHome (x : Side) (hs : P s) : P (forceHome x s).1 := by
  unfold Machine.forceHome
  split
  · exact hs
  · exact h.raise _ _ (h.homing _ hs)

theorem releaseHome (hs : P s) : P (releaseHome s) := h.judgeReachability (h.homing _ (h.clearForce hs))

theorem restartHoming (hs : P s) : P (restartHoming s) := h.setHoming _ _ _ (h.homing _ hs)

/-! ### Receivers, stores and transmitters -/

theorem enterRxState (x : Side) (st : RxState) (hs : P s) : P (enterRxState x st s) :=
  h.raise _ _ (h.rx _ _ (fun _ hr => hr) hs)

theorem dropReceiver (x : Side) (st : RxState) (hs : P s) : P (dropReceiver x st s) := by
  have h3 : P (((Machine.enterRxState x st s).updRx x fun r =>
      { r with candidate := none, alignment := none, fsaSeen := false, pbSeen := false, faultRun := 0 }).updFlow x.other fun f =>
        { f with store := [], mode := .notDelivering }) :=
    h.flow _ _ (fun _ => ⟨Nat.zero_le _, nofun, nofun⟩)
      (h.rx _ _ (fun _ hr => hr) (h.enterRxState _ _ hs))
  unfold Machine.dropReceiver
  exact h.judgeReachability (keeps_ite (h.enterHoldover h3) h3)

theorem assertLos (x : Side) (hs : P s) : P (assertLos x s) := by
  unfold Machine.assertLos
  exact keeps_ite hs (h.dropReceiver _ _ (h.rx _ _ (fun _ hr => hr) hs))

theorem releaseLos (x : Side) (hs : P s) : P (releaseLos x s) := by
  unfold Machine.releaseLos
  exact keeps_ite (h.enterRxState _ _ (h.rx _ _ (fun _ hr => hr) hs)) hs

theorem findCandidate (x : Side) (n : Nat) (c : Cycle) (hs : P s) : P (findCandidate x n c s) := by
  unfold Machine.findCandidate
  exact keeps_ite (h.rx _ _ (fun _ hr => hr) hs) hs

theorem enterSynced (x : Side) (position : Nat) (n : BitVec 4) (hs : P s) : P (enterSynced x position n s) :=
  h.judgeReachability
    (h.flow _ _ (fun _ => ⟨Nat.zero_le _, nofun, fun _ => rfl⟩)
      (h.rx _ _ (fun _ hr => hr) (h.enterRxState _ _ hs)))

theorem testCandidate (x : Side) (c : Cycle) (hs : P s) : P (testCandidate x c s) := by
  unfold Machine.testCandidate
  dsimp only
  split
  · exact keeps_ite (keeps_ite (h.enterSynced _ _ _ hs) (h.rx _ _ (fun _ hr => hr) hs)) (h.rx _ _ (fun _ hr => hr) hs)
  · exact hs

theorem writeStore (x : Side) (c : Stored) (hs : P s) : P (writeStore x c s) := by
  unfold Machine.writeStore
  split
  · refine h.raise _ _ (h.flow _ _ (fun hg => { hg with }) (h.flow _ _ (fun hg => ⟨?_, fun _ => ?_, hg.unheard⟩) hs))
    · have := hg.size
      simp only [Config.storeSize, List.length_append, List.length_tail, List.length_singleton] at this ⊢
      omega
    · simp
  · rename_i hlt
    refine h.flow _ _ (fun hg => ⟨?_, fun _ => ?_, hg.unheard⟩) hs
    · simp only [List.length_append, List.length_singleton]
      omega
    · simp

theorem readStore (x : Side) (hs : P s) : P (readStore x s) := by
  unfold Machine.readStore
  dsimp only
  split
  · rename_i hm
    split
    · rename_i c d rest hst
      have hl : (s.flow.get x).bounded → (s.flow.get x).store.length = rest.length + 2 ∧ rest.length + 2 ≤ 4 :=
        fun hg => by
          have := hg.size
          rw [hst] at this ⊢
          exact ⟨rfl, this⟩
      split
      · refine h.raise _ _ (h.flow _ _ (fun hg => { hg with }) (h.flow _ _ (fun hg => ⟨?_, fun _ => ?_, nofun⟩) hs))
        · have := hl hg
          simp only [Config.storeSize]
          omega
        · simp only
          omega
      · refine h.flow _ _ (fun hg => ⟨?_, fun _ => ?_, nofun⟩) hs
        · have := hl hg
          simp only [Config.storeSize, List.length_cons]
          omega
        · simp
    · rename_i hst
      refine h.raise _ _ (h.flow _ _ (fun hg => { hg with }) (h.flow _ _ (fun hg => ⟨hg.size, fun _ => ?_, nofun⟩) hs))
      rcases hm with hm | hm
      · exact hg.fed hm
      · exact Nat.le_trans (by decide) hm.2
  · exact h.flow _ _ (fun hg => { hg with }) hs

theorem storeCycle (x : Side) (c : Cycle) (hs : P s) : P (storeCycle x c s) := by
  unfold Machine.storeCycle
  refine h.judgeReachability (h.rx _ _ (fun r hr => ?_) (h.writeStore _ _ hs))
  unfold Receiver.judge
  split <;> exact hr

/-! ### Boundaries -/

theorem takeToward (hs : P s) : P (takeToward s) := h.flow _ _ (fun hg => { hg with }) hs

theorem takeFrom (hs : P s) : P (takeFrom s) := h.flow _ _ (fun hg => { hg with }) hs

theorem takeRoles (b : Bool) (hs : P s) : P (takeRoles b s) := by
  have h1 : P (Machine.takeToward (if b || s.alloc.listsDue then Machine.takeFrom s else s)) :=
    h.takeToward (keeps_ite (h.takeFrom hs) hs)
  unfold Machine.takeRoles
  exact keeps_ite (h.filter _ (fun _ => ⟨rfl, rfl, rfl⟩) (h.filterBreak (h.alloc _ (fun _ => ⟨rfl, rfl⟩) h1))) h1

theorem applyUpdate (hs : P s) : P (applyUpdate s) := by
  unfold Machine.applyUpdate
  split
  · exact hs
  · rename_i u hu
    refine h.ready (h.anyFilter _ (fun hb => ⟨hb.once, hb.apart, hb.below⟩) (fun ht => ?_) hs)
    cases u with
    | put a c => exact Filter.sound.applyPut ht hu
    | drop a => exact Filter.sound.applyDrop a ht

theorem localRoundBoundary (hs : P s) : P (localRoundBoundary s) := by
  unfold Machine.localRoundBoundary
  dsimp only
  refine h.applyUpdate (h.countRings _ (h.judgeTurn (h.startSenders (h.takeRoles _ (h.effectsOnTransmit
    (h.decideHome (h.tickPresence _ (h.tickPresence _ (h.takeNumbering (h.round _ ?_))))))))))
  exact h.homing _ (h.countHoldover (h.reachSenders _ hs))

theorem holdContacts (hs : P s) : P (holdContacts s) := by
  refine keeps_foldl (fun _ _ hs => ?_) _ hs
  exact keeps_ite (h.anyPort _ _ hs) hs

theorem fromHomeRound (hs : P s) : P (fromHomeRound s) := by
  unfold Machine.fromHomeRound
  exact keeps_ite (keeps_ite (h.riseReceivedCount hs) (h.takeFrom (h.riseReceivedCount hs))) hs

theorem towardHomeRound (hs : P s) : P (towardHomeRound s) := by
  unfold Machine.towardHomeRound
  exact keeps_ite (h.localRoundBoundary hs) hs

theorem advance (hs : P s) : P (s.updTiming Timing.advance) := by
  refine h.timing _ (fun hr => ?_) hs
  unfold Timing.advance
  split
  · rename_i hc
    exact { hr with cycle := hc }
  · exact { hr with cycle := Nat.succ_pos _ }

theorem startCycle (x : Side) (hs : P s) : P (s.updFlow x Flow.startCycle) :=
  h.flow _ _ (fun hg => ⟨hg.size, hg.fed, hg.unheard⟩) hs

theorem cycleBoundary (codec : List Byte) (hs : P s) : P (cycleBoundary codec s) := by
  unfold Machine.cycleBoundary
  exact h.gatherMessage _ (h.gatherMessage _ (h.exchange _ (h.towardHomeRound (h.fromHomeRound
    (h.readStore _ (h.readStore _ (h.startCycle _ (h.startCycle _ (h.holdContacts (h.advance hs))))))))))

theorem endCycle (bits : Nat) (hs : P s) : P (endCycle bits s) := by
  unfold Machine.endCycle
  exact h.line _ hs

theorem takeStatus (status : List Half) (hs : P s) : P (takeStatus status s) := by
  refine keeps_foldl (fun _ _ hs => ?_) _ hs
  split
  · exact hs
  · exact keeps_ite (h.port _ _ (fun _ => ⟨rfl, rfl, rfl⟩) hs) hs

theorem statusBoundary (status : List Half) (hs : P s) : P (statusBoundary status s) :=
  h.cycleBoundary _ (h.takeStatus _ hs)

theorem localCycle (status : List Half) (hs : P s) : P (localCycle status s) :=
  h.statusBoundary _ (h.endCycle _ (h.timing _ (fun hr => { hr with }) hs))

theorem signalStart (x : Side) (status : List Half) (hs : P s) : P (signalStart x status s) := by
  unfold Machine.signalStart
  exact keeps_ite (h.statusBoundary _ (h.endCycle _ (h.cycleStart _ hs))) (h.cycleStart _ hs)

theorem takeCycle (arr : Arrival) (hs : P s) : P (takeCycle arr s) := by
  have h2 := h.signalStart arr.port arr.status (h.storeCycle arr.port arr.cycle
    (h.timing (Timing.run arr.elapsed) (fun hr => { hr with }) hs))
  unfold Machine.takeCycle
  exact keeps_ite (keeps_ite (h.rx _ _ (fun _ hr => hr) (h.dropReceiver _ _ h2)) h2) hs

end KeepsBoundary

end Sys2Proof.Machine
end

