-- ==== Sys2Proof/Laws/KeepsAll.lean ====
section
/-! SUPPORT. What a step can do, said once: a property that every named update keeps is kept by every command and by
every step. Each invariant of the part is the case of one property. -/

namespace Sys2Proof.Machine

/-- The updates of the drop ports, the call points' hooks and the requests' settings. -/
structure KeepsSettings (P : State → Prop) : Prop extends KeepsBoundary P where
  anyChan : ∀ {s : State} (k : ChanNo) (f : Channel → Channel), (blocksOwnedOnce s → blocksOwnedOnce (s.updChan k f)) →
    P s → P (s.updChan k f)
  anyCall : ∀ {s : State} (p : PortNo) (f : CallPoint → CallPoint), P s → P (s.updCall p f)
  merge : ∀ {s : State} (m : Vector Bool 4), P s → P { s with merged := m }
  lists : ∀ {s : State} (owned listen : List Nat), legalLists owned listen → P s →
    P (s.updAlloc fun a =>
      { a with
        owned := owned.map fun n => { lane := n, use := .spare, move := none }, listen := listen, listsDue := true })

/-- The updates of every command. -/
structure KeepsAll (P : State → Prop) : Prop extends KeepsSettings P where
  queue : ∀ {s : State} (q : List Instr), P s → P (s.withPending q)
  pinReset : ∀ {s : State} (held : Bool) (pref : Side), P s → P (pinReset held pref s)
  order : ∀ {s t : State}, P s → P t →
    P (t.updLink fun l => { l with reports := orderJoins s.link.reports l.reports })
  talk : ∀ {s : State} (f : Link → Link), (∀ l, (f l).replies = l.replies ∧ (f l).reports = l.reports) → P s →
    P (s.updLink f)
  consumeReply : ∀ {s : State} (b : Bool), P s →
    P (s.updLink fun l => { l with replies := l.replies.tail, overrun := if b then false else l.overrun })
  consumeReport : ∀ {s : State} (src : Source) (later : Word), P s →
    P (s.updLink fun l => { l with reports := consumeReport src later l.reports })
  restart : ∀ {s : State}, P s → P (carryOutRestart s)
  place : ∀ {s : State} (r : Reply), s.link.replies.length < Config.replyQueue → P s →
    P (s.updLink fun l => { l with replies := l.replies ++ [r] })

variable {P : State → Prop} {s : State}

/-! ### The lists of a LANES_SET -/

theorem mem_insertNat {n m : Nat} {l : List Nat} : m ∈ insertNat n l ↔ m = n ∨ m ∈ l := by
  induction l with
  | nil => simp [insertNat]
  | cons a l ih =>
    unfold insertNat
    split
    · simp
    · simp only [List.mem_cons, ih]
      constructor
      · rintro (h | h | h) <;> simp [h]
      · rintro (h | h | h) <;> simp [h]

theorem length_insertNat (n : Nat) (l : List Nat) : (insertNat n l).length = l.length + 1 := by
  induction l with
  | nil => rfl
  | cons a l ih =>
    unfold insertNat
    split
    · rfl
    · simp [ih]

theorem pairwise_insertNat {n : Nat} {l : List Nat} (h : l.Pairwise (· < ·)) (hn : n ∉ l) :
    (insertNat n l).Pairwise (· < ·) := by
  induction l with
  | nil => simp [insertNat]
  | cons a l ih =>
    simp only [List.mem_cons, not_or] at hn
    rw [List.pairwise_cons] at h
    unfold insertNat
    split
    · rename_i hlt
      rw [List.pairwise_cons, List.pairwise_cons]
      refine ⟨fun b hb => ?_, h⟩
      rcases List.mem_cons.mp hb with rfl | hb
      · exact hlt
      · exact Nat.lt_trans hlt (h.1 b hb)
    · rename_i hlt
      rw [List.pairwise_cons]
      refine ⟨fun b hb => ?_, ih h.2 hn.2⟩
      rcases mem_insertNat.mp hb with rfl | hb
      · have := hn.1
        omega
      · exact h.1 b hb

theorem ascending_from (l acc : List Nat) (h : acc.Pairwise (· < ·)) (hl : noRepeat l = true)
    (hd : ∀ n ∈ l, n ∉ acc) :
    (l.foldl (fun acc n => insertNat n acc) acc).Pairwise (· < ·)
      ∧ (l.foldl (fun acc n => insertNat n acc) acc).length = l.length + acc.length
      ∧ ∀ m, m ∈ l.foldl (fun acc n => insertNat n acc) acc ↔ m ∈ l ∨ m ∈ acc := by
  induction l generalizing acc with
  | nil => simp [h]
  | cons n l ih =>
    simp only [noRepeat, Bool.and_eq_true, Bool.not_eq_true', List.contains_eq_mem, decide_eq_false_iff_not] at hl
    have hn := hd n List.mem_cons_self
    have hrest : ∀ m ∈ l, m ∉ insertNat n acc := by
      intro m hm hmem
      rcases mem_insertNat.mp hmem with rfl | hmem
      · exact hl.1 hm
      · exact hd m (List.mem_cons_of_mem _ hm) hmem
    obtain ⟨h1, h2, h3⟩ := ih (insertNat n acc) (pairwise_insertNat h hn) hl.2 hrest
    refine ⟨h1, ?_, fun m => ?_⟩
    · rw [List.foldl_cons, h2, length_insertNat, List.length_cons]
      omega
    · rw [List.foldl_cons, h3, mem_insertNat, List.mem_cons]
      constructor
      · rintro (h | h | h) <;> simp [h]
      · rintro ((h | h) | h) <;> simp [h]

/-- A list without repeats in ascending order: strictly rising, of the same length, with the same members. -/
theorem ascending_spec {l : List Nat} (h : noRepeat l = true) :
    (ascending l).Pairwise (· < ·) ∧ (ascending l).length = l.length ∧ ∀ m, m ∈ ascending l ↔ m ∈ l := by
  have := ascending_from l [] List.Pairwise.nil h (by simp)
  simpa [ascending] using this

theorem noRepeat_append {l m : List Nat} (h : noRepeat (l ++ m) = true) :
    noRepeat l = true ∧ noRepeat m = true ∧ ∀ n ∈ l, n ∉ m := by
  induction l with
  | nil => exact ⟨rfl, h, by simp⟩
  | cons a l ih =>
    simp only [List.cons_append, noRepeat, Bool.and_eq_true, Bool.not_eq_true', List.contains_eq_mem,
      decide_eq_false_iff_not, List.mem_append, not_or] at h
    obtain ⟨h1, h2, h3⟩ := ih h.2
    refine ⟨by simp [noRepeat, h.1.1, h1], h2, fun n hn => ?_⟩
    rcases List.mem_cons.mp hn with rfl | hn
    · exact h.1.2
    · exact h3 n hn

namespace KeepsSettings

variable (h : KeepsSettings P)
include h

/-! ### Drop ports -/

theorem updPortRx (p : PortNo) (f : PortRx → PortRx) (hs : P s) : P (updPortRx p f s) := h.anyPort _ _ hs

theorem closeRx (p : PortNo) (hs : P s) : P (closeRx p s) := h.updPortRx p _ hs

theorem openRx (p : PortNo) (hs : P s) : P (openRx p s) := h.updPortRx p _ hs

theorem payloadIn (p : PortNo) (k : ChanNo) (b : Byte) (hs : P s) : P (payloadIn p k b s) := by
  unfold Machine.payloadIn Machine.discardRx
  have h1 := fun f => h.anyPort p f (h.writerByte k b hs)
  exact keeps_ite (h.closeRx _ (h.writerDiscard _ _ (h1 _))) (h1 _)

theorem holdByte (p : PortNo) (k : ChanNo) (b : Byte) (hs : P s) : P (holdByte p k b s) := by
  unfold Machine.holdByte
  dsimp only
  split
  · exact h.anyPort _ _ hs
  · split
    · exact hs
    · exact h.payloadIn _ _ _ (h.anyPort _ _ hs)

theorem closeSpan (p : PortNo) (k : ChanNo) (hs : P s) : P (closeSpan p k s) := by
  unfold Machine.closeSpan
  exact h.openRx _ (keeps_ite hs (keeps_ite (h.writerDiscard _ _ hs) (keeps_ite (h.writerDiscard _ _ hs)
    (keeps_ite (h.writerDiscard _ _ hs) (h.writerClose _ hs)))))

theorem framedIdle (p : PortNo) (c : ChannelSettings) (b : Byte) (hs : P s) : P (framedIdle p c b s) := by
  unfold Machine.framedIdle
  exact keeps_ite (keeps_ite (h.closeRx _ hs) (h.openRx _ hs)) (h.updPortRx _ _ hs)

theorem discardRx (p : PortNo) (k : ChanNo) (d : Discard) (hs : P s) : P (discardRx p k d s) :=
  h.closeRx _ (h.writerDiscard _ _ hs)

theorem framedOpen (p : PortNo) (k : ChanNo) (b : Byte) (hs : P s) : P (framedOpen p k b s) := by
  unfold Machine.framedOpen
  exact keeps_ite (h.anyPort _ _ hs) (keeps_ite
    (keeps_ite (keeps_ite (h.discardRx _ _ _ hs) (h.closeRx _ hs)) (h.closeSpan _ _ hs))
    (h.holdByte _ _ _ (h.anyPort _ _ hs)))

theorem closeTransparent (p : PortNo) (k : ChanNo) (hs : P s) : P (closeTransparent p k s) :=
  h.closeRx _ (h.writerClose _ hs)

theorem transparentBytes (p : PortNo) (k : ChanNo) (bs : List Byte) (hs : P s) : P (transparentBytes p k bs s) := by
  have h1 : P (bs.foldl (fun s b => Machine.writerByte k b s) s) := keeps_foldl (fun _ b hs => h.writerByte k b hs) _ hs
  unfold Machine.transparentBytes
  exact keeps_ite (h.closeTransparent _ _ h1) (h.anyPort _ _ h1)

theorem transparentByte (p : PortNo) (k : ChanNo) (b : Byte) (hs : P s) : P (transparentByte p k b s) := by
  unfold Machine.transparentByte
  exact keeps_ite (keeps_ite hs (keeps_ite (h.closeTransparent _ _ hs) (keeps_ite (h.transparentBytes _ _ _ hs)
    (h.anyPort _ _ hs)))) (h.transparentBytes _ _ _ hs)

theorem charError (p : PortNo) (k : ChanNo) (hs : P s) : P (charError p k s) := by
  unfold Machine.charError
  exact keeps_ite (keeps_ite (h.closeRx _ hs) (h.discardRx _ _ _ hs)) hs

theorem takeByte (p : PortNo) (k : ChanNo) (b : Byte) (hs : P s) : P (takeByte p k b s) := by
  unfold Machine.takeByte
  exact keeps_ite (h.transparentByte _ _ _ hs) (keeps_ite (h.framedOpen _ _ _ hs) (h.framedIdle _ _ _ hs))

theorem searchBit (p : PortNo) (c : ChannelSettings) (bit : Bool) (hs : P s) : P (searchBit p c bit s) := by
  unfold Machine.searchBit
  exact keeps_ite (keeps_ite (h.closeRx _ hs) (h.openRx _ hs)) (h.updPortRx _ _ hs)

theorem alignedBit (p : PortNo) (k : ChanNo) (bit : Bool) (hs : P s) : P (alignedBit p k bit s) := by
  unfold Machine.alignedBit
  exact keeps_ite (h.updPortRx _ _ hs) (h.takeByte _ _ _ (h.updPortRx _ _ hs))

theorem takeBit (p : PortNo) (bit : Bool) (hs : P s) : P (takeBit p bit s) := by
  unfold Machine.takeBit
  split
  · exact hs
  · exact keeps_ite (h.searchBit _ _ _ hs) (h.alignedBit _ _ _ hs)

theorem receiveByte (p : PortNo) (b : LineByte) (hs : P s) : P (receiveByte p b s) := by
  unfold Machine.receiveByte
  split
  · exact hs
  · split
    · exact h.charError _ _ hs
    · exact h.takeByte _ _ _ hs
    · refine keeps_ite (keeps_foldl (fun _ bit hs => h.takeBit p bit hs) _ hs) ?_
      split
      · exact h.takeByte _ _ _ hs
      · exact h.charError _ _ hs
      · exact hs

theorem idleGap (p : PortNo) (hs : P s) : P (idleGap p s) := by
  unfold Machine.idleGap
  split
  · exact hs
  · exact keeps_ite (h.closeTransparent _ _ hs) hs

theorem arbiter (p : PortNo) (hs : P s) : P (arbiter p s) := by
  unfold Machine.arbiter
  split
  · split
    · exact hs
    · split
      · exact hs
      · rename_i hc
        exact h.anyPort _ _ (h.setOut (by rw [hc]; exact Chain.updOldest_blocks _ _ _) (.none _) hs)
  · exact hs

theorem dropSending (k : ChanNo) (d : Discard) (hs : P s) : P (dropSending k d s) := by
  have h1 := h.countDiscard k d hs
  have h2 : P (match (Machine.countDiscard k d s).chans[k].outChain with
      | none => Machine.countDiscard k d s
      | some c => Machine.setOut k c.dropOldest (Machine.countDiscard k d s).mem (Machine.countDiscard k d s)) := by
    split
    · exact h1
    · rename_i hc
      exact h.setOut (by rw [hc]; exact Chain.dropOldest_blocks _) (.none _) h1
  unfold Machine.dropSending
  exact keeps_ite (h.stopWriting _ h2) h2

theorem chooseBytes (p : PortNo) (k : ChanNo) (hs : P s) : P (chooseBytes p k s) := by
  unfold Machine.chooseBytes
  split
  · exact hs
  · split
    · exact hs
    · exact keeps_ite (h.anyPort _ _ hs) (keeps_ite (h.anyPort _ _ hs) (h.dropSending _ _ (h.abortOnPort _ hs)))

theorem emitByte (p : PortNo) (hs : P s) : P (emitByte p s) := by
  unfold Machine.emitByte
  split
  · exact hs
  · have h1 := fun f => h.anyPort p f hs
    dsimp only
    split
    · split
      · exact h1 _
      · rename_i hc
        exact h.settleTransparent _ (h.setOut (by rw [hc]; exact Chain.updOldest_blocks _ _ _) (.none _) (h1 _))
    · exact h.frameWhole _ _ (h1 _)
    · exact h.anyPort _ _ (h1 _)
    · exact h1 _

theorem sendNext (p : PortNo) (hs : P s) : P (sendNext p s) := by
  unfold Machine.sendNext
  split
  · exact keeps_ite (h.updPortTx _ _ hs) (h.emitByte _ hs)
  · split
    · split
      · exact h.emitByte _ (h.anyPort _ _ hs)
      · exact hs
    · exact h.emitByte _ hs
  · exact h.emitByte _ (keeps_ite (h.chooseBytes _ _ hs) hs)

theorem settleFrames (p : PortNo) (n : Nat) (hs : P s) : P (settleFrames p n s) := by
  induction n generalizing s with
  | zero => exact hs
  | succ n ih => exact ih (h.settleTransparent _ (h.arbiter _ hs))

theorem sendByte (p : PortNo) (hs : P s) : P (sendByte p s) := by
  unfold Machine.sendByte
  exact keeps_ite (h.sendNext _ (h.settleFrames _ _ hs)) hs

theorem judgeHeld (p : PortNo) (hs : P s) : P (judgeHeld p s) := by
  unfold Machine.judgeHeld
  dsimp only
  split
  · exact keeps_ite hs (h.anyPort _ _ hs)
  · exact keeps_ite (h.anyPort _ _ hs) hs
  · exact keeps_ite (h.anyPort _ _ (keeps_ite hs (h.dropSending _ _ (h.abortOnPort _ hs)))) hs

/-! ### Contact inputs, functions and pairs -/

theorem judgeIncident (hs : P s) : P (judgeIncident s) := by
  unfold Machine.judgeIncident
  exact keeps_ite hs (h.setIncident _ hs)

theorem takeContact (p : PortNo) (n : Fin 4) (hs : P s) : P (takeContact p n s) := h.raise _ _ (h.anyPort _ _ hs)

theorem contactChanges (p : PortNo) (n : Fin 4) (hs : P s) : P (contactChanges p n s) := by
  unfold Machine.contactChanges
  exact keeps_ite (h.judgeIncident (h.takeContact _ _ hs)) hs

theorem retestContacts (p : PortNo) (d : Nat) (hs : P s) : P (retestContacts p d s) := by
  refine keeps_foldl (fun _ _ hs => ?_) _ hs
  exact keeps_ite (h.takeContact _ _ hs) hs

theorem startFunction (p : PortNo) (hs : P s) : P (startFunction p s) :=
  h.anyCall p (fun _ => CallPoint.initial (match s.ports[p].own with
    | .callpoint level => level
    | _ => 7)) (h.anyPort _ _ hs)

theorem setPort (p : PortNo) (o : PortSetting) (hs : P s) : P (setPort p o s) := by
  have h1 := h.anyPort p (fun q => { q with own := o }) hs
  unfold Machine.setPort
  dsimp only
  split
  · exact h1
  · split
    · exact h.judgeIncident (h.startFunction _ h1)
    · split
      · exact h.anyCall _ _ h1
      · exact h.judgeIncident (h.retestContacts _ _ h1)
      · exact h1

theorem setMerged (k : Fin 4) (b : Bool) (hs : P s) : P (setMerged k b s) := by
  unfold Machine.setMerged
  exact keeps_ite hs (h.judgeIncident (h.startFunction _ (h.startFunction _ (h.merge _ hs))))

/-! ### Call points' hooks -/

theorem takeOffHook (p : PortNo) (hs : P s) : P (takeOffHook p s) := by
  have h1 := h.anyCall p (fun c => { c with offHook := true }) hs
  unfold Machine.takeOffHook
  dsimp only
  split
  · split
    · exact h.placeCall _ _ h1
    · exact h.sendAnswered _ (h.enterCallState _ _ h1)
    · exact h.raise _ _ (h.anyCall _ _ h1)
    · exact h.raise _ _ (keeps_ite (h.anyCall _ _ h1) h1)
    · exact h.raise _ _ h1
  · exact hs

theorem takeOnHook (p : PortNo) (hs : P s) : P (takeOnHook p s) := by
  have h1 := h.anyCall p (fun c => { c with offHook := false }) hs
  unfold Machine.takeOnHook
  dsimp only
  split
  · split
    · exact h.clearCall _ _ h1
    · exact h.clearCall _ _ h1
    · exact h.clearCall _ _ h1
    · exact h.raise _ _ (h.anyCall _ _ h1)
    · exact keeps_ite (h.raise _ _ (h.anyCall _ _ h1)) (h.withdrawCall _ _ h1)
    · exact h.enterCallState _ _ h1
    · exact h.raise _ _ h1
  · exact hs

/-! ### The answers of the requests -/

theorem nodeSet (a : Byte) (r : Half) (o n u f : Byte) (hs : P s) : P (nodeSet a r o n u f s).1 := by
  unfold Machine.nodeSet
  split
  · exact hs
  · split
    · exact h.setIncidentFloor _ (h.round _ (h.setHoming _ _ _ hs))
    · exact hs

theorem lanesSet (owned listen : List Byte) (hs : P s) : P (lanesSet owned listen s).1 := by
  unfold Machine.lanesSet
  dsimp only
  split
  · exact hs
  · rename_i hr
    split
    · exact hs
    · rename_i hn
      split
      · exact hs
      · simp only [Bool.not_eq_true', Bool.not_eq_false] at hn
        obtain ⟨h1, h2, h3⟩ := noRepeat_append hn
        obtain ⟨o1, o2, o3⟩ := ascending_spec h1
        obtain ⟨l1, l2, l3⟩ := ascending_spec h2
        simp only [Bool.or_eq_true, decide_eq_true_eq, List.any_eq_true, not_or, Nat.not_lt, not_exists, not_and,
          Nat.not_le, List.mem_append] at hr
        dsimp only
        refine h.round _ (h.lists _ _ ⟨o1, l1, ?_, ?_, fun l hl => ⟨?_, ?_⟩, fun l hl => ?_⟩ hs)
        · rw [o2]
          exact hr.1.1
        · rw [l2]
          exact hr.1.2
        · exact hr.2 l (Or.inl ((o3 l).mp hl))
        · exact fun hm => h3 l ((o3 l).mp hl) ((l3 l).mp hm)
        · exact hr.2 l (Or.inr ((l3 l).mp hl))

theorem homeForce (fields : ForceFields) (hs : P s) : P (homeForce fields s).1 := by
  unfold Machine.homeForce
  split
  · exact hs
  · split
    · exact hs
    · split
      · exact hs
      · exact h.forceHome _ hs

theorem homeRelease (b : Byte) (hs : P s) : P (homeRelease b s).1 := by
  unfold Machine.homeRelease
  split
  · exact h.releaseHome hs
  · split <;> exact hs

theorem timingSet (t a b : Marked Half) (l : Marked Word) (hs : P s) : P (timingSet t a b l s).1 := by
  have h1 : P (s.updTiming (Timing.configure t a b l)) := by
    refine h.timing _ (fun hr => ?_) hs
    have hc := clampInt_bounds (x := t.value.toInt) (low := -1024) (high := 1023) (by omega)
    have hl := clampNat_bounds (x := l.value.toNat) (low := 1) (high := 86400) (by omega)
    unfold Timing.configure
    refine { hr with correction := ?_, trim := ?_, delays := ⟨?_, ?_⟩, limit := ?_ } <;> dsimp only <;> split
    · exact hc
    · exact hr.correction
    · exact hc
    · exact hr.trim
    · exact a.value.isLt
    · exact hr.delays.1
    · exact b.value.isLt
    · exact hr.delays.2
    · exact hl
    · exact hr.limit
  unfold Machine.timingSet
  dsimp only
  split
  · exact hs
  · split
    · exact hs
    · exact keeps_ite (h.raise _ _ h1) h1

theorem selectFree (hs : P s) : P (selectFree s) := by
  have h1 := h.timing (s := s) (fun t =>
    { t with
      auto := false, mode := .free, correction := t.trim, lockCount := 0, unlockCount := 0, realignCount := 0,
      armed := false, holdTimer := 0 })
    (fun hr =>
      { hr with
        correction := hr.trim, holdTimer := Nat.zero_le _, lock := ⟨Nat.zero_le _, fun hm => by cases hm⟩,
        unlock := ⟨Nat.zero_le _, fun hm => by cases hm⟩, realign := ⟨Nat.zero_le _, fun hm => by cases hm⟩ }) hs
  unfold Machine.selectFree
  exact keeps_ite h1 (h.raise _ _ h1)

theorem timingMode (b : Byte) (hs : P s) : P (timingMode b s).1 := by
  unfold Machine.timingMode
  split
  · exact h.selectFree hs
  · split
    · unfold Machine.selectAuto
      split
      · exact hs
      · split
        · dsimp only
          exact h.timing _ (fun hr => { hr with }) hs
        · exact hs
    · exact hs

theorem timeSet (seconds : Word) (cycle : Half) (hs : P s) : P (timeSet seconds cycle s).1 := by
  unfold Machine.timeSet
  split
  · exact hs
  · rename_i hc
    split
    · exact hs
    · have h1 := h.raise .timing Mark.timeSet (h.timing (s := s) (fun t =>
        { t with seconds := seconds, cycle := cycle.toNat, validity := .fromHost, source := none })
        (fun hr => { hr with cycle := by show cycle.toNat < 8000; omega }) hs)
      exact keeps_ite h1 (h.raise _ _ h1)

theorem floorSet (f b : Byte) (hs : P s) : P (floorSet f b s).state := by
  unfold Machine.floorSet
  split
  · exact hs
  · exact h.setHostFloor _ _ hs

theorem portSet (p : Byte) (f : PortFields) (hs : P s) : P (portSet p f s).1 := by
  unfold Machine.portSet
  split
  · split
    · exact hs
    · exact h.setPort _ _ hs
  · exact hs

theorem pairSet (p a : Byte) (hs : P s) : P (pairSet p a s).1 := by
  unfold Machine.pairSet
  split
  · exact hs
  · split
    · exact hs
    · split
      · exact hs
      · exact h.setMerged _ _ hs

theorem callClear (p : Byte) (hs : P s) : P (callClear p s).1 := by
  unfold Machine.callClear
  split
  · exact hs
  · split
    · exact h.hostClear _ hs
    · exact hs

theorem channelSet (k : Byte) (f : ChannelFields) (hs : P s) : P (channelSet k f s).1 := by
  unfold Machine.channelSet
  split
  · rename_i k _ _ _
    split
    · exact hs
    · split
      · exact hs
      · dsimp only
        refine h.anyChan _ _ (fun hb => hb.updChan ?_ fun b hm => ?_) hs
        · refine List.Nodup.sublist ?_ (hb.once k)
          simp only [heldBlocks, chans_updChan_same]
          split
          · exact List.sublist_append_right _ _
          · exact List.Sublist.refl _
        · left
          simp only [heldBlocks, chans_updChan_same, List.mem_append] at hm ⊢
          rcases hm with hm | hm
          · split at hm
            · simp [chainBlocks] at hm
            · exact .inl hm
          · exact .inr hm
  · exact hs

omit h in
/-- A CHAIN_SET that passes its OVERLAP test leaves every block with one owner (R144). -/
theorem chainSet_blocks {k : ChanNo} {out : Bool} {runs : List (Nat × Nat)}
    (ho : ¬ (!noRepeat (runBlocks runs) || (runBlocks runs).any fun b =>
      decide (ownerOf s b ≠ .free)
        && decide (ownerOf s b ≠ (if out then Owner.outbound k else Owner.inbound k))) = true) (hb : blocksOwnedOnce s) :
    blocksOwnedOnce (s.updChan k fun c =>
      if out then { c with outChain := chainOf runs } else { c with inChain := chainOf runs }) := by
  simp only [Bool.or_eq_true, Bool.not_eq_true', not_or, Bool.not_eq_false, List.any_eq_true, Bool.and_eq_true,
    decide_eq_true_eq, not_exists, not_and, ne_eq, Decidable.not_not] at ho
  refine hb.chainSet ho.1 fun b hm => ?_
  by_cases hf : ownerOf s b = .free
  · exact .inl hf
  · exact .inr (ho.2 b hm hf)

theorem chainSet (k d : Byte) (runs : List (Half × Half)) (hs : P s) : P (chainSet k d runs s).1 := by
  unfold Machine.chainSet
  dsimp only
  split
  · rename_i k out _ _
    cases out
    all_goals
      split
      · exact hs
      · split
        · exact hs
        · split
          · exact hs
          · simp only [Bool.false_eq_true, if_false, if_true]
            split
            · exact hs
            · rename_i ho
              split
              · exact hs
              · first
                | exact h.anyChan _ _ (chainSet_blocks (k := k) (out := false) (by simpa using ho)) hs
                | exact h.anyChan _ _ (chainSet_blocks (k := k) (out := true) (by simpa using ho)) hs
  · exact hs

theorem portTakesUp (k : ChanNo) (hs : P s) : P (portTakesUp k s) := by
  unfold Machine.portTakesUp
  split
  · exact hs
  · exact h.judgeHeld _ (keeps_ite hs (h.refreshReady _ (h.closeRx _ hs)))

theorem channelStart (k : Byte) (hs : P s) : P (channelStart k s).1 := by
  unfold Machine.channelStart
  split
  · exact hs
  · rename_i k _
    split
    · exact hs
    · exact hs
    · split
      · exact hs
      · split
        · exact hs
        · split
          · exact hs
          · have h1 := h.toKeeps.enterChanState k .active (h.chan k Channel.cleared
              ⟨rfl, chainBlocks_map_emptied _, chainBlocks_map_emptied _⟩ hs)
            exact h.portTakesUp _ (keeps_ite h1 (h.startLanes _ h1))

theorem stopInbound (k : ChanNo) (hs : P s) : P (stopInbound k s) := by
  unfold Machine.stopInbound
  split
  · exact hs
  · split
    · exact hs
    · exact keeps_ite (h.countDiscard _ _ (h.oweAbort _ hs)) hs

theorem stopOutbound (k : ChanNo) (hs : P s) : P (stopOutbound k s) := by
  have h1 := keeps_ite (c := sendingFrame s k = true) (h.abortOnPort k hs) hs
  have h2 := keeps_ite (c := beingWritten s k = true) (h.stopWriting k (h.countDiscard k .aborted h1)) h1
  unfold Machine.stopOutbound
  exact keeps_ite (h.countDiscard _ _ h2) h2

theorem channelStop (k : Byte) (hs : P s) : P (channelStop k s).1 := by
  unfold Machine.channelStop
  split
  · exact hs
  · split
    · exact hs
    · rename_i k _ _
      have h3 := fun st => h.toKeeps.enterChanState k st (h.chan k (fun c =>
        { c with
          inChain := c.inChain.map Chain.emptied, outChain := c.outChain.map Chain.emptied, writer := .idle,
          parser := Parser.initial }) ⟨rfl, chainBlocks_map_emptied _, chainBlocks_map_emptied _⟩ (h.stopOutbound k (h.stopInbound k hs)))
      exact h.portTakesUp _ (keeps_ite (h3 _) (h.stopLanes _ (h3 _)))

theorem stationSize (c : Half) (hs : P s) : P (stationSize c s).1 := by
  unfold Machine.stationSize
  dsimp only
  split
  · exact hs
  · rename_i hr
    split
    · exact hs
    · rename_i hb
      split
      · exact hs
      · rename_i hf
        split
        · exact hs
        · rename_i ho
          simp only [Bool.or_eq_true, not_or, Option.isSome_iff_ne_none, ne_eq, Decidable.not_not] at hb
          refine h.anyFilter (fun f => { f with capacity := c.toNat })
            (fun hk => hk.resize rfl (fun i hi => ?_) hk.inMemory) (fun ht => ?_) hs
          · refine Decidable.byContradiction fun hn => ho (List.any_eq_true.mpr ⟨i, List.mem_range.mpr hi, ?_⟩)
            rw [not_or] at hn
            simp [hn.1, hn.2]
          · exact
              { sorted := ht.sorted, addresses := ht.addresses, size := Nat.le_of_not_lt hf,
                capacity := ⟨Decidable.byContradiction fun hn => hr (.inl hn), Nat.le_of_not_lt fun hn => hr (.inr hn)⟩,
                update := fun _ _ hu => by cases hb.2.symm.trans hu }

/-- A request that puts an update in flight leaves the owners of the blocks and the table as they are. -/
theorem inFlight {u : Update}
    (hu : ∀ a c, u = .put a c → s.filter.sound →
      1 ≤ a ∧ a ≤ 65534 ∧ ((lookupStation a s.filter.table).isSome = true ∨ s.filter.table.length < s.filter.capacity))
    (hs : P s) : P (s.updFilter fun f => { f with update := some u }) :=
  h.anyFilter _ (fun hk => ⟨hk.once, hk.apart, hk.below⟩)
    (fun ht =>
      { sorted := ht.sorted, addresses := ht.addresses, size := ht.size, capacity := ht.capacity,
        update := fun a c he => hu a c (Option.some.inj he) ht }) hs

omit h in
/-- A station address that an update may name lies in 1 to 65534. -/
theorem badAddress_range {a : Half} (ha : badAddress a = false) : 1 ≤ a.toNat ∧ a.toNat ≤ 65534 := by
  simp only [badAddress, Bool.or_eq_false_iff, decide_eq_false_iff_not] at ha
  have h0 : a.toNat ≠ 0 := fun e => ha.1 (BitVec.eq_of_toNat_eq e)
  have h1 : a.toNat ≠ 65535 := fun e => ha.2 (BitVec.eq_of_toNat_eq e)
  have := a.isLt
  omega

theorem stationPut (a c : Half) (hs : P s) : P (stationPut a c s).1 := by
  unfold Machine.stationPut
  split
  · exact hs
  · rename_i hr
    split
    · exact hs
    · split
      · exact hs
      · rename_i hf
        refine h.inFlight (fun a' c' he ht => ?_) hs
        cases he
        simp only [Bool.or_eq_true, not_or, Bool.not_eq_true] at hr
        have hb := badAddress_range hr.1
        refine ⟨hb.1, hb.2, ?_⟩
        cases hl : lookupStation a.toNat s.filter.table with
        | some v => exact .inl rfl
        | none =>
          refine .inr (Nat.lt_of_not_le fun hle => hf ?_)
          simp [hl, hle]

theorem stationDrop (a : Half) (hs : P s) : P (stationDrop a s).1 := by
  unfold Machine.stationDrop
  split
  · exact hs
  · split
    · exact hs
    · split
      · exact hs
      · exact h.inFlight (fun _ _ he _ => by cases he) hs

omit h in
theorem stationRead (a : Half) (c : Byte) (hs : P s) : P (stationRead a c s).state := by
  unfold Machine.stationRead
  split <;> exact hs

theorem channelStatus (k c : Byte) (hs : P s) : P (channelStatus k c s).state := by
  unfold Machine.channelStatus
  split
  · exact keeps_ite (h.chan _ _ ⟨rfl, rfl, rfl⟩ hs) hs
  · exact hs

end KeepsSettings

namespace KeepsAll

variable (h : KeepsAll P)
include h

theorem atInstant {e : State → State} (he : ∀ s, P s → P (e s)) (hs : P s) : P (atInstant e s) := by
  unfold Machine.atInstant
  exact keeps_ite hs (h.order hs (he s hs))

omit h in
theorem onOccasion {o : State → State → Bool} {e : State → State} (he : ∀ s, P s → P (e s)) (hs : P s) :
    P (onOccasion o e s) := by
  unfold Machine.onOccasion
  exact keeps_ite (he s hs) hs

/-! ### The end of a transaction -/

theorem consume (t : Transaction) (n : Nat) (hs : P s) : P (consume t n s) := by
  unfold Machine.consume
  split
  · split
    · have h1 := h.consumeReply t.overrun hs
      dsimp only
      split
      · exact keeps_ite (h.restart h1) h1
      · exact h1
    · rename_i src _
      have h1 := h.consumeReport src t.later hs
      exact keeps_ite (h.homing _ h1) h1
    · exact hs
  · exact hs

theorem finishTransaction (n : Nat) (hs : P s) : P (finishTransaction n s) := by
  have h1 := h.talk (fun l => { l with transaction := none, sent := sentBytes (runningTransaction s).bytes n })
    (fun _ => ⟨rfl, rfl⟩) hs
  unfold Machine.finishTransaction
  exact keeps_ite h1 (h.consume _ _ h1)

theorem placeReply (tag : Byte) (w r : Bool) (a : Answer) (ha : P a.state)
    (hl : a.state.link.replies.length < Config.replyQueue) (hn : s.link.replies.length < Config.replyQueue) (hs : P s) :
    P (placeReply tag w r a s) := by
  unfold Machine.placeReply
  dsimp only
  by_cases hok : decide (a.status = .ok) = true
  · rw [if_pos hok]
    exact h.place _ hl ha
  · rw [if_neg hok]
    exact h.place _ hn hs

theorem judgeRequest (tag : Byte) (w : Bool) (answer : State → Answer)
    (ha : ∀ u, P u → P (answer u).state ∧ (answer u).state.link.replies.length = u.link.replies.length) (hs : P s) :
    P (judgeRequest tag w answer s) := by
  unfold Machine.judgeRequest
  split
  · exact hs
  · split
    · exact h.talk _ (fun _ => ⟨rfl, rfl⟩) hs
    · rename_i hn
      have hn' := Nat.lt_of_not_le hn
      exact h.placeReply _ _ _ _ (ha s hs).1 (by rw [(ha s hs).2]; exact hn') hn' hs

end KeepsAll

end Sys2Proof.Machine
end

