-- ==== Sys2Proof/Laws/Reports.lean ====
section
/-! SUPPORT. The report pending set (R180): what gathering a mark, ordering the sources that join at one instant, and
consuming a report do to its sources. -/

namespace Sys2Proof.Machine

/-- The sources of a set. -/
abbrev sourcesOf (l : List (Source × Word)) : List Source := l.map Prod.fst

/-- A source stands in the set exactly when it has marks. -/
theorem marksOf_isSome {src : Source} {l : List (Source × Word)} : (marksOf src l).isSome ↔ src ∈ sourcesOf l := by
  induction l with
  | nil => simp [marksOf]
  | cons e l ih =>
    obtain ⟨q, w⟩ := e
    unfold marksOf
    by_cases hq : q = src
    · simp [hq]
    · have : src ≠ q := fun e => hq e.symm
      simp [hq, ih, this]

/-- A mark on a source that stands in the set leaves the sources and their order alone; on another it joins the source
at the tail. -/
theorem sourcesOf_gatherMark (src : Source) (m : Word) (l : List (Source × Word)) :
    sourcesOf (gatherMark src m l) = if src ∈ sourcesOf l then sourcesOf l else sourcesOf l ++ [src] := by
  induction l with
  | nil => rfl
  | cons e l ih =>
    obtain ⟨q, w⟩ := e
    unfold gatherMark
    by_cases hq : q = src
    · simp [hq]
    · have hq' : src ≠ q := fun e => hq e.symm
      simp only [hq, if_false, sourcesOf, List.map_cons, List.mem_cons, hq', false_or] at ih ⊢
      rw [ih]
      split <;> simp

/-- A gathered mark is added to the marks of its source. -/
theorem marksOf_gatherMark_same (src : Source) (m : Word) (l : List (Source × Word)) :
    marksOf src (gatherMark src m l) = some ((marksOf src l).getD 0#32 ||| m) := by
  induction l with
  | nil => simp [gatherMark, marksOf]
  | cons e l ih =>
    obtain ⟨q, w⟩ := e
    by_cases hq : q = src <;> simp [gatherMark, marksOf, hq, ih]

/-- The marks of every other source are left alone. -/
theorem marksOf_gatherMark_of_ne {src q : Source} (m : Word) (l : List (Source × Word)) (h : q ≠ src) :
    marksOf q (gatherMark src m l) = marksOf q l := by
  induction l with
  | nil => simp [gatherMark, marksOf, h.symm]
  | cons e l ih =>
    obtain ⟨r, w⟩ := e
    by_cases hr : r = src
    · have : ¬ src = q := fun e => h e.symm
      simp [gatherMark, marksOf, hr, this]
    · simp [gatherMark, marksOf, hr, ih]

theorem nodup_gatherMark {src : Source} {m : Word} {l : List (Source × Word)} (h : (sourcesOf l).Nodup) :
    (sourcesOf (gatherMark src m l)).Nodup := by
  rw [sourcesOf_gatherMark]
  split
  · exact h
  · rename_i hs
    exact List.nodup_append.mpr ⟨h, by simp, fun a ha b hb => by
      have := List.mem_singleton.mp hb
      rintro rfl
      exact hs (this ▸ ha)⟩

/-! ### Joining at one instant -/

theorem insertByCode_perm (e : Source × Word) (l : List (Source × Word)) : (insertByCode e l).Perm (e :: l) := by
  induction l with
  | nil => exact List.Perm.refl _
  | cons q l ih =>
    unfold insertByCode
    split
    · exact List.Perm.refl _
    · exact (List.Perm.cons q ih).trans (List.Perm.swap e q l)

theorem foldl_insertByCode_perm (l acc : List (Source × Word)) :
    (l.foldl (fun acc e => insertByCode e acc) acc).Perm (l ++ acc) := by
  induction l generalizing acc with
  | nil => exact List.Perm.refl _
  | cons e l ih => exact (ih _).trans (((insertByCode_perm e acc).append_left l).trans List.perm_middle)

/-- The order of joining changes the places of the sources only. -/
theorem orderJoins_perm (before after : List (Source × Word)) : (orderJoins before after).Perm after := by
  have h1 := foldl_insertByCode_perm (after.filter fun e => (marksOf e.1 before).isNone) []
  rw [List.append_nil] at h1
  refine (h1.append_left _).trans ?_
  have h2 : (fun e : Source × Word => (marksOf e.1 before).isNone)
      = fun e => !((fun e : Source × Word => (marksOf e.1 before).isSome) e) := by
    funext e
    simp only
    cases marksOf e.1 before <;> rfl
  rw [h2]
  exact List.filter_append_perm _ after

/-- With no source that joins, nothing moves. -/
theorem orderJoins_of_subset {before after : List (Source × Word)} (h : ∀ e ∈ after, e.1 ∈ sourcesOf before) :
    orderJoins before after = after := by
  have h1 : after.filter (fun e => (marksOf e.1 before).isSome) = after :=
    List.filter_eq_self.mpr fun e he => by simpa [marksOf_isSome] using h e he
  have h2 : after.filter (fun e => (marksOf e.1 before).isNone) = [] :=
    List.filter_eq_nil_iff.mpr fun e he => by
      have := marksOf_isSome.mpr (h e he)
      cases hm : marksOf e.1 before <;> simp_all
  rw [orderJoins, h1, h2]
  simp

@[simp] theorem orderJoins_self (l : List (Source × Word)) : orderJoins l l = l :=
  orderJoins_of_subset fun _ he => List.mem_map_of_mem he

/-- One mark gathered at an instant stands where gathering puts it. -/
theorem orderJoins_gatherMark (src : Source) (m : Word) (l : List (Source × Word)) :
    orderJoins l (gatherMark src m l) = gatherMark src m l := by
  by_cases hs : src ∈ sourcesOf l
  · refine orderJoins_of_subset fun e he => ?_
    have : e.1 ∈ sourcesOf (gatherMark src m l) := List.mem_map_of_mem he
    rw [sourcesOf_gatherMark, if_pos hs] at this
    exact this
  · have happ : ∀ k : List (Source × Word), src ∉ sourcesOf k → gatherMark src m k = k ++ [(src, m)] := by
      intro k
      induction k with
      | nil => intro _; rfl
      | cons r k ih =>
        obtain ⟨q, w⟩ := r
        intro hk
        simp only [sourcesOf, List.map_cons, List.mem_cons, not_or] at hk
        have hq : ¬ q = src := fun e => hk.1 e.symm
        simp [gatherMark, hq, ih hk.2]
    have hold : ∀ e ∈ l, (marksOf e.1 l).isSome = true := fun e he => marksOf_isSome.mpr (List.mem_map_of_mem he)
    have hnew : marksOf src l = none := by
      cases hm : marksOf src l with
      | none => rfl
      | some w => exact absurd (marksOf_isSome.mp (by rw [hm]; rfl)) hs
    have h1 : l.filter (fun e => (marksOf e.1 l).isSome) = l := List.filter_eq_self.mpr hold
    have h2 : l.filter (fun e => (marksOf e.1 l).isNone) = [] :=
      List.filter_eq_nil_iff.mpr fun e he => by
        have := hold e he
        cases hm : marksOf e.1 l <;> simp_all
    rw [happ l hs, orderJoins, List.filter_append, List.filter_append, h1, h2]
    simp [hnew, insertByCode]

/-! ### An event, and the end of an instant -/

@[simp] theorem raise_resetHeld (src : Source) (m : Nat) (s : State) : (raise src m s).resetHeld = s.resetHeld := rfl
@[simp] theorem raise_rx (src : Source) (m : Nat) (s : State) : (raise src m s).rx = s.rx := rfl
@[simp] theorem raise_flow (src : Source) (m : Nat) (s : State) : (raise src m s).flow = s.flow := rfl
@[simp] theorem raise_homing (src : Source) (m : Nat) (s : State) : (raise src m s).homing = s.homing := rfl
@[simp] theorem raise_round (src : Source) (m : Nat) (s : State) : (raise src m s).round = s.round := rfl
@[simp] theorem raise_timing (src : Source) (m : Nat) (s : State) : (raise src m s).timing = s.timing := rfl
@[simp] theorem raise_alloc (src : Source) (m : Nat) (s : State) : (raise src m s).alloc = s.alloc := rfl
@[simp] theorem raise_calls (src : Source) (m : Nat) (s : State) : (raise src m s).calls = s.calls := rfl
@[simp] theorem raise_ports (src : Source) (m : Nat) (s : State) : (raise src m s).ports = s.ports := rfl
@[simp] theorem raise_merged (src : Source) (m : Nat) (s : State) : (raise src m s).merged = s.merged := rfl
@[simp] theorem raise_chans (src : Source) (m : Nat) (s : State) : (raise src m s).chans = s.chans := rfl
@[simp] theorem raise_filter (src : Source) (m : Nat) (s : State) : (raise src m s).filter = s.filter := rfl
@[simp] theorem raise_mem (src : Source) (m : Nat) (s : State) : (raise src m s).mem = s.mem := rfl
@[simp] theorem raise_pending (src : Source) (m : Nat) (s : State) : (raise src m s).pending = s.pending := rfl
@[simp] theorem raise_replies (src : Source) (m : Nat) (s : State) : (raise src m s).link.replies = s.link.replies := rfl
@[simp] theorem raise_overrun (src : Source) (m : Nat) (s : State) : (raise src m s).link.overrun = s.link.overrun := rfl
@[simp] theorem raise_restartWaiting (src : Source) (m : Nat) (s : State) :
    (raise src m s).link.restartWaiting = s.link.restartWaiting := rfl
@[simp] theorem raise_reports (src : Source) (m : Nat) (s : State) :
    (raise src m s).link.reports = gatherMark src (markSet m) s.link.reports := rfl

/-- While RESET is held an instant changes nothing. -/
theorem atInstant_held {e : State → State} {s : State} (h : s.resetHeld = true) : atInstant e s = s := by
  unfold atInstant
  rw [if_pos h]

/-- An instant of a running part: the effect, with the report sources in order. -/
theorem atInstant_running {e : State → State} {s : State} (h : s.resetHeld = false) :
    atInstant e s = (e s).updLink fun l => { l with reports := orderJoins s.link.reports l.reports } := by
  unfold atInstant
  rw [if_neg (by simp [h])]

/-- An effect that raises no event and touches no report is its own instant. -/
theorem atInstant_quiet {e : State → State} {s : State} (h : s.resetHeld = false)
    (hr : (e s).link.reports = s.link.reports) : atInstant e s = e s := by
  rw [atInstant_running h]
  simp only [State.updLink, hr, orderJoins_self]
  rw [← hr]

/-- An effect that ends in one event is its own instant. -/
theorem atInstant_raise {e : State → State} {s u : State} {src : Source} {m : Nat} (h : s.resetHeld = false)
    (he : e s = raise src m u) (hr : u.link.reports = s.link.reports) : atInstant e s = raise src m u := by
  rw [atInstant_running h, he]
  have : (raise src m u).link.reports = gatherMark src (markSet m) s.link.reports := by rw [raise_reports, hr]
  simp only [State.updLink, this, orderJoins_gatherMark]
  rw [← this]

/-- An occasion whose event comes about has its effect. -/
theorem onOccasion_due {o : State → State → Bool} {e : State → State} {s : State} (h : o s (e s) = true) :
    onOccasion o e s = e s := if_pos h

/-- An occasion whose event does not come about changes nothing. -/
theorem onOccasion_idle {o : State → State → Bool} {e : State → State} {s : State} (h : o s (e s) = false) :
    onOccasion o e s = s := if_neg (by simp [h])

/-! ### Consumption -/

theorem nodup_consumeReport {src : Source} {later : Word} {l : List (Source × Word)} (h : (sourcesOf l).Nodup) :
    (sourcesOf (consumeReport src later l)).Nodup := by
  have hf : (sourcesOf (l.filter fun e => decide (e.1 ≠ src))).Nodup :=
    h.sublist (List.Sublist.map _ List.filter_sublist)
  have hn : src ∉ sourcesOf (l.filter fun e => decide (e.1 ≠ src)) := by
    simp only [sourcesOf, List.mem_map, List.mem_filter, decide_eq_true_eq, not_exists, not_and]
    rintro e ⟨_, he⟩ rfl
    exact he rfl
  unfold consumeReport
  dsimp only
  split
  · exact hf
  · rw [sourcesOf, List.map_append]
    refine List.nodup_append.mpr ⟨hf, by simp, fun a ha b hb => ?_⟩
    have hb' : b = src := List.mem_singleton.mp hb
    rintro rfl
    exact hn (hb' ▸ ha)

end Sys2Proof.Machine
end

