-- ==== Sys2Proof/Laws/Marks.lean ====
section
/-! SUPPORT. Marks of the report sources: an event sets its mark, no event or order of joining clears one. -/

namespace Sys2Proof.Machine

/-! ### The order of joining leaves the marks alone -/

theorem marksOf_append (src : Source) (l m : List (Source × Word)) :
    marksOf src (l ++ m) = (marksOf src l).or (marksOf src m) := by
  induction l with
  | nil => simp [marksOf]
  | cons e l ih =>
    obtain ⟨q, w⟩ := e
    by_cases hq : q = src <;> simp [marksOf, hq, ih]

theorem marksOf_filter (src : Source) (p : Source → Bool) (l : List (Source × Word)) :
    marksOf src (l.filter fun e => p e.1) = if p src then marksOf src l else none := by
  induction l with
  | nil => simp [marksOf]
  | cons e l ih =>
    obtain ⟨q, w⟩ := e
    by_cases hp : p q = true
    · rw [List.filter_cons_of_pos (by simpa using hp)]
      by_cases hq : q = src
      · subst hq
        simp [marksOf, hp]
      · simp [marksOf, hq, ih]
    · rw [List.filter_cons_of_neg (by simpa using hp), ih]
      by_cases hq : q = src
      · subst hq
        simp [hp]
      · simp [marksOf, hq]

theorem insertByCode_sorted (e : Source × Word) (l : List (Source × Word))
    (h : l.Pairwise fun a b => a.1.code ≤ b.1.code) : (insertByCode e l).Pairwise fun a b => a.1.code ≤ b.1.code := by
  induction l with
  | nil => simp [insertByCode]
  | cons q l ih =>
    rw [List.pairwise_cons] at h
    unfold insertByCode
    split
    · rename_i hlt
      rw [List.pairwise_cons, List.pairwise_cons]
      refine ⟨fun b hb => ?_, h⟩
      rcases List.mem_cons.mp hb with rfl | hb
      · omega
      · have := h.1 b hb
        omega
    · rename_i hlt
      rw [List.pairwise_cons]
      refine ⟨fun b hb => ?_, ih h.2⟩
      rcases List.mem_cons.mp ((insertByCode_perm e l).mem_iff.mp hb) with rfl | hb
      · omega
      · exact h.1 b hb

theorem marksOf_insertByCode (src : Source) (e : Source × Word) (l : List (Source × Word))
    (h : l.Pairwise fun a b => a.1.code ≤ b.1.code) :
    marksOf src (insertByCode e l) = (marksOf src l).or (if e.1 = src then some e.2 else none) := by
  induction l with
  | nil =>
    obtain ⟨q, w⟩ := e
    simp [insertByCode, marksOf]
  | cons r l ih =>
    rw [List.pairwise_cons] at h
    unfold insertByCode
    split
    · rename_i hlt
      by_cases he : e.1 = src
      · have hn : marksOf src (r :: l) = none := by
          cases hm : marksOf src (r :: l) with
          | none => rfl
          | some w =>
            have hmem := marksOf_isSome.mp (show (marksOf src (r :: l)).isSome by rw [hm]; rfl)
            obtain ⟨b, hb, hb2⟩ := List.mem_map.mp hmem
            have : r.1.code ≤ b.1.code := by
              rcases List.mem_cons.mp hb with rfl | hb
              · exact Nat.le_refl _
              · exact h.1 b hb
            rw [hb2, ← he] at this
            omega
        obtain ⟨q, w⟩ := e
        rw [hn]
        simp only at he
        simp [marksOf, he]
      · obtain ⟨q, w⟩ := e
        simp only at he
        simp [marksOf, he]
    · obtain ⟨q, w⟩ := r
      by_cases hq : q = src
      · simp [marksOf, hq]
      · simp [marksOf, hq, ih h.2]

theorem marksOf_foldl_insertByCode (src : Source) (l acc : List (Source × Word))
    (h : acc.Pairwise fun a b => a.1.code ≤ b.1.code) :
    marksOf src (l.foldl (fun acc e => insertByCode e acc) acc) = (marksOf src acc).or (marksOf src l) := by
  induction l generalizing acc with
  | nil => simp [marksOf]
  | cons e l ih =>
    rw [List.foldl_cons, ih _ (insertByCode_sorted e acc h), marksOf_insertByCode src e acc h]
    obtain ⟨q, w⟩ := e
    cases marksOf src acc <;> by_cases hq : q = src <;> simp [marksOf, hq]

/-- The order in which sources join leaves every source's marks alone. -/
@[simp] theorem marksOf_orderJoins (src : Source) (before after : List (Source × Word)) :
    marksOf src (orderJoins before after) = marksOf src after := by
  unfold orderJoins
  rw [marksOf_append, marksOf_foldl_insertByCode src _ [] List.Pairwise.nil,
    marksOf_filter src (fun q => (marksOf q before).isSome), marksOf_filter src (fun q => (marksOf q before).isNone)]
  cases hm : marksOf src before <;> simp [marksOf]

/-! ### Marks set -/

theorem hasMark_iff {src : Source} {n : Nat} {s : State} :
    hasMark src n s ↔ ((marksOf src s.link.reports).getD 0#32).getLsbD n = true := by
  unfold hasMark
  cases marksOf src s.link.reports <;> simp

/-- An event sets its mark. -/
theorem hasMark_raise (src : Source) {n : Nat} (s : State) (hn : n < 32) : hasMark src n (raise src n s) := by
  rw [hasMark_iff, raise_reports, marksOf_gatherMark_same]
  simp [markSet, hn]

/-- No event clears a mark. -/
theorem hasMark_mono {src : Source} {n : Nat} {s : State} (q : Source) (m : Nat) (h : hasMark src n s) :
    hasMark src n (raise q m s) := by
  rw [hasMark_iff] at h ⊢
  rw [raise_reports]
  by_cases hq : src = q
  · subst hq
    rw [marksOf_gatherMark_same]
    simp [h]
  · rw [marksOf_gatherMark_of_ne _ _ hq]
    exact h

/-- The end of an instant leaves the marks of its effect alone. -/
theorem hasMark_atInstant {src : Source} {n : Nat} {e : State → State} {s : State} (h : s.resetHeld = false) :
    hasMark src n (atInstant e s) ↔ hasMark src n (e s) := by
  rw [hasMark_iff, hasMark_iff, atInstant_running h, State.updLink_link, marksOf_orderJoins]

/-- A mark, once set, is kept by the lane allocator and the call unit. -/
theorem keeps_hasMark (src : Source) (n : Nat) : Keeps (hasMark src n) where
  raise _ _ h := hasMark_mono _ _ h
  round _ h := h
  alloc _ _ h := h
  call _ _ _ h := h
  chan _ _ _ h := h

end Sys2Proof.Machine
end

