-- ==== Sys2Proof/Laws/Ports.lean ====
section
/-! SUPPORT. Bits of a drop port's line, and what its choice of frames leaves alone. -/

namespace Sys2Proof.Machine

/-- The bits of a byte spell it, in either bit order (R125, R130). -/
theorem byteOfBits_bitsOf (msbFirst : Bool) (b : Byte) : byteOfBits msbFirst (bitsOf msbFirst b) = b := by
  cases msbFirst <;> revert b <;> decide

/-- An ASYNC character spells its byte (R125, R133). -/
theorem readCharacter_characterBits (b : Byte) : readCharacter (characterBits b) = some (.byte b) := by
  revert b; decide

/-- A port on which no choice is left to make stays as it is. -/
theorem settleFrames_eq_self {p : PortNo} {s : State} (h : settleTransparent p (arbiter p s) = s) :
    ∀ n, settleFrames p n s = s
  | 0 => rfl
  | n + 1 => by rw [settleFrames, h, settleFrames_eq_self h n]

/-- The arbiter serves an IDLE port alone (R129). -/
theorem arbiter_not_idle {p : PortNo} {s : State} (h : s.ports[p].tx.state ≠ .idle) : arbiter p s = s := by
  unfold arbiter
  rw [if_neg (by rw [decide_eq_false h, Bool.and_false]; exact Bool.false_ne_true)]

/-- A frame that is not transparent ends with its closing delimiter, and nothing is settled for it. -/
theorem settleTransparent_framed {p : PortNo} {k : ChanNo} {s : State} (hs : s.ports[p].tx.state = .sending k)
    (hk : s.chans[k].set.transparent = false) : settleTransparent p s = s := by
  unfold settleTransparent
  rw [hs]
  dsimp only
  rw [hk]
  rfl

/-- A port that sends a frame that is not transparent has made its choice. -/
theorem settled_framed {p : PortNo} {k : ChanNo} {s : State} (hs : s.ports[p].tx.state = .sending k)
    (hk : s.chans[k].set.transparent = false) : settled p s = s := by
  refine settleFrames_eq_self ?_ _
  rw [arbiter_not_idle (by rw [hs]; exact TxState.noConfusion), settleTransparent_framed hs hk]

/-- A HELD port makes no choice (R132). -/
theorem settled_held {p : PortNo} {s : State} (hs : s.ports[p].tx.state = .held) : settled p s = s := by
  refine settleFrames_eq_self ?_ _
  rw [arbiter_not_idle (by rw [hs]; exact TxState.noConfusion)]
  unfold settleTransparent
  rw [hs]

end Sys2Proof.Machine
end

