-- ==== Sys2Proof/Laws/Requests.lean ====
section
/-! SUPPORT. What a request comes to (R175, R177, R178): the transaction that carries it ends first, and then it is
discarded, refused or answered. -/

namespace Sys2Proof.Machine

variable {s t u : State}

/-- An answer in OK joins the queue. -/
theorem placeReply_ok (tag : Byte) (w : Bool) {a : Answer} (h : a.status = .ok) :
    placeReply tag w false a s
      = { a.state with
          link :=
            { a.state.link with
              replies := a.state.link.replies
                ++ [{ tag := tag, status := .ok, content := a.content, ready := !w, restart := false }] } } := by
  simp [placeReply, h, State.updLink]

/-- A refusal joins the queue and changes nothing else. -/
theorem placeReply_refused (tag : Byte) (w : Bool) {a : Answer} (h : a.status ≠ .ok) :
    placeReply tag w false a s = { s with link := s.link.answered tag a.status [] } := by
  simp [placeReply, h, State.updLink, Link.answered]

/-- A request that is judged: its reply is placed. -/
theorem judgeRequest_taken (tag : Byte) (w : Bool) (answer : State → Answer) (h : takesRequest u) :
    judgeRequest tag w answer u = placeReply tag w false (answer u) u := by
  simp [judgeRequest, h.2.1, Nat.not_le.mpr h.2.2]

/-- A request that is taken: the instant at which its reply is placed. -/
theorem request_taken (n : Nat) (tag : Byte) (answer : State → Answer) (h : takesRequest (carried (4 + n) s)) :
    request n tag answer s
      = atInstant (fun u => placeReply tag false false (answer u) u) (carried (4 + n) s) := by
  show atInstant _ (carried (4 + n) s) = _
  rw [atInstant_running h.1, atInstant_running h.1, judgeRequest_taken _ _ _ h]

/-- A refused request changes nothing but its reply. -/
theorem request_refused (n : Nat) (tag : Byte) (answer : State → Answer) (h : takesRequest (carried (4 + n) s))
    (ha : (answer (carried (4 + n) s)).status ≠ .ok) :
    request n tag answer s
      = { carried (4 + n) s with
          link := (carried (4 + n) s).link.answered tag (answer (carried (4 + n) s)).status [] } := by
  rw [request_taken n tag answer h, atInstant_quiet h.1] <;> rw [placeReply_refused tag false ha]
  rfl

/-- A request that is taken without an event on a report source. -/
theorem request_answered (n : Nat) (tag : Byte) (answer : State → Answer) (h : takesRequest (carried (4 + n) s))
    (ha : (answer (carried (4 + n) s)).status = .ok)
    (hl : (answer (carried (4 + n) s)).state.link = (carried (4 + n) s).link) :
    request n tag answer s
      = { (answer (carried (4 + n) s)).state with
          link := (carried (4 + n) s).link.answered tag .ok (answer (carried (4 + n) s)).content } := by
  rw [request_taken n tag answer h, atInstant_quiet h.1] <;> rw [placeReply_ok tag false ha]
  · simp [Link.answered, hl]
  · simp [hl]

/-- A request that is discarded because RESTART waits. -/
theorem judgeRequest_waiting (tag : Byte) (w : Bool) (answer : State → Answer) (h : u.link.restartWaiting = true) :
    judgeRequest tag w answer u = u := by simp [judgeRequest, h]

/-- A request that is discarded because the reply queue is full. -/
theorem judgeRequest_full (tag : Byte) (w : Bool) (answer : State → Answer) (h : u.link.restartWaiting = false)
    (hf : 8 ≤ u.link.replies.length) :
    judgeRequest tag w answer u = { u with link := { u.link with overrun := true } } := by
  simp [judgeRequest, h, State.updLink, show Config.replyQueue ≤ u.link.replies.length from hf]

end Sys2Proof.Machine
end

