-- ==== Sys2Proof/Laws/Steps.lean ====
section
/-! SUPPORT. A property that every named update keeps is kept by every command and by every step. -/

namespace Sys2Proof.Machine

variable {P : State → Prop} {s t : State}

/-- The answers of the requests neither place nor take replies. -/
theorem keeps_repliesLength (n : Nat) : KeepsSettings (fun u : State => u.link.replies.length = n) where
  raise _ _ h := h
  round _ h := h
  alloc _ _ h := h
  call _ _ _ h := h
  chan _ _ _ h := h
  port _ _ _ h := h
  filter _ _ h := h
  mem _ _ h := h
  counts _ _ h := h
  time _ _ _ h := h
  presence _ _ _ h := h
  flowOut _ _ _ h := h
  heard _ _ h := h
  homing _ h := h
  timing _ _ h := h
  flow _ _ _ h := h
  rx _ _ _ h := h
  line _ h := h
  anyFilter _ _ _ h := h
  anyPort _ _ h := h
  ready h := by
    simp only [State.updLink_link, List.length_map]
    exact h
  anyChan _ _ _ h := h
  anyCall _ _ h := h
  merge _ h := h
  lists _ _ _ h := h

/-- What an answer's state satisfies when every settings update keeps it. -/
def Answers (answer : State → Answer) : Prop :=
  ∀ {P : State → Prop} {u : State}, KeepsSettings P → P u → P (answer u).state

namespace KeepsAll

variable (h : KeepsAll P)
include h

theorem answered (tag : Byte) (w : Bool) {answer : State → Answer} (ha : Answers answer) (hs : P s) :
    P (Machine.judgeRequest tag w answer s) := by
  refine h.judgeRequest tag w answer (fun u hu => ⟨ha h.toKeepsSettings hu, ?_⟩) hs
  exact ha (keeps_repliesLength u.link.replies.length) rfl

theorem request (n : Nat) (tag : Byte) {answer : State → Answer} (ha : Answers answer) (hs : P s) :
    P (request n tag answer s) :=
  h.atInstant (fun _ hu => h.answered _ _ ha hu) (h.atInstant (fun _ hu => h.finishTransaction _ hu) hs)

theorem stationRequest (n : Nat) (tag : Byte) {answer : State → Answer} (ha : Answers answer) (hs : P s) :
    P (stationRequest n tag answer s) :=
  h.atInstant (fun _ hu => h.answered _ _ ha hu) (h.atInstant (fun _ hu => h.finishTransaction _ hu) hs)

theorem judgeRestart (tag : Byte) (hs : P s) : P (judgeRestart tag s) := by
  unfold Machine.judgeRestart
  split
  · exact hs
  · split
    · exact h.talk _ (fun _ => ⟨rfl, rfl⟩) hs
    · rename_i hn
      have hn' := Nat.lt_of_not_le hn
      have hl : (applyUpdate s).link.replies.length = s.link.replies.length :=
        (keeps_repliesLength s.link.replies.length).applyUpdate rfl
      exact h.talk _ (fun _ => ⟨rfl, rfl⟩)
        (h.placeReply _ _ _ (Machine.tell [] (applyUpdate s)) (h.applyUpdate hs) (hl.symm ▸ hn') hn' hs)

theorem refusedRequest (bytes : List Byte) (st : Status) (hs : P s) : P (refusedRequest bytes st s) :=
  h.atInstant (fun _ hu => h.answered _ _ (fun _ hv => hv) hu) (h.atInstant (fun _ hu => h.finishTransaction _ hu) hs)

theorem cycleWhen {o : State → State → Bool} {status : List Half} (hs : P s) (ht : cycleWhen o status s = .next t) :
    P t := by
  cases ht
  exact h.atInstant (fun _ hu => onOccasion (fun _ hv => h.localCycle _ hv) hu) hs

theorem arrival {o : State → State → Bool} {arr : Arrival} (hs : P s) :
    P (Machine.atInstant (Machine.onOccasion o (takeCycle arr)) s) :=
  h.atInstant (fun _ hu => onOccasion (fun _ hv => h.takeCycle _ hv) hu) hs

theorem contactLevel (p : PortNo) (n : Fin 4) (b : Bool) (hs : P s) : P (contactLevel p n b s) := h.anyPort _ _ hs

/-- Every command keeps what the updates keep. -/
theorem exec (i : Instr) (hs : P s) (ht : exec i s = .next t) : P t := by
  cases i
  case pinResetAssert => cases ht; exact h.pinReset _ _ hs
  case pinResetRelease => cases ht; exact keeps_ite (h.pinReset _ _ hs) hs
  case losAssert =>
    cases ht
    exact keeps_ite (h.rx _ _ (fun _ _ => Nat.zero_le _) hs) (h.atInstant (fun _ hu => h.assertLos _ hu) hs)
  case losRelease =>
    cases ht
    exact keeps_ite (h.rx _ _ (fun _ _ => Nat.zero_le _) hs) (h.atInstant (fun _ hu => h.releaseLos _ hu) hs)
  case candidateFound => cases ht; exact h.atInstant (fun _ hu => h.findCandidate _ _ _ hu) hs
  case huntCycle => cases ht; exact h.atInstant (fun _ hu => h.testCandidate _ _ hu) hs
  case syncAcquired => cases ht; exact h.atInstant (fun _ hu => onOccasion (fun _ hv => h.testCandidate _ _ hv) hu) hs
  case receivedCycle => cases ht; exact h.atInstant (fun _ hu => h.takeCycle _ hu) hs
  case syncLost => cases ht; exact h.arrival hs
  case primingEnd => exact h.cycleWhen hs ht
  case localCycleBoundary => cases ht; exact h.atInstant (fun _ hu => h.localCycle _ hu) hs
  case startupRoundEnd => exact h.cycleWhen hs ht
  case presenceExpiry => exact h.cycleWhen hs ht
  case holdOffExpiry => exact h.cycleWhen hs ht
  case restoreExpiry => exact h.cycleWhen hs ht
  case recovery => exact h.cycleWhen hs ht
  case forcedChange => exact h.cycleWhen hs ht
  case acquireStart => cases ht; exact h.arrival hs
  case holdoverExit => cases ht; exact h.arrival hs
  case lock => cases ht; exact h.arrival hs
  case unlock => cases ht; exact h.arrival hs
  case realignArm => cases ht; exact h.arrival hs
  case realign => cases ht; exact h.arrival hs
  case holdLimit => exact h.cycleWhen hs ht
  case moveEffectTransmit => exact h.cycleWhen hs ht
  case moveEffectReceive => exact h.cycleWhen hs ht
  case roleTablesTaken => exact h.cycleWhen hs ht
  case listenGroupTaken => exact h.cycleWhen hs ht
  case numberingInForce => exact h.cycleWhen hs ht
  case stationUpdateApplied => exact h.cycleWhen hs ht
  case hookOff => cases ht; exact h.atInstant (fun _ hu => h.takeOffHook _ hu) hs
  case hookOn => cases ht; exact h.atInstant (fun _ hu => h.takeOnHook _ hu) hs
  case ringTimerExpiry => exact h.cycleWhen hs ht
  case contactChange => cases ht; exact h.atInstant (fun _ hu => h.contactChanges _ _ hu) hs
  case portByteReceived => cases ht; exact h.atInstant (fun _ hu => h.receiveByte _ _ hu) hs
  case transparentIdleGap => cases ht; exact h.atInstant (fun _ hu => h.idleGap _ hu) hs
  case arbiterChoice => cases ht; exact h.atInstant (fun _ hu => h.arbiter _ hu) hs
  case frameSent => cases ht; exact h.atInstant (fun _ hu => onOccasion (fun _ hv => h.sendByte _ hv) hu) hs
  case underrun => cases ht; exact h.atInstant (fun _ hu => onOccasion (fun _ hv => h.sendByte _ hv) hu) hs
  case transactionStart =>
    cases ht
    refine h.atInstant (fun u hu => ?_) hs
    unfold startTransaction
    split
    · exact hu
    · exact h.talk _ (fun _ => ⟨rfl, rfl⟩) hu
  case voidTransaction => cases ht; exact keeps_ite (h.atInstant (fun _ hu => h.finishTransaction _ hu) hs) hs
  case nullRequest => cases ht; exact keeps_ite hs (h.atInstant (fun _ hu => h.finishTransaction _ hu) hs)
  case malformedRequest => cases ht; exact keeps_ite (h.refusedRequest _ _ hs) hs
  case unknownRequest => cases ht; exact keeps_ite (h.refusedRequest _ _ hs) hs
  case identify => cases ht; exact h.request _ _ (fun _ hu => hu) hs
  case restart =>
    cases ht
    exact h.atInstant (fun _ hu => h.judgeRestart _ hu) (h.atInstant (fun _ hu => h.finishTransaction _ hu) hs)
  case restartCarriedOut =>
    cases ht
    exact h.atInstant (fun _ hu => onOccasion (fun _ hv => h.finishTransaction _ hv) hu) hs
  case nodeSet => cases ht; exact h.request _ _ (fun k hu => k.nodeSet _ _ _ _ _ _ hu) hs
  case lanesSet => cases ht; exact h.request _ _ (fun k hu => k.lanesSet _ _ hu) hs
  case homeForceForce => cases ht; exact h.request _ _ (fun k hu => k.homeForce _ hu) hs
  case homeForceRelease => cases ht; exact h.request _ _ (fun k hu => k.homeRelease _ hu) hs
  case timingSet => cases ht; exact h.request _ _ (fun k hu => k.timingSet _ _ _ _ hu) hs
  case timingModeFree => cases ht; exact h.request _ _ (fun k hu => k.timingMode _ hu) hs
  case timingModeAuto => cases ht; exact h.request _ _ (fun k hu => k.timingMode _ hu) hs
  case timeSet => cases ht; exact h.request _ _ (fun k hu => k.timeSet _ _ hu) hs
  case floorSet => cases ht; exact h.request _ _ (fun k hu => k.floorSet _ _ hu) hs
  case portSet => cases ht; exact h.request _ _ (fun k hu => k.portSet _ _ hu) hs
  case pairSetMerge => cases ht; exact h.request _ _ (fun k hu => k.pairSet _ _ hu) hs
  case pairSetSplit => cases ht; exact h.request _ _ (fun k hu => k.pairSet _ _ hu) hs
  case channelSet => cases ht; exact h.request _ _ (fun k hu => k.channelSet _ _ hu) hs
  case chainSet => cases ht; exact h.request _ _ (fun k hu => k.chainSet _ _ _ hu) hs
  case channelStart => cases ht; exact h.request _ _ (fun k hu => k.channelStart _ hu) hs
  case channelStop => cases ht; exact h.request _ _ (fun k hu => k.channelStop _ hu) hs
  case stationSize => cases ht; exact h.request _ _ (fun k hu => k.stationSize _ hu) hs
  case stationPut => cases ht; exact h.stationRequest _ _ (fun k hu => k.stationPut _ _ hu) hs
  case stationDrop => cases ht; exact h.stationRequest _ _ (fun k hu => k.stationDrop _ hu) hs
  case stationRead => cases ht; exact h.request _ _ (fun _ hu => KeepsSettings.stationRead _ _ hu) hs
  case callClear => cases ht; exact h.request _ _ (fun k hu => k.callClear _ hu) hs
  case trunkStatus => cases ht; exact h.request _ _ (fun _ hu => hu) hs
  case homeStatus => cases ht; exact h.request _ _ (fun _ hu => hu) hs
  case timingStatus => cases ht; exact h.request _ _ (fun _ hu => hu) hs
  case laneStatus => cases ht; exact h.request _ _ (fun _ hu => hu) hs
  case channelStatus => cases ht; exact h.request _ _ (fun k hu => k.channelStatus _ _ hu) hs
  case callStatus => cases ht; exact h.request _ _ (fun _ hu => hu) hs
  case portStatus => cases ht; exact h.request _ _ (fun _ hu => hu) hs
  case portByteSent => cases ht; exact h.atInstant (fun _ hu => h.sendByte _ hu) hs
  case contactLevelChange => cases ht; exact h.contactLevel _ _ _ hs

/-- Every step keeps what the updates keep. -/
theorem step (hs : P s) (ht : step s = .next t) : P t := by
  unfold Machine.step at ht
  split at ht
  · cases ht
    unfold Machine.idle
    exact keeps_ite hs (h.timing _ (fun hr => { hr with }) hs)
  · exact h.exec _ (h.queue _ hs) ht

end KeepsAll

/-- Every command answers a next state. -/
theorem exec_next (i : Instr) (s : State) : ∃ t, exec i s = .next t := by
  cases i <;> exact ⟨_, rfl⟩

end Sys2Proof.Machine
end

