-- ==== Sys2Proof/WellFormed.lean ====
section
/-! DEFINITION. Well-formed commands: the operands a sender can put on the part's pins. -/

namespace Sys2Proof

/-- A cycle has 128 lanes (R1). -/
def Cycle.wellFormed (c : Cycle) : Bool := decide (c.lanes.length = Config.lanes)

/-- Each of the eight adapters sends one status word in a cycle (R109, R125). -/
def statusWellFormed (status : List Half) : Bool := decide (status.length = 8)

/-- What a port takes at once are at most the ten bits of a character (R125). -/
def LineByte.wellFormed : LineByte → Bool
  | .byte _ => true
  | .charError => true
  | .bits levels => decide (levels.length ≤ 10)

/-- A received cycle and the status words beside it. -/
def Arrival.wellFormed (a : Arrival) : Bool := a.cycle.wellFormed && statusWellFormed a.status

/-- The settings of a PORT_SET: an unknown function code is none of the five (R126), and the body is at most 1024
bytes (R177). -/
def PortFields.wellFormed : PortFields → Bool
  | .other code rest => decide (5 ≤ code.toNat) && decide (rest.length ≤ 1022)
  | .off => true
  | .async _ => true
  | .sync => true
  | .callpoint _ => true
  | .contacts _ _ _ _ _ => true

/-- A list has a one-byte count (R186). -/
def listWellFormed {α : Type} (l : List α) : Bool := decide (l.length ≤ 255)

/-- A command is well formed. -/
def Instr.wellFormed : Instr → Bool
  | .pinResetAssert _ => true
  | .pinResetRelease _ => true
  | .losAssert _ => true
  | .losRelease _ => true
  | .candidateFound _ position cycle => decide (position < Config.cycleBits) && cycle.wellFormed
  | .huntCycle _ cycle => cycle.wellFormed
  | .syncAcquired _ cycle => cycle.wellFormed
  | .receivedCycle arrival => arrival.wellFormed
  | .syncLost arrival => arrival.wellFormed
  | .primingEnd _ status => statusWellFormed status
  | .localCycleBoundary status => statusWellFormed status
  | .startupRoundEnd _ status => statusWellFormed status
  | .presenceExpiry _ status => statusWellFormed status
  | .holdOffExpiry status => statusWellFormed status
  | .restoreExpiry status => statusWellFormed status
  | .recovery status => statusWellFormed status
  | .forcedChange status => statusWellFormed status
  | .acquireStart arrival => arrival.wellFormed
  | .holdoverExit arrival => arrival.wellFormed
  | .lock arrival => arrival.wellFormed
  | .unlock arrival => arrival.wellFormed
  | .realignArm arrival => arrival.wellFormed
  | .realign arrival => arrival.wellFormed
  | .holdLimit status => statusWellFormed status
  | .moveEffectTransmit lane status => decide (lane < Config.lanes) && statusWellFormed status
  | .moveEffectReceive lane status => decide (lane < Config.lanes) && statusWellFormed status
  | .roleTablesTaken status => statusWellFormed status
  | .listenGroupTaken status => statusWellFormed status
  | .numberingInForce status => statusWellFormed status
  | .stationUpdateApplied status => statusWellFormed status
  | .hookOff _ => true
  | .hookOn _ => true
  | .ringTimerExpiry _ status => statusWellFormed status
  | .contactChange _ _ => true
  | .portByteReceived _ taken => taken.wellFormed
  | .transparentIdleGap _ => true
  | .arbiterChoice _ => true
  | .frameSent _ => true
  | .underrun _ => true
  | .transactionStart => true
  | .voidTransaction length => decide (length < 4)
  | .nullRequest length => decide (4 ≤ length)
  | .malformedRequest bytes => decide (4 ≤ bytes.length)
  | .unknownRequest bytes => decide (4 ≤ bytes.length) && decide (bytes.length ≤ Config.maxTransaction)
  | .identify _ => true
  | .restart _ => true
  | .restartCarriedOut length => decide (4 ≤ length)
  | .nodeSet _ _ _ _ _ _ _ => true
  | .lanesSet _ owned listen => listWellFormed owned && listWellFormed listen
  | .homeForceForce _ fields => decide (fields.action ≠ 1#8)
  | .homeForceRelease _ action => decide (action ≠ 0#8)
  | .timingSet _ _ _ _ _ => true
  | .timingModeFree _ => true
  | .timingModeAuto _ selection => decide (selection ≠ 0#8)
  | .timeSet _ _ _ => true
  | .floorSet _ _ _ => true
  | .portSet _ _ fields => fields.wellFormed
  | .pairSetMerge _ _ => true
  | .pairSetSplit _ _ action => decide (action ≠ 0#8)
  | .channelSet _ _ _ => true
  | .chainSet _ _ _ runs => listWellFormed runs
  | .channelStart _ _ => true
  | .channelStop _ _ => true
  | .stationSize _ _ => true
  | .stationPut _ _ _ => true
  | .stationDrop _ _ => true
  | .stationRead _ _ _ => true
  | .callClear _ _ => true
  | .trunkStatus _ => true
  | .homeStatus _ => true
  | .timingStatus _ => true
  | .laneStatus _ => true
  | .channelStatus _ _ _ => true
  | .callStatus _ => true
  | .portStatus _ => true
  | .portByteSent _ => true
  | .contactLevelChange _ _ _ => true

end Sys2Proof
end

