-- ==== Sys2Proof/Tests/Slice0.lean ====
section
/-! SUPPORT. Tests: ill-formed terms that WellFormed refuses, examples of the spec, and for each statement states and
operands that meet its hypotheses. -/

set_option maxRecDepth 20000

open Sys2Proof Sys2Proof.Machine

namespace Sys2Proof.Tests

/-! ### States and operands -/

/-- A cycle with a first and second header byte. -/
def cycle (h0 h1 : Byte) : Cycle :=
  { h0 := h0, h1 := h1, h2 := 0x11#8, h3 := 0x22#8, lanes := List.replicate 128 0x33#8 }

/-- One status word from each adapter: the codec byte 7Fh, the hook ON. -/
def status : List Half := List.replicate 8 0x7F00#16

/-- A cycle that port A takes. -/
def arrival (h0 h1 : Byte) : Arrival := { port := .a, elapsed := 0, cycle := cycle h0 h1, status := status }

/-- A SYNCED receiver that hears its end. -/
def hearing : Receiver := { Receiver.initial false with state := .synced, presence := 24 }

/-- A flow that has brought a valid message of its end. -/
def bringing : Flow := { Flow.initial with heard := true }

/-- A node HOMED to A, with both receivers SYNCED and both ends reachable. -/
def homed : State :=
  { State.reset with
    rx := { a := hearing, b := hearing }, flow := { a := bringing, b := bringing }, homing := { Homing.initial .a with isolated := false } }

/-- The next state of a command. -/
def after (c : Instr) (s : State) : State :=
  match exec c s with
  | .next t => t
  | .fault _ => s
  | .refused _ => s

/-! ### WellFormed refuses -/

theorem test_wf_short_cycle : (Instr.huntCycle .a { cycle 0xB2#8 0#8 with lanes := [] }).wellFormed = false := by decide
theorem test_wf_position : (Instr.candidateFound .a 1056 (cycle 0xB2#8 0#8)).wellFormed = false := by decide
theorem test_wf_status : (Instr.localCycleBoundary [0#16]).wellFormed = false := by decide
theorem test_wf_arrival : (Instr.receivedCycle { arrival 0xB2#8 0#8 with status := [] }).wellFormed = false := by decide
theorem test_wf_lane : (Instr.moveEffectTransmit 128 status).wellFormed = false := by decide
theorem test_wf_void : (Instr.voidTransaction 4).wellFormed = false := by decide
theorem test_wf_null : (Instr.nullRequest 3).wellFormed = false := by decide
theorem test_wf_malformed : (Instr.malformedRequest [1#8, 2#8, 3#8]).wellFormed = false := by decide
theorem test_wf_unknown : (Instr.unknownRequest []).wellFormed = false := by decide
theorem test_wf_restart : (Instr.restartCarriedOut 3).wellFormed = false := by decide
theorem test_wf_lists : (Instr.lanesSet 0#8 (List.replicate 256 1#8) []).wellFormed = false := by decide
theorem test_wf_runs : (Instr.chainSet 0#8 0#8 0#8 (List.replicate 256 (0#16, 4#16))).wellFormed = false := by decide
theorem test_wf_force : (Instr.homeForceForce 0#8 { action := 1#8, side := 0#8 }).wellFormed = false := by decide
theorem test_wf_release : (Instr.homeForceRelease 0#8 0#8).wellFormed = false := by decide
theorem test_wf_auto : (Instr.timingModeAuto 0#8 0#8).wellFormed = false := by decide
theorem test_wf_split : (Instr.pairSetSplit 0#8 0#8 0#8).wellFormed = false := by decide
theorem test_wf_function : (Instr.portSet 0#8 0#8 (.other 4#8 [])).wellFormed = false := by decide
theorem test_wf_function_body :
    (Instr.portSet 0#8 0#8 (.other 9#8 (List.replicate 1023 0#8))).wellFormed = false := by decide
theorem test_wf_bits : (Instr.portByteReceived 0 (.bits (List.replicate 11 true))).wellFormed = false := by decide
theorem test_wf_good : (Instr.receivedCycle (arrival 0xB2#8 1#8)).wellFormed = true := by decide
theorem test_no_word_spells_a_command : decodeTableWord 8 0 = none := by decide

/-! ### Examples of the spec -/

/-- The check values of R187 over the digits 1 to 9. -/
theorem test_c16 :
    c16 [0x31#8, 0x32#8, 0x33#8, 0x34#8, 0x35#8, 0x36#8, 0x37#8, 0x38#8, 0x39#8] = 0x906E#16 := by decide

/-- The example of 4.3: I = -1300 and E = +3 give I = -1303 and C = -45. -/
theorem test_loop_step :
    ({ Timing.initial with integral := -1300 }.loop 3).integral = -1303
      ∧ ({ Timing.initial with integral := -1300 }.loop 3).correction = -45 := by decide

/-- The first sample after the re-home of 4.10: E = +1500 on I = -1330 gives I = -1393 and C = -526. -/
theorem test_loop_step_clamped :
    ({ Timing.initial with integral := -1330 }.loop 1500).integral = -1393
      ∧ ({ Timing.initial with integral := -1330 }.loop 1500).correction = -526 := by decide

/-- The last steps of the table below R72. -/
theorem test_last_step :
    stepCycles 86400#32 1935 86400#32 1933 = 2 ∧ stepCycles 86400#32 1935 86399#32 7998 = 1937
      ∧ stepCycles 86400#32 1935 0#32 17 = 32767 := by decide

/-- The first and third stamps of the table below R76. -/
theorem test_stamps :
    ({ Timing.initial with
        phase := 3355443200#32, seconds := 1000000#32, cycle := 7999, validity := .fromEnd, source := some .a,
        mode := .tracking, delay := { a := 300, b := 0 } } : Timing).stamp
      = { seconds := 1000001#32, cycle := 0, tick := 244, quality := .traced }
    ∧ ({ Timing.initial with
        phase := 671088640#32, seconds := 500#32, cycle := 12, validity := .fromHost, mode := .tracking } : Timing).stamp
      = { seconds := 500#32, cycle := 12, tick := 40, quality := .localTime } := by decide

/-- The bytes of IDENTIFY's reply (R181) after pin reset with PREF naming end B. -/
theorem test_identify :
    ((after (.identify 7#8) (State.afterPinReset false false .b)).link.replies.map Reply.content)
      = [[0x0A#8, 0x17#8, 0x24#8, 0x08#8, 0x01#8, 0x01#8, 0x00#8]] := by decide

/-- A status request leaves START in the report pending set, for no report has been read (R182). -/
theorem test_status_keeps_reports :
    (after (.trunkStatus 1#8) State.reset).link.reports = [(.start, 1#32)] := by decide

/-- The first cycle after reset is numbered 0 and carries FSA and PB (R15, R16), on either port. -/
theorem test_first_cycle :
    ((after (.localCycleBoundary status) State.reset).flow.get .a).sent.h1 = 0xC0#8
      ∧ ((after (.localCycleBoundary status) State.reset).flow.get .b).sent.h1 = 0xC0#8 := by decide

/-- The second byte of the example of 7.10 that reaches the writer: 42h pushes 41h out of the check hold of C16. -/
def panel : State :=
  { State.reset with
    ports := State.reset.ports.set 3
      { Port.initial with own := .sync, rx := { PortRx.initial with isOpen := true, hold := [0x41#8, 0x7C#8], raw := 3 } },
    chans := State.reset.chans.set 5
      { Channel.initial with
        set := { ChannelSettings.initial with port := some 3 }, state := .active,
        inChain := some { runs := [(0, 4)], blocks := [0, 1, 2, 3], writer := 0, frames := [] },
        outChain := some { runs := [(4, 4)], blocks := [4, 5, 6, 7], writer := 0, frames := [] } } }

theorem test_check_hold :
    (after (.portByteReceived 3 (.byte 0x42#8)) panel).ports[3].rx.hold = [0x7C#8, 0x42#8]
      ∧ (after (.portByteReceived 3 (.byte 0x42#8)) panel).ports[3].rx.count = 1
      ∧ Memory.read (after (.portByteReceived 3 (.byte 0x42#8)) panel).mem 12 = 0x41#8 := by decide

/-- Port 8 of a PORT_SET is refused RANGE (R126). -/
theorem test_port_set_range :
    ((after (.portSet 1#8 8#8 .sync) State.reset).link.replies.map Reply.status) = [.range] := by decide

/-! ### Hypotheses met: the queue, reset and the invariants -/

/-- Bounds reached: full stores and reply queue, a running presence timer, memory with a byte, lists with their
greatest lane, and a command that waits. -/
def filled : State :=
  { homed with
    mem := [(65535, 1#8)], pending := [.identify 1#8],
    flow :=
      { a := { Flow.initial with mode := .delivering, store := List.replicate 4 Flow.initial.taken },
        b := { Flow.initial with mode := .delivering, store := [Flow.initial.taken] } },
    timing := { Timing.initial with correction := -1024, integral := 65535, cycle := 7999, holdTimer := 43200001 },
    alloc :=
      { Allocator.initial with
        owned := [{ lane := 0, use := .spare, move := none }, { lane := 127, use := .call 0, move := none }],
        listen := [3] },
    link :=
      { Link.initial with
        replies := List.replicate 8 { tag := 1#8, status := .ok, content := [], ready := true, restart := false } } }

theorem met_StepRunsFrontCommand : filled.pending = .identify 1#8 :: [] := rfl
theorem met_EmptyQueueRunsOnePeriod : State.reset.pending = [] := rfl
theorem met_EmptyQueueRunsOnePeriod_held :
    ({ State.reset with timing := { Timing.initial with phase := 0xFFFFFFFF#32 } } : State).pending = []
      ∧ ¬ (0xFFFFFFFF#32 : Word).toNat + (1048576 + (0 : Int)).toNat < 2 ^ 32 := by decide
theorem met_CommandsLeaveTheQueueAlone : ∃ t, exec (.losAssert .a) filled = .next t := ⟨_, rfl⟩
theorem met_MemoryStaysCanonical : memoryCanonical filled ∧ ∃ t, step filled = .next t :=
  ⟨by unfold memoryCanonical; decide, _, rfl⟩

/-- Blocks with one owner each up to the station table's area, and a table with an update that takes its last place. -/
def stored : State :=
  { filled with
    chans := (filled.chans.set 0
      { Channel.initial with
        inChain := some { runs := [(0, 4)], blocks := [0, 1, 2, 3], writer := 0, frames := [] },
        outChain := some { runs := [(4, 4)], blocks := [4, 5, 6, 7], writer := 0, frames := [] } }).set 15
      { Channel.initial with
        inChain := some { runs := [(2043, 4)], blocks := [2043, 2044, 2045, 2046], writer := 0, frames := [] } },
    filter :=
      { Filter.initial with
        capacity := 8, update := some (.put 65534 1#16),
        table := [(1, 1#16), (2, 1#16), (3, 1#16), (4, 1#16), (5, 1#16), (6, 1#16), (7, 1#16)] } }

theorem met_MemoryStaysCanonical_owned :
    blocksOwnedOnce stored ∧ tableSound stored ∧ ∃ t, step stored = .next t :=
  ⟨⟨by decide, by decide, by decide⟩,
    ⟨by decide, by decide, by decide, by decide, fun a c h => by
      cases h
      exact ⟨by decide, by decide, .inr (by decide)⟩⟩, _, rfl⟩
theorem met_TrunkAndLinkQueuesStayBounded_trunk : storesBounded filled ∧ presenceBounded filled ∧ ∃ t, step filled = .next t :=
  ⟨fun x => by cases x <;> exact ⟨by decide, fun _ => by decide, nofun⟩,
    fun x => by cases x <;> decide, _, rfl⟩
/-- Port A's receiver enters SYNCED while its end is still present: its flow is priming. -/
def returning : State :=
  { homed with
    rx :=
      { homed.rx with
        a := { hearing with state := .hunt, candidate := some { position := 0, good := 3, last := 2#4 } } },
    pending := [.syncAcquired .a (cycle 0xB2#8 3#8)] }
theorem met_TrunkAndLinkQueuesStayBounded_priming :
    storesBounded returning
      ∧ ∃ t, step returning = .next t ∧ (t.flow.get Side.a.other).mode = .priming :=
  ⟨fun x => by cases x <;> exact ⟨by decide, nofun, nofun⟩, _, rfl, by decide⟩
/-- An end still present as its receiver enters SYNCED again is not reachable before a message of it has come (R25). -/
theorem test_present_end_waits_for_a_message :
    reachable (after (.syncAcquired .a (cycle 0xB2#8 3#8)) returning) .a = false
      ∧ ((after (.syncAcquired .a (cycle 0xB2#8 3#8)) returning).rx.get .a).endPresent = true := by decide
theorem met_TrunkAndLinkQueuesStayBounded_link : repliesBounded filled ∧ reportsDistinct filled ∧ ∃ t, step filled = .next t :=
  ⟨by unfold repliesBounded; decide, by unfold reportsDistinct; decide, _, rfl⟩
theorem met_TimingStaysInRange : timingInRange filled ∧ ∃ t, step filled = .next t :=
  ⟨by constructor <;> decide, _, rfl⟩
theorem met_LaneListsStayLegal : laneListsLegal filled ∧ ∃ t, step filled = .next t :=
  ⟨by unfold laneListsLegal legalLists; decide, _, rfl⟩
/-- A lane that moves to channel 0 from SPARE, and port 0 that sends a frame of channel 0, ACTIVE and bound to it. -/
def invariant : State :=
  { State.reset with
    alloc :=
      { Allocator.initial with
        owned :=
          [{ lane := 2, use := .spare,
             move := some { target := .channel 0, effect := none, tx := false, rx := false, followUp := false } }] },
    ports := State.reset.ports.set 0 { Port.initial with own := .sync, tx := { PortTx.initial with state := .sending 0 } },
    chans := State.reset.chans.set 0
      { Channel.initial with state := .active, set := { ChannelSettings.initial with port := some 0 } } }

theorem met_LaneListsStayLegal_moves :
    laneListsLegal invariant ∧ channelMovesStand invariant ∧ ∃ t, step invariant = .next t :=
  ⟨by unfold laneListsLegal legalLists; decide, fun e he m k _ _ => by
    have : e.use = .spare := by
      simp only [invariant, List.mem_singleton] at he
      rw [he]
    exact .inl this, _, rfl⟩
theorem met_MemoryStaysCanonical_serves : portsServeActive invariant ∧ ∃ t, step invariant = .next t :=
  ⟨by unfold portsServeActive; decide, _, rfl⟩
/-- Call point 1 waits at the floor with a lane SPARE, and channel 0 ACTIVE holds a lane. -/
def pended : State :=
  { State.reset with
    alloc :=
      { Allocator.initial with
        owned := [{ lane := 5, use := .spare, move := none }, { lane := 9, use := .channel 0, move := none }],
        waiting := [(1, 6)], hostFloor := 6 },
    ports := State.reset.ports.set 1 { Port.initial with own := .callpoint 6 },
    calls := State.reset.calls.set 1 { CallPoint.initial 6 with state := .waiting, offHook := true },
    chans := State.reset.chans.set 0
      { Channel.initial with state := .active, set := { ChannelSettings.initial with wn := 1, wmin := 1 } },
    pending := [.hookOn 1] }

theorem held_pended : channelLanesHeld pended := fun k hk e he => by
  have h0 : k ≠ 0 := fun h => absurd (h ▸ hk) (by decide)
  have hu : ∀ e ∈ pended.alloc.owned, e.move = none ∧ (e.use = .spare ∨ e.use = .channel 0) := by decide
  refine ⟨fun h => ?_, fun m hm => by rw [(hu e he).1] at hm; cases hm⟩
  rcases (hu e he).2 with h' | h' <;> rw [h'] at h <;> cases h
  exact h0 rfl
theorem met_CallsAndChannelsHoldTheirLanes :
    laneListsLegal pended ∧ pendingSound pended ∧ channelLanesHeld pended ∧ widthsHeld pended
      ∧ ∃ t, step pended = .next t :=
  ⟨by unfold laneListsLegal legalLists; decide, ⟨by decide, by decide, by decide, fun _ => by decide⟩, held_pended,
    by unfold widthsHeld; decide, _, rfl⟩
theorem met_PinResetSetsEveryBlock : ({ State.reset with resetHeld := true } : State).resetHeld = true := rfl

/-! ### Hypotheses met: receivers and the tracking loop -/

/-- A receiver on port A, and a hunt with a candidate. -/
def withRx (r : Receiver) : State := { homed with rx := { a := r, b := hearing } }
def hunting (good : Nat) : Receiver :=
  { Receiver.initial false with candidate := some { position := 1055, good := good, last := 15#4 } }

theorem met_LosDrivesTheReceiver_assert : homed.resetHeld = false ∧ (homed.rx.get .a).los = false := by decide
theorem met_LosDrivesTheReceiver_release :
    (withRx (Receiver.initial true)).resetHeld = false ∧ ((withRx (Receiver.initial true)).rx.get .a).los = true := by
  decide
theorem met_HuntNeedsFourGoodCycles_first :
    (withRx (Receiver.initial false)).resetHeld = false ∧ ((withRx (Receiver.initial false)).rx.get .a).state = .hunt
      ∧ ((withRx (Receiver.initial false)).rx.get .a).candidate = none ∧ (cycle 0xB2#8 0#8).h0 = 0xB2#8 := by decide
theorem met_HuntNeedsFourGoodCycles_third :
    (withRx (hunting 2)).resetHeld = false ∧ ((withRx (hunting 2)).rx.get .a).state = .hunt
      ∧ ((withRx (hunting 2)).rx.get .a).candidate = some { position := 1055, good := 2, last := 15#4 }
      ∧ (cycle 0xB2#8 0#8).h0 = 0xB2#8 ∧ headerNumber (cycle 0xB2#8 0#8).h1 = (15#4 : BitVec 4) + 1#4 ∧ 2 < 3 := by decide
theorem met_HuntNeedsFourGoodCycles_bad :
    (withRx (hunting 1)).resetHeld = false ∧ ((withRx (hunting 1)).rx.get .a).state = .hunt
      ∧ ((withRx (hunting 1)).rx.get .a).candidate = some { position := 1055, good := 1, last := 15#4 }
      ∧ ¬ ((cycle 0xB3#8 0#8).h0 = 0xB2#8 ∧ headerNumber (cycle 0xB3#8 0#8).h1 = (15#4 : BitVec 4) + 1#4) := by decide
theorem met_HuntNeedsFourGoodCycles_fourth :
    (withRx (hunting 3)).resetHeld = false ∧ ((withRx (hunting 3)).rx.get .a).state = .hunt
      ∧ ((withRx (hunting 3)).rx.get .a).candidate = some { position := 1055, good := 3, last := 15#4 }
      ∧ (cycle 0xB2#8 0#8).h0 = 0xB2#8 ∧ headerNumber (cycle 0xB2#8 0#8).h1 = (15#4 : BitVec 4) + 1#4 := by decide

/-- The node of `homed` with a timing unit, and with the faults of receiver A in a row. -/
def timed (t : Timing) : State := { homed with timing := t }
def faulty (n : Nat) : State := withRx { hearing with faultRun := n }

/-- A good cycle on port A, and one out of sequence. -/
def inOrder : Arrival := arrival 0xB2#8 1#8
def outOfOrder : Arrival := arrival 0xB2#8 2#8

/-- The good cycle on port A of `timed t` keeps its receiver SYNCED, in a node that is not held. -/
theorem synced_timed (t : Timing) : (timed t).resetHeld = false ∧ staysSynced inOrder (timed t) :=
  ⟨rfl, rfl, .inl rfl⟩

theorem met_ReceivedCycleIsJudgedAndStored :
    homed.resetHeld = false ∧ staysSynced inOrder homed
      ∧ ¬ (sourceAt inOrder homed ∧ homed.timing.mode = .acquiring ∧ homed.timing.armed = true) :=
  ⟨rfl, ⟨rfl, .inl rfl⟩, fun h => absurd h.2.1 (by decide)⟩
theorem met_ReceivedCycleIsJudgedAndStored_fault :
    (faulty 2).resetHeld = false ∧ staysSynced outOfOrder (faulty 2)
      ∧ inSequence ((faulty 2).rx.get .a) outOfOrder.cycle = false
      ∧ ¬ (sourceAt outOfOrder (faulty 2) ∧ (faulty 2).timing.mode = .acquiring ∧ (faulty 2).timing.armed = true) :=
  ⟨rfl, ⟨rfl, .inr (by decide)⟩, by decide, fun h => absurd h.2.1 (by decide)⟩
theorem met_ReceivedCycleIsJudgedAndStored_full :
    filled.resetHeld = false ∧ staysSynced { inOrder with port := .b } filled ∧ 4 ≤ (filled.flow.get .a).store.length
      ∧ ¬ sourceAt { inOrder with port := .b } filled :=
  ⟨rfl, ⟨rfl, .inl rfl⟩, by decide, fun h => absurd h.2 (by decide)⟩
theorem met_FourthFaultLosesSync :
    (faulty 3).resetHeld = false ∧ ((faulty 3).rx.get .a).state = .synced ∧ ((faulty 3).rx.get .a).faultRun = 3
      ∧ inSequence ((faulty 3).rx.get .a) outOfOrder.cycle = false ∧ sourceAt outOfOrder (faulty 3)
      ∧ ¬ (sourceAt outOfOrder (faulty 3) ∧ (faulty 3).timing.mode = .acquiring ∧ (faulty 3).timing.armed = true) :=
  ⟨rfl, rfl, rfl, by decide, ⟨rfl, rfl⟩, fun h => absurd h.2.1 (by decide)⟩
theorem met_FourthFaultLosesSync_unused :
    ({ faulty 3 with homing := { Homing.initial .b with isolated := false } } : State).homing.home = .b
      ∧ ¬ sourceAt outOfOrder { faulty 3 with homing := { Homing.initial .b with isolated := false } } :=
  ⟨rfl, fun h => absurd h.2 (by decide)⟩
theorem met_CycleStartBeginsAcquisition_free :
    ((timed Timing.initial).resetHeld = false ∧ staysSynced inOrder (timed Timing.initial))
      ∧ sourceAt inOrder (timed Timing.initial) ∧ (timed Timing.initial).homing.isolated = false
      ∧ (timed Timing.initial).timing.mode = .free := ⟨synced_timed _, ⟨rfl, rfl⟩, rfl, rfl⟩
theorem met_CycleStartBeginsAcquisition_holdover :
    ((timed { Timing.initial with mode := .holdover }).resetHeld = false
        ∧ staysSynced inOrder (timed { Timing.initial with mode := .holdover }))
      ∧ sourceAt inOrder (timed { Timing.initial with mode := .holdover })
      ∧ (timed { Timing.initial with mode := .holdover }).homing.isolated = false
      ∧ (timed { Timing.initial with mode := .holdover }).timing.mode = .holdover :=
  ⟨synced_timed _, ⟨rfl, rfl⟩, rfl, rfl⟩

/-- A node whose timing unit is in a mode with its counts at 255, 7 and 3, and a phase. -/
def counting (mode : TimingMode) (armed : Bool) (phase : Word) : State :=
  timed
    { Timing.initial with
      mode := mode, lockCount := 255, unlockCount := 7, realignCount := 3, armed := armed, phase := phase }

/-- The good cycle on port A is the source's start there. -/
theorem source_counting (mode : TimingMode) (armed : Bool) (phase : Word) :
    ((counting mode armed phase).resetHeld = false ∧ staysSynced inOrder (counting mode armed phase))
      ∧ sourceAt inOrder (counting mode armed phase) ∧ (counting mode armed phase).timing.mode = mode
      ∧ (counting mode armed phase).timing.armed = armed := ⟨synced_timed _, ⟨rfl, rfl⟩, rfl, rfl⟩

/-- A last ordinary sample in each band: E = 3 with a lock count of 255, E = 64 with a realign count of 2 and E = 63 with
one of 3, E = 17 with an unlock count of 6 and E = 16 with one of 7. -/
theorem met_LoopStepFollowsItsRule :
    ((counting .acquiring false 0x300000#32).timing.run inOrder.elapsed).error = 3
      ∧ ((timed { Timing.initial with
        mode := .acquiring, lockCount := 254, realignCount := 2, phase := 0x4000000#32 }).timing.run 0).error = 64
      ∧ ((counting .acquiring false 0x3F00000#32).timing.run inOrder.elapsed).error = 63
      ∧ (timed { Timing.initial with mode := .tracking, unlockCount := 6, phase := 0x1100000#32 }).timing.unlockCount < 7
      ∧ ((counting .tracking false 0x1000000#32).timing.run inOrder.elapsed).error = 16 := by decide
/-- E = 2 and E = -2, the ends of the lock band. -/
theorem met_LockAndUnlockChangeTheMode_lock :
    (counting .acquiring false 0x2FFFFF#32).timing.lockCount = 255
      ∧ ((counting .acquiring false 0x2FFFFF#32).timing.run inOrder.elapsed).error = 2
      ∧ ((counting .acquiring false 0xFFE00000#32).timing.run inOrder.elapsed).error = -2 := by decide
/-- E = 17 and E = -17, just outside the unlock band. -/
theorem met_LockAndUnlockChangeTheMode_unlock :
    (counting .tracking false 0x1100000#32).timing.unlockCount = 7
      ∧ ((counting .tracking false 0x1100000#32).timing.run inOrder.elapsed).error = 17
      ∧ ((counting .tracking false 0xFEF00000#32).timing.run inOrder.elapsed).error = -17 := by decide
/-- E = 64 and E = -65, just outside the realign band. -/
theorem met_RealignmentResetsThePhase_arm :
    (counting .acquiring false 0x4000000#32).timing.realignCount = 3
      ∧ ((counting .acquiring false 0x4000000#32).timing.run inOrder.elapsed).error = 64
      ∧ ((counting .acquiring false 0xFBF00000#32).timing.run inOrder.elapsed).error = -65 := by decide
theorem met_RealignmentResetsThePhase_early :
    (counting .acquiring true 0x7FFFFFFF#32).timing.armed = true
      ∧ ((counting .acquiring true 0x7FFFFFFF#32).timing.run inOrder.elapsed).phase.toNat < 2 ^ 31 := by decide
theorem met_RealignmentResetsThePhase_late :
    (counting .acquiring true 0x80000000#32).timing.armed = true
      ∧ 2 ^ 31 ≤ ((counting .acquiring true 0x80000000#32).timing.run inOrder.elapsed).phase.toNat := by decide
theorem met_RealignmentResetsThePhase_stays :
    homeStays (storeCycle .a inOrder.cycle (counting .acquiring true 0x80000000#32))
      ∧ noMessage (storeCycle .a inOrder.cycle (counting .acquiring true 0x80000000#32)) :=
  ⟨⟨by decide, by decide, by decide, by decide⟩,
    fun x => by cases x <;> (show nextCounter _ _ ≠ _; unfold nextCounter; decide)⟩

/-- A fourth fault in a row at an armed realignment, before Q = 2048 and from then on. -/
def losing (phase : Word) : State :=
  { counting .acquiring true phase with rx := { a := { hearing with faultRun := 3 }, b := hearing } }

theorem met_FourthFaultLosesSync_armed :
    (losing 0x7FFFFFFF#32).resetHeld = false ∧ ((losing 0x7FFFFFFF#32).rx.get .a).state = .synced
      ∧ ((losing 0x7FFFFFFF#32).rx.get .a).faultRun = 3
      ∧ inSequence ((losing 0x7FFFFFFF#32).rx.get .a) outOfOrder.cycle = false
      ∧ sourceAt outOfOrder (losing 0x7FFFFFFF#32) ∧ (losing 0x7FFFFFFF#32).timing.mode = .acquiring
      ∧ (losing 0x7FFFFFFF#32).timing.armed = true
      ∧ ((losing 0x7FFFFFFF#32).timing.run outOfOrder.elapsed).phase.toNat < 2 ^ 31
      ∧ 2 ^ 31 ≤ ((losing 0x80000000#32).timing.run outOfOrder.elapsed).phase.toNat :=
  ⟨rfl, rfl, rfl, by decide, ⟨rfl, rfl⟩, rfl, rfl, by decide, by decide⟩

/-! ### Hypotheses met: local cycle boundaries -/

/-- A chain of 4 blocks from a block on, and channel 0 of a state. -/
def chain (first : Nat) (frames : List Frame) : Chain :=
  { runs := [(first, 4)], blocks := [first, first + 1, first + 2, first + 3], writer := frames.length, frames := frames }
def withChan (c : Channel) (s : State) : State := { s with chans := s.chans.set 0 c }

theorem met_BoundariesKeepTheSettings :
    .localCycleBoundary status ∈ boundaryCommands status .a 0 0
      ∧ ∃ t, exec (.localCycleBoundary status) homed = .next t := ⟨List.mem_cons_self, _, rfl⟩
theorem met_BoundariesWriteOutboundBlocksAlone :
    (∀ (k : ChanNo) (ch : Chain),
      (withChan { Channel.initial with outChain := some (chain 1 []) } homed).chans[k].outChain = some ch →
        ch.blocks ≠ [] ∧ 31 / 32 ∉ ch.blocks)
    ∧ ∃ t, exec (.localCycleBoundary status) (withChan { Channel.initial with outChain := some (chain 1 []) } homed)
        = .next t := by
  refine ⟨fun k ch h => ?_, _, rfl⟩
  by_cases hk : k = 0
  · subst hk
    have : ch = chain 1 [] := by simpa [withChan] using h.symm
    subst this
    decide
  · have : (withChan { Channel.initial with outChain := some (chain 1 []) } homed).chans[k].outChain = none := by
      have hk' : (0 : Nat) ≠ k.val := fun e => hk (Fin.ext e.symm)
      simp [withChan, homed, State.reset, State.afterPinReset, hk', Channel.initial]
    rw [this] at h
    cases h

/-- Channel 0 ACTIVE over an outbound chain, its parser in a state and at a place of the last two bytes of its block. -/
def parsing (st : ParseState) (at' : ParcelAt) (frames : List Frame) : State :=
  withChan
    { Channel.initial with
      state := .active, outChain := some (chain 4 frames),
      parser := { Parser.initial with state := st, stream := { left := 2, at' := at' } } } homed

/-- The newest frame of `parsing` with one place left in its first block. -/
def open19 : Frame := { Frame.opened 0 with length := 19 }

theorem met_BoundariesWriteOutboundBlocksAlone_payload :
    (parsing .assembling (.payload .last 1) [open19]).chans[(0 : ChanNo)].state = .active
      ∧ (parsing .assembling (.payload .last 1) [open19]).chans[(0 : ChanNo)].set.listen = false
      ∧ (parsing .assembling (.payload .last 1) [open19]).chans[(0 : ChanNo)].parser.stream
        = { left := 1 + 1, at' := .payload .last 1 }
      ∧ takesByte 0 (chain 4 [open19]) open19 (parsing .assembling (.payload .last 1) [open19]) := by
  unfold takesByte; decide
theorem met_BoundariesWriteOutboundBlocksAlone_opened :
    (parsing .noFrame (.before .start [0#8] 1 0) []).chans[(0 : ChanNo)].outChain = some (chain 4 [])
      ∧ (chain 4 []).occupancy < (chain 4 []).blocks.length
      ∧ (chain 4 [{ Frame.opened 0 with taken := 4 }]).blocks.length
        ≤ (chain 4 [{ Frame.opened 0 with taken := 4 }]).occupancy := by decide
theorem met_BoundariesWriteOutboundBlocksAlone_check :
    (parsing .assembling (.check .last (some 0#8)) [open19]).chans[(0 : ChanNo)].parser.state = .assembling
      ∧ (chain 4 [open19]).frames.getLast? = some open19
      ∧ (0#8 : Byte).toNat * 256 + (0#8 : Byte).toNat = (~~~ (0xFFFF#16 : Half)).toNat
      ∧ (0#8 : Byte).toNat * 256 + (1#8 : Byte).toNat ≠ (~~~ (0xFFFF#16 : Half)).toNat := by decide

/-- The newest frame with its first block full, in a chain with a free block and in one without. -/
def full20 (taken : Nat) : Frame := { Frame.opened 0 with length := 20 + 32 * (taken - 1), taken := taken }

theorem met_BoundariesWriteOutboundBlocksAlone_block :
    (parsing .assembling (.payload .middle 2) [full20 1]).chans[(0 : ChanNo)].outChain = some (chain 4 [full20 1])
      ∧ 20 + 32 * ((full20 1).taken - 1) ≤ (full20 1).length
      ∧ (full20 1).length < (parsing .assembling (.payload .middle 2) [full20 1]).chans[(0 : ChanNo)].set.maxLength
      ∧ (chain 4 [full20 1]).occupancy < (chain 4 [full20 1]).blocks.length := by decide
theorem met_BoundariesWriteOutboundBlocksAlone_lost :
    losesByte 0 (chain 4 [full20 4]) (full20 4) .overflow (parsing .assembling (.payload .single 1) [full20 4])
      ∧ losesByte 0 (chain 4 [{ open19 with length := 1024 }]) { open19 with length := 1024 } .tooLong
        (parsing .assembling (.payload .middle 1) [{ open19 with length := 1024 }]) := by
  unfold losesByte; decide
/-- A START of one payload byte fits in 5 bytes of a round block; one with a reserved bit set, and an ABORT with a length,
are no good headers. -/
theorem met_BoundariesWriteOutboundBlocksAlone_header :
    headerGood .start 1#8 5 ∧ ¬ headerGood .start 0x41#8 5 ∧ ¬ headerGood .abort 1#8 5 ∧ headerGood .abort 0#8 2
      ∧ ParcelKind.code .start = 1#8
      ∧ (parsing .assembling (.second 5#8) [open19]).chans[(0 : ChanNo)].parser.state = .assembling
      ∧ (parsing .skipping (.check .last (some 0#8)) []).chans[(0 : ChanNo)].parser.state ≠ .assembling := by decide

/-- The station filter reads a frame at a place, with channel 0 an ACTIVE LISTEN channel. -/
def listening (st : ParseState) (at' : ParcelAt) (copies : List ChanNo) (frames : List Frame) : State :=
  { withChan
      { Channel.initial with
        set := { ChannelSettings.initial with listen := true }, state := .active, outChain := some (chain 4 frames) }
      homed with
    filter :=
      { Filter.initial with
        capacity := 8, table := [(5, 1#16)], state := st, copies := copies, stream := { left := 1, at' := at' } } }

theorem met_BoundariesWriteOutboundBlocksAlone_targets :
    tableSound (listening .noFrame .header [] []) ∧ targetsFor (listening .noFrame .header [] []) 5 = [0]
      ∧ targetsFor (listening .noFrame .header [] []) 65535 = [0]
      ∧ targetsFor (listening .noFrame .header [] []) 0 = [] :=
  ⟨⟨by decide, by decide, by decide, by decide, fun a c h => by cases h⟩, by decide, by decide, by decide⟩
theorem met_BoundariesWriteOutboundBlocksAlone_copies :
    (listening .assembling (.payload .middle 1) [0] [open19]).filter.nextGroup = none
      ∧ (listening .assembling (.payload .middle 1) [0] [open19]).filter.copies.Nodup
      ∧ ∀ k ∈ (listening .assembling (.payload .middle 1) [0] [open19]).filter.copies,
        ∃ c f, takesByte k c f (listening .assembling (.payload .middle 1) [0] [open19]) :=
  ⟨by decide, by decide, fun k h => by
    have : k = 0 := by simpa [listening] using h
    subst this
    exact ⟨chain 4 [open19], open19, by unfold takesByte; decide⟩⟩
theorem met_BoundariesWriteOutboundBlocksAlone_copy_opened :
    halfAt (if [0#8].length < 2 then [0#8] ++ [5#8] else [0#8]) 0 = 5
      ∧ (listening .noFrame (.before .single [0#8] 1 0) [] []).chans[(0 : ChanNo)].outChain = some (chain 4 []) := by
  decide
theorem met_BoundariesWriteOutboundBlocksAlone_copy_lost :
    (listening .assembling (.payload .middle 1) [0] [full20 4]).filter.copies ≠ []
      ∧ losesByte 0 (chain 4 [full20 4]) (full20 4) .overflow
        (listening .assembling (.payload .middle 1) [0] [full20 4])
      ∧ (listening .assembling (.second 1#8) [0] [open19]).filter.state = .assembling := by
  unfold losesByte; decide
theorem met_LocalCycleMovesTheClock :
    (timed { Timing.initial with cycle := 7999 }).resetHeld = false
      ∧ timingInRange (timed { Timing.initial with cycle := 7999 })
      ∧ noMessage (timed { Timing.initial with cycle := 7999 }) :=
  ⟨rfl, by constructor <;> decide,
    fun x => by cases x <;> (show nextCounter _ _ ≠ _; unfold nextCounter; decide)⟩

/-- The node of `homed` with one owned lane, and role tables that carry it. -/
def laned (e : Entry) (s : State) : State :=
  { s with
    alloc := { s.alloc with owned := [e] },
    flow :=
      { a := { s.flow.a with roles := [(e.lane, .add .spare)] },
        b := { s.flow.b with roles := [(e.lane, .drop .spare)] } } }

theorem met_LocalCycleSendsACycle :
    (laned { lane := 127, use := .spare, move := none } homed).resetHeld = false ∧ ((after (.localCycleBoundary status) (laned { lane := 127, use := .spare, move := none } homed)).flow.get .a).roles
        = [(127, .add .spare)]
      ∧ ((after (.localCycleBoundary status) (laned { lane := 127, use := .spare, move := none } homed)).flow.get .b).roles
        = [(127, .drop .spare)] := by decide

/-- Call point 1 TALKING on the last lane of both role tables, and channel 0 adding lane 3. -/
def carrying : State :=
  { withChan { Channel.initial with sender := { Sender.initial with width := 1 } } homed with
    ports := homed.ports.set 1 { Port.initial with own := .callpoint 7 },
    calls := homed.calls.set 1 { CallPoint.initial 7 with state := .talking, lane := some 127 },
    alloc := { Allocator.initial with
      owned := [{ lane := 3, use := .channel 0, move := none }, { lane := 127, use := .call 1, move := none }] },
    flow :=
      { a := { Flow.initial with roles := [(3, .add (.channel 0)), (127, .add (.call 1))] },
        b := { Flow.initial with roles := [(0, .dropContinue), (3, .drop (.channel 0)), (127, .drop (.call 1))] } } }

theorem met_LocalCycleSendsACycle_users :
    noMessage carrying ∧ ((after (.localCycleBoundary status) carrying).flow.get .a).roles
        = [(3, .add (.channel 0)), (127, .add (.call 1))]
      ∧ (after (.localCycleBoundary status) carrying).homing.home.other = .b
      ∧ ((after (.localCycleBoundary status) carrying).flow.get .a).sent.lanes.getD 127 0xFF#8 = 0x7F#8
      ∧ portFunction (after (.localCycleBoundary status) carrying) 1 = .callpoint :=
  ⟨fun x => by cases x <;> (show nextCounter _ _ ≠ _; unfold nextCounter; decide), by decide, by decide, by decide,
    by decide⟩

/-- Channel 0 ACTIVE with a round block of a width of which some bytes are built, and one inbound frame. -/
def sender (width built : Nat) (owed : Bool) (f : Frame) : State :=
  withChan
    { Channel.initial with
      state := .active, inChain := some (chain 0 [f]),
      sender := { Sender.initial with width := width, block := List.replicate built 0xFF#8, abortOwed := owed } } homed

theorem met_LocalCycleSendsACycle_single :
    (sender 1 12 false { Frame.opened 0 with closed := true }).chans[(0 : ChanNo)].sender.out = []
      ∧ (sender 1 12 false { Frame.opened 0 with closed := true }).chans[(0 : ChanNo)].state = .active
      ∧ (sender 1 12 false { Frame.opened 0 with closed := true }).chans[(0 : ChanNo)].inChain
        = some (chain 0 [{ Frame.opened 0 with closed := true }])
      ∧ ¬ 4 + 0 + 2 ≤ 16 * 1 - 12 ∧ ¬ 4 + 1 ≤ 16 * 1 - 12 ∧ 4 + 0 + 2 ≤ 16 * 1 - 10 := by decide
/-- The bytes of a SINGLE of one payload byte: R153's header and address, the byte, and C16 over it. -/
theorem test_single_parcel :
    (senderByte 0
      { sender 1 0 false { Frame.opened 0 with closed := true, length := 1 } with mem := [(12, 0x41#8)] }).chans[(0 : ChanNo)].sender.out.map
        Prod.fst
      = [0x01#8, 0x00#8, 0x00#8, 0x41#8] ++ twoBytes (c16 [0x41#8]).toNat := by decide
theorem met_LocalCycleSendsACycle_abort :
    (sender 1 14 true (Frame.opened 0)).chans[(0 : ChanNo)].sender.abortOwed = true
      ∧ 2 ≤ 16 * 1 - (sender 1 14 true (Frame.opened 0)).chans[(0 : ChanNo)].sender.block.length
      ∧ 16 * 1 - (sender 1 15 true (Frame.opened 0)).chans[(0 : ChanNo)].sender.block.length < 2 := by decide
/-- A frame begun with bytes of its payload still to send. -/
def begun' (sent : Nat) : Frame := { Frame.opened 0 with length := 20, begun := true, sent := sent }

/-- One IDLE, or IDLE to the end of the block: no frame, a frame that has nothing written yet, no room left, and a frame
that may not be begun. -/
theorem met_LocalCycleSendsACycle_idle :
    { Frame.opened 0 with begun := true }.closed = false ∧ { Frame.opened 0 with begun := true }.length = 0
      ∧ ¬ 3 ≤ 16 * 1 - (sender 1 14 false (begun' 9)).chans[(0 : ChanNo)].sender.block.length
      ∧ 16 * 1 - (sender 1 12 false { Frame.opened 0 with closed := true }).chans[(0 : ChanNo)].sender.block.length ≤ 4
      ∧ ¬ ((Frame.opened 0).closed = true
        ∨ (ChannelSettings.initial.stamping = false ∧ 2 ≤ (Frame.opened 0).taken - (Frame.opened 0).released)) := by
  decide
/-- A round begins at the next boundary of `homed`, where the EMPTY of the round is made, and a call point takes a word. -/
theorem met_LocalCycleSendsACycle_empty :
    ((after (.localCycleBoundary status) homed).flow.get .a).counter = 0#4
      ∧ (after (.localCycleBoundary status) carrying).ports[(1 : PortNo)].status = some 0x7F00#16 := by decide
theorem met_StoreIsReadAtTheBoundary (n : Nat) :
    ({ homed with flow := { homed.flow with a := { Flow.initial with
        mode := .priming, store := List.replicate n Flow.initial.taken } } } : State).resetHeld = false := rfl
theorem met_StartUpRoundTakesSixteenCycles :
    State.reset.resetHeld = false ∧ (State.reset.flow.get .a).startUp = some 0
      ∧ ({ Flow.initial with startUp := some 16 } : Flow).startUp = some 16 := by decide

/-- A round begins at the next boundary of `homed` and its kin: their counters stand at 15. -/
theorem roundBegins_homed : roundBegins homed := by unfold roundBegins nextCounter; decide
theorem noMessage_homed : noMessage homed := fun x => by
  cases x <;> (show nextCounter _ _ ≠ _; unfold nextCounter; decide)

/-- The node of `homed` with its receivers' presence timers and its homing unit. -/
def homing (pa pb : Nat) (h : Homing) : State :=
  { homed with rx := { a := { hearing with presence := pa }, b := { hearing with presence := pb } }, homing := h }

/-- Such a node runs, and its next boundary begins a round and completes no message. -/
theorem round_homing (pa pb : Nat) (h : Homing) (hh : h.home = .a) :
    (homing pa pb h).resetHeld = false ∧ roundBegins (homing pa pb h) := by
  refine ⟨rfl, ?_⟩
  unfold roundBegins
  rw [show (homing pa pb h).homing.home = .a from hh]
  have hf : (homing pa pb h).flow = homed.flow := rfl
  unfold nextCounter readStore
  rw [hf, if_neg (by decide)]
  rw [State.updFlow_flow, hf]
  decide

theorem met_PresenceRunsOut :
    (homing 1 24 homed.homing).resetHeld = false ∧ roundBegins (homing 1 24 homed.homing)
      ∧ ((homing 1 24 homed.homing).rx.get .a).presence = 1 ∧ noMessage (homing 1 24 homed.homing) :=
  ⟨rfl, (round_homing 1 24 homed.homing rfl).2, rfl,
    fun x => by cases x <;> (show nextCounter _ _ ≠ _; unfold nextCounter; decide)⟩

/-- A TIME of end A in round 8, for the last round of a second, and a node message. -/
def timeMessage : List Byte := roundMessage 0x01#8 0x80#8 8#16 (fourBytes 5 ++ twoBytes 499)
def nodeMessage : List Byte := roundMessage 0x03#8 0x3F#8 7#16 []

theorem met_PresenceRunsOut_time :
    (c16 (timeMessage.take 30)).toNat = halfAt timeMessage 30 ∧ (byteAt timeMessage 0).toNat = 1
      ∧ (byteAt timeMessage 1).toNat = 128 ∧ halfAt timeMessage 2 % 8 = 0 ∧ halfAt timeMessage 8 = 499 := by decide
theorem met_PresenceRunsOut_node :
    (c16 (nodeMessage.take 30)).toNat = halfAt nodeMessage 30 ∧ (byteAt nodeMessage 1).toNat = 63
      ∧ halfAt nodeMessage 2 % 2 = 1 := by decide
theorem met_PresenceRunsOut_home :
    homed.homing.home = .a ∧ ∀ e ∈ homed.alloc.owned, ∀ n, e.move = some n → n.effect = none :=
  ⟨rfl, fun e h => by simp [homed, State.reset, State.afterPinReset, Allocator.initial] at h⟩

/-- The hold-off reaches its setting of 4 with the end that is not home reachable, and with neither. -/
def expiring (pb : Nat) : State := homing 0 pb { homed.homing with holdOff := some 3, forced := some .a }

/-- RELEASE with the flag clear starts the restore count afresh (R35). -/
theorem test_release_restarts_count :
    (after (.homeForceRelease 1#8 1#8) (homing 24 2 { homed.homing with preferred := .b, restore := some 29999 })).homing.restore
      = some 0 := by decide
theorem met_HoldOffExpiryChangesTheHome_failure :
    ((expiring 2).resetHeld = false ∧ roundBegins (expiring 2)) ∧ (expiring 2).homing.isolated = false
      ∧ (expiring 2).homing.pendingForce = none ∧ reachable (expiring 2) (expiring 2).homing.home = false
      ∧ (expiring 2).homing.holdOff = some 3 ∧ (expiring 2).homing.holdOffSetting ≤ 3 + 1
      ∧ reachable (expiring 2) (expiring 2).homing.home.other = true
      ∧ ((expiring 2).rx.get (expiring 2).homing.home.other).presence ≠ 1 :=
  ⟨round_homing _ _ _ rfl, by decide, by decide, by decide, by decide, by decide, by decide, by decide⟩
theorem met_HoldOffExpiryChangesTheHome_isolation :
    ((expiring 0).resetHeld = false ∧ roundBegins (expiring 0)) ∧ (expiring 0).homing.isolated = false
      ∧ (expiring 0).homing.pendingForce = none ∧ reachable (expiring 0) (expiring 0).homing.home = false
      ∧ (expiring 0).homing.holdOff = some 3 ∧ (expiring 0).homing.holdOffSetting ≤ 3 + 1
      ∧ reachable (expiring 0) (expiring 0).homing.home.other = false :=
  ⟨round_homing _ _ _ rfl, by decide, by decide, by decide, by decide, by decide, by decide⟩
theorem met_HomeChangesAtTheRoundBoundary_forced :
    ((homing 24 24 { homed.homing with pendingForce := some .b }).resetHeld = false
        ∧ roundBegins (homing 24 24 { homed.homing with pendingForce := some .b }))
      ∧ (homing 24 24 { homed.homing with pendingForce := some .b }).homing.pendingForce = some .b :=
  ⟨round_homing _ _ _ rfl, rfl⟩
theorem met_HomeChangesAtTheRoundBoundary_recovery :
    ((homing 0 2 (Homing.initial .a)).resetHeld = false ∧ roundBegins (homing 0 2 (Homing.initial .a)))
      ∧ (homing 0 2 (Homing.initial .a)).homing.pendingForce = none
      ∧ (homing 0 2 (Homing.initial .a)).homing.isolated = true ∧ reachable (homing 0 2 (Homing.initial .a)) .b = true
      ∧ ((homing 0 2 (Homing.initial .a)).rx.get .b).presence ≠ 1
      ∧ reachable (homing 0 2 (Homing.initial .a)) Side.b.other = false :=
  ⟨round_homing _ _ _ rfl, by decide, by decide, by decide, by decide, by decide⟩

/-- The wait-to-restore of 60 s reaches its end. -/
def restoring : State := homing 24 2 { homed.homing with preferred := .b, restore := some 29999 }

theorem met_HomeChangesAtTheRoundBoundary_revert :
    (restoring.resetHeld = false ∧ roundBegins restoring) ∧ restoring.homing.pendingForce = none
      ∧ restoring.homing.isolated = false ∧ reachable restoring restoring.homing.home = true
      ∧ (restoring.rx.get restoring.homing.home).presence ≠ 1 ∧ restoring.homing.holdOff = none
      ∧ restoreRuns restoring = true ∧ (restoring.rx.get restoring.homing.preferred).presence ≠ 1
      ∧ restoring.homing.restore = some 29999 ∧ restoring.homing.restoreSetting * 500 ≤ 29999 + 1 :=
  ⟨round_homing _ _ _ rfl, by decide, by decide, by decide, by decide, by decide, by decide, by decide, by decide,
    by decide⟩

/-- Lane 127 on its way to CALL 1, SENT for round 1. -/
def moving : Entry :=
  { lane := 127, use := .spare,
    move := some { target := .call 1, effect := some 1#16, tx := false, rx := false, followUp := false } }

/-- A forced change to B while lane 127 moves to CALL 1, channel 0 has begun an inbound frame and assembles another, and
the from-home flow is in the middle of its round. -/
def rehoming : State :=
  { homed with
    homing := { homed.homing with pendingForce := some .b },
    round := { RoundUnit.initial with localCount := 1#16, queue := [.call 0 .busy, .lane 127 (.call 1)] },
    flow := { a := Flow.initial, b := { Flow.initial with counter := 4#4 } },
    alloc := { Allocator.initial with owned := [moving] },
    chans := homed.chans.set 0
      { Channel.initial with
        state := .active, inChain := some (chain 0 [{ open19 with begun := true }]), writer := .writing,
        outChain := some (chain 4 [open19]), parser := { Parser.initial with state := .assembling },
        sender := { Sender.initial with abortOwed := true } } }

theorem met_HomeChangesAtTheRoundBoundary_moves :
    rehoming.resetHeld = false ∧ roundBegins rehoming ∧ rehoming.homing.pendingForce = some .b ∧ noMessage rehoming
      ∧ nextCounter rehoming.homing.home.other rehoming ≠ 0#4 ∧ rehoming.round.localCount.toNat % 2 = 1
      ∧ laneListsLegal rehoming
      ∧ (after (.localCycleBoundary status) rehoming).homing.home ≠ rehoming.homing.home :=
  ⟨rfl, by unfold roundBegins nextCounter; decide, rfl,
    fun x => by cases x <;> (show nextCounter _ _ ≠ _; unfold nextCounter; decide),
    by unfold nextCounter; decide, by decide, by unfold laneListsLegal legalLists; decide, by decide⟩
theorem test_change_of_home_applies_moves :
    (after (.localCycleBoundary status) rehoming).alloc.owned = [{ lane := 127, use := .call 1, move := none }]
      ∧ (after (.localCycleBoundary status) rehoming).round.queue = [.call 0 .busy]
      ∧ (after (.localCycleBoundary status) rehoming).chans[(0 : ChanNo)].counters.aborted = 2 := by decide
theorem met_HomeChangesAtTheRoundBoundary_filter :
    (listening .assembling (.payload .middle 1) [0] [open19]).filter.copies.Nodup
      ∧ (filterBreak (listening .assembling (.payload .middle 1) [0] [open19])).chans[(0 : ChanNo)].counters.aborted = 1 := by
  decide

/-- The holdover timer stands at the greatest limit. -/
def limited : State := timed { Timing.initial with mode := .holdover, holdTimer := 43200000, holdLimit := 86400 }

theorem met_HoldLimitIsMarked :
    limited.resetHeld = false ∧ timingInRange limited ∧ roundBegins limited ∧ limited.timing.mode = .holdover
      ∧ limited.timing.holdTimer = limited.timing.holdLimit * 500 :=
  ⟨rfl, by constructor <;> decide,
    by unfold roundBegins nextCounter; decide, rfl, by decide⟩

theorem met_SentMovesReachTheLine :
    (laned moving homed).resetHeld = false ∧ laneListsLegal (laned moving homed) ∧ homeStays (laned moving homed)
      ∧ moving ∈ (laned moving homed).alloc.owned ∧ moving.lane = 127
      ∧ moving.move = some { target := .call 1, effect := some 1#16, tx := false, rx := false, followUp := false }
      ∧ roundBegins (laned moving homed) ∧ reached ((laned moving homed).round.localCount + 1#16) 1#16 = true
      ∧ (laned moving homed).alloc.listsDue = false
      ∧ nextCounter (laned moving homed).homing.home.other (laned moving homed) = 0#4
      ∧ reached ((laned moving homed).round.receivedCount + 1#16) 1#16 = true :=
  ⟨rfl, by unfold laneListsLegal legalLists; decide, ⟨rfl, rfl, by decide, rfl⟩, by decide, rfl, rfl,
    by unfold roundBegins nextCounter; decide, by decide, rfl, by unfold nextCounter; decide, by decide⟩

/-- A lane of call point 1 whose SENT move has taken effect on transmit, and is due on receive. -/
def landing (use target : Use) (followUp : Bool) : Entry :=
  { lane := 127, use := use,
    move := some { target := target, effect := some 1#16, tx := true, rx := false, followUp := followUp } }

theorem met_SentMovesReachTheLine_completes :
    laneListsLegal (laned (landing .spare (.call 1) false) homed)
      ∧ homeStays (laned (landing .spare (.call 1) false) homed) ∧ noMessage (laned (landing .spare (.call 1) false) homed)
      ∧ landing .spare (.call 1) false ∈ (laned (landing .spare (.call 1) false) homed).alloc.owned
      ∧ nextCounter .b (laned (landing .spare (.call 1) false) homed) = 0#4 ∧ reached (0#16 + 1#16) 1#16 = true
      ∧ reached 0#16 1#16 = false
      ∧ ∀ k : ChanNo, (laned (landing .spare (.call 1) false) homed).chans[k].state ≠ .stopping :=
  ⟨by unfold laneListsLegal legalLists; decide, ⟨rfl, rfl, by decide, rfl⟩,
    fun x => by cases x <;> (show nextCounter _ _ ≠ _; unfold nextCounter; decide), by decide,
    by unfold nextCounter; decide, by decide, by decide, by decide⟩
/-- The last lane of channel 0, STOPPING, whose move to SPARE is due on receive: with it the channel is STOPPED (R100). -/
theorem met_SentMovesReachTheLine_stops :
    (let s : State :=
      laned (landing (.channel 0) .spare false) (withChan { Channel.initial with state := .stopping } homed)
     laneListsLegal s ∧ landing (.channel 0) .spare false ∈ s.alloc.owned
      ∧ s.chans[(0 : ChanNo)].state = .stopping
      ∧ (freedStopped (landedMove (landing (.channel 0) .spare false) .spare s)).chans[(0 : ChanNo)].state = .stopped
      ∧ (takeEffect false 1#16 127 s).chans[(0 : ChanNo)].state = .stopped) :=
  ⟨by unfold laneListsLegal legalLists; decide, by decide, by decide, by decide, by decide⟩
/-- At a change of home lane 2 reaches channel 0, its move to be followed up, while lane 1's move to channel 2 leads to a
walk for the call that waits: channel 0 keeps its W_min of one lane (R89), and lane 2 moves on to SPARE (R88). -/
theorem test_home_change_keeps_the_least_width :
    (let toChannel (k : ChanNo) (followUp : Bool) : Option Move :=
      some { target := .channel k, effect := some 1#16, tx := false, rx := false, followUp := followUp }
     let active : Channel :=
      { Channel.initial with state := .active, set := { ChannelSettings.initial with wn := 1, wmin := 1 } }
     let s : State :=
      { homed with
        chans := (homed.chans.set 0 active).set 2 active,
        alloc :=
          { Allocator.initial with
            owned :=
              [{ lane := 1, use := .spare, move := toChannel 2 false },
                { lane := 2, use := .spare, move := toChannel 0 true }, { lane := 3, use := .channel 0, move := none }],
            waiting := [(1, 7)] } }
     committed (applyAllMoves s) 0 = [3] ∧ (applyAllMoves s).alloc.waiting = [(1, 7)]
      ∧ (applyAllMoves s).round.queue = [.lane 2 .spare]) := by decide
/-- A ring that connects with an answer pending becomes TALKING, and a call point in CLEARING is IDLE (R112, R117). -/
theorem test_move_completes :
    (let ringing : CallPoint := { CallPoint.initial 7 with state := .ringConnecting, answerPending := true }
     let s : State := laned (landing .spare (.call 1) false) { homed with calls := homed.calls.set 1 ringing }
     (takeEffect false 1#16 127 s).calls[(1 : PortNo)].state = .talking
      ∧ (takeEffect false 1#16 127 s).round.queue = [.call 1 .answered])
    ∧ (let gone : CallPoint := { CallPoint.initial 7 with state := .clearing, lane := some 127 }
       let s : State := laned (landing (.call 1) .spare false) { homed with calls := homed.calls.set 1 gone }
       (takeEffect false 1#16 127 s).calls[(1 : PortNo)].state = .idle
        ∧ (takeEffect false 1#16 127 s).alloc.owned = [{ lane := 127, use := .spare, move := none }]) := by decide

/-- Lists that the trunk has not taken, and a listen group that is due. -/
def listed : State :=
  { homed with
    alloc :=
      { Allocator.initial with
        owned := [{ lane := 5, use := .spare, move := none }], listen := [0, 127], listsDue := true } }

theorem met_NewListsReachTheTrunk :
    listed.resetHeld = false ∧ laneListsLegal listed ∧ homeStays listed ∧ listed.alloc.listsDue = true ∧ roundBegins listed
      ∧ listed.alloc.listen = [0, 127] ∧ nextCounter listed.homing.home.other listed = 0#4 :=
  ⟨rfl, by unfold laneListsLegal legalLists; decide, ⟨rfl, rfl, by decide, rfl⟩, rfl,
    by unfold roundBegins nextCounter; decide, rfl, by unfold nextCounter; decide⟩

/-- A listen group whose lists have been taken, waiting for a cycle numbered 0. -/
def grouped : State := { homed with filter := { Filter.initial with nextGroup := some [4] } }

theorem met_NewListsReachTheTrunk_group :
    laneListsLegal grouped ∧ homeStays grouped ∧ grouped.alloc.listsDue = false
      ∧ grouped.filter.nextGroup = some [4] ∧ nextCounter .b grouped = 0#4 :=
  ⟨by unfold laneListsLegal legalLists; decide, ⟨rfl, rfl, by decide, rfl⟩, rfl, rfl, by unfold nextCounter; decide⟩

/-- A numbering and a station update that wait for the boundary. -/
def waiting : State :=
  { homed with
    round := { RoundUnit.initial with nextNumbering := some { node := some 3, turns := 4 } },
    filter := { Filter.initial with update := some (.put 1 1#16) } }

theorem met_RoundBoundaryTakesNumberingAndUpdate :
    waiting.resetHeld = false ∧ roundBegins waiting
      ∧ waiting.round.nextNumbering = some { node := some 3, turns := 4 }
      ∧ waiting.filter.update = some (.put 1 1#16) :=
  ⟨rfl, by unfold roundBegins nextCounter; decide, rfl, rfl⟩

/-- A turn of node 3 of 4: round 7, with a LANE item behind two CALL items. -/
def turning (owed : Bool) : State :=
  { homed with
    alloc := { Allocator.initial with owned := [{ moving with move := moving.move.map fun m => { m with effect := none } }] },
    round :=
      { RoundUnit.initial with
        numbering := { node := some 3, turns := 4 }, localCount := 7#16, rosterOwed := owed,
        queue := [.call 0 .busy, .call 2 .answered, .lane 127 (.call 1), .call 3 .busy] } }

theorem met_RoundBoundaryTakesNumberingAndUpdate_turn :
    isTurn (turning true).round.numbering (turning true).round.localCount = true
      ∧ (turning true).round.rosterOwed = true ∧ (turning true).alloc.owned.length ≤ 12
      ∧ (turning false).round.rosterOwed = false ∧ isTurn (turning true).round.numbering 5#16 = false
      ∧ noMessage waiting :=
  ⟨by decide, by decide, by decide, by decide, by decide,
    fun x => by cases x <;> (show nextCounter _ _ ≠ _; unfold nextCounter; decide)⟩
/-- The move of the third item is SENT for round 11. -/
theorem test_turn_sends_move :
    (judgeTurn (turning false)).alloc.owned.map (fun e => (e.move.map fun m => m.effect)) = [some (some 11#16)]
      ∧ (judgeTurn (turning false)).round.queue = [.call 3 .busy] := by decide

/-- Call point 1 on lane 127, in a state and with a ring timer. -/
def calling (state : CallState) (offHook : Bool) (s : State) : State :=
  { s with
    alloc := { s.alloc with owned := [{ lane := 127, use := .call 1, move := none }] },
    ports := s.ports.set 1 { Port.initial with own := .callpoint 7 },
    calls := s.calls.set 1
      { CallPoint.initial 7 with
        state := state, offHook := offHook, lane := if state = .waiting then none else some 127, ringTimer := 1 } }

/-- The lane of that call. -/
def spoken : Entry := { lane := 127, use := .call 1, move := none }

theorem met_RingTimerExpiryClearsTheCall :
    (calling .ringing false homed).resetHeld = false ∧ roundBegins (calling .ringing false homed)
      ∧ noMessage (calling .ringing false homed) ∧ laneListsLegal (calling .ringing false homed)
      ∧ (calling .ringing false homed).calls[(1 : PortNo)].state = .ringing
      ∧ (calling .ringing false homed).calls[(1 : PortNo)].ringTimer = 1
      ∧ spoken ∈ (calling .ringing false homed).alloc.owned ∧ spoken.use = .call 1 ∧ spoken.move = none
      ∧ (calling .ringing false homed).calls[(1 : PortNo)].lane = some spoken.lane
      ∧ (∀ w ∈ (calling .ringing false homed).alloc.waiting, w.1 ≠ 1) :=
  ⟨rfl, by unfold roundBegins nextCounter; decide,
    fun x => by cases x <;> (show nextCounter _ _ ≠ _; unfold nextCounter; decide),
    by unfold laneListsLegal legalLists; decide, by decide, by decide, by decide, rfl, rfl, by decide, by decide⟩

/-! ### Hypotheses met: lanes, call points and contacts -/

/-- Channel 0 ACTIVE at level 4 on two lanes, of which it keeps one. -/
def donating : State :=
  withChan { Channel.initial with state := .active, set := { ChannelSettings.initial with level := 4, wmin := 1, wn := 2 } }
    { homed with
      alloc :=
        { Allocator.initial with
          owned := [{ lane := 2, use := .channel 0, move := none }, { lane := 9, use := .channel 0, move := none }] } }

theorem met_RequestIsGivenTheRuleLane_donor :
    laneListsLegal donating ∧ spareLanes donating = [] ∧ laneFor donating 5 = some 9 ∧ laneFor donating 4 = none :=
  ⟨by unfold laneListsLegal legalLists; decide, by decide, by decide, by decide⟩
theorem met_RequestIsGivenTheRuleLane_spare : laneFor listed 5 = some 5 := by decide

/-- Call point 1 IDLE over a table and a floor. -/
def idling (level floor : Nat) (s : State) : State :=
  { s with
    alloc := { s.alloc with hostFloor := floor }, ports := s.ports.set 1 { Port.initial with own := .callpoint level },
    calls := s.calls.set 1 (CallPoint.initial level) }

/-- A call point whose port has taken a status word, and one whose call the end began. -/
def worded (w : Half) (s : State) : State := { s with ports := s.ports.set 1 { s.ports[1] with status := some w } }
def ringer (state : CallState) (offHook : Bool) : State :=
  { calling state offHook homed with
    calls := (calling state offHook homed).calls.set 1
      { (calling state offHook homed).calls[1] with ringMark := decide (state = .waiting) } }

theorem reads_unset {p : PortNo} {off : Bool} {s : State} (h : s.ports[p].status = none) : hookReads p off s :=
  fun w hw => by rw [h] at hw; cases hw

theorem met_OffHookPlacesOrAnswers_floor :
    (idling 6 6 listed).resetHeld = false ∧ callExists (idling 6 6 listed) 1 = true
      ∧ (idling 6 6 listed).calls[(1 : PortNo)].offHook = false ∧ (idling 6 6 listed).calls[(1 : PortNo)].state = .idle
      ∧ (idling 6 6 listed).calls[(1 : PortNo)].level ≤ (idling 6 6 listed).alloc.floor := by decide
theorem met_OffHookPlacesOrAnswers_lane :
    (idling 7 6 listed).resetHeld = false ∧ callExists (idling 7 6 listed) 1 = true
      ∧ (idling 7 6 listed).calls[(1 : PortNo)].offHook = false ∧ (idling 7 6 listed).calls[(1 : PortNo)].state = .idle
      ∧ (idling 7 6 listed).alloc.floor < (idling 7 6 listed).calls[(1 : PortNo)].level
      ∧ laneFor (idling 7 6 listed) (idling 7 6 listed).calls[(1 : PortNo)].level = some 5 := by decide
theorem met_OffHookPlacesOrAnswers_pending :
    (idling 7 6 homed).resetHeld = false ∧ callExists (idling 7 6 homed) 1 = true
      ∧ (idling 7 6 homed).calls[(1 : PortNo)].offHook = false ∧ (idling 7 6 homed).calls[(1 : PortNo)].state = .idle
      ∧ (idling 7 6 homed).alloc.floor < (idling 7 6 homed).calls[(1 : PortNo)].level
      ∧ laneFor (idling 7 6 homed) (idling 7 6 homed).calls[(1 : PortNo)].level = none := by decide
theorem met_OffHookPlacesOrAnswers_ringing :
    (calling .ringing false homed).resetHeld = false ∧ callExists (calling .ringing false homed) 1 = true
      ∧ (calling .ringing false homed).calls[(1 : PortNo)].state = .ringing
      ∧ (calling .ringing false homed).calls[(1 : PortNo)].offHook = false := by decide
theorem met_OffHookPlacesOrAnswers_items :
    callExists (idling 7 6 listed) 1 = true ∧ (idling 7 6 listed).calls[(1 : PortNo)].state = .idle
      ∧ laneFor (idling 7 6 listed) 7 = some 5
      ∧ (calling .alerting false homed).calls[(1 : PortNo)].state = .alerting
      ∧ (calling .waiting false homed).calls[(1 : PortNo)].state = .waiting
      ∧ spoken ∈ (calling .talking true homed).alloc.owned ∧ regrower (calling .talking true homed) = none
      ∧ laneListsLegal (calling .talking true homed) :=
  ⟨by decide, by decide, by decide, by decide, by decide, by decide, by decide,
    by unfold laneListsLegal legalLists; decide⟩
/-- Before its first status word a call point's hook may be taken as either level; after it, as the word has it. -/
theorem met_OffHookPlacesOrAnswers_reads :
    hookReads 1 true (idling 7 6 listed) ∧ hookReads 1 true (worded 0x7F80#16 (idling 7 6 listed))
      ∧ ¬ hookReads 1 true (worded 0x7F00#16 (idling 7 6 listed)) :=
  ⟨reads_unset (by decide), fun w h => by cases h; decide, fun h => absurd (h 0x7F00#16 (by decide)) (by decide)⟩
theorem met_OffHookPlacesOrAnswers_ring :
    callExists (ringer .waiting false) 1 = true ∧ (ringer .waiting false).calls[(1 : PortNo)].ringMark = true
      ∧ (ringer .waiting false).calls[(1 : PortNo)].state = .waiting ∧ hookReads 1 true (ringer .waiting false)
      ∧ (ringer .ringConnecting false).calls[(1 : PortNo)].state = .ringConnecting
      ∧ (ringer .ringConnecting false).calls[(1 : PortNo)].offHook = false
      ∧ (calling .lockout false homed).calls[(1 : PortNo)].offHook = false :=
  ⟨by decide, by decide, by decide, reads_unset (by decide), by decide, by decide, by decide⟩
theorem test_waiting_order : insertWaiting 3 5 [(0, 7), (1, 5), (2, 4)] = [(0, 7), (1, 5), (3, 5), (2, 4)] := by decide
/-- A RING for all nodes at an IDLE call point gives it the lane (R53, R114). -/
theorem test_ring_connects :
    (takeItem [0x13#8, 0xFF#8, 0x01#8] (idling 7 6 listed) 0).calls[(1 : PortNo)].state = .ringConnecting
      ∧ (takeItem [0x13#8, 0xFF#8, 0x01#8] (idling 7 6 listed) 0).calls[(1 : PortNo)].lane = some 5 := by decide
theorem met_OnHookClearsTheCall_talking :
    (calling .talking true homed).resetHeld = false ∧ callExists (calling .talking true homed) 1 = true
      ∧ (calling .talking true homed).calls[(1 : PortNo)].offHook = true ∧ laneListsLegal (calling .talking true homed)
      ∧ (calling .talking true homed).calls[(1 : PortNo)].state = .talking
      ∧ (calling .talking true homed).calls[(1 : PortNo)].lane = some spoken.lane
      ∧ spoken ∈ (calling .talking true homed).alloc.owned ∧ (calling .talking true homed).alloc.waiting = []
      ∧ regrower (calling .talking true homed) = none :=
  ⟨rfl, by decide, by decide, by unfold laneListsLegal legalLists; decide, by decide, by decide, by decide, rfl,
    by decide⟩

/-- That call with call point 2 waiting behind it, above the floor; and with channel 0 ACTIVE one lane short. -/
def queued : State :=
  { calling .talking true homed with
    alloc := { (calling .talking true homed).alloc with waiting := [(2, 7)], hostFloor := 6 } }
def regrowing : State :=
  withChan { Channel.initial with state := .active, set := { ChannelSettings.initial with level := 1, wn := 1 } }
    (calling .talking true homed)

theorem met_OnHookClearsTheCall_next :
    laneListsLegal queued ∧ queued.alloc.waiting = (2, 7) :: [] ∧ queued.alloc.floor < 7
      ∧ laneListsLegal regrowing ∧ regrower regrowing = some 0 ∧ regrowing.alloc.waiting.head? = none :=
  ⟨by unfold laneListsLegal legalLists; decide, rfl, by decide, by unfold laneListsLegal legalLists; decide, by decide,
    rfl⟩

/-- Call point 1 in a state with its lane's move QUEUED or SENT. -/
def connecting (state : CallState) (effect : Option Half) : State :=
  { calling state true homed with
    alloc :=
      { (calling state true homed).alloc with
        owned := [{ moving with move := moving.move.map fun m => { m with effect := effect } }] } }

theorem met_OnHookClearsTheCall_direct :
    laneListsLegal (connecting .connecting none)
      ∧ (connecting .connecting none).calls[(1 : PortNo)].state = .connecting
      ∧ (connecting .connecting none).calls[(1 : PortNo)].lane = some 127
      ∧ (connecting .connecting none).alloc.waiting = [] ∧ regrower (connecting .connecting none) = none
      ∧ ∀ k : ChanNo, (connecting .connecting none).chans[k].state ≠ .stopping :=
  ⟨by unfold laneListsLegal legalLists; decide, by decide, by decide, rfl, by decide, by decide⟩
/-- The call that connects: its move QUEUED, with nothing to follow its withdrawal, and SENT. -/
theorem met_OnHookClearsTheCall_connecting (st : CallState) (effect : Option Half) :
    (∀ m, moving.move = some m →
      { moving with move := some { m with effect := effect } } ∈ (connecting st effect).alloc.owned)
    ∧ restsAfterWithdrawal { moving with move := moving.move.map fun m => { m with effect := none } } (connecting .connecting none)
    ∧ hookReads 1 false (connecting st effect) :=
  ⟨fun m h => by cases h; exact List.mem_cons_self,
    ⟨rfl, .inl ⟨rfl, by decide⟩, by decide⟩, reads_unset (by cases st <;> rfl)⟩
theorem met_OnHookClearsTheCall_ring :
    (ringer .waiting true).calls[(1 : PortNo)].ringMark = true ∧ (ringer .waiting true).calls[(1 : PortNo)].offHook = true
      ∧ (ringer .ringConnecting true).calls[(1 : PortNo)].state = .ringConnecting
      ∧ (calling .ringing true homed).calls[(1 : PortNo)].offHook = true
      ∧ (calling .alerting true homed).calls[(1 : PortNo)].state = .alerting := by decide
theorem met_OnHookClearsTheCall_waiting :
    (calling .waiting true homed).resetHeld = false ∧ callExists (calling .waiting true homed) 1 = true
      ∧ (calling .waiting true homed).calls[(1 : PortNo)].offHook = true
      ∧ (calling .waiting true homed).calls[(1 : PortNo)].state = .waiting
      ∧ (calling .waiting true homed).calls[(1 : PortNo)].ringMark = false := by decide
theorem met_OnHookClearsTheCall_lockout :
    (calling .lockout true homed).resetHeld = false ∧ callExists (calling .lockout true homed) 1 = true
      ∧ (calling .lockout true homed).calls[(1 : PortNo)].offHook = true
      ∧ (calling .lockout true homed).calls[(1 : PortNo)].state = .lockout := by decide

/-- Port 6 is CONTACTS, its input 0 tagged and closed, not yet ACTIVE. -/
def alarmed : State :=
  { homed with
    ports := homed.ports.set 6
      { Port.initial with
        own := .contacts 50 #v[true, false, false, false],
        contacts := (Vector.replicate 4 (Contact.initial false)).set 0 { level := true, active := false, held := 400 } } }

theorem met_ContactsAreDebouncedAndJudged :
    alarmed.resetHeld = false ∧ portFunction alarmed 6 = .contacts
      ∧ alarmed.ports[(6 : PortNo)].contacts[(0 : Fin 4)].level
        ≠ alarmed.ports[(6 : PortNo)].contacts[(0 : Fin 4)].active := by decide

/-! ### Hypotheses met: drop ports -/

/-- Port 0 is SYNC or ASYNC with channel 0 ACTIVE on it, its receive and transmit sides, writer and chains. -/
def porting (own : PortSetting) (set : ChannelSettings) (rx : PortRx) (tx : PortTx) (writer : WriterState)
    (inFrames outFrames : List Frame) : State :=
  withChan
    { Channel.initial with
      set := { set with port := some 0 }, state := .active, writer := writer, inChain := some (chain 0 inFrames),
      outChain := some (chain 4 outFrames) }
    { homed with ports := homed.ports.set 0 { Port.initial with own := own, rx := rx, tx := tx } }

/-- A frame of 20 payload bytes in its first block, and one that the port has begun. -/
def frame (length : Nat) : Frame := { Frame.opened 0 with length := length }
def begun (closed : Bool) (sent : Nat) : Frame :=
  { Frame.opened 0 with length := 20, closed := closed, begun := true, sent := sent }

/-- Port 0 receives between frames, and within a frame whose span holds some raw bytes. -/
def between : State := porting .sync ChannelSettings.initial PortRx.initial PortTx.initial .idle [] []
def within' (rx : PortRx) (writer : WriterState) (inFrames : List Frame) : State :=
  porting .sync ChannelSettings.initial { rx with isOpen := true } PortTx.initial writer inFrames []

theorem met_ByteBetweenFrames_none : homed.resetHeld = false ∧ receiver homed 0 = none := by decide
theorem met_ByteBetweenFrames :
    between.resetHeld = false ∧ receiver between 0 = some 0 ∧ between.chans[(0 : ChanNo)].set.transparent = false
      ∧ between.ports[(0 : PortNo)].rx.isOpen = false := by decide
theorem met_ByteBetweenFrames_error :
    (porting (.async 3) ChannelSettings.initial { PortRx.initial with isOpen := true, raw := 1 } PortTx.initial .writing
        [frame 1] []).ports[(0 : PortNo)].rx.raw = 1
      ∧ portFunction (porting (.async 3) ChannelSettings.initial { PortRx.initial with isOpen := true, raw := 1 }
        PortTx.initial .writing [frame 1] []) 0 = .async
      ∧ receiver (porting (.async 3) ChannelSettings.initial { PortRx.initial with isOpen := true, raw := 1 }
        PortTx.initial .writing [frame 1] []) 0 = some 0 := by decide
/-- An ASYNC port, and a SYNC port one bit before the delimiter, one bit before an abort marker, and aligned. -/
def charactered : State :=
  porting (.async 3) ChannelSettings.initial PortRx.initial PortTx.initial .idle [] []
def searching (bits : List Bool) : State :=
  porting .sync ChannelSettings.initial { PortRx.initial with bits := bits } PortTx.initial .idle [] []

theorem met_ByteBetweenFrames_bits :
    receiver charactered 0 = some 0 ∧ portFunction charactered 0 = .async ∧ portFunction (searching []) 0 = .sync
      ∧ receiver (searching []) 0 = some 0
      ∧ (searching (lsbBits 0x7D#8 ++ (lsbBits 0x7C#8).take 7)).ports[(0 : PortNo)].rx.bits.length = 15
      ∧ (searching (lsbBits 0x7D#8 ++ (lsbBits 0x7C#8).take 7)).ports[(0 : PortNo)].rx.bits ++ [false]
        = syncBits ChannelSettings.initial 0x7D#8 ++ syncBits ChannelSettings.initial 0x7C#8
      ∧ (within' { PortRx.initial with bits := (lsbBits 0x41#8).take 7 } .idle []).ports[(0 : PortNo)].rx.bits ++ [false]
        = syncBits ChannelSettings.initial 0x41#8 := by decide
/-- The bits of a delimiter, least significant first, open a frame at any position (R133). -/
theorem test_sync_search :
    (after (.portByteReceived 0 (.bits [false, false, true, true, true, true, true, false]))
        (searching [true, false, true])).ports[(0 : PortNo)].rx
      = { PortRx.initial with isOpen := true } := by decide
/-- The character of 7Dh on an ASYNC line: start bit, data, stop bit (R125). -/
theorem test_async_character :
    (after (.portByteReceived 0 (.bits [false, true, false, true, true, true, true, true, false, true]))
        charactered).ports[(0 : PortNo)].rx.escaped = true := by decide
/-- A span whose check hold has one byte, and one whose escape byte may end the frame. -/
def held : State := within' { PortRx.initial with hold := [1#8], raw := 1 } .idle []
def ending (raw : Nat) : State := within' { PortRx.initial with escaped := true, raw := raw } .idle []

theorem met_ByteOfAFrame :
    held.resetHeld = false ∧ receiver held 0 = some 0 ∧ held.chans[(0 : ChanNo)].set.transparent = false
      ∧ held.ports[(0 : PortNo)].rx.isOpen = true ∧ held.chans[(0 : ChanNo)].set.escape = 0x7D#8
      ∧ (0x5C#8 : Byte) ≠ held.chans[(0 : ChanNo)].set.delimiter
      ∧ held.ports[(0 : PortNo)].rx.hold.length < held.chans[(0 : ChanNo)].set.check.size := by decide
theorem met_ByteOfAFrame_nothing :
    (ending 1).resetHeld = false ∧ receiver (ending 1) 0 = some 0
      ∧ (ending 1).chans[(0 : ChanNo)].set.transparent = false ∧ (ending 1).ports[(0 : PortNo)].rx.isOpen = true
      ∧ (ending 1).chans[(0 : ChanNo)].set.delimiter = 0x7C#8 ∧ (0x7C#8 : Byte) ≠ (ending 1).chans[(0 : ChanNo)].set.escape
      ∧ (ending 1).ports[(0 : PortNo)].rx.escaped = true ∧ (ending 1).ports[(0 : PortNo)].rx.raw < 2 := by decide
theorem met_ByteOfAFrame_abort :
    (ending 2).resetHeld = false ∧ receiver (ending 2) 0 = some 0
      ∧ (ending 2).chans[(0 : ChanNo)].set.transparent = false ∧ (ending 2).ports[(0 : PortNo)].rx.isOpen = true
      ∧ (ending 2).chans[(0 : ChanNo)].set.delimiter = 0x7C#8 ∧ (0x7C#8 : Byte) ≠ (ending 2).chans[(0 : ChanNo)].set.escape
      ∧ (ending 2).ports[(0 : PortNo)].rx.escaped = true ∧ 2 ≤ (ending 2).ports[(0 : PortNo)].rx.raw
      ∧ (ending 2).chans[(0 : ChanNo)].writer = .idle := by decide

/-- A full check hold with its frame being written, not yet opened, and at the maximum frame length. -/
def spilling (count : Nat) (writer : WriterState) (frames : List Frame) : State :=
  within' { PortRx.initial with hold := [1#8, 2#8], raw := 9, count := count } writer frames

theorem met_ByteOfAFrame_full :
    receiver (spilling 7 .writing [frame 7]) 0 = some 0 ∧ (spilling 7 .writing [frame 7]).ports[(0 : PortNo)].rx.isOpen = true
      ∧ (spilling 7 .writing [frame 7]).chans[(0 : ChanNo)].set.check.size
        ≤ (spilling 7 .writing [frame 7]).ports[(0 : PortNo)].rx.hold.length
      ∧ (spilling 7 .writing [frame 7]).ports[(0 : PortNo)].rx.count
        < (spilling 7 .writing [frame 7]).chans[(0 : ChanNo)].set.maxLength
      ∧ (spilling 7 .writing [frame 7]).chans[(0 : ChanNo)].inChain = some (chain 0 [frame 7])
      ∧ (frame 7).length < 20 + 32 * ((frame 7).taken - 1)
      ∧ (spilling 0 .idle []).chans[(0 : ChanNo)].writer = .idle ∧ (chain 0 []).occupancy < (chain 0 []).blocks.length
      ∧ (spilling 1024 .writing [frame 7]).chans[(0 : ChanNo)].set.maxLength
        ≤ (spilling 1024 .writing [frame 7]).ports[(0 : PortNo)].rx.count
      ∧ (chain 0 [full20 4]).blocks.length ≤ (chain 0 [full20 4]).occupancy := by decide
theorem met_ByteOfAFrame_thrown :
    2 ≤ (within' { PortRx.initial with escaped := true, raw := 5 } .writing [frame 3]).ports[(0 : PortNo)].rx.raw
      ∧ (within' { PortRx.initial with escaped := true, raw := 5 } .writing [frame 3]).chans[(0 : ChanNo)].writer
        = .writing := by decide

/-- The span of 7.10 as it stands before its closing delimiter: the check of 41h, 7Ch and 42h is held. -/
def spanned (hold : List Byte) : State :=
  within'
    { PortRx.initial with
      raw := 7, count := 3, allFill := false, hold := hold,
      check16 := [0x41#8, 0x7C#8, 0x42#8].foldl c16Step c16Start }
    .writing [frame 3]

theorem met_SpanClosesOnTheDelimiter :
    (spanned []).resetHeld = false ∧ receiver (spanned []) 0 = some 0
      ∧ (spanned []).chans[(0 : ChanNo)].set.transparent = false ∧ (spanned []).ports[(0 : PortNo)].rx.isOpen = true
      ∧ (spanned []).chans[(0 : ChanNo)].set.delimiter ≠ (spanned []).chans[(0 : ChanNo)].set.escape
      ∧ (spanned []).ports[(0 : PortNo)].rx.escaped = false ∧ (spanned []).ports[(0 : PortNo)].rx.raw ≠ 0
      ∧ ¬ ((spanned []).chans[(0 : ChanNo)].set.fillIdle = true ∧ (spanned []).ports[(0 : PortNo)].rx.allFill = true)
      ∧ 2 ≤ (spanned []).ports[(0 : PortNo)].rx.count ∧ (spanned []).chans[(0 : ChanNo)].writer = .writing
      ∧ (spanned []).chans[(0 : ChanNo)].inChain = some (chain 0 [frame 3])
      ∧ (chain 0 [frame 3]).frames.getLast? = some (frame 3) ∧ (frame 3).released = 0 := by decide

/-- An empty span, one of FFh alone, and one with a payload byte. -/
theorem met_SpanClosesOnTheDelimiter_other :
    receiver (within' PortRx.initial .idle []) 0 = some 0
      ∧ (within' PortRx.initial .idle []).ports[(0 : PortNo)].rx.raw = 0
      ∧ (porting .sync { ChannelSettings.initial with fillIdle := true }
          { PortRx.initial with isOpen := true, raw := 1 } PortTx.initial .idle [] []).chans[(0 : ChanNo)].set.fillIdle
        = true
      ∧ (within' { PortRx.initial with raw := 3, count := 1 } .writing [frame 1]).ports[(0 : PortNo)].rx.count < 2 := by
  decide
/-- Its check bytes close the frame as good. -/
theorem test_span_closes_good :
    (after (.portByteReceived 0 (.byte 0x7C#8))
      (spanned (portCheckBytes .c16 ([0x41#8, 0x7C#8, 0x42#8].foldl c16Step c16Start) 0#32 false))).chans[(0 : ChanNo)].counters
      = { Counters.initial with framesIn := 1#32 } := by decide

/-- A transparent frame of 19 bytes on an ASYNC port, one below its first block's room and two below its effective
length. -/
def clear : State :=
  porting (.async 3) { ChannelSettings.initial with transparent := true }
    { PortRx.initial with isOpen := true, count := 30 } PortTx.initial .writing [frame 19] []

theorem met_TransparentFramesAreStoredAndClosed :
    clear.resetHeld = false ∧ portFunction clear 0 = .async ∧ receiver clear 0 = some 0
      ∧ clear.chans[(0 : ChanNo)].set.transparent = true ∧ clear.chans[(0 : ChanNo)].writer = .writing
      ∧ clear.chans[(0 : ChanNo)].inChain = some (chain 0 [frame 19])
      ∧ (chain 0 [frame 19]).frames.getLast? = some (frame 19) ∧ (frame 19).released = 0
      ∧ clear.ports[(0 : PortNo)].rx.fillRun = 0
      ∧ clear.ports[(0 : PortNo)].rx.count + 1 < min 32 clear.chans[(0 : ChanNo)].set.maxLength
      ∧ (frame 19).length < 20 + 32 * ((frame 19).taken - 1) ∧ clear.ports[(0 : PortNo)].rx.isOpen = true := by decide

/-- A transparent frame on a SYNC port, three FFh bytes kept apart. -/
def clearSync : State :=
  porting .sync { ChannelSettings.initial with transparent := true }
    { PortRx.initial with isOpen := true, count := 10, fillRun := 3 } PortTx.initial .writing [frame 10] []

theorem met_TransparentFramesAreStoredAndClosed_sync :
    portFunction clearSync 0 = .sync ∧ receiver clearSync 0 = some 0 ∧ clearSync.ports[(0 : PortNo)].rx.isOpen = true
      ∧ 3 ≤ clearSync.ports[(0 : PortNo)].rx.fillRun ∧ clearSync.chans[(0 : ChanNo)].writer = .writing
      ∧ clearSync.ports[(0 : PortNo)].rx.count + clearSync.ports[(0 : PortNo)].rx.fillRun + 1
        < min 32 clearSync.chans[(0 : ChanNo)].set.maxLength
      ∧ (after (.portByteReceived 0 (.byte 0xFF#8)) clearSync).chans[(0 : ChanNo)].counters.framesIn = 1#32 := by decide

/-- The byte that brings a frame to its effective length, and one with two FFh bytes kept apart before it. -/
theorem met_TransparentFramesAreStoredAndClosed_full :
    (let s := porting (.async 3) { ChannelSettings.initial with transparent := true }
      { PortRx.initial with isOpen := true, count := 31 } PortTx.initial .writing [frame 19] []
     receiver s 0 = some 0 ∧ min 32 s.chans[(0 : ChanNo)].set.maxLength ≤ s.ports[(0 : PortNo)].rx.count + 0 + 1
      ∧ (frame 19).length + 0 < 20 + 32 * ((frame 19).taken - 1))
    ∧ (let s := porting .sync { ChannelSettings.initial with transparent := true }
        { PortRx.initial with isOpen := true, count := 29, fillRun := 2 } PortTx.initial .writing [frame 17] []
       s.ports[(0 : PortNo)].rx.isOpen = true ∧ s.ports[(0 : PortNo)].rx.fillRun < 3
        ∧ min 32 s.chans[(0 : ChanNo)].set.maxLength ≤ s.ports[(0 : PortNo)].rx.count + s.ports[(0 : PortNo)].rx.fillRun + 1
        ∧ (frame 17).length + 2 < 20 + 32 * ((frame 17).taken - 1)) := by decide

/-- Port 0 sends: a transmit side over the outbound frames of channel 0. -/
def sending (tx : PortTx) (frames : List Frame) : State :=
  porting .sync ChannelSettings.initial PortRx.initial tx .idle [] frames

/-- Port 0 sends a transparent frame. -/
def clearing (f : Frame) : State :=
  porting .sync { ChannelSettings.initial with transparent := true } PortRx.initial
    { PortTx.initial with state := .sending 0 } .idle [] [f]

/-- Port 0 with a CLOSED frame ready, with a byte of a frame to send, with the frame's last byte sent, and with a frame
that has run dry. -/
def ready : State := sending PortTx.initial [{ frame 20 with closed := true }]
def midway : State := sending { PortTx.initial with state := .sending 0 } [begun true 19]
def last : State := sending { PortTx.initial with state := .sending 0, out := [(0x7C#8, .whole)] } [begun true 20]
def dry : State := sending { PortTx.initial with state := .sending 0 } [begun false 20]

theorem met_ArbiterServesInTurn :
    ready.resetHeld = false ∧ portFunction ready 0 = .sync ∧ ready.ports[(0 : PortNo)].tx.state = .idle
      ∧ sendsFrom 0 (chain 4 [{ frame 20 with closed := true }]) { frame 20 with closed := true } ready
      ∧ (boundChannels ready 0).filter (readyOut ready) = [0] :=
  ⟨rfl, by decide, by decide, ⟨by decide, rfl⟩, by decide⟩
theorem met_PayloadByteIsSent :
    midway.resetHeld = false ∧ sends 0 0 [] midway ∧ sendsFrom 0 (chain 4 [begun true 19]) (begun true 19) midway
      ∧ midway.chans[(0 : ChanNo)].set.transparent = false ∧ (begun true 19).sent < (begun true 19).length :=
  ⟨rfl, ⟨.inr (by decide), by decide, by decide, by decide⟩, ⟨by decide, rfl⟩, by decide, by decide⟩
/-- A CLOSED frame all of whose payload has been sent, and a transparent frame before its last byte. -/
theorem met_PayloadByteIsSent_check :
    sends 0 0 [] (sending { PortTx.initial with state := .sending 0 } [begun true 20])
      ∧ (begun true 20).closed = true ∧ (begun true 20).length ≤ (begun true 20).sent
      ∧ sends 0 0 [] (clearing (begun true 19)) ∧ sendsFrom 0 (chain 4 [begun true 19]) (begun true 19) (clearing (begun true 19))
      ∧ (clearing (begun true 19)).chans[(0 : ChanNo)].set.transparent = true
      ∧ (begun true 19).length = (begun true 19).sent + 1 :=
  ⟨⟨.inr (by decide), by decide, by decide, by decide⟩, by decide, by decide,
    ⟨.inr (by decide), by decide, by decide, by decide⟩, ⟨by decide, rfl⟩, by decide, by decide⟩
/-- The bits of 41h on an ASYNC line (R125). -/
theorem test_line_bits :
    lineBits (porting (.async 3) ChannelSettings.initial PortRx.initial { PortTx.initial with line := some 0x41#8 } .idle [] [])
        0
      = [false, true, false, false, false, false, false, true, false, true] := by decide
theorem met_ClosingDelimiterEndsTheFrame :
    last.resetHeld = false ∧ sends 0 0 [(last.chans[(0 : ChanNo)].set.delimiter, .whole)] last
      ∧ sendsFrom 0 (chain 4 [begun true 20]) (begun true 20) last
      ∧ last.chans[(0 : ChanNo)].set.transparent = false :=
  ⟨rfl, ⟨.inr (by decide), by decide, by decide, by decide⟩, ⟨by decide, rfl⟩, by decide⟩
theorem met_UnderrunSendsTheAbortMarker :
    dry.resetHeld = false ∧ sends 0 0 [] dry ∧ sendsFrom 0 (chain 4 [begun false 20]) (begun false 20) dry
      ∧ dry.chans[(0 : ChanNo)].set.port = some 0 ∧ (begun false 20).closed = false
      ∧ (begun false 20).length ≤ (begun false 20).sent :=
  ⟨rfl, ⟨.inr (by decide), by decide, by decide, by decide⟩, ⟨by decide, rfl⟩, by decide, by decide, by decide⟩

/-- A port that channel 0 holds in a break, sending, and HELD already. -/
def breaking (tx : PortTx) : State :=
  porting .sync { ChannelSettings.initial with continuousBreak := true } PortRx.initial tx .idle [] [begun true 19]

theorem met_UnderrunSendsTheAbortMarker_held :
    (breaking { PortTx.initial with state := .sending 0 }).chans[(0 : ChanNo)].set.port = some 0
      ∧ sendsFrom 0 (chain 4 [begun true 19]) (begun true 19) (breaking { PortTx.initial with state := .sending 0 })
      ∧ (judgeHeld 0 (breaking { PortTx.initial with state := .sending 0 })).ports[(0 : PortNo)].tx.state = .held
      ∧ (after (.portByteSent 0) (breaking { PortTx.initial with state := .held })).ports[(0 : PortNo)].tx.line
        = some 0x7D#8
      ∧ (judgeHeld 0 (sending { PortTx.initial with state := .held } [])).ports[(0 : PortNo)].tx.state = .idle :=
  ⟨by decide, ⟨by decide, rfl⟩, by decide, by decide, by decide⟩
/-- A port that sends the delimiter of an abort marker, and one that rests. -/
theorem met_UnderrunSendsTheAbortMarker_rest :
    (sending { PortTx.initial with state := .sending 0, aborting := true, out := [(0x7C#8, .aborted)] }
        []).ports[(0 : PortNo)].tx.out = [(0x7C#8, .aborted)]
      ∧ portFunction (sending PortTx.initial []) 0 = .sync
      ∧ (boundChannels (sending PortTx.initial []) 0).filter (readyOut (sending PortTx.initial [])) = [] := by decide
/-- A transparent frame that is ended by the abort marker leaves FFh as the fill byte, whatever it was before (R136). -/
theorem test_fill_after_an_aborted_transparent_frame :
    (after (.underrun 0)
        (porting .sync { ChannelSettings.initial with transparent := true } PortRx.initial
          { PortTx.initial with state := .sending 0, fill := 0x7C#8 } .idle []
          [begun false 20])).ports[(0 : PortNo)].tx.fill
      = 0xFF#8 := by decide
/-- A transparent frame of 0 bytes is sent whole at once, and the next frame follows with nothing between (R136). -/
theorem test_empty_transparent_frame :
    (after (.portByteSent 0)
        (porting .sync { ChannelSettings.initial with transparent := true } PortRx.initial PortTx.initial .idle []
          [{ frame 0 with closed := true }, { frame 2 with closed := true, start := 1 }])).ports[(0 : PortNo)].tx.line
      = some 0#8 := by decide

/-! ### Hypotheses met: the control link -/

/-- A link with a transaction under way, and with replies. -/
def linked (message : Outbound) (bytes : List Byte) (replies : List Reply) : State :=
  { homed with
    link :=
      { Link.initial with
        replies := replies,
        transaction := some { message := message, bytes := bytes, later := 2#32, overrun := true, home := .a } } }
def reply (restart : Bool) : Reply := { tag := 1#8, status := .ok, content := [], ready := true, restart := restart }

/-- A transaction without a message that matters ends, and requests of any length are taken. -/
theorem takes_homed (n : Nat) : takesRequest (carried n homed) := by
  have h : (carried n homed).resetHeld = false ∧ (carried n homed).link.restartWaiting = false
      ∧ (carried n homed).link.replies = [] := by
    unfold carried
    rw [show atInstant (finishTransaction n) homed
      = (finishTransaction n homed).updLink fun l => { l with reports := orderJoins homed.link.reports l.reports } from rfl]
    unfold finishTransaction
    by_cases hn : n < 4
    · simp only [hn, if_true]
      exact ⟨rfl, rfl, rfl⟩
    · simp only [hn, if_false]
      unfold consume
      split <;> exact ⟨rfl, rfl, rfl⟩
  exact ⟨h.1, h.2.1, by rw [h.2.2]; decide⟩

theorem met_TransactionsChooseAndConsume_start :
    homed.link.transaction = none ∧ homed.link.reports = [(.start, 1#32)] := by decide
theorem met_TransactionsChooseAndConsume_reply :
    (linked .reply [0x80#8, 1#8, 0#8, 2#8, 0#8, 1#8] [reply false]).link.replies = reply false :: []
      ∧ (reply false).restart = false ∧ [0x80#8, 1#8, 0#8, 2#8, 0#8, 1#8].length ≤ 6 := by decide
theorem met_TransactionsChooseAndConsume_report :
    (linked (.report .start) [0x81#8, 0#8, 0#8, 0#8] []).link.transaction
      = some { message := .report .start, bytes := [0x81#8, 0#8, 0#8, 0#8], later := 2#32, overrun := true, home := .a } :=
  rfl
/-- A HOME report that gives end A, and a transaction without a message. -/
theorem met_TransactionsChooseAndConsume_home :
    (linked (.report .home) [0x81#8, 0#8, 0#8, 0#8] []).link.transaction
      = some { message := .report .home, bytes := [0x81#8, 0#8, 0#8, 0#8], later := 2#32, overrun := true, home := .a }
    ∧ (linked .empty [0#8, 0#8, 0#8, 0#8] []).link.transaction
      = some { message := .empty, bytes := [0#8, 0#8, 0#8, 0#8], later := 2#32, overrun := true, home := .a } := ⟨rfl, rfl⟩
theorem met_TransactionsChooseAndConsume_cut :
    (linked .reply [0x80#8, 1#8, 0#8, 2#8, 0#8, 1#8] [reply false]).resetHeld = false
      ∧ 5 < [0x80#8, 1#8, 0#8, 2#8, 0#8, 1#8].length ∧ 4 ≤ 5 := by decide
theorem met_RequestsAreDiscardedOrRefused_waiting :
    requestBody (.channelSet 1#8 0#8
      { kind := ⟨0#8, 0#8⟩, port := ⟨0#8, 0#8⟩, wn := ⟨0#8, 0#8⟩, wmin := ⟨0#8, 0#8⟩, level := ⟨0#8, 0#8⟩,
        delimiter := ⟨0#8, 0#8⟩, escape := ⟨0#8, 0#8⟩, gap := ⟨0#8, 0#8⟩, fill := ⟨0#8, 0#8⟩, check := ⟨0#8, 0#8⟩,
        invert := ⟨0#8, 0#8⟩, bitOrder := ⟨0#8, 0#8⟩, transparent := ⟨0#8, 0#8⟩, continuousBreak := ⟨0#8, 0#8⟩,
        stamping := ⟨0#8, 0#8⟩, maxLength := ⟨0#8, 0#16⟩, markIn := ⟨0#8, 0#16⟩, markOut := ⟨0#8, 0#16⟩ }) = some 40
      ∧ (carried 44 { homed with link := { Link.initial with restartWaiting := true } }).link.restartWaiting = true := by
  decide
theorem met_RequestsAreDiscardedOrRefused_full :
    (carried 4 { filled with link := { filled.link with replies := reply false :: filled.link.replies } }).link.restartWaiting
        = false
      ∧ 8 ≤ (carried 4
        { filled with link := { filled.link with replies := reply false :: filled.link.replies } }).link.replies.length := by
  decide
theorem met_RequestsAreDiscardedOrRefused_malformed :
    takesRequest (carried 4 homed) ∧ ¬ (∀ b ∈ [1#8, 9#8, 0#8, 1#8], b = (0#8 : Byte))
      ∧ ¬ (4 + halfAt [1#8, 9#8, 0#8, 1#8] 2 = [1#8, 9#8, 0#8, 1#8].length) := ⟨takes_homed 4, by decide, by decide⟩
theorem met_RequestsAreDiscardedOrRefused_body :
    bodyHolds (byteAt [0x0B#8, 9#8, 0#8, 1#8, 0#8] 0) ([0x0B#8, 9#8, 0#8, 1#8, 0#8].drop 4) = false
      ∧ 4 + halfAt [0x0B#8, 9#8, 0#8, 1#8, 0#8] 2 = 5 := by decide
theorem met_RequestsAreDiscardedOrRefused_unknown :
    takesRequest (carried 4 homed) ∧ 4 + halfAt [0x1C#8, 9#8, 0#8, 0#8] 2 = 4
      ∧ 0x1B < (byteAt [0x1C#8, 9#8, 0#8, 0#8] 0).toNat := ⟨takes_homed 4, by decide, by decide⟩
theorem met_IdentifyNamesThePart : takesRequest (carried 4 homed) := takes_homed 4
theorem met_RestartWaitsAndIsCarriedOut_taken : takesRequest (carried 4 homed) := takes_homed 4
theorem met_RestartWaitsAndIsCarriedOut_reports :
    reportsDistinct (linked .reply [0x80#8, 1#8, 0#8, 2#8, 0#8, 1#8] [reply true])
      ∧ (linked .reply [0x80#8, 1#8, 0#8, 2#8, 0#8, 1#8] [reply true]).link.reports = [(.start, 1#32)] :=
  ⟨by unfold reportsDistinct; decide, by decide⟩
theorem met_RestartWaitsAndIsCarriedOut_carried :
    (linked .reply [0x80#8, 1#8, 0#8, 2#8, 0#8, 1#8] [reply true]).link.replies = reply true :: []
      ∧ (reply true).restart = true ∧ [0x80#8, 1#8, 0#8, 2#8, 0#8, 1#8].length ≤ 6 ∧ 4 ≤ 6 := by decide

/-! ### Hypotheses met: requests -/

theorem met_NodeSetActs : takesRequest (carried 11 homed) ∧ (63#8 : Byte).toNat < (64#8 : Byte).toNat
    ∧ (carried 11 homed).alloc.incident = false := ⟨takes_homed 11, by decide, by decide⟩
theorem met_LanesSetActs :
    takesRequest (carried (6 + [127#8, 0#8].length + [5#8].length) homed)
      ∧ ([127#8, 0#8].map BitVec.toNat ++ [5#8].map BitVec.toNat).Nodup
      ∧ (∀ k : ChanNo, (carried 9 homed).chans[k].state = .stopped)
      ∧ ∀ p : PortNo, callExists (carried 9 homed) p = false := ⟨takes_homed 9, by decide, by decide, by decide⟩
theorem met_LanesSetActs_busy : (carried 9 donating).chans[(0 : ChanNo)].state ≠ .stopped := by decide
theorem met_HomeForceActs : takesRequest (carried 6 homed) ∧ reachable (carried 6 homed) .b = true
    ∧ takesRequest (carried 5 homed) := ⟨takes_homed 6, by decide, takes_homed 5⟩
theorem met_HomeForceActs_noPath : reachable (carried 6 State.reset) .a = false := by decide
theorem met_TimingRequestsAct : takesRequest (carried 18 homed) ∧ takesRequest (carried 5 homed)
    ∧ (carried 18 homed).timing.mode = .free := ⟨takes_homed 18, takes_homed 5, by decide⟩
theorem met_TimingRequestsAct_limit :
    600 * 500 ≤ 300000 ∧ (carried 18 (timed { Timing.initial with
      mode := .holdover, holdTimer := 300000, holdLimit := 600 })).timing.mode ≠ .free := by decide
theorem met_TimeSetGivesTheTime : takesRequest (carried 10 homed) ∧ (7999#16 : Half).toNat ≤ 7999
    ∧ (carried 10 homed).timing.validity = .none := ⟨takes_homed 10, by decide, by decide⟩
theorem met_TimeSetGivesTheTime_owned :
    (carried 10 (timed { Timing.initial with validity := .fromEnd, source := some .a })).timing.validity = .fromEnd
      ∧ 0 < ((carried 10 (timed { Timing.initial with validity := .fromEnd, source := some .a })).rx.get .a).presence := by
  decide
theorem met_FloorSetActs : takesRequest (carried 6 homed)
    ∧ laneListsLegal (carried 6 donating) ∧ (carried 6 donating).chans[(0 : ChanNo)].state = .active
    ∧ channelMovesStand (carried 6 donating) :=
  ⟨takes_homed 6, by unfold laneListsLegal legalLists; decide, by decide, fun e he m k hm _ => by
    have h : ∀ e ∈ (carried 6 donating).alloc.owned, e.move = none := by decide
    rw [h e he] at hm
    cases hm⟩

/-- A call of level 7 waits under the host floor 6, with a lane SPARE; a FLOOR_SET of 0 lets it fall. -/
def floored : State :=
  { homed with
    alloc :=
      { Allocator.initial with
        owned := [{ lane := 5, use := .spare, move := none }], waiting := [(1, 6)], hostFloor := 6 } }

theorem met_FloorSetActs_fall :
    laneListsLegal (carried 6 floored) ∧ ((carried 6 floored).alloc.waiting.map Prod.fst).Nodup
      ∧ ({ (carried 6 floored).alloc with hostFloor := min (0#8 : Byte).toNat 6 } : Allocator).floor
        < (carried 6 floored).alloc.floor :=
  ⟨by unfold laneListsLegal legalLists; decide, by decide, by decide⟩
/-- At the floor 6 a shed moves the second lane of `donating`. -/
theorem met_FloorSetActs_shed :
    (after (.floorSet 1#8 6#8 1#8) donating).alloc.owned ≠ (carried 6 donating).alloc.owned := by decide
/-- Channel 0, ACTIVE at the floor, with a QUEUED and a SENT move toward it and a lane at rest, may keep one lane. -/
def shedding (wmin : Nat) : State :=
  { homed with
    chans := homed.chans.set 0
      { Channel.initial with state := .active, set := { ChannelSettings.initial with wn := 3, wmin := wmin, level := 2 } },
    alloc :=
      { Allocator.initial with
        hostFloor := 2,
        owned :=
          [{ lane := 2, use := .spare,
             move := some { target := .channel 0, effect := none, tx := false, rx := false, followUp := false } },
            { lane := 4, use := .spare,
              move := some { target := .channel 0, effect := some 5#16, tx := false, rx := false, followUp := false } },
            { lane := 6, use := .channel 0, move := none }] } }

theorem moves_shedding : channelMovesStand (shedding 0) := fun e he m k hm _ => by
  have h : ∀ e ∈ (shedding 0).alloc.owned, e.use = .spare ∨ e.move = none := by decide
  rcases h e he with h | h
  · exact .inl h
  · rw [h] at hm
    cases hm
theorem met_FloorSetActs_order :
    laneListsLegal (shedding 0) ∧ channelMovesStand (shedding 0) ∧ shedReaches 0 (shedding 0)
      ∧ committedWidth 0 (shedding 0) = 3
      ∧ (movesToward (shedding 0) 0 true = [2] ∧ movesToward (shedding 0) 0 false = [4])
      ∧ ∀ j : ChanNo, (shedding 0).chans[j].state ≠ .stopping :=
  ⟨by unfold laneListsLegal legalLists; decide, moves_shedding, ⟨by decide, by decide, by decide⟩, by decide, by decide,
    by decide⟩
/-- A shed of one lane withdraws the QUEUED move, one of two marks the SENT one too, and one of three moves the lane at
rest (R96). -/
theorem test_shed_order :
    (shed (shedding 2)).alloc.owned.map Entry.move = [none, ((shedding 2).alloc.owned.map Entry.move)[1]!, none]
      ∧ committed (shed (shedding 1)) 0 = [6]
      ∧ (shed (shedding 0)).round.queue = [.lane 6 .spare] := by decide
theorem met_PortRequestsAct :
    takesRequest (carried (6 + (PortFields.callpoint ⟨1#8, 5#8⟩).size) homed)
      ∧ portSetting (.callpoint ⟨1#8, 5#8⟩) = some (.callpoint 5) ∧ portBusy (carried 8 homed) 7 = false
      ∧ takesRequest (carried 6 homed) ∧ portBusy (carried 6 homed) (evenPort 3) = false :=
  ⟨takes_homed 8, by decide, by decide, takes_homed 6, by decide⟩
/-- Port 6 CONTACTS with an input held for its new time, port 1 a CALLPOINT, and pair 3 merged. -/
theorem met_PortRequestsAct_kept :
    portBusy (carried 17 alarmed) 6 = false ∧ portFunction (carried 17 alarmed) 6 = .contacts
      ∧ portSetting (.contacts ⟨1#8, 50#16⟩ ⟨0#8, 0#8⟩ ⟨0#8, 0#8⟩ ⟨0#8, 0#8⟩ ⟨0#8, 0#8⟩)
        = some (.contacts 50 #v[false, false, false, false])
      ∧ 8 * 50 ≤ (carried 17 alarmed).ports[(6 : PortNo)].contacts[(0 : Fin 4)].held
      ∧ portFunction (carried 8 (idling 7 6 homed)) 1 = .callpoint ∧ portBusy (carried 8 (idling 7 6 homed)) 1 = false
      ∧ (carried 6 { homed with merged := homed.merged.set 3 true }).merged[(3 : Fin 4)] = true
      ∧ portBusy (carried 6 { homed with merged := homed.merged.set 3 true }) 7 = false := by decide
/-- Code 00h is tagged and 01h untagged, in the order in which R126 lists them (R186). -/
theorem test_tag_codes :
    portSetting (.contacts ⟨1#8, 50#16⟩ ⟨1#8, 0#8⟩ ⟨1#8, 1#8⟩ ⟨1#8, 0#8⟩ ⟨1#8, 1#8⟩)
        = some (.contacts 50 #v[true, false, true, false])
      ∧ settingBytes (.contacts 50 #v[true, false, true, false]) = [4#8, 0#8, 50#8, 0#8, 1#8, 0#8, 1#8] := by decide

/-- A presence byte of 02h, a rate of 8 and a tag of 02h give no setting; a level of 9 is clamped to 7. -/
theorem met_PortRequestsAct_setting :
    portSetting (.async ⟨2#8, 3#8⟩) = none ∧ portSetting (.async ⟨1#8, 8#8⟩) = none
      ∧ portSetting (.contacts ⟨0#8, 0#16⟩ ⟨1#8, 2#8⟩ ⟨0#8, 0#8⟩ ⟨0#8, 0#8⟩ ⟨0#8, 0#8⟩) = none
      ∧ portSetting (.callpoint ⟨1#8, 9#8⟩) = some (.callpoint 7) := by decide
theorem met_PortRequestsAct_busy : portBusy (carried 8 (calling .talking true homed)) 1 = true := by decide

/-- A CHANNEL_SET with every setting absent, but for a port. -/
def absent : ChannelFields :=
  { kind := ⟨0#8, 0#8⟩, port := ⟨1#8, 7#8⟩, wn := ⟨0#8, 0#8⟩, wmin := ⟨0#8, 0#8⟩, level := ⟨0#8, 0#8⟩,
    delimiter := ⟨0#8, 0#8⟩, escape := ⟨0#8, 0#8⟩, gap := ⟨0#8, 0#8⟩, fill := ⟨0#8, 0#8⟩, check := ⟨0#8, 0#8⟩,
    invert := ⟨0#8, 0#8⟩, bitOrder := ⟨0#8, 0#8⟩, transparent := ⟨0#8, 0#8⟩, continuousBreak := ⟨0#8, 0#8⟩,
    stamping := ⟨0#8, 0#8⟩, maxLength := ⟨0#8, 0#16⟩, markIn := ⟨0#8, 0#16⟩, markOut := ⟨0#8, 0#16⟩ }

theorem met_ChannelSettingsAct :
    takesRequest (carried 44 homed) ∧ channelSettings absent = some { ChannelSettings.initial with port := some 7 }
      ∧ (carried 44 homed).chans[(15 : ChanNo)].state = .stopped
      ∧ bindingTaken (carried 44 homed) 15 { ChannelSettings.initial with port := some 7 } = false :=
  ⟨takes_homed 44, by decide, by decide, by decide⟩
theorem met_ChannelSettingsAct_refused :
    channelSettings { absent with level := ⟨1#8, 7#8⟩ } = none ∧ channelSettings { absent with markIn := ⟨1#8, 0#16⟩ } = none
      ∧ channelSettings { absent with escape := ⟨1#8, 0x5C#8⟩ } = none := by decide
theorem met_ChannelSettingsAct_chain :
    takesRequest (carried (7 + 4 * [(2044#16, 4#16)].length) homed) ∧ ownerOf (carried 11 homed) 2047 = .free
      ∧ 2044 + 4 ≤ 2048 := ⟨takes_homed 11, by decide, by decide⟩

/-- Channel 0 STOPPED with both chains, on a SYNC port. -/
def stopped : State :=
  withChan
    { Channel.initial with
      set := { ChannelSettings.initial with port := some 0, wmin := 1, wn := 1 }, inChain := some (chain 0 []),
      outChain := some (chain 4 []) }
    { listed with ports := listed.ports.set 0 { Port.initial with own := .sync } }

theorem met_ChannelsStartAndStop_start :
    (carried 5 stopped).chans[(0 : ChanNo)].state = .stopped ∧ portFunction (carried 5 stopped) 0 = .sync
      ∧ marksOutside (carried 5 stopped).chans[(0 : ChanNo)] = false ∧ 1 ≤ (spareLanes (carried 5 stopped)).length := by
  decide
theorem met_ChannelsStartAndStop_serves :
    portsServeActive (carried 5 stopped) ∧ 1 ≤ (carried 5 stopped).chans[(0 : ChanNo)].set.markOut
      ∧ (carried 5 stopped).chans[(0 : ChanNo)].set.markOut + 2 ≤ (chain 4 []).blocks.length :=
  ⟨by unfold portsServeActive; decide, by decide, by decide⟩
theorem met_ChannelsStartAndStop_takes : takesRequest (carried 5 homed) := takes_homed 5
theorem met_ChannelsStartAndStop_stop :
    (carried 5 donating).chans[(0 : ChanNo)].state = .active
      ∧ { lane := 9, use := .channel 0, move := none } ∈ (carried 5 donating).alloc.owned := by decide
/-- Channel 0 stops with a frame begun inbound, one being written outbound and one being sent, and a move toward it. -/
def stopping : State :=
  { withChan
      { Channel.initial with
        set := { ChannelSettings.initial with port := some 0 }, state := .active,
        inChain := some (chain 0 [begun false 5]), outChain := some (chain 4 [begun true 19, { open19 with start := 1 }]),
        parser := { Parser.initial with state := .assembling } } homed with
    ports := homed.ports.set 0 { Port.initial with own := .sync, tx := { PortTx.initial with state := .sending 0 } },
    alloc :=
      { Allocator.initial with
        owned :=
          [{ lane := 2, use := .spare,
             move := some { target := .channel 0, effect := none, tx := false, rx := false, followUp := false } },
           { lane := 9, use := .spare,
             move := some { target := .channel 0, effect := some 3#16, tx := true, rx := false, followUp := false } }] } }

theorem met_ChannelsStartAndStop_aborted :
    laneListsLegal (carried 5 stopping) ∧ (carried 5 stopping).chans[(0 : ChanNo)].state = .active
      ∧ (carried 5 stopping).chans[(0 : ChanNo)].parser.state = .assembling
      ∧ (carried 5 stopping).ports[(0 : PortNo)].tx.state = .sending 0
      ∧ (after (.channelStop 1#8 0#8) stopping).chans[(0 : ChanNo)].counters.aborted = 3
      ∧ breakChannel (after (.channelStop 1#8 0#8) stopping) 0 = none :=
  ⟨by unfold laneListsLegal legalLists; decide, by decide, by decide, by decide, by decide, by decide⟩
/-- A table in order, with an address to put between its entries. -/
theorem met_StationRequestsAct_put :
    List.Pairwise (· < ·) ([(1, 1#16), (9, 2#16)].map Prod.fst)
      ∧ putStation 5 3#16 [(1, 1#16), (9, 2#16)] = [(1, 1#16), (5, 3#16), (9, 2#16)] := by decide
theorem met_StationRequestsAct : takesRequest (carried 6 homed) ∧ takesRequest (carried 7 homed)
    ∧ takesRequest (carried 8 homed) ∧ (1024#16 : Half).toNat % 8 = 0 := ⟨takes_homed 6, takes_homed 7, takes_homed 8, by decide⟩
theorem met_CallClearActs :
    takesRequest (carried 5 homed) ∧ callExists (carried 5 (calling .alerting true homed)) 1 = true
      ∧ laneListsLegal (carried 5 (calling .alerting true homed))
      ∧ regrower (carried 5 (calling .alerting true homed)) = none
      ∧ (carried 5 (calling .alerting true homed)).calls[(1 : PortNo)].lane = some 127 :=
  ⟨takes_homed 5, by decide, by unfold laneListsLegal legalLists; decide, by decide, by decide⟩
theorem met_CallClearActs_waiting :
    (carried 5 (calling .waiting true homed)).calls[(1 : PortNo)].state = .waiting := by decide
theorem met_CallClearActs_connecting :
    callExists (carried 5 (connecting .ringConnecting (some 1#16))) 1 = true
      ∧ laneListsLegal (carried 5 (connecting .ringConnecting (some 1#16)))
      ∧ (carried 5 (connecting .ringConnecting none)).calls[(1 : PortNo)].state = .ringConnecting
      ∧ (carried 5 (connecting .ringConnecting none)).alloc.waiting = []
      ∧ regrower (carried 5 (connecting .ringConnecting none)) = none
      ∧ ∀ k : ChanNo, (carried 5 (connecting .ringConnecting none)).chans[k].state ≠ .stopping :=
  ⟨by decide, by unfold laneListsLegal legalLists; decide, by decide, by decide, by decide, by decide⟩
theorem met_CallClearActs_queued :
    callExists (carried 5 (connecting .connecting none)) 1 = true
      ∧ (carried 5 (connecting .connecting none)).calls[(1 : PortNo)].state = .connecting
      ∧ restsAfterWithdrawal { moving with move := moving.move.map fun m => { m with effect := none } } (carried 5 (connecting .connecting none)) :=
  ⟨by decide, by decide, by decide, .inl ⟨rfl, by decide⟩, by decide⟩
/-- The next turn of node 3 of 4 in round 7 is round 15 (R48, R57). -/
theorem test_next_turn : nextTurn (turning true).round.numbering (turning true).round.localCount = some 15#16 := by decide
theorem met_StatusRequestsAnswer_entries :
    (turning true).round.numbering.node = some 3 ∧ callExists (calling .talking true homed) 1 = true
      ∧ portFunction alarmed 6 = .contacts
      ∧ alarmed.ports[(6 : PortNo)].own = .contacts 50 #v[true, false, false, false] := by decide
theorem met_StatusRequestsAnswer : takesRequest (carried 4 homed) ∧ takesRequest (carried 6 homed) :=
  ⟨takes_homed 4, takes_homed 6⟩

end Sys2Proof.Tests
end

/-! SUPPORT. The timing unit (chapter 4): its ranges at every step, the free-running oscillator, and its requests. -/

namespace Sys2Proof.Machine

variable {s t u : State}

/-! ### The ranges of the timing unit's numbers -/

/-- The values of pin reset lie in their ranges (R81). -/
theorem Timing.initial_inRange : Timing.initial.inRange := by
  constructor <;> decide

/-- Every update of the part keeps the timing unit's numbers in their ranges: most touch no timing, and those that do
keep the ranges by their own condition. -/
theorem keepsAll_timingInRange : KeepsAll timingInRange where
  raise _ _ h := h
  round _ h := h
  alloc _ _ h := h
  call _ _ _ h := h
  chan _ _ _ h := h
  port _ _ _ h := h
  filter _ _ h := h
  mem _ _ h := h
  counts _ _ h := h
  time _ _ keeps h := keeps h
  presence _ _ _ h := h
  flowOut _ _ _ h := h
  heard _ _ h := h
  homing _ h := h
  timing _ keeps h := keeps h
  flow _ _ _ h := h
  rx _ _ _ h := h
  line _ h := h
  anyFilter _ _ _ h := h
  anyPort _ _ h := h
  ready h := h
  anyChan _ _ _ h := h
  anyCall _ _ h := h
  merge _ h := h
  lists _ _ _ h := h
  queue _ h := h
  pinReset _ _ _ := Timing.initial_inRange
  order _ h := h
  talk _ _ h := h
  consumeReply _ h := h
  consumeReport _ _ h := h
  restart h := h
  place _ _ h := h

/-- Settles O8: every step is made of updates that keep the ranges. -/
theorem timingStaysInRange : Obligations.TimingStaysInRange :=
  fun _ _ hs ht => keepsAll_timingInRange.step hs ht

/-! ### One oscillator period -/

/-- With no command waiting a step idles. -/
theorem step_idle (h : s.pending = []) : step s = .next (idle s) := by
  unfold step
  rw [h]

/-- A period that does not wrap passes whole: the phase gains INC (R60). -/
theorem Timing.run_one {t : Timing} (h : t.phase.toNat + t.increment < 2 ^ 32) :
    t.run 1 = { t with phase := t.phase + BitVec.ofNat 32 t.increment } := by
  have passed : min 1 t.periodsLeft * t.increment = t.increment := by
    rcases Nat.eq_zero_or_pos t.increment with hz | hpos
    · rw [hz, Nat.mul_zero]
    · have room : 1 ≤ t.periodsLeft := (Nat.one_le_div_iff hpos).mpr (by omega)
      rw [Nat.min_eq_left room, Nat.one_mul]
  have sum : t.phase + BitVec.ofNat 32 t.increment = BitVec.ofNat 32 (t.phase.toNat + t.increment) := by
    apply BitVec.eq_of_toNat_eq
    simp [BitVec.toNat_add]
  rw [Timing.run, passed, sum]

/-- A period that would wrap is held back (log 2). -/
theorem Timing.run_one_of_wrap {t : Timing} (h : ¬ t.phase.toNat + t.increment < 2 ^ 32) : t.run 1 = t := by
  have held : t.periodsLeft = 0 := Nat.div_eq_of_lt (by omega)
  simp [Timing.run, held]

/-- Settles O2, by cases on RESET and on whether the addition would wrap. -/
theorem emptyQueueRunsOnePeriod : Obligations.EmptyQueueRunsOnePeriod := by
  intro s hq
  rw [step_idle hq, idle]
  change _ = Host.Outcome.next (if s.resetHeld = false ∧ s.timing.phase.toNat + s.timing.increment < 2 ^ 32 then
    s.updTiming fun t => { t with phase := t.phase + BitVec.ofNat 32 t.increment } else s)
  by_cases hr : s.resetHeld = true
  · simp [hr]
  · rw [if_neg hr]
    by_cases hw : s.timing.phase.toNat + s.timing.increment < 2 ^ 32
    · rw [if_pos ⟨by simpa using hr, hw⟩, State.updTiming, Timing.run_one hw]
      rfl
    · rw [if_neg fun h => hw h.2, State.updTiming, Timing.run_one_of_wrap hw]

/-! ### Changes of the timing unit alone -/

theorem onlyReports.refl (l : Link) : onlyReports l l := rfl

theorem onlyReports.trans {l m n : Link} (h : onlyReports l m) (k : onlyReports m n) : onlyReports l n := by
  unfold onlyReports at *
  rw [k, h]

/-- A state that differs from another at most in the timing unit and in what events change (R180). -/
structure timingMoved (s t : State) : Prop where
  rest : t = { s with timing := t.timing, link := t.link }
  link : onlyReports s.link t.link

namespace timingMoved

theorem refl (s : State) : timingMoved s s := ⟨rfl, .refl _⟩

theorem trans (h : timingMoved s t) (k : timingMoved t u) : timingMoved s u :=
  ⟨k.rest.trans (by rw [h.rest]), h.link.trans k.link⟩

theorem raise (src : Source) (m : Nat) (h : timingMoved s t) : timingMoved s (raise src m t) :=
  h.trans ⟨rfl, rfl⟩

theorem updTiming (f : Timing → Timing) (h : timingMoved s t) : timingMoved s (t.updTiming f) :=
  h.trans ⟨rfl, .refl _⟩

/-- The end of an instant orders reports alone. -/
theorem atInstant {e : State → State} (hr : s.resetHeld = false) (h : timingMoved u (e s)) :
    timingMoved u (atInstant e s) := by
  rw [atInstant_running hr]
  exact h.trans ⟨rfl, rfl⟩

end timingMoved

/-! ### Requests that change the timing unit -/

/-- A request that is taken and changes the timing unit alone: its reply joins the queue, and its marks stand. -/
theorem request_timingMoved (n : Nat) (tag : Byte) (answer : State → State × Status)
    (h : takesRequest (carried (4 + n) s)) (hok : (answer (carried (4 + n) s)).2 = .ok)
    (hm : timingMoved (carried (4 + n) s) (answer (carried (4 + n) s)).1) :
    ∃ t, request n tag (fun u => answerOf (answer u)) s = t
      ∧ onlyReports ((carried (4 + n) s).link.answered tag .ok []) t.link
      ∧ t = { carried (4 + n) s with timing := (answer (carried (4 + n) s)).1.timing, link := t.link }
      ∧ ∀ src m, hasMark src m (answer (carried (4 + n) s)).1 → hasMark src m t := by
  rw [request_taken n tag _ h]
  generalize carried (4 + n) s = u at *
  generalize hv : (answer u).1 = v at *
  have placed : placeReply tag false false (answerOf (answer u)) u
      = { v with link := { v.link with replies := v.link.replies ++
          [{ tag := tag, status := .ok, content := [], ready := true, restart := false }] } } := by
    rw [placeReply_ok tag false hok, ← hv]
    rfl
  refine ⟨_, rfl, ?_, ?_, fun src m hs => ?_⟩
  · rw [atInstant_running h.1, placed, onlyReports, State.updLink_link, hm.link]
    rfl
  · rw [atInstant_running h.1, placed, hm.rest]
    rfl
  · rw [hasMark_atInstant h.1, placed]
    exact hs

/-- A request that is taken and refused: its reply joins the queue, and nothing else changes. -/
theorem request_refusal (n : Nat) (tag : Byte) {answer : State → State × Status} {status : Status}
    (h : takesRequest (carried (4 + n) s)) (hs : answer (carried (4 + n) s) = (carried (4 + n) s, status))
    (hn : status ≠ .ok) :
    request n tag (fun u => answerOf (answer u)) s
      = { carried (4 + n) s with link := (carried (4 + n) s).link.answered tag status [] } := by
  have refused : (answerOf (answer (carried (4 + n) s))).status = status := congrArg Prod.snd hs
  rw [request_refused n tag _ h (refused.symm ▸ hn), refused]

/-! ### TIMING_SET (R78) -/

theorem presenceLegal_iff {α : Type} (m : Marked α) : presenceLegal m = true ↔ m.present.toNat ≤ 1 := by
  have zero : m.present = 0#8 ↔ m.present.toNat = 0 := by rw [← BitVec.toNat_inj]; rfl
  have one : m.present = 1#8 ↔ m.present.toNat = 1 := by rw [← BitVec.toNat_inj]; rfl
  simp only [presenceLegal, Bool.or_eq_true, decide_eq_true_eq, zero, one]
  omega

theorem clampInt_eq_max_min {x low high : Int} (h : low ≤ high) : clampInt x low high = max low (min x high) := by
  unfold clampInt
  split
  · omega
  · split <;> omega

theorem clampNat_eq_min_max {x low high : Nat} (h : low ≤ high) : clampNat x low high = min (max x low) high := by
  unfold clampNat
  split
  · omega
  · split <;> omega

section TimingSet

variable (trim delayA delayB : Marked Half) (limit : Marked Word)

/-- Every presence byte of a TIMING_SET is 00h or 01h. -/
def presencesLegal : Prop :=
  trim.present.toNat ≤ 1 ∧ delayA.present.toNat ≤ 1 ∧ delayB.present.toNat ≤ 1 ∧ limit.present.toNat ≤ 1

variable {trim delayA delayB limit}

theorem presencesLegal_iff :
    presencesLegal trim delayA delayB limit ↔
      (presenceLegal trim && presenceLegal delayA && presenceLegal delayB && presenceLegal limit) = true := by
  simp [presencesLegal, presenceLegal_iff, and_assoc]

/-- A presence byte that is neither is refused RANGE before anything else (log 20). -/
theorem timingSet_illegal (h : ¬ presencesLegal trim delayA delayB limit) :
    timingSet trim delayA delayB limit u = (u, .range) := by
  rw [presencesLegal_iff, Bool.not_eq_true] at h
  simp [timingSet, h]

/-- A trim outside FREE is refused WRONG_STATE (R78). -/
theorem timingSet_wrongState (h : presencesLegal trim delayA delayB limit) (ht : trim.present = 1#8)
    (hm : u.timing.mode ≠ .free) : timingSet trim delayA delayB limit u = (u, .wrongState) := by
  rw [presencesLegal_iff] at h
  simp [timingSet, h, fieldPresent, ht, hm]

/-- Else the settings act, and a limit that the holdover timer passes by it is marked (R74, R78). -/
theorem timingSet_taken (h : presencesLegal trim delayA delayB limit)
    (ht : ¬ (trim.present = 1#8 ∧ u.timing.mode ≠ .free)) :
    timingSet trim delayA delayB limit u =
      (if u.timing.withinLimit && !(u.timing.configure trim delayA delayB limit).withinLimit then
          raise .timing Mark.holdLimit (u.updTiming (Timing.configure trim delayA delayB limit))
        else u.updTiming (Timing.configure trim delayA delayB limit), .ok) := by
  rw [presencesLegal_iff] at h
  simp only [timingSet, h, fieldPresent, Bool.not_true, Bool.false_eq_true, if_false, Bool.and_eq_true,
    decide_eq_true_eq, if_neg ht, State.updTiming_timing]

/-- The settings of a TIMING_SET as R78 gives them: present fields clamped, absent ones as they stand. -/
theorem configure_eq (t : Timing) :
    t.configure trim delayA delayB limit =
      { t with
        trim := if trim.present = 1#8 then max (-1024) (min trim.value.toInt 1023) else t.trim,
        correction := if trim.present = 1#8 then max (-1024) (min trim.value.toInt 1023) else t.correction,
        delay :=
          { a := if delayA.present = 1#8 then delayA.value.toNat else t.delay.a,
            b := if delayB.present = 1#8 then delayB.value.toNat else t.delay.b },
        holdLimit := if limit.present = 1#8 then min (max limit.value.toNat 1) 86400 else t.holdLimit } := by
  simp only [Timing.configure, fieldPresent, decide_eq_true_eq,
    clampInt_eq_max_min (show (-1024 : Int) ≤ 1023 by decide), clampNat_eq_min_max (show 1 ≤ 86400 by decide)]

/-- A TIMING_SET that is taken: the settings act, nothing else changes, and a limit lowered below the running holdover
timer is marked. -/
theorem timingSet_acts (tag : Byte) (h : takesRequest (carried 18 s)) (hl : presencesLegal trim delayA delayB limit)
    (ht : ¬ (trim.present = 1#8 ∧ (carried 18 s).timing.mode ≠ .free)) :
    ∃ t, exec (.timingSet tag trim delayA delayB limit) s = .next t
      ∧ onlyReports ((carried 18 s).link.answered tag .ok []) t.link
      ∧ t = { carried 18 s with timing := (carried 18 s).timing.configure trim delayA delayB limit, link := t.link }
      ∧ ((carried 18 s).timing.holdTimer ≤ (carried 18 s).timing.holdLimit * 500 →
          t.timing.holdLimit * 500 < (carried 18 s).timing.holdTimer → hasMark .timing Mark.holdLimit t) := by
  have acts := timingSet_taken hl ht
  have moved : timingMoved (carried 18 s) (timingSet trim delayA delayB limit (carried 18 s)).1 := by
    rw [acts]
    exact keeps_ite (((timingMoved.refl _).updTiming _).raise _ _) ((timingMoved.refl _).updTiming _)
  have set : (timingSet trim delayA delayB limit (carried 18 s)).1.timing
      = (carried 18 s).timing.configure trim delayA delayB limit := by
    rw [acts]
    exact keeps_ite (P := fun v => v.timing = (carried 18 s).timing.configure trim delayA delayB limit) rfl rfl
  obtain ⟨t, ht, hlink, hrest, hmarks⟩ := request_timingMoved 14 tag _ h (by rw [acts]) moved
  rw [set] at hrest
  refine ⟨t, congrArg _ ht, hlink, hrest, fun within past => hmarks _ _ ?_⟩
  rw [hrest] at past
  have passes : ((carried 18 s).timing.withinLimit
      && !((carried 18 s).timing.configure trim delayA delayB limit).withinLimit) = true := by
    rw [Bool.and_eq_true, Bool.not_eq_true', Timing.withinLimit, Timing.withinLimit, decide_eq_true_eq,
      decide_eq_false_iff_not]
    exact ⟨within, Nat.not_le.mpr past⟩
  rw [acts, if_pos passes]
  exact hasMark_raise _ _ (by decide)

end TimingSet

/-! ### TIMING_MODE (R77) -/

/-- The selection FREE: C = T, the counts 0 and the timer 0, with the mark FREE as the mode is entered. -/
theorem timingMode_free (tag : Byte) (h : takesRequest (carried 5 s)) :
    ∃ t, exec (.timingModeFree tag) s = .next t ∧ exec (.timingModeAuto tag 0#8) s = .next t
      ∧ onlyReports ((carried 5 s).link.answered tag .ok []) t.link
      ∧ ((carried 5 s).timing.mode ≠ .free → hasMark .timing TimingMode.free.code t)
      ∧ t = { carried 5 s with
            timing :=
              { (carried 5 s).timing with
                auto := false, mode := .free, correction := (carried 5 s).timing.trim, lockCount := 0, unlockCount := 0,
                realignCount := 0, armed := false, holdTimer := 0 },
            link := t.link } := by
  have moved : timingMoved (carried 5 s) (timingMode 0#8 (carried 5 s)).1 :=
    keeps_ite ((timingMoved.refl _).updTiming _) (((timingMoved.refl _).updTiming _).raise _ _)
  have set : (timingMode 0#8 (carried 5 s)).1.timing =
      { (carried 5 s).timing with
        auto := false, mode := .free, correction := (carried 5 s).timing.trim, lockCount := 0, unlockCount := 0,
        realignCount := 0, armed := false, holdTimer := 0 } :=
    keeps_ite (P := fun v => v.timing = _) rfl rfl
  obtain ⟨t, ht, hlink, hrest, hmarks⟩ := request_timingMoved 1 tag (timingMode 0#8) h rfl moved
  rw [set] at hrest
  refine ⟨t, congrArg _ ht, congrArg _ ht, hlink, fun hmode => hmarks _ _ ?_, hrest⟩
  show hasMark _ _ (selectFree _)
  rw [selectFree, if_neg hmode]
  exact hasMark_raise _ _ (by decide)

/-- The selection AUTO changes nothing when it is selected, and else needs a source. -/
theorem timingMode_auto (tag : Byte) (h : takesRequest (carried 5 s)) :
    exec (.timingModeAuto tag 1#8) s = .next
      (if (carried 5 s).timing.auto = true then { carried 5 s with link := (carried 5 s).link.answered tag .ok [] }
      else if ((carried 5 s).rx.get (carried 5 s).homing.home).state = .synced
          ∧ (carried 5 s).homing.isolated = false then
        { carried 5 s with
          timing := { (carried 5 s).timing with auto := true }, link := (carried 5 s).link.answered tag .ok [] }
      else { carried 5 s with link := (carried 5 s).link.answered tag .noSource [] }) := by
  show Host.Outcome.next (request 1 tag (fun u => answerOf (selectAuto u)) s) = _
  congr 1
  split
  · rename_i ha
    have kept : selectAuto (carried 5 s) = (carried 5 s, .ok) := if_pos ha
    rw [request_answered 1 tag _ h (congrArg Prod.snd kept) (by rw [answerOf, kept])]
    rw [answerOf, kept]
  · rename_i ha
    split
    · rename_i hs
      have taken : selectAuto (carried 5 s) = ((carried 5 s).updTiming fun t => { t with auto := true }, .ok) := by
        rw [selectAuto, if_neg ha, if_pos hs]
      rw [request_answered 1 tag _ h (congrArg Prod.snd taken) (by rw [answerOf, taken]; rfl)]
      rw [answerOf, taken]
      rfl
    · rename_i hs
      have refused : selectAuto (carried 5 s) = (carried 5 s, .noSource) := by
        rw [selectAuto, if_neg ha, if_neg hs]
      exact request_refusal 1 tag h refused (by decide)

/-- Another selection is refused RANGE. -/
theorem timingMode_other (tag : Byte) {selection : Byte} (hs : 1 < selection.toNat) (h : takesRequest (carried 5 s)) :
    exec (.timingModeAuto tag selection) s
      = .next { carried 5 s with link := (carried 5 s).link.answered tag .range [] } := by
  have zero : selection ≠ 0#8 := fun e => by subst e; exact absurd hs (by decide)
  have one : selection ≠ 1#8 := fun e => by subst e; exact absurd hs (by decide)
  have refused : timingMode selection (carried 5 s) = (carried 5 s, .range) := by
    rw [timingMode, if_neg zero, if_neg one]
  exact congrArg _ (request_refusal 1 tag h refused (by decide))

/-- Settles O52: TIMING_SET by what it is refused for, TIMING_MODE by its selection. -/
theorem timingRequestsAct : Obligations.TimingRequestsAct := by
  intro tag s
  refine ⟨fun trim delayA delayB limit h => ⟨fun illegal => ?_, fun legal ht hm => ?_, fun legal ht => ?_⟩,
    fun h => ⟨timingMode_free tag h, timingMode_auto tag h, fun _ hs => timingMode_other tag hs h⟩⟩
  · exact congrArg _ (request_refusal 14 tag h (timingSet_illegal illegal) (by decide))
  · exact congrArg _ (request_refusal 14 tag h (timingSet_wrongState legal ht hm) (by decide))
  · obtain ⟨t, ht, hlink, hrest, hmark⟩ := timingSet_acts tag h legal ht
    rw [configure_eq] at hrest
    exact ⟨t, ht, hlink, hrest, hmark⟩

/-! ### TIME_SET (R73) -/

theorem timeOwned_iff (u : State) :
    timeOwned u = true ↔
      u.timing.validity = .fromEnd ∧ ∃ x, u.timing.source = some x ∧ 0 < (u.rx.get x).presence := by
  simp only [timeOwned, Bool.and_eq_true, decide_eq_true_eq]
  cases u.timing.source <;> simp [Receiver.endPresent]

/-- A TIME_SET that is taken sets the raw time and makes the host its source. -/
theorem timeSet_taken {seconds : Word} {cycle : Half} (hc : cycle.toNat ≤ 7999) (ho : timeOwned u = false) :
    (timeSet seconds cycle u).2 = .ok ∧ timingMoved u (timeSet seconds cycle u).1
      ∧ (timeSet seconds cycle u).1.timing =
          { u.timing with seconds := seconds, cycle := cycle.toNat, validity := .fromHost, source := none }
      ∧ hasMark .timing Mark.timeSet (timeSet seconds cycle u).1
      ∧ (u.timing.validity ≠ .fromHost → hasMark .timing Mark.validity (timeSet seconds cycle u).1) := by
  have set := ((timingMoved.refl u).updTiming
    fun t => { t with seconds := seconds, cycle := cycle.toNat, validity := .fromHost, source := none }).raise
      .timing Mark.timeSet
  have marked := hasMark_raise .timing (n := Mark.timeSet) (u.updTiming
    fun t => { t with seconds := seconds, cycle := cycle.toNat, validity := .fromHost, source := none }) (by decide)
  rw [timeSet, if_neg (Nat.not_lt.mpr hc), ho, if_neg Bool.false_ne_true]
  dsimp only
  split
  · rename_i hv
    exact ⟨rfl, set, rfl, marked, fun hn => absurd hv hn⟩
  · exact ⟨rfl, set.raise _ _, rfl, hasMark_mono _ _ marked, fun _ => hasMark_raise _ _ (by decide)⟩

/-- Settles O53, by what the request is refused for. -/
theorem timeSetGivesTheTime : Obligations.TimeSetGivesTheTime := by
  intro tag seconds cycle s h
  refine ⟨fun hc => ?_, fun hc owned => ?_, fun hc free => ?_⟩
  · have refused : timeSet seconds cycle (carried 10 s) = (carried 10 s, .range) := by rw [timeSet, if_pos hc]
    exact congrArg _ (request_refusal 6 tag h refused (by decide))
  · have refused : timeSet seconds cycle (carried 10 s) = (carried 10 s, .timeOwned) := by
      rw [timeSet, if_neg (Nat.not_lt.mpr hc), if_pos ((timeOwned_iff _).mpr owned)]
    exact congrArg _ (request_refusal 6 tag h refused (by decide))
  · have ho : timeOwned (carried 10 s) = false := by
      rw [← Bool.not_eq_true, timeOwned_iff]
      exact free
    obtain ⟨hok, moved, set, marked, validity⟩ := timeSet_taken (seconds := seconds) hc ho
    obtain ⟨t, ht, hlink, hrest, hmarks⟩ := request_timingMoved 6 tag (timeSet seconds cycle) h hok moved
    rw [set] at hrest
    exact ⟨t, congrArg _ ht, hlink, hrest, hmarks _ _ marked, fun hn => hmarks _ _ (validity hn)⟩

end Sys2Proof.Machine

/-! SUPPORT. Received cycle starts (R61 to R69): a sample of the tracking loop, the modes it changes, and realignment. -/

namespace Sys2Proof.Machine

variable {s t u v : State} {arr : Arrival}

/-! ### One sample (R65 to R69) -/

/-- The phase error is Q, taken as negative from 2048 on, and lies in -2048..2047 (R65). -/
theorem Timing.error_eq (t : Timing) :
    t.error = (if t.phase.toNat / 2 ^ 20 < 2048 then ((t.phase.toNat / 2 ^ 20 : Nat) : Int)
      else ((t.phase.toNat / 2 ^ 20 : Nat) : Int) - 4096) := rfl

theorem Timing.error_bounds (t : Timing) : -2048 ≤ t.error ∧ t.error ≤ 2047 := by
  have := t.phase.isLt
  rw [Timing.error_eq]
  split <;> omega

/-- The lock count after a sample in ACQUIRING (R67). -/
def Timing.lockAfter (t : Timing) : Nat := if -2 ≤ t.error ∧ t.error ≤ 2 then t.lockCount + 1 else 0

/-- The realign count after a sample in ACQUIRING (R69). -/
def Timing.realignAfter (t : Timing) : Nat := if -64 ≤ t.error ∧ t.error ≤ 63 then 0 else t.realignCount + 1

/-- The unlock count after a sample in TRACKING (R68). -/
def Timing.unlockAfter (t : Timing) : Nat := if -16 ≤ t.error ∧ t.error ≤ 16 then 0 else t.unlockCount + 1

/-- A sample in ACQUIRING makes a loop step and counts; a lock count of 256 makes TRACKING. -/
theorem takeSample_acquiring (hm : s.timing.mode = .acquiring) :
    takeSample s =
      (let counted := s.updTiming fun t =>
        { t.loop t.error with
          lockCount := t.lockAfter, realignCount := t.realignAfter, armed := decide (4 ≤ t.realignAfter) }
      if 256 ≤ s.timing.lockAfter then
        raise .timing TimingMode.tracking.code (counted.updTiming fun t => { t with mode := .tracking, unlockCount := 0 })
      else counted) := by
  have mode : (s.updTiming (Timing.loop s.timing.error)).timing.mode = .acquiring := hm
  simp only [takeSample, mode, Timing.lockAfter, Timing.realignAfter, ← Bool.decide_and, decide_eq_true_eq]
  rfl

/-- A sample in TRACKING makes a loop step and counts; an unlock count of 8 makes ACQUIRING. -/
theorem takeSample_tracking (hm : s.timing.mode = .tracking) :
    takeSample s =
      (let counted := s.updTiming fun t => { t.loop t.error with unlockCount := t.unlockAfter }
      if 8 ≤ s.timing.unlockAfter then
        raise .timing TimingMode.acquiring.code
          (counted.updTiming fun t => { t with mode := .acquiring, lockCount := 0, realignCount := 0, armed := false })
      else counted) := by
  have mode : (s.updTiming (Timing.loop s.timing.error)).timing.mode = .tracking := hm
  simp only [takeSample, mode, Timing.unlockAfter, ← Bool.decide_and, decide_eq_true_eq]
  rfl

/-- A sample in ACQUIRING changes the timing unit alone. -/
theorem timingMoved.sample_acquiring (hm : s.timing.mode = .acquiring) : timingMoved s (takeSample s) := by
  rw [takeSample_acquiring hm]
  exact keeps_ite ((((refl s).updTiming _).updTiming _).raise _ _) ((refl s).updTiming _)

/-- A sample in TRACKING changes the timing unit alone. -/
theorem timingMoved.sample_tracking (hm : s.timing.mode = .tracking) : timingMoved s (takeSample s) := by
  rw [takeSample_tracking hm]
  exact keeps_ite ((((refl s).updTiming _).updTiming _).raise _ _) ((refl s).updTiming _)

/-! ### The cycle start signalled (R61, R62, R64, R69) -/

section CycleStart

variable {x : Side} (hx : sourceReceiver s = some x)
include hx

theorem cycleStart_free (hm : s.timing.mode = .free) (hi : s.homing.isolated = false) :
    cycleStart x s = (takeSample (startAcquiring s), false) := by
  simp [cycleStart, hx, hm, hi]

theorem cycleStart_holdover (hm : s.timing.mode = .holdover) (hi : s.homing.isolated = false) :
    cycleStart x s = (takeSample (leaveHoldover s), false) := by
  simp [cycleStart, hx, hm, hi]

theorem cycleStart_tracking (hm : s.timing.mode = .tracking) : cycleStart x s = (takeSample s, false) := by
  simp [cycleStart, hx, hm]

theorem cycleStart_acquiring (hm : s.timing.mode = .acquiring) (ha : s.timing.armed = false) :
    cycleStart x s = (takeSample s, false) := by
  simp [cycleStart, hx, hm, ha]

theorem cycleStart_armed (hm : s.timing.mode = .acquiring) (ha : s.timing.armed = true) :
    cycleStart x s = (realignPhase s, decide (2048 ≤ s.timing.q)) := by
  simp [cycleStart, hx, hm, ha]

end CycleStart

/-- Q reaches 2048 in the second half of the cycle (R65). -/
theorem Timing.half_le_q (t : Timing) : 2048 ≤ t.q ↔ 2 ^ 31 ≤ t.phase.toNat := by
  unfold Timing.q
  omega

/-! ### The cycle judged and stored (R7, R8, R10) -/

/-- A cycle written into a store touches the flow's store and slips alone. -/
theorem writeStore_frame (x : Side) (c : Stored) (s : State) :
    writeStore x c s = { s with flow := (writeStore x c s).flow, link := (writeStore x c s).link }
      ∧ onlyReports s.link (writeStore x c s).link
      ∧ ∀ y, (writeStore x c s).flow.get y =
          { s.flow.get y with
            store := ((writeStore x c s).flow.get y).store, overflows := ((writeStore x c s).flow.get y).overflows } := by
  unfold writeStore
  split
  · refine ⟨rfl, rfl, fun y => ?_⟩
    cases x <;> cases y <;> rfl
  · refine ⟨rfl, rfl, fun y => ?_⟩
    cases x <;> cases y <;> rfl

/-- The flow a cycle is not written into stays. -/
theorem writeStore_other (x : Side) (c : Stored) (s : State) :
    (writeStore x.other c s).flow.get x = s.flow.get x := by
  unfold writeStore
  split
  · cases x <;> rfl
  · cases x <;> rfl

/-- What a SYNCED receiver does with a cycle before its start is signalled. -/
theorem storeCycle_takenIn (arr : Arrival) (s : State) : takenIn arr s (storeCycle arr.port arr.cycle s) := by
  obtain ⟨rest, link, -⟩ := writeStore_frame arr.port.other
    { number := storedNumber (s.rx.get arr.port) arr.cycle, h2 := arr.cycle.h2, h3 := arr.cycle.h3,
      lanes := arr.cycle.lanes } s
  have other := writeStore_other arr.port
    { number := storedNumber (s.rx.get arr.port) arr.cycle, h2 := arr.cycle.h2, h3 := arr.cycle.h3,
      lanes := arr.cycle.lanes } s
  unfold storeCycle
  dsimp only
  generalize writeStore arr.port.other _ s = w at *
  generalize w.flow = flow at *
  generalize w.link = after at *
  subst rest
  exact ⟨rfl, other, rfl, link, rfl⟩

/-- Every field of a state after a cycle judged and stored that the cycle does not touch. -/
theorem takenIn.timingMoved (h : takenIn arr s t) (k : timingMoved t u) : takenIn arr s u := by
  obtain ⟨rest, link⟩ := k
  generalize u.timing = timing at *
  generalize u.link = after at *
  subst rest
  exact
    { receiver := h.receiver, flow := h.flow, homing := h.homing, link := h.link.trans link,
      rest := by rw [h.rest] }

/-- The state in which a received cycle has been judged and stored, and its start is to be signalled (R7, R61). -/
def cycleStored (arr : Arrival) (s : State) : State :=
  storeCycle arr.port arr.cycle (s.updTiming (Timing.run arr.elapsed))

theorem cycleStored_takenIn (arr : Arrival) (s : State) : takenIn arr s (cycleStored arr s) :=
  have h := storeCycle_takenIn arr (s.updTiming (Timing.run arr.elapsed))
  { receiver := h.receiver, flow := h.flow, homing := h.homing, link := h.link, rest := h.rest }

/-- Judging and storing a cycle leaves the timing unit and the state of home alone. -/
theorem storeCycle_timing (x : Side) (c : Cycle) (s : State) : (storeCycle x c s).timing = s.timing := by
  show (writeStore x.other _ s).timing = s.timing
  rw [(writeStore_frame x.other _ s).1]

@[simp] theorem cycleStored_timing (arr : Arrival) (s : State) :
    (cycleStored arr s).timing = s.timing.run arr.elapsed := storeCycle_timing _ _ _

@[simp] theorem cycleStored_isolated (arr : Arrival) (s : State) :
    (cycleStored arr s).homing.isolated = s.homing.isolated := by rw [(cycleStored_takenIn arr s).homing]; rfl

@[simp] theorem cycleStored_home (arr : Arrival) (s : State) :
    (cycleStored arr s).homing.home = s.homing.home := by rw [(cycleStored_takenIn arr s).homing]; rfl

/-- The source's port is known as such when the start is signalled. -/
theorem sourceReceiver_cycleStored (h : sourceAt arr s) : sourceReceiver (cycleStored arr s) = some arr.port := by
  have auto : (cycleStored arr s).timing.auto = true := by rw [cycleStored_timing]; exact h.1
  rw [sourceReceiver, auto, cycleStored_home, h.2]
  rfl

theorem startUsed_of (hy : staysSynced arr s) (h : sourceAt arr s) : startUsed arr s = true := by
  have source : sourceReceiver s = some arr.port := by
    rw [sourceReceiver, h.1, h.2]
    rfl
  simp [startUsed, hy.1, source]

/-- A receiver that stays SYNCED counts fewer than four faults (R7). -/
theorem faultRun_of_staysSynced (hy : staysSynced arr s) : ((s.rx.get arr.port).judge arr.cycle).faultRun < 4 := by
  unfold Receiver.judge
  split
  · exact Nat.zero_lt_succ _
  · rename_i hseq
    exact Nat.succ_lt_succ (hy.2.resolve_left hseq)

/-- A cycle that leaves the receiver SYNCED ends with its start signalled. -/
theorem takeCycle_staying (hy : staysSynced arr s)
    (hf : ((signalStart arr.port arr.status (cycleStored arr s)).rx.get arr.port).faultRun < 4) :
    takeCycle arr s = signalStart arr.port arr.status (cycleStored arr s) := by
  rw [cycleStored] at hf ⊢
  rw [takeCycle, if_pos hy.1]
  exact if_neg (Nat.not_le.mpr hf)

/-- An occasion that comes about runs the whole event (log 1). -/
theorem atInstant_onOccasion {o : State → State → Bool} {e : State → State} (h : o s (e s) = true) :
    atInstant (onOccasion o e) s = atInstant e s := by
  unfold atInstant
  rw [onOccasion_due h]

/-- A start that makes no local cycle boundary: the received cycle ends in the state that the timing unit makes of
it, its reports in order. -/
theorem receivedCycle_signalled (hr : s.resetHeld = false) (hy : staysSynced arr s)
    (hc : cycleStart arr.port (cycleStored arr s) = (v, false)) (hv : v.rx = (cycleStored arr s).rx) :
    timingMoved v (atInstant (takeCycle arr) s) ∧ (atInstant (takeCycle arr) s).timing = v.timing
      ∧ ∀ src m, hasMark src m v → hasMark src m (atInstant (takeCycle arr) s) := by
  have signalled : signalStart arr.port arr.status (cycleStored arr s) = v := by
    rw [signalStart, hc]
    rfl
  have taken : takeCycle arr s = v := by
    rw [takeCycle_staying hy, signalled]
    rw [signalled, hv, (cycleStored_takenIn arr s).receiver, Two.get_set_same]
    exact faultRun_of_staysSynced hy
  refine ⟨.atInstant hr (taken ▸ .refl _), ?_, fun src m hm => (hasMark_atInstant hr).mpr (taken ▸ hm)⟩
  rw [atInstant_running hr, taken]
  rfl

/-- The same for a start that changes the timing unit alone. -/
theorem receivedCycle_moved (hr : s.resetHeld = false) (hy : staysSynced arr s)
    (hc : cycleStart arr.port (cycleStored arr s) = (v, false)) (hv : timingMoved (cycleStored arr s) v) :
    takenIn arr s (atInstant (takeCycle arr) s) ∧ (atInstant (takeCycle arr) s).timing = v.timing
      ∧ ∀ src m, hasMark src m v → hasMark src m (atInstant (takeCycle arr) s) := by
  obtain ⟨moved, timing, marks⟩ := receivedCycle_signalled hr hy hc (by rw [hv.rest])
  exact ⟨((cycleStored_takenIn arr s).timingMoved hv).timingMoved moved, timing, marks⟩

/-! ### Samples of a received cycle -/

/-- An ordinary sample in ACQUIRING (R67, R69). -/
theorem receivedCycle_counts (hr : s.resetHeld = false) (hy : staysSynced arr s) (hx : sourceAt arr s)
    (hm : s.timing.mode = .acquiring) (ha : s.timing.armed = false)
    (hl : (s.timing.run arr.elapsed).lockAfter < 256) :
    takenIn arr s (atInstant (takeCycle arr) s) ∧ (atInstant (takeCycle arr) s).timing =
      { (s.timing.run arr.elapsed).loop (s.timing.run arr.elapsed).error with
        lockCount := (s.timing.run arr.elapsed).lockAfter, realignCount := (s.timing.run arr.elapsed).realignAfter,
        armed := decide (4 ≤ (s.timing.run arr.elapsed).realignAfter) } := by
  have mode : (cycleStored arr s).timing.mode = .acquiring := by rw [cycleStored_timing]; exact hm
  have armed : (cycleStored arr s).timing.armed = false := by rw [cycleStored_timing]; exact ha
  obtain ⟨taken, timing, -⟩ := receivedCycle_moved hr hy
    (cycleStart_acquiring (sourceReceiver_cycleStored hx) mode armed) (.sample_acquiring mode)
  refine ⟨taken, timing.trans ?_⟩
  rw [takeSample_acquiring mode, cycleStored_timing, if_neg (Nat.not_le.mpr hl), State.updTiming_timing,
    cycleStored_timing]

/-- An ordinary sample in TRACKING (R68). -/
theorem receivedCycle_tracks (hr : s.resetHeld = false) (hy : staysSynced arr s) (hx : sourceAt arr s)
    (hm : s.timing.mode = .tracking) (hu : (s.timing.run arr.elapsed).unlockAfter < 8) :
    takenIn arr s (atInstant (takeCycle arr) s) ∧ (atInstant (takeCycle arr) s).timing =
      { (s.timing.run arr.elapsed).loop (s.timing.run arr.elapsed).error with
        unlockCount := (s.timing.run arr.elapsed).unlockAfter } := by
  have mode : (cycleStored arr s).timing.mode = .tracking := by rw [cycleStored_timing]; exact hm
  obtain ⟨taken, timing, -⟩ := receivedCycle_moved hr hy
    (cycleStart_tracking (sourceReceiver_cycleStored hx) mode) (.sample_tracking mode)
  refine ⟨taken, timing.trans ?_⟩
  rw [takeSample_tracking mode, cycleStored_timing, if_neg (Nat.not_le.mpr hu), State.updTiming_timing,
    cycleStored_timing]

/-- Settles O15: one loop step is the rule's own, and an ordinary sample makes it with the counts of its mode. -/
theorem loopStepFollowsItsRule : Obligations.LoopStepFollowsItsRule := by
  intro t e
  refine ⟨t.error_eq, t.error_bounds.1, t.error_bounds.2, rfl,
    fun arr s hr hy hx => ⟨fun hm ha hl hre => ?_, fun hm hu => ?_⟩⟩
  · have lock : (s.timing.run arr.elapsed).lockAfter < 256 := by
      unfold Timing.lockAfter
      split
      · rename_i inBand
        exact Nat.succ_lt_succ (Nat.not_le.mp fun hn => hl ⟨hn, inBand⟩)
      · decide
    have realign : (s.timing.run arr.elapsed).realignAfter < 4 := by
      unfold Timing.realignAfter
      split
      · decide
      · rename_i outside
        exact Nat.succ_lt_succ (hre.resolve_right outside)
    obtain ⟨taken, timing⟩ := receivedCycle_counts hr hy hx hm ha lock
    rw [decide_eq_false (Nat.not_le.mpr realign)] at timing
    exact ⟨_, rfl, taken, timing⟩
  · have unlock : (s.timing.run arr.elapsed).unlockAfter < 8 := by
      unfold Timing.unlockAfter
      split
      · decide
      · rename_i outside
        exact Nat.succ_lt_succ (hu.resolve_right outside)
    obtain ⟨taken, timing⟩ := receivedCycle_tracks hr hy hx hm unlock
    exact ⟨_, rfl, taken, timing⟩

/-! ### The modes begun and ended at a cycle start -/

/-- The first sample of ACQUIRING, the timing unit standing as the mode is entered with counts of 0. -/
theorem takeSample_first (hm : s.timing.mode = .acquiring) (hl : s.timing.lockCount = 0)
    (hre : s.timing.realignCount = 0) :
    (takeSample s).timing =
      { s.timing.loop s.timing.error with
        armed := false, lockCount := if -2 ≤ s.timing.error ∧ s.timing.error ≤ 2 then 1 else 0,
        realignCount := if -64 ≤ s.timing.error ∧ s.timing.error ≤ 63 then 0 else 1 } := by
  have lock : s.timing.lockAfter = if -2 ≤ s.timing.error ∧ s.timing.error ≤ 2 then 1 else 0 := by
    rw [Timing.lockAfter, hl]
  have realign : s.timing.realignAfter = if -64 ≤ s.timing.error ∧ s.timing.error ≤ 63 then 0 else 1 := by
    rw [Timing.realignAfter, hre]
  have few : s.timing.lockAfter < 256 := by
    rw [lock]
    split <;> decide
  have unarmed : s.timing.realignAfter < 4 := by
    rw [realign]
    split <;> decide
  rw [takeSample_acquiring hm, if_neg (Nat.not_le.mpr few), State.updTiming_timing,
    decide_eq_false (Nat.not_le.mpr unarmed), lock, realign]

/-- No sample clears a mark. -/
theorem hasMark_sample {src : Source} {m : Nat} (hm : s.timing.mode = .acquiring) (h : hasMark src m s) :
    hasMark src m (takeSample s) := by
  rw [takeSample_acquiring hm]
  exact keeps_ite (hasMark_mono _ _ h) h

/-- Settles O16, by the mode that the start ends. -/
theorem cycleStartBeginsAcquisition : Obligations.CycleStartBeginsAcquisition := by
  intro arr s hr hy hx hi hm
  have source := sourceReceiver_cycleStored hx
  have homed : (cycleStored arr s).homing.isolated = false := (cycleStored_isolated arr s).trans hi
  have used := startUsed_of hy hx
  rcases hm with hm | hm
  · have mode : (cycleStored arr s).timing.mode = .free := by rw [cycleStored_timing]; exact hm
    have moved : timingMoved (cycleStored arr s) (startAcquiring (cycleStored arr s)) :=
      ((timingMoved.refl _).updTiming _).raise _ _
    obtain ⟨taken, timing, marks⟩ := receivedCycle_moved hr hy (cycleStart_free source mode homed)
      (moved.trans (.sample_acquiring rfl))
    refine ⟨_, rfl, fun _ => ?_, fun hn => absurd (hm.symm.trans hn) (by decide), timing.trans ?_,
      marks _ _ (hasMark_sample rfl (hasMark_raise _ _ (by decide))), taken⟩
    · exact congrArg _ (atInstant_onOccasion (by simp [entersFrom, used, hm, hi]))
    · rw [takeSample_first rfl rfl rfl, if_pos hm]
      simp only [startAcquiring, raise_timing, State.updTiming_timing, cycleStored_timing]
      rfl
  · have mode : (cycleStored arr s).timing.mode = .holdover := by rw [cycleStored_timing]; exact hm
    have moved : timingMoved (cycleStored arr s) (leaveHoldover (cycleStored arr s)) :=
      ((timingMoved.refl _).updTiming _).raise _ _
    obtain ⟨taken, timing, marks⟩ := receivedCycle_moved hr hy (cycleStart_holdover source mode homed)
      (moved.trans (.sample_acquiring rfl))
    refine ⟨_, rfl, fun hn => absurd (hm.symm.trans hn) (by decide), fun _ => ?_, timing.trans ?_,
      marks _ _ (hasMark_sample rfl (hasMark_raise _ _ (by decide))), taken⟩
    · exact congrArg _ (atInstant_onOccasion (by simp [entersFrom, used, hm, hi]))
    · have notFree : ¬ s.timing.mode = .free := by rw [hm]; decide
      rw [takeSample_first rfl rfl rfl, if_neg notFree]
      simp only [leaveHoldover, raise_timing, State.updTiming_timing, cycleStored_timing]
      rfl

/-! ### Lock and unlock (R67, R68) -/

/-- Settles O17: the counts reach 256 and 8 at this sample. -/
theorem lockAndUnlockChangeTheMode : Obligations.LockAndUnlockChangeTheMode := by
  intro arr s hr hy hx
  have source := sourceReceiver_cycleStored hx
  have used := startUsed_of hy hx
  refine ⟨fun hm ha hl low high => ?_, fun hm hu out => ?_⟩
  · have mode : (cycleStored arr s).timing.mode = .acquiring := by rw [cycleStored_timing]; exact hm
    have armed : (cycleStored arr s).timing.armed = false := by rw [cycleStored_timing]; exact ha
    have lock : (s.timing.run arr.elapsed).lockAfter = 256 := by
      rw [Timing.lockAfter, if_pos ⟨low, high⟩]
      exact congrArg _ hl
    have realign : (s.timing.run arr.elapsed).realignAfter = 0 := if_pos (by omega)
    have sample := takeSample_acquiring mode
    rw [cycleStored_timing, lock] at sample
    obtain ⟨taken, timing, marks⟩ := receivedCycle_moved hr hy (cycleStart_acquiring source mode armed)
      (.sample_acquiring mode)
    refine ⟨_, ?_, rfl, timing.trans ?_, marks _ _ ?_, taken⟩
    · exact congrArg _ (atInstant_onOccasion (by
        simp [locks, sampledIn, inBand, arrivalError, used, hm, ha, hl, low, high]))
    · rw [sample]
      simp only [if_pos (Nat.le_refl 256), raise_timing, State.updTiming_timing, cycleStored_timing, lock, realign]
      rfl
    · rw [sample]
      exact hasMark_raise _ _ (by decide)
  · have mode : (cycleStored arr s).timing.mode = .tracking := by rw [cycleStored_timing]; exact hm
    have unlock : (s.timing.run arr.elapsed).unlockAfter = 8 := by
      rw [Timing.unlockAfter, if_neg (by omega)]
      exact congrArg (· + 1) hu
    have sample := takeSample_tracking mode
    rw [cycleStored_timing, unlock] at sample
    obtain ⟨taken, timing, marks⟩ := receivedCycle_moved hr hy (cycleStart_tracking source mode)
      (.sample_tracking mode)
    refine ⟨_, ?_, rfl, timing.trans ?_, marks _ _ ?_, taken⟩
    · have outside : inBand (-16) 16 arr s = false := by
        rw [inBand, arrivalError, Bool.and_eq_false_iff, decide_eq_false_iff_not, decide_eq_false_iff_not]
        omega
      exact congrArg _ (atInstant_onOccasion (by simp [unlocks, used, hm, hu, outside]))
    · rw [sample]
      simp only [if_pos (Nat.le_refl 8), raise_timing, State.updTiming_timing, cycleStored_timing, unlock]
    · rw [sample]
      exact hasMark_raise _ _ (by decide)

end Sys2Proof.Machine

/-! SUPPORT. A local cycle boundary as the timing unit and the trunk lines see it: what each of its stages leaves of
the clock, the receivers, the counters and the cycles sent. -/

namespace Sys2Proof

/-- A function on both sides. -/
def Two.map {α β : Type} (f : α → β) (t : Two α) : Two β := { a := f t.a, b := f t.b }

@[simp] theorem Two.get_map {α β : Type} (f : α → β) (t : Two α) (x : Side) : (t.map f).get x = f (t.get x) := by
  cases x <;> rfl

/-- A change of one side that the function does not see. -/
theorem Two.map_set_of_eq {α β : Type} (f : α → β) (t : Two α) {x : Side} {v : α} (h : f v = f (t.get x)) :
    (t.set x v).map f = t.map f :=
  Two.ext_get fun y => by
    rw [Two.get_map, Two.get_map, Two.get_set]
    split
    · rename_i hy
      rw [h, hy]
    · rfl

end Sys2Proof

namespace Sys2Proof.Machine

/-! ### What a boundary leaves of the trunk -/

/-- A receiver without its presence timer, the one part of it that a boundary changes (R17). -/
def Receiver.untimed (r : Receiver) : Receiver := { r with presence := 0 }

/-- What the trunk lines show at a boundary: the ended cycles, the receivers without their presence timers, the
counters of the transmitters and the cycles they send. -/
structure Lines where
  line : TrunkLine
  rx : Two Receiver
  counter : Two (BitVec 4)
  sent : Two Cycle

/-- The trunk lines of a state. -/
def linesOf (s : State) : Lines :=
  { line := s.line, rx := s.rx.map Receiver.untimed, counter := s.flow.map Flow.counter, sent := s.flow.map Flow.sent }

/-- The trunk lines are known, and the timing unit and the homing unit satisfy a condition. -/
def atClock (c : Lines) (A : Timing → Homing → Prop) (s : State) : Prop := linesOf s = c ∧ A s.timing s.homing

variable {c : Lines} {A : Timing → Homing → Prop} {s t : State}

theorem linesOf_updRx (x : Side) {f : Receiver → Receiver} (hf : ∀ r, (f r).untimed = r.untimed) (s : State) :
    linesOf (s.updRx x f) = linesOf s := by
  simp only [linesOf, State.updRx_line, State.updRx_rx, State.updRx_flow, Two.map_set_of_eq _ _ (hf _)]

theorem linesOf_updFlow (x : Side) {f : Flow → Flow} (hc : ∀ g, (f g).counter = g.counter)
    (hs : ∀ g, (f g).sent = g.sent) (s : State) : linesOf (s.updFlow x f) = linesOf s := by
  simp only [linesOf, State.updFlow_line, State.updFlow_rx, State.updFlow_flow, Two.map_set_of_eq _ _ (hc _),
    Two.map_set_of_eq _ _ (hs _)]

/-- The lane allocator and the call unit leave the trunk lines and the clock alone. -/
theorem keeps_atClock (c : Lines) (A : Timing → Homing → Prop) : Keeps (atClock c A) where
  raise _ _ h := h
  round _ h := h
  alloc _ _ h := h
  call _ _ _ h := h
  chan _ _ _ h := h

/-- So do the packet engine and the station filter. -/
theorem keepsPackets_atClock (c : Lines) (A : Timing → Homing → Prop) : KeepsPackets (atClock c A) where
  raise _ _ h := h
  chan _ _ _ h := h
  port _ _ _ h := h
  filter _ _ h := h
  mem _ _ h := h

/-- A condition that the counts of the homing unit do not break as they are judged (R27, R31). -/
def countsJudgeable (A : Timing → Homing → Prop) : Prop :=
  ∀ s : State, A s.timing s.homing → A s.timing (judgeReachability s).homing

/-- A condition on the timing unit alone. -/
def onTiming (B : Timing → Prop) : Timing → Homing → Prop := fun t _ => B t

theorem countsJudgeable_onTiming (B : Timing → Prop) : countsJudgeable (onTiming B) := fun _ h => h

/-- The timing unit after R63: ACQUIRING and TRACKING end, C frozen at the integral. -/
def Timing.heldOver (t : Timing) : Timing :=
  match t.mode with
  | .acquiring | .tracking =>
    { t with
      mode := .holdover, correction := clampInt (t.integral / 64) (-1024) 1023, lockCount := 0, unlockCount := 0,
      realignCount := 0, armed := false, holdTimer := 0 }
  | _ => t

theorem enterHoldover_timing (s : State) : (enterHoldover s).timing = s.timing.heldOver := by
  unfold enterHoldover Timing.heldOver
  split <;> rename_i hm <;> simp [hm]

/-- The timing unit after a local round boundary's count (R74). -/
def Timing.heldCount (t : Timing) : Timing :=
  match t.mode with
  | .holdover => { t with holdTimer := min (t.holdTimer + 1) Config.holdoverCap }
  | _ => t

theorem Timing.heldCount_of_holdover {t : Timing} (hm : t.mode = .holdover) :
    t.heldCount = { t with holdTimer := min (t.holdTimer + 1) Config.holdoverCap } := by
  unfold Timing.heldCount
  split
  · rfl
  · exact absurd hm ‹_›

theorem Timing.heldCount_of_ne {t : Timing} (hm : t.mode ≠ .holdover) : t.heldCount = t := by
  unfold Timing.heldCount
  split
  · exact absurd ‹_› hm
  · rfl

theorem countHoldover_timing (s : State) : (countHoldover s).timing = s.timing.heldCount := by
  unfold countHoldover
  split
  · rename_i hm
    rw [Timing.heldCount_of_holdover hm]
    exact keeps_ite (P := fun u => u.timing = _) rfl rfl
  · exact (Timing.heldCount_of_ne ‹_›).symm

/-- A condition on the timing unit that line time does not touch (R70 to R73). -/
def timelessIn (B : Timing → Prop) : Prop :=
  ∀ t u : Timing,
    u = { t with
      seconds := u.seconds, cycle := u.cycle, validity := u.validity, source := u.source, lastStep := u.lastStep,
      rejected := u.rejected } → B t → B u

namespace atClock

theorem judgeReachability (hj : countsJudgeable A) (h : atClock c A s) : atClock c A (judgeReachability s) :=
  ⟨h.1, hj s h.2⟩

theorem updRx (x : Side) {f : Receiver → Receiver} (hf : ∀ r, (f r).untimed = r.untimed) (h : atClock c A s) :
    atClock c A (s.updRx x f) := ⟨(linesOf_updRx x hf s).trans h.1, h.2⟩

theorem updFlow (x : Side) {f : Flow → Flow} (hc : ∀ g, (f g).counter = g.counter) (hs : ∀ g, (f g).sent = g.sent)
    (h : atClock c A s) : atClock c A (s.updFlow x f) := ⟨(linesOf_updFlow x hc hs s).trans h.1, h.2⟩

theorem raise (src : Source) (m : Nat) (h : atClock c A s) : atClock c A (raise src m s) := h

/-! ### The from-home round start and the local round boundary -/

theorem takeToward (h : atClock c A s) : atClock c A (takeToward s) := h.updFlow _ (fun _ => rfl) fun _ => rfl

theorem takeFrom (h : atClock c A s) : atClock c A (takeFrom s) := h.updFlow _ (fun _ => rfl) fun _ => rfl

theorem fromHomeRound (h : atClock c A s) : atClock c A (fromHomeRound s) := by
  have risen := (keeps_atClock c A).riseReceivedCount h
  unfold Machine.fromHomeRound
  exact keeps_ite (keeps_ite risen risen.takeFrom) h

theorem takeRoles (b : Bool) (h : atClock c A s) : atClock c A (takeRoles b s) := by
  have taken : atClock c A (Machine.takeToward (if b || s.alloc.listsDue then Machine.takeFrom s else s)) :=
    (keeps_ite (P := atClock c A) h.takeFrom h).takeToward
  unfold Machine.takeRoles
  exact keeps_ite ((keepsPackets_atClock c A).filterBreak (s := Machine.State.updAlloc _ _) taken) taken

theorem applyUpdate (h : atClock c A s) : atClock c A (applyUpdate s) := by
  unfold Machine.applyUpdate
  split <;> exact h

theorem tickPresence (x : Side) (hj : countsJudgeable A) (h : atClock c A s) : atClock c A (tickPresence x s) := by
  have ticked := h.updRx x (f := fun r => { r with presence := r.presence - 1 }) fun _ => rfl
  unfold Machine.tickPresence
  exact (keeps_ite (P := atClock c A) (ticked.raise _ _) ticked).judgeReachability hj

section Held

variable {B : Timing → Prop} (held : ∀ t, B t → B t.heldOver)
include held

theorem enterHoldover (h : atClock c (onTiming B) s) : atClock c (onTiming B) (enterHoldover s) := by
  refine ⟨?_, ?_⟩
  · unfold Machine.enterHoldover
    split <;> exact h.1
  · rw [onTiming, enterHoldover_timing]
    exact held _ h.2

theorem handOnHome (h : atClock c (onTiming B) s) : atClock c (onTiming B) (handOnHome s) := by
  unfold Machine.handOnHome
  exact enterHoldover held ((keeps_atClock _ _).applyAllMoves ((keepsPackets_atClock _ _).filterBreak
    ((keepsPackets_atClock _ _).packetsHomeChange ((keeps_atClock _ _).round _ h))))

theorem changeHome (new : Side) (b : Bool) (cause : HomeCause) (h : atClock c (onTiming B) s) :
    atClock c (onTiming B) (changeHome new b cause s) := by
  have changed := fun f => (show atClock c (onTiming B) (s.updHoming f) from h).raise .home cause.code
  unfold Machine.changeHome
  dsimp only
  exact judgeReachability (countsJudgeable_onTiming B)
    (keeps_ite (handOnHome held (changed _))
      (keeps_ite (enterHoldover held (changed _)) ((keeps_atClock _ _).round _ (changed _))))

omit held in
theorem clearForce (h : atClock c (onTiming B) s) : atClock c (onTiming B) (clearForce s) := by
  unfold Machine.clearForce
  split <;> exact h

theorem decideHome (h : atClock c (onTiming B) s) : atClock c (onTiming B) (decideHome s) := by
  unfold Machine.decideHome
  split
  · exact changeHome held _ _ _ (s := s.updHoming _) h
  · split
    · split
      · exact changeHome held _ _ _ h
      · exact h
    · split
      · exact keeps_ite (changeHome held _ _ _ h.clearForce) (changeHome held _ _ _ h.clearForce)
      · exact keeps_ite (changeHome held _ _ _ h) h

end Held

/-! ### The exchange of a cycle, and the messages handed over -/

theorem latchEmpty (x : Side) (h : atClock c A s) : atClock c A (latchEmpty x s) := by
  unfold Machine.latchEmpty
  exact keeps_ite (h.updFlow _ (fun _ => rfl) fun _ => rfl) h

theorem deliverLane (lanes : List Byte) (e : Nat × Role) (h : atClock c A s) : atClock c A (deliverLane lanes s e) := by
  unfold Machine.deliverLane
  dsimp only
  split
  · exact (keepsPackets_atClock c A).parserByte _ _ h
  · exact keeps_ite ((keeps_atClock c A).call _ _ (fun _ => ⟨rfl, rfl⟩) h) h
  · exact h
  · exact (keepsPackets_atClock c A).filterByte _ h
  · exact h

theorem deliver (h : atClock c A s) : atClock c A (deliver s) := by
  have idled : atClock c A (allPorts.foldl (fun s p => s.updCall p fun c => { c with codec := Config.idle }) s) := by
    refine keeps_foldl (fun _ _ hs => ?_) _ h
    exact (keeps_atClock c A).call _ _ (fun _ => ⟨rfl, rfl⟩) hs
  unfold Machine.deliver
  dsimp only
  refine keeps_foldl (fun _ _ hs => deliverLane _ _ hs) _ ?_
  refine keeps_ite ((keepsPackets_atClock c A).filterRound (keeps_foldl (fun _ _ hs => ?_) _ idled)) idled
  exact (keepsPackets_atClock c A).parserRound _ _ hs

theorem sendControl (h : atClock c A s) : atClock c A (sendControl s) := by
  refine keeps_foldl (fun _ _ hs => ?_) _ h
  exact keeps_ite ((keepsPackets_atClock c A).port _ _ (fun _ => ⟨rfl, rfl, rfl⟩) hs) hs

theorem restartPresence (x : Side) (hj : countsJudgeable A) (h : atClock c A s) : atClock c A (restartPresence x s) := by
  have restarted := (h.updRx x (f := fun r => { r with presence := Config.presenceRounds }) fun _ => rfl).updFlow x.other
    (f := fun g => { g with heard := true }) (fun _ => rfl) fun _ => rfl
  unfold Machine.restartPresence
  exact (keeps_ite (P := atClock c A) restarted (restarted.raise _ _)).judgeReachability hj

section Timeless

variable {B : Timing → Prop} (timeless : timelessIn B)
include timeless

theorem updTime {f : Timing → Timing}
    (hf : ∀ t, f t = { t with seconds := (f t).seconds, cycle := (f t).cycle, validity := (f t).validity,
                              source := (f t).source, lastStep := (f t).lastStep, rejected := (f t).rejected })
    (h : atClock c (onTiming B) s) : atClock c (onTiming B) (s.updTiming f) := ⟨h.1, timeless _ _ (hf _) h.2⟩

theorem takeTime (x : Side) (seconds : Word) (index : Nat) (h : atClock c (onTiming B) s) :
    atClock c (onTiming B) (takeTime x seconds index s) := by
  have adopted : atClock c (onTiming B) (adoptTime x seconds index s) := by
    have owned : ∀ u : State, atClock c (onTiming B) u →
        atClock c (onTiming B) (u.updTiming fun t => { t with validity := .fromEnd, source := some x }) :=
      fun _ hu => hu.updTime timeless fun _ => rfl
    unfold adoptTime
    dsimp only
    have stepped : atClock c (onTiming B)
        (if s.timing.seconds = seconds ∧ s.timing.cycle = 16 * index + 15 then s
        else
          Machine.raise .timing Mark.timeStep
            (s.updTiming fun t =>
              { t with
                seconds := seconds, cycle := 16 * index + 15,
                lastStep := stepCycles seconds (16 * index + 15) t.seconds t.cycle })) :=
      keeps_ite h ((h.updTime timeless fun _ => rfl).raise _ _)
    exact keeps_ite (owned _ stepped) ((owned _ stepped).raise _ _)
  unfold Machine.takeTime
  split
  · exact h.updTime timeless fun _ => rfl
  · split
    · exact adopted
    · exact adopted
    · exact h

theorem useHomeMessage (x : Side) (m : List Byte) (h : atClock c (onTiming B) s) :
    atClock c (onTiming B) (useHomeMessage x m s) := by
  have counted := (keeps_atClock c (onTiming B)).adoptLocalCount (BitVec.ofNat 16 (halfAt m 2))
    ((keeps_atClock c (onTiming B)).setReceivedCount (BitVec.ofNat 16 (halfAt m 2)) h)
  unfold Machine.useHomeMessage
  dsimp only
  refine keeps_ite (takeTime timeless _ _ _ counted) (keeps_ite (keeps_foldl (fun _ _ hs => ?_) _ counted) counted)
  exact (keeps_atClock c (onTiming B)).takeItem _ _ hs

theorem handOver (x : Side) (m : List Byte) (h : atClock c (onTiming B) s) :
    atClock c (onTiming B) (handOver x m s) := by
  have present := h.restartPresence x.other (countsJudgeable_onTiming B)
  unfold Machine.handOver
  exact keeps_ite (keeps_ite (keeps_ite (useHomeMessage timeless _ _ present) present) h)
    ((keeps_atClock c (onTiming B)).round _ h)

end Timeless

/-- A message gathered, and handed over after cycle 15 alone (R2). -/
theorem gatherMessage (x : Side) {B : Timing → Prop} (ht : (s.flow.get x).counter ≠ 15#4 ∨ timelessIn B)
    (h : atClock c (onTiming B) s) : atClock c (onTiming B) (gatherMessage x s) := by
  have counter : ∀ g : Flow, g.gather.counter = g.counter := fun g => by
    unfold Flow.gather
    split <;> rfl
  have sent : ∀ g : Flow, g.gather.sent = g.sent := fun g => by
    unfold Flow.gather
    split <;> rfl
  have gathered := h.updFlow x counter sent
  unfold Machine.gatherMessage
  refine keeps_dite (fun full => ?_) fun _ => gathered
  refine handOver (ht.resolve_left fun hn => hn ?_) _ _ gathered
  have := full.2
  rwa [State.updFlow_flow, Two.get_set_same, counter] at this

end atClock

end Sys2Proof.Machine

/-! SUPPORT. The local cycle boundary put together: counters, the local round boundary, the cycle sent. -/

namespace Sys2Proof.Machine

variable {c : Lines} {A : Timing → Homing → Prop} {B : Timing → Prop} {s t : State}

/-! ### Counters (R3, R10 to R12) -/

/-- The counter of a flow once its transmitter has started its next cycle: the number of the cycle taken from its
store, with an overflow slip the second one's, and with none to take one more. -/
def Flow.nextCounter (f : Flow) : BitVec 4 :=
  if (f.mode = .delivering ∨ f.mode = .priming) ∧ 2 ≤ f.store.length then
    (f.store.getD (if 4 ≤ f.store.length then 1 else 0) f.taken).number
  else f.counter + 1#4

/-- Reading a store moves the counter of its flow. -/
theorem nextCounter_eq (x : Side) (s : State) : nextCounter x s = (s.flow.get x).nextCounter := by
  unfold nextCounter readStore Flow.nextCounter
  rcases hst : (s.flow.get x).store with _ | ⟨c, _ | ⟨d, rest⟩⟩
  · simp only [hst]
    split <;> simp [countUnderflow]
  · simp only [hst]
    split <;> simp [countUnderflow]
  · simp only [hst, List.length_cons]
    split
    · rename_i reads
      have read : ((s.flow.get x).mode = .delivering ∨ (s.flow.get x).mode = .priming) ∧ 2 ≤ rest.length + 1 + 1 :=
        ⟨reads.imp_right And.left, Nat.le_add_left 2 rest.length⟩
      rw [if_pos read]
      split
      · rw [if_pos (by omega)]
        simp [countOverflow]
      · rw [if_neg (by omega)]
        simp
    · rename_i reads
      rw [if_neg fun h => reads (h.1.imp_right fun hp => ⟨hp, h.2⟩)]
      simp

/-- What is sent, and the flow that is not read, stay. -/
theorem readStore_kept (x : Side) (s : State) :
    ((readStore x s).flow.get x).sent = (s.flow.get x).sent
      ∧ (readStore x s).flow.get x.other = s.flow.get x.other := by
  unfold readStore
  dsimp only
  split
  · split
    · split <;> cases x <;> exact ⟨rfl, rfl⟩
    · cases x <;> exact ⟨rfl, rfl⟩
  · cases x <;> exact ⟨rfl, rfl⟩

/-- Reading a store touches its flow and the slips' reports alone. -/
theorem readStore_frame (x : Side) (s : State) :
    readStore x s = { s with flow := (readStore x s).flow, link := (readStore x s).link } := by
  unfold readStore
  dsimp only
  split
  · split
    · split <;> rfl
    · rfl
  · rfl

/-- Reading a store as the trunk lines show it: the counter of its flow moves. -/
theorem linesOf_readStore (x : Side) (s : State) :
    linesOf (readStore x s) = { linesOf s with counter := (linesOf s).counter.set x (nextCounter x s) } := by
  obtain ⟨sent, other⟩ := readStore_kept x s
  have counters : (readStore x s).flow.map Flow.counter = (s.flow.map Flow.counter).set x (nextCounter x s) :=
    Two.ext_get fun y => by
      rcases Side.eq_or_other x y with rfl | rfl
      · rw [Two.get_map, Two.get_set_same, nextCounter]
      · rw [Two.get_map, other, Two.get_set_other, Two.get_map]
  have sents : (readStore x s).flow.map Flow.sent = s.flow.map Flow.sent :=
    Two.ext_get fun y => by
      rcases Side.eq_or_other x y with rfl | rfl
      · rw [Two.get_map, sent, Two.get_map]
      · rw [Two.get_map, other, Two.get_map]
  simp only [linesOf, counters, sents]
  rw [readStore_frame]

/-- Both stores are read: each counter takes its next value. -/
theorem linesOf_readStores (s : State) :
    linesOf (readStore .b (readStore .a s))
      = { linesOf s with counter := { a := nextCounter .a s, b := nextCounter .b s } } := by
  have other : nextCounter .b (readStore .a s) = nextCounter .b s := by
    rw [nextCounter_eq, nextCounter_eq, show Side.b = Side.a.other from rfl, (readStore_kept .a s).2]
  rw [linesOf_readStore, linesOf_readStore, other]
  rfl

/-- The counters once both transmitters have started their next cycle. -/
def nextCounters (s : State) : Two (BitVec 4) := { a := nextCounter .a s, b := nextCounter .b s }

@[simp] theorem nextCounters_get (x : Side) (s : State) : (nextCounters s).get x = nextCounter x s := by cases x <;> rfl

/-! ### The local round boundary (R4) -/

/-- The homing unit has no decision due (R27, R31, R34): it is HOMED, no force is pending, and neither count has
reached its setting. -/
structure Homing.undecided (g : Homing) : Prop where
  homed : g.isolated = false
  force : g.pendingForce = none
  setting : 1 ≤ g.holdOffSetting
  holdOff : ∀ n, g.holdOff = some n → n < g.holdOffSetting
  restore : ∀ n, g.restore = some n → n < g.restoreSetting * Config.roundsPerSecond

/-- A count that starts as reachability is judged is at 0, below its setting. -/
theorem countsJudgeable_undecided (B : Timing → Prop) : countsJudgeable fun t g => B t ∧ g.undecided := by
  rintro s ⟨hB, hg⟩
  refine ⟨hB, { hg with holdOff := fun n hn => ?_, restore := fun n hn => ?_ }⟩
  · simp only [judgeReachability, State.updHoming_homing] at hn ⊢
    split at hn
    · cases hc : s.homing.holdOff with
      | none =>
        simp only [hc, Option.getD_none, Option.some.injEq] at hn
        exact hn ▸ hg.setting
      | some m =>
        simp only [hc, Option.getD_some, Option.some.injEq] at hn
        exact hn ▸ hg.holdOff m hc
    · cases hn
  · simp only [judgeReachability, State.updHoming_homing] at hn ⊢
    split at hn
    · rename_i runs
      cases hc : s.homing.restore with
      | none =>
        have set : s.homing.restoreSetting ≠ 0 := by
          simp only [restoreRuns, Bool.and_eq_true, decide_eq_true_eq] at runs
          exact runs.1.2
        simp only [hc, Option.getD_none, Option.some.injEq] at hn
        subst hn
        exact Nat.mul_pos (Nat.pos_of_ne_zero set) (by decide)
      | some m =>
        simp only [hc, Option.getD_some, Option.some.injEq] at hn
        exact hn ▸ hg.restore m hc
    · cases hn

/-- With no decision due the homing unit decides nothing. -/
theorem decideHome_undecided (h : s.homing.undecided) : decideHome s = s := by
  have holds : holdOffExpired s = false := by
    unfold holdOffExpired
    split
    · exact decide_eq_false (Nat.not_le.mpr (h.holdOff _ ‹_›))
    · rfl
  have restores : restoreExpired s = false := by
    unfold restoreExpired
    split
    · exact decide_eq_false (Nat.not_le.mpr (h.restore _ ‹_›))
    · rfl
  simp [decideHome, h.force, h.homed, holds, restores]

/-- Where the home stays, the counts of the boundary bring no decision due. -/
theorem homeStays.undecided (h : homeStays s) :
    Homing.undecided
      { s.homing with holdOff := s.homing.holdOff.map (· + 1), restore := s.homing.restore.map (· + 1) } := by
  obtain ⟨homed, force, ⟨holdOff, setting⟩, restore⟩ := h
  exact ⟨homed, force, setting, by simp [holdOff], by simp [restore]⟩

namespace atClock

theorem mono {A' : Timing → Homing → Prop} (hA : ∀ t g, A t g → A' t g) (h : atClock c A s) : atClock c A' s :=
  ⟨h.1, hA _ _ h.2⟩

/-- The holdover timer's count, and the homing counts untouched. -/
theorem countHoldover {H : Homing} (h : atClock c (fun t g => B t.heldCount ∧ g = H) s) :
    atClock c (fun t g => B t ∧ g = H) (countHoldover s) := by
  have frame : linesOf (Machine.countHoldover s) = linesOf s ∧ (Machine.countHoldover s).homing = s.homing := by
    unfold Machine.countHoldover
    split
    · exact keeps_ite (P := fun u => linesOf u = linesOf s ∧ u.homing = s.homing) ⟨rfl, rfl⟩ ⟨rfl, rfl⟩
    · exact ⟨rfl, rfl⟩
  refine ⟨frame.1.trans h.1, ?_, frame.2.trans h.2.2⟩
  rw [countHoldover_timing]
  exact h.2.1

/-- The decision of the homing unit, the presence timers having counted: with none due nothing changes. -/
theorem decideCounted (held : s.homing.undecided ∨ ∀ t, B t → B t.heldOver) (h : atClock c (onTiming B) s) :
    atClock c (onTiming B)
      (Machine.decideHome (Machine.tickPresence .b (Machine.tickPresence .a (takeNumbering s)))) := by
  rcases held with quiet | held
  · have due : atClock c (fun t g => B t ∧ g.undecided) s := ⟨h.1, h.2, quiet⟩
    have ticked := (((keeps_atClock _ _).takeNumbering due).tickPresence .a
      (countsJudgeable_undecided B)).tickPresence .b (countsJudgeable_undecided B)
    rw [decideHome_undecided ticked.2.2]
    exact ticked.mono fun _ _ h => h.1
  · exact decideHome held ((((keeps_atClock _ _).takeNumbering h).tickPresence .a
      (countsJudgeable_onTiming B)).tickPresence .b (countsJudgeable_onTiming B))

/-- What of the timing unit holds through a local round boundary: it may count, and unless the home stays, enter
HOLDOVER. -/
theorem localRoundBoundary (held : homeStays s ∨ ∀ t, B t → B t.heldOver)
    (h : atClock c (onTiming fun t => B t.heldCount) s) :
    atClock c (onTiming B) (localRoundBoundary s) := by
  have reached : atClock c (fun t g => B t.heldCount ∧ g = s.homing) (reachSenders 15 s) :=
    (keepsPackets_atClock _ _).reachSenders _ ⟨h.1, h.2, rfl⟩
  obtain ⟨lines, timing, homing⟩ := reached.countHoldover
  unfold Machine.localRoundBoundary
  generalize Machine.countHoldover (reachSenders 15 s) = v at *
  have due : ∀ f, atClock c (onTiming B) ((countHoming v).updRound f) := fun _ => ⟨lines, timing⟩
  have quiet : ∀ f, ((countHoming v).updRound f).homing.undecided ∨ ∀ t, B t → B t.heldOver := fun _ =>
    held.imp_left fun stays => by
      rw [State.updRound_homing, countHoming, State.updHoming_homing, homing]
      exact stays.undecided
  exact applyUpdate ((keeps_atClock _ _).countRings _ ((keeps_atClock _ _).judgeTurn
    ((keepsPackets_atClock _ _).startSenders (takeRoles _ ((keeps_atClock _ _).effectsOnTransmit
      (decideCounted (quiet _) (due _)))))))

end atClock

/-! ### The cycle sent (R3) -/

theorem headerNumber_headerFlags (fsa pb : Bool) (n : BitVec 4) : headerNumber (headerFlags fsa pb n) = n := by
  revert fsa pb n
  decide

/-- A transmitter has started its cycle: the marker, and its counter as the number. -/
def cycleSent (x : Side) (s : State) : Prop :=
  (s.flow.get x).sent.h0 = 0xB2#8 ∧ headerNumber (s.flow.get x).sent.h1 = (s.flow.get x).counter

theorem cycleSent_sendCycle (x : Side) (codec : List Byte) (s : State) : cycleSent x (sendCycle x codec s) := by
  rw [cycleSent, sendCycle, State.updFlow_flow, Two.get_set_same]
  exact ⟨rfl, headerNumber_headerFlags _ _ _⟩

/-- The other transmitter's cycle stays as it is. -/
theorem cycleSent_sendCycle_other {x : Side} (codec : List Byte) (h : cycleSent x.other s) :
    cycleSent x.other (sendCycle x codec s) := by
  have other : (sendCycle x codec s).flow.get x.other = s.flow.get x.other := by
    simp [sendCycle]
  unfold cycleSent
  rw [other]
  exact h

/-- A cycle started changes what is sent alone. -/
theorem sendCycle_lines (x : Side) (codec : List Byte) (s : State) :
    (linesOf (sendCycle x codec s)).line = (linesOf s).line ∧ (linesOf (sendCycle x codec s)).rx = (linesOf s).rx
      ∧ (linesOf (sendCycle x codec s)).counter = (linesOf s).counter ∧ (sendCycle x codec s).timing = s.timing := by
  refine ⟨rfl, rfl, ?_, rfl⟩
  exact Two.map_set_of_eq _ _ rfl

end Sys2Proof.Machine

/-! SUPPORT. The local cycle boundary: the clock moves on (R60, R70), the holdover timer counts (R74), and a late
realignment cuts the cycle (R69). -/

namespace Sys2Proof.Machine

variable {c : Lines} {A B : Timing → Prop} {s t : State} {arr : Arrival}

/-! ### The stages of a boundary -/

/-- The state in which the local round boundary is due: the raw time has advanced, both stores are read, and the
from-home round start has been signalled (R3, R4, R70). -/
def boundaryRead (s : State) : State :=
  fromHomeRound (readStore .b (readStore .a
    (((holdContacts (s.updTiming Timing.advance)).updFlow .a Flow.startCycle).updFlow .b Flow.startCycle)))

/-- The trunk lines with the counters of the next cycles. -/
def nextLines (s : State) : Lines := { linesOf s with counter := nextCounters s }

/-- Contact inputs hold their levels in their ports alone. -/
theorem holdContacts_frame (s : State) : holdContacts s = { s with ports := (holdContacts s).ports } := by
  refine keeps_foldl (P := fun u => u = { s with ports := u.ports }) (fun u p hu => ?_) _ rfl
  refine keeps_ite (P := fun u => u = { s with ports := u.ports }) ?_ hu
  rw [hu]
  rfl

/-- Status words are taken into their ports alone. -/
theorem takeStatus_frame (status : List Half) (s : State) :
    takeStatus status s = { s with ports := (takeStatus status s).ports } := by
  refine keeps_foldl (P := fun u => u = { s with ports := u.ports }) (fun u p hu => ?_) _ rfl
  split
  · exact hu
  · refine keeps_ite (P := fun u => u = { s with ports := u.ports }) ?_ hu
    rw [hu]
    rfl

theorem boundaryRead_atClock (s : State) :
    atClock (nextLines s) (fun t g => t = s.timing.advance ∧ g = s.homing) (boundaryRead s) := by
  refine atClock.fromHomeRound ?_
  rw [holdContacts_frame]
  generalize (holdContacts (s.updTiming Timing.advance)).ports = ports
  generalize hw : State.updFlow (State.updFlow _ _ _) _ _ = w
  have flow : ∀ x, (w.flow.get x).nextCounter = (s.flow.get x).nextCounter := fun x => by
    subst hw
    cases x <;> rfl
  have counters : nextCounters w = nextCounters s := by
    simp only [nextCounters, nextCounter_eq, flow]
  refine ⟨?_, ?_, ?_⟩
  · rw [linesOf_readStores]
    show { linesOf w with counter := nextCounters w } = _
    rw [counters, ← hw]
    rfl
  · rw [readStore_frame, readStore_frame .a, ← hw]
    rfl
  · rw [readStore_frame, readStore_frame .a, ← hw]
    rfl

/-- The toward-home counter as the local round boundary is judged. -/
theorem boundaryRead_counter (s : State) :
    ((boundaryRead s).flow.get (boundaryRead s).homing.home).counter = nextCounter s.homing.home s := by
  obtain ⟨lines, -, homing⟩ := boundaryRead_atClock s
  generalize boundaryRead s = r at *
  rw [← Two.get_map Flow.counter, show r.flow.map Flow.counter = nextCounters s from congrArg Lines.counter lines,
    nextCounters_get, homing]

/-- The local round boundary falls when the toward-home counter takes the value 0 (R4). -/
theorem towardHomeRound_begins (h : roundBegins s) :
    towardHomeRound (boundaryRead s) = localRoundBoundary (boundaryRead s) :=
  if_pos ((boundaryRead_counter s).trans h)

/-- No local round boundary falls else. -/
theorem towardHomeRound_passes (h : ¬ roundBegins s) : towardHomeRound (boundaryRead s) = boundaryRead s :=
  if_neg fun hc => h ((boundaryRead_counter s).symm.trans hc)

/-- A local cycle boundary, from the state in which the local round boundary is due. -/
theorem cycleBoundary_eq (codec : List Byte) (s : State) :
    cycleBoundary codec s
      = gatherMessage .a (gatherMessage .b (exchange codec (towardHomeRound (boundaryRead s)))) := rfl

/-- Whether the home stays is read from the homing unit alone. -/
theorem homeStays.congr (h : homeStays s) (e : t.homing = s.homing) : homeStays t := by
  obtain ⟨homed, force, holdOff, restore⟩ := h
  constructor <;> rw [e] <;> assumption

/-- The round start toward home, with what of the timing unit holds at it. -/
theorem towardHomeRound_atClock (advanced : A s.timing.advance)
    (round : roundBegins s → (∀ t, A t → B t.heldCount) ∧ (homeStays s ∨ ∀ t, B t → B t.heldOver))
    (other : ¬ roundBegins s → ∀ t, A t → B t) :
    atClock (nextLines s) (onTiming B) (towardHomeRound (boundaryRead s)) := by
  obtain ⟨lines, timing, homing⟩ := boundaryRead_atClock s
  by_cases begins : roundBegins s
  · obtain ⟨count, held⟩ := round begins
    rw [towardHomeRound_begins begins]
    refine atClock.localRoundBoundary (held.imp_left fun stays => stays.congr homing) ⟨lines, ?_⟩
    rw [onTiming, timing]
    exact count _ advanced
  · rw [towardHomeRound_passes begins]
    refine ⟨lines, ?_⟩
    rw [onTiming, timing]
    exact other begins _ advanced

/-- The exchange of a cycle: both transmitters have started one, under their counters. -/
theorem exchange_atClock (codec : List Byte) (h : atClock c (onTiming B) s) :
    ∃ sent, atClock { c with sent := sent } (onTiming B) (exchange codec s) ∧ ∀ x,
      (sent.get x).h0 = 0xB2#8 ∧ headerNumber (sent.get x).h1 = c.counter.get x := by
  have latched := (h.latchEmpty .a).latchEmpty .b
  have reached := (keepsPackets_atClock _ _).reachSenders
    ((latchEmpty .b (latchEmpty .a s)).flow.get (latchEmpty .b (latchEmpty .a s)).homing.home).counter.toNat latched
  unfold exchange
  dsimp only
  generalize reachSenders _ (latchEmpty .b (latchEmpty .a s)) = u at *
  have both : ∀ x, cycleSent x (sendCycle .b codec (sendCycle .a codec u)) := fun
    | .a => cycleSent_sendCycle_other (x := .b) codec (cycleSent_sendCycle .a codec u)
    | .b => cycleSent_sendCycle .b codec _
  obtain ⟨lineA, rxA, counterA, timingA⟩ := sendCycle_lines .a codec u
  obtain ⟨lineB, rxB, counterB, timingB⟩ := sendCycle_lines .b codec (sendCycle .a codec u)
  generalize sendCycle .b codec (sendCycle .a codec u) = v at *
  have lines : linesOf v = { c with sent := (linesOf v).sent } := by
    rw [← reached.1, ← lineA, ← rxA, ← counterA, ← lineB, ← rxB, ← counterB]
  have counters : (linesOf v).counter = c.counter := by rw [lines]
  refine ⟨(linesOf v).sent, ?_, fun x => ?_⟩
  · have started : atClock { c with sent := (linesOf v).sent } (onTiming B) v :=
      ⟨lines, by rw [onTiming, timingB, timingA]; exact reached.2⟩
    exact started.deliver.sendControl
  · rw [← counters]
    show ((v.flow.map Flow.sent).get x).h0 = _ ∧ headerNumber ((v.flow.map Flow.sent).get x).h1
      = (v.flow.map Flow.counter).get x
    rw [Two.get_map, Two.get_map]
    exact both x

/-- A local cycle boundary: each transmitter has started a cycle under its next counter, the line and the receivers but
for their presence timers stay, and of the timing unit holds what its advance, its count and the homing unit's decision
leave, and line time too where no message is handed over. -/
theorem cycleBoundary_clock (codec : List Byte) (advanced : A s.timing.advance)
    (round : roundBegins s → (∀ t, A t → B t.heldCount) ∧ (homeStays s ∨ ∀ t, B t → B t.heldOver))
    (other : ¬ roundBegins s → ∀ t, A t → B t) (time : noMessage s ∨ timelessIn B) :
    ∃ sent, atClock { nextLines s with sent := sent } (onTiming B) (cycleBoundary codec s) ∧ ∀ x,
      (sent.get x).h0 = 0xB2#8 ∧ headerNumber (sent.get x).h1 = nextCounter x s := by
  obtain ⟨sent, exchanged, started⟩ := exchange_atClock codec (towardHomeRound_atClock advanced round other)
  have kept : ∀ u, atClock { nextLines s with sent := sent } (onTiming B) u → ∀ x,
      (u.flow.get x).counter ≠ 15#4 ∨ timelessIn B := fun u hu x => by
    refine time.imp_left fun quiet => ?_
    rw [← Two.get_map Flow.counter, show u.flow.map Flow.counter = nextCounters s from congrArg Lines.counter hu.1,
      nextCounters_get]
    exact quiet x
  rw [cycleBoundary_eq]
  generalize exchange codec (towardHomeRound (boundaryRead s)) = v at *
  have gathered := exchanged.gatherMessage .b (kept _ exchanged .b)
  refine ⟨sent, gathered.gatherMessage .a (kept _ gathered .a), fun x => ?_⟩
  rw [← nextCounters_get]
  exact started x

end Sys2Proof.Machine

/-! SUPPORT. The statements of the timing unit about local cycle boundaries: the clock (R60, R70), the holdover limit
(R74) and realignment (R69). -/

namespace Sys2Proof.Machine

variable {P : State → Prop} {A B : Timing → Prop} {s t u v : State} {arr : Arrival}

/-! ### What a boundary leaves of the timing unit -/

/-- Entering HOLDOVER touches the mode, the correction, the counts and the holdover timer alone (R63). -/
theorem Timing.heldOver_frame (t : Timing) :
    t.heldOver =
      { t with
        mode := t.heldOver.mode, correction := t.heldOver.correction, lockCount := t.heldOver.lockCount,
        unlockCount := t.heldOver.unlockCount, realignCount := t.heldOver.realignCount, armed := t.heldOver.armed,
        holdTimer := t.heldOver.holdTimer } := by
  unfold Timing.heldOver
  split <;> rfl

/-- HOLDOVER is not entered again (R63). -/
theorem Timing.heldOver_of_holdover {t : Timing} (hm : t.mode = .holdover) : t.heldOver = t := by
  simp [Timing.heldOver, hm]

/-- The count of a local round boundary touches the holdover timer alone (R74). -/
theorem Timing.heldCount_frame (t : Timing) : t.heldCount = { t with holdTimer := t.heldCount.holdTimer } := by
  unfold Timing.heldCount
  split <;> rfl

theorem nextCounter_congr (h : t.flow = s.flow) (x : Side) : nextCounter x t = nextCounter x s := by
  rw [nextCounter_eq, nextCounter_eq, h]

theorem roundBegins_congr (hf : t.flow = s.flow) (hh : t.homing = s.homing) : roundBegins t ↔ roundBegins s := by
  unfold roundBegins
  rw [nextCounter_congr hf, hh]

theorem noMessage_congr (h : t.flow = s.flow) : noMessage t ↔ noMessage s := by
  simp only [noMessage, nextCounter_congr h]

/-- A local cycle boundary with its status words, for a state `t` with the flows and the homing unit of `s`. -/
theorem statusBoundary_clock (status : List Half) (hf : t.flow = s.flow) (hh : t.homing = s.homing)
    (advanced : A t.timing.advance)
    (round : roundBegins s → (∀ t, A t → B t.heldCount) ∧ (homeStays s ∨ ∀ t, B t → B t.heldOver))
    (other : ¬ roundBegins s → ∀ t, A t → B t) (time : noMessage s ∨ timelessIn B) :
    ∃ sent, atClock { nextLines t with sent := sent } (onTiming B) (statusBoundary status t) ∧ ∀ x,
      (sent.get x).h0 = 0xB2#8 ∧ headerNumber (sent.get x).h1 = nextCounter x s := by
  have frame := takeStatus_frame status t
  have flow : (takeStatus status t).flow = t.flow := by rw [frame]
  have homing : (takeStatus status t).homing = s.homing := by rw [frame, ← hh]
  have timing : (takeStatus status t).timing = t.timing := by rw [frame]
  have lines : nextLines (takeStatus status t) = nextLines t := by
    simp only [nextLines, nextCounters, nextCounter_congr flow]
    rw [frame]
    rfl
  have begins := roundBegins_congr (flow.trans hf) homing
  obtain ⟨sent, clock, started⟩ := cycleBoundary_clock (A := A) (B := B) (s := takeStatus status t)
    (status.map statusCodec) (by rw [timing]; exact advanced)
    (fun h => (round (begins.mp h)).imp_right (Or.imp_left fun stays => stays.congr homing))
    (fun h => other fun hs => h (begins.mpr hs)) (time.imp_left (noMessage_congr (flow.trans hf)).mpr)
  rw [lines] at clock
  refine ⟨sent, clock, fun x => ?_⟩
  rw [← nextCounter_congr (flow.trans hf)]
  exact started x

/-- A LOCAL_CYCLE_BOUNDARY as the timing unit sees it. -/
theorem localCycle_clock (status : List Half) (advanced : A s.timing.wrap.advance)
    (round : roundBegins s → (∀ t, A t → B t.heldCount) ∧ (homeStays s ∨ ∀ t, B t → B t.heldOver))
    (other : ¬ roundBegins s → ∀ t, A t → B t) (time : noMessage s ∨ timelessIn B) :
    B (localCycle status s).timing := by
  obtain ⟨_, clock, -⟩ := statusBoundary_clock (s := s)
    (t := endCycle (Config.cycleBits + s.line.longer) (s.updTiming Timing.wrap)) status rfl rfl advanced round other time
  exact clock.2

/-! ### The clock of a boundary (R60, R70) -/

/-- The oscillator runs on to the wrap: less than one INC is left in the phase. -/
theorem Timing.wrap_phase {t : Timing} (pos : 0 < t.increment) (small : t.increment ≤ 2 ^ 32) :
    t.wrap.phase.toNat + 2 ^ 32 = t.phase.toNat + (t.periodsLeft + 1) * t.increment
      ∧ t.wrap.phase.toNat < t.increment := by
  have room : t.periodsLeft * t.increment ≤ 4294967295 - t.phase.toNat := Nat.div_mul_le_self _ _
  have past : 4294967295 - t.phase.toNat < (t.periodsLeft + 1) * t.increment := by
    have := Nat.lt_mul_div_succ (4294967295 - t.phase.toNat) pos
    rwa [Nat.mul_comm] at this
  have wrapped : t.wrap.phase.toNat = (t.phase.toNat + (t.periodsLeft + 1) * t.increment) % 2 ^ 32 :=
    BitVec.toNat_ofNat _ _
  have := t.phase.isLt
  rw [Nat.succ_mul] at *
  omega

/-- INC stays near 2^20 while the correction is in its range (R60). -/
theorem Timing.increment_bounds {t : Timing} (h : t.inRange) : 0 < t.increment ∧ t.increment ≤ 2 ^ 32 := by
  have := h.correction
  unfold Timing.increment Config.phaseStep
  omega

/-- The raw time advances by one cycle (R70). -/
theorem Timing.advance_time (t : Timing) :
    t.advance.seconds = (if t.cycle < 7999 then t.seconds else t.seconds + 1#32)
      ∧ t.advance.cycle = (if t.cycle < 7999 then t.cycle + 1 else 0) := by
  unfold Timing.advance Config.cyclesPerSecond
  by_cases h : t.cycle < 7999
  · rw [if_pos (by omega), if_pos h, if_pos h]
    exact ⟨rfl, rfl⟩
  · rw [if_neg (by omega), if_neg h, if_neg h]
    exact ⟨rfl, rfl⟩

/-- The advance of the raw time touches nothing else. -/
theorem Timing.advance_frame (t : Timing) :
    t.advance = { t with seconds := t.advance.seconds, cycle := t.advance.cycle } := by
  unfold Timing.advance
  split <;> rfl

/-- An effect at an instant, as the timing unit sees it. -/
theorem atInstant_timing {e : State → State} (hr : s.resetHeld = false) : (atInstant e s).timing = (e s).timing := by
  rw [atInstant_running hr]
  rfl

/-- No local cycle boundary touches the phase once it is dealt with. -/
theorem localCycle_phase (status : List Half) (s : State) : (localCycle status s).timing.phase = s.timing.wrap.phase := by
  have count : ∀ t : Timing, t.phase = s.timing.wrap.phase → t.heldCount.phase = s.timing.wrap.phase := fun t h => by
    rw [t.heldCount_frame]
    exact h
  have held : ∀ t : Timing, t.phase = s.timing.wrap.phase → t.heldOver.phase = s.timing.wrap.phase := fun t h => by
    rw [t.heldOver_frame]
    exact h
  refine localCycle_clock (A := fun t => t.phase = s.timing.wrap.phase) (B := fun t => t.phase = s.timing.wrap.phase)
    status ?_ (fun _ => ⟨count, .inr held⟩) (fun _ _ h => h) (.inr fun t u hu h => ?_)
  · rw [Timing.advance_frame]
  · rw [hu]
    exact h

/-- The raw time stands at a value. -/
def Timing.timeIs (seconds : Word) (cycle : Nat) (t : Timing) : Prop := t.seconds = seconds ∧ t.cycle = cycle

theorem Timing.timeIs.heldCount {seconds : Word} {cycle : Nat} {t : Timing} (h : t.timeIs seconds cycle) :
    t.heldCount.timeIs seconds cycle := by
  rw [t.heldCount_frame]
  exact h

theorem Timing.timeIs.heldOver {seconds : Word} {cycle : Nat} {t : Timing} (h : t.timeIs seconds cycle) :
    t.heldOver.timeIs seconds cycle := by
  rw [t.heldOver_frame]
  exact h

/-- With no message handed over the raw time advances by one cycle. -/
theorem localCycle_time (status : List Half) (hn : noMessage s) :
    (localCycle status s).timing.seconds = (if s.timing.cycle < 7999 then s.timing.seconds else s.timing.seconds + 1#32)
      ∧ (localCycle status s).timing.cycle = (if s.timing.cycle < 7999 then s.timing.cycle + 1 else 0) :=
  localCycle_clock (A := Timing.timeIs _ _) (B := Timing.timeIs _ _) status s.timing.wrap.advance_time
    (fun _ => ⟨fun _ => Timing.timeIs.heldCount, .inr fun _ => Timing.timeIs.heldOver⟩)
    (fun _ _ h => h) (.inl hn)

/-- Settles O21: the wrap leaves the phase, the advance the raw time, and the rest of the boundary touches neither. -/
theorem localCycleMovesTheClock : Obligations.LocalCycleMovesTheClock := by
  intro status s hr hs
  obtain ⟨pos, small⟩ := Timing.increment_bounds hs
  obtain ⟨wraps, less⟩ := Timing.wrap_phase pos small
  have timing := atInstant_timing (e := localCycle status) hr
  have phase := localCycle_phase status s
  refine ⟨_, rfl, ⟨s.timing.periodsLeft + 1, Nat.le_add_left _ _, ?_⟩, ?_, fun hn => ?_⟩
  · rw [timing, phase]
    exact wraps
  · rw [timing, phase]
    exact less
  · rw [timing, (localCycle_time status hn).1, (localCycle_time status hn).2]
    have range := hs.cycle
    by_cases last : s.timing.cycle = 7999
    · simp [last]
    · have before : s.timing.cycle < 7999 := by omega
      simp [last, before]

/-! ### The holdover limit (R74) -/

/-- A mark, once set, is kept by a local cycle boundary. -/
theorem keepsBoundary_hasMark (src : Source) (n : Nat) : KeepsBoundary (hasMark src n) where
  raise _ _ h := hasMark_mono _ _ h
  round _ h := h
  alloc _ _ h := h
  call _ _ _ h := h
  chan _ _ _ h := h
  port _ _ _ h := h
  filter _ _ h := h
  mem _ _ h := h
  counts _ _ h := h
  time _ _ _ h := h
  presence _ _ _ h := h
  flowOut _ _ _ h := h
  heard _ _ h := h
  homing _ h := h
  timing _ _ h := h
  flow _ _ _ h := h
  rx _ _ _ h := h
  line _ h := h
  anyFilter _ _ _ h := h
  anyPort _ _ h := h
  ready h := h

/-- What every update of a boundary keeps holds after a local round boundary if it holds once the holdover timer has
counted. -/
theorem localRoundBoundary_of_counted (h : KeepsBoundary P) (hc : P (countHoldover (reachSenders 15 s))) :
    P (localRoundBoundary s) := by
  unfold localRoundBoundary
  generalize countHoldover (reachSenders 15 s) = v at *
  have counted : ∀ f, P ((countHoming v).updRound f) := fun f => h.round _ (h.homing _ hc)
  exact h.applyUpdate (h.countRings _ (h.judgeTurn (h.startSenders (h.takeRoles _ (h.effectsOnTransmit
    (h.decideHome (h.tickPresence _ (h.tickPresence _ (h.takeNumbering (counted _))))))))))

/-- The count that passes the limit sets the mark. -/
theorem hasMark_countHoldover (hm : s.timing.mode = .holdover) (ht : s.timing.holdTimer = s.timing.holdLimit * 500)
    (hl : s.timing.holdLimit ≤ 86400) : hasMark .timing Mark.holdLimit (countHoldover s) := by
  have within : s.timing.withinLimit = true := decide_eq_true (Nat.le_of_eq ht)
  have past : ¬ min (s.timing.holdTimer + 1) Config.holdoverCap ≤ s.timing.holdLimit * Config.roundsPerSecond := by
    unfold Config.holdoverCap Config.roundsPerSecond
    omega
  unfold countHoldover
  split
  · rw [within, if_pos (by simp [Timing.withinLimit, past])]
    exact hasMark_raise _ _ (by decide)
  · exact absurd hm ‹_›

/-- The timing unit is in HOLDOVER with its timer at a value. -/
def Timing.holdsAt (n limit : Nat) (t : Timing) : Prop := t.mode = .holdover ∧ t.holdTimer = n ∧ t.holdLimit = limit

theorem Timing.holdsAt.heldCount {n limit : Nat} {t : Timing} (hn : n < Config.holdoverCap) (h : t.holdsAt n limit) :
    t.heldCount.holdsAt (n + 1) limit := by
  obtain ⟨hm, rfl, hl⟩ := h
  rw [Timing.heldCount_of_holdover hm]
  exact ⟨hm, Nat.min_eq_left hn, hl⟩

theorem Timing.holdsAt.heldOver {n limit : Nat} {t : Timing} (h : t.holdsAt n limit) : t.heldOver.holdsAt n limit := by
  rw [Timing.heldOver_of_holdover h.1]
  exact h

theorem Timing.holdsAt.timeless (n limit : Nat) : timelessIn (Timing.holdsAt n limit) := by
  intro t u hu h
  rw [hu]
  exact h

/-- The boundary at which the holdover timer passes its limit marks it (R74). -/
theorem hasMark_cycleBoundary (codec : List Byte) (hb : roundBegins s)
    (ht : s.timing.holdsAt (s.timing.holdLimit * 500) s.timing.holdLimit) (hl : s.timing.holdLimit ≤ 86400) :
    hasMark .timing Mark.holdLimit (cycleBoundary codec s) := by
  have marks := keepsBoundary_hasMark .timing Mark.holdLimit
  have reached : (reachSenders 15 (boundaryRead s)).timing = s.timing.advance :=
    ((keepsPackets_atClock _ fun t _ => t = s.timing.advance).reachSenders 15
      ((boundaryRead_atClock s).mono fun _ _ h => h.1)).2
  obtain ⟨hm, ht, -⟩ := ht
  rw [Timing.advance_frame] at reached
  rw [cycleBoundary_eq, towardHomeRound_begins hb]
  refine marks.gatherMessage _ (marks.gatherMessage _ (marks.exchange _ (localRoundBoundary_of_counted marks ?_)))
  exact hasMark_countHoldover (by rw [reached]; exact hm) (by rw [reached]; exact ht) (by rw [reached]; exact hl)

theorem hasMark_localCycle (status : List Half) (hb : roundBegins s)
    (ht : s.timing.holdsAt (s.timing.holdLimit * 500) s.timing.holdLimit) (hl : s.timing.holdLimit ≤ 86400) :
    hasMark .timing Mark.holdLimit (localCycle status s) := by
  rw [localCycle, statusBoundary, takeStatus_frame]
  generalize (takeStatus status _).ports = ports
  refine hasMark_cycleBoundary _ ((roundBegins_congr (s := s) ?_ ?_).mpr hb) ht hl <;> rfl

/-- Settles O28: the round boundary's count is the one that passes the limit, and nothing after it leaves HOLDOVER. -/
theorem holdLimitIsMarked : Obligations.HoldLimitIsMarked := by
  intro status s hr hs hb hm ht
  have limit := hs.limit.2
  have falls : roundFalls s = true := decide_eq_true hb
  have due : passesLimit s (localCycle status s) = true := by
    simp [passesLimit, falls, hm, ht, Config.roundsPerSecond]
  have advanced : s.timing.wrap.advance.holdsAt (s.timing.holdLimit * 500) s.timing.holdLimit := by
    rw [Timing.advance_frame]
    exact ⟨hm, ht, rfl⟩
  have counted : (s.timing.holdLimit * 500) < Config.holdoverCap := by
    unfold Config.holdoverCap
    omega
  have holds : (localCycle status s).timing.holdsAt (s.timing.holdLimit * 500 + 1) s.timing.holdLimit :=
    localCycle_clock (B := Timing.holdsAt _ _) status advanced
      (fun _ => ⟨fun _ => Timing.holdsAt.heldCount counted, .inr fun _ => Timing.holdsAt.heldOver⟩)
      (fun hn => absurd hb hn) (.inr (Timing.holdsAt.timeless _ _))
  rw [← atInstant_timing hr] at holds
  exact ⟨atInstant (localCycle status) s, congrArg Host.Outcome.next (atInstant_onOccasion due), rfl, holds.1, holds.2.1,
    (hasMark_atInstant hr).mpr (hasMark_localCycle status hb ⟨hm, ht, rfl⟩ limit)⟩

end Sys2Proof.Machine

/-! SUPPORT. Realignment (R69): armed, made early in the cycle, and made late in it as a local cycle boundary. -/

namespace Sys2Proof.Machine

variable {P : State → Prop} {A B : Timing → Prop} {s t u v : State} {arr : Arrival}

/-- The fourth consecutive sample outside the realign band arms realignment, its loop step still made (R69). -/
theorem receivedCycle_arms (hr : s.resetHeld = false) (hy : staysSynced arr s) (hx : sourceAt arr s)
    (hm : s.timing.mode = .acquiring) (ha : s.timing.armed = false) (hc : s.timing.realignCount = 3)
    (out : (s.timing.run arr.elapsed).error < -64 ∨ 63 < (s.timing.run arr.elapsed).error) :
    takenIn arr s (atInstant (takeCycle arr) s) ∧ (atInstant (takeCycle arr) s).timing =
      { (s.timing.run arr.elapsed).loop (s.timing.run arr.elapsed).error with
        lockCount := 0, realignCount := 4, armed := true } := by
  have lock : (s.timing.run arr.elapsed).lockAfter = 0 := if_neg (by omega)
  have realign : (s.timing.run arr.elapsed).realignAfter = 4 := by
    rw [Timing.realignAfter, if_neg (by omega)]
    exact congrArg (· + 1) hc
  obtain ⟨taken, timing⟩ := receivedCycle_counts hr hy hx hm ha (by rw [lock]; decide)
  rw [lock, realign] at timing
  exact ⟨taken, timing⟩

/-- The phase given up leaves its bits on the line (R69, log 41). -/
theorem realignPhase_frame (s : State) :
    realignPhase s = { s with
      line := { s.line with longer := s.line.longer + s.timing.lineBits },
      timing := { s.timing with phase := 0#32, lockCount := 0, realignCount := 0, armed := false },
      link := (realignPhase s).link } ∧ onlyReports s.link (realignPhase s).link := ⟨rfl, rfl⟩

/-- The start of the source while realignment is armed (R69). -/
theorem cycleStart_cycleStored (hx : sourceAt arr s) (hm : s.timing.mode = .acquiring) (ha : s.timing.armed = true) :
    cycleStart arr.port (cycleStored arr s)
      = (realignPhase (cycleStored arr s), decide (2 ^ 31 ≤ (s.timing.run arr.elapsed).phase.toNat)) := by
  have mode : (cycleStored arr s).timing.mode = .acquiring := by rw [cycleStored_timing]; exact hm
  have armed : (cycleStored arr s).timing.armed = true := by rw [cycleStored_timing]; exact ha
  rw [cycleStart_armed (sourceReceiver_cycleStored hx) mode armed, cycleStored_timing]
  simp only [Timing.half_le_q]

/-- A realignment early in the cycle makes no boundary: the cycle in progress lasts on (R69). -/
theorem receivedCycle_realigns_early (hr : s.resetHeld = false) (hy : staysSynced arr s) (hx : sourceAt arr s)
    (hm : s.timing.mode = .acquiring) (ha : s.timing.armed = true)
    (early : (s.timing.run arr.elapsed).phase.toNat < 2 ^ 31) :
    (atInstant (takeCycle arr) s).timing =
        { s.timing with phase := 0#32, lockCount := 0, realignCount := 0, armed := false }
      ∧ hasMark .timing Mark.realign (atInstant (takeCycle arr) s)
      ∧ takenIn arr { s with line := { s.line with longer := s.line.longer + (s.timing.run arr.elapsed).lineBits } }
          (atInstant (takeCycle arr) s) := by
  have start := cycleStart_cycleStored hx hm ha
  rw [decide_eq_false (Nat.not_le.mpr early)] at start
  obtain ⟨frame, link⟩ := realignPhase_frame (cycleStored arr s)
  obtain ⟨moved, timing, marks⟩ := receivedCycle_signalled hr hy start rfl
  have stored := cycleStored_takenIn arr s
  have line : (cycleStored arr s).line = s.line := by rw [stored.rest]
  refine ⟨?_, marks _ _ (hasMark_raise _ _ (by decide)), takenIn.timingMoved ?_ moved⟩
  · rw [timing, frame, cycleStored_timing]
    rfl
  · rw [cycleStored_timing, line] at frame
    exact
      { receiver := stored.receiver, flow := stored.flow, homing := stored.homing, link := stored.link.trans link,
        rest := by rw [frame, stored.rest] }

/-- Writing a cycle into a store reads no timing. -/
theorem writeStore_updTiming (x : Side) (c : Stored) (f : Timing → Timing) (s : State) :
    writeStore x c (s.updTiming f) = (writeStore x c s).updTiming f := by
  unfold writeStore
  by_cases full : Config.storeSize ≤ (s.flow.get x).store.length
  · rw [if_pos full, if_pos (show Config.storeSize ≤ ((s.updTiming f).flow.get x).store.length from full)]
    rfl
  · rw [if_neg full, if_neg (show ¬ Config.storeSize ≤ ((s.updTiming f).flow.get x).store.length from full)]
    rfl

/-- Nor does judging it. -/
theorem storeCycle_updTiming (x : Side) (c : Cycle) (f : Timing → Timing) (s : State) :
    storeCycle x c (s.updTiming f) = (storeCycle x c s).updTiming f := by
  unfold storeCycle
  dsimp only
  rw [writeStore_updTiming]
  rfl

/-! ### Realignment late in the cycle (R69) -/

/-- The state in which a late realignment makes its boundary: the phase set to 0, and the cycle in progress cut. -/
def realignedCut (arr : Arrival) (s : State) : State :=
  endCycle (realignPhase (cycleStored arr s)).line.longer (realignPhase (cycleStored arr s))

/-- Judging, storing and realigning leave the flows and the homing unit as `storeCycle` leaves them. -/
theorem realignedCut_flow (arr : Arrival) (s : State) :
    (realignedCut arr s).flow = (storeCycle arr.port arr.cycle s).flow := by
  show (cycleStored arr s).flow = _
  rw [cycleStored, storeCycle_updTiming]
  rfl

theorem realignedCut_homing (arr : Arrival) (s : State) :
    (realignedCut arr s).homing = (storeCycle arr.port arr.cycle s).homing := by
  show (cycleStored arr s).homing = _
  rw [cycleStored, storeCycle_updTiming]
  rfl

theorem realignedCut_timing (arr : Arrival) (s : State) :
    (realignedCut arr s).timing = { s.timing with phase := 0#32, lockCount := 0, realignCount := 0, armed := false } := by
  show { (cycleStored arr s).timing with phase := 0#32, lockCount := 0, realignCount := 0, armed := false } = _
  rw [cycleStored_timing]
  rfl

theorem realignedCut_rx (arr : Arrival) (s : State) :
    (realignedCut arr s).rx = s.rx.set arr.port ((s.rx.get arr.port).judge arr.cycle) :=
  (cycleStored_takenIn arr s).receiver

theorem realignPhase_mark (s : State) : hasMark .timing Mark.realign (realignPhase s) := hasMark_raise _ _ (by decide)

theorem realignedCut_mark (arr : Arrival) (s : State) : hasMark .timing Mark.realign (realignedCut arr s) :=
  (keepsBoundary_hasMark _ _).endCycle _ (realignPhase_mark _)

/-- A cycle judged and stored leaves what is sent and the start-up rounds alone. -/
theorem storeCycle_sending (x : Side) (c : Cycle) (s : State) (y : Side) :
    ((storeCycle x c s).flow.get y).sent = (s.flow.get y).sent
      ∧ ((storeCycle x c s).flow.get y).startUp = (s.flow.get y).startUp := by
  obtain ⟨-, -, flows⟩ := writeStore_frame x.other
    { number := storedNumber (s.rx.get x) c, h2 := c.h2, h3 := c.h3, lanes := c.lanes } s
  show ((writeStore x.other _ s).flow.get y).sent = _ ∧ ((writeStore x.other _ s).flow.get y).startUp = _
  rw [flows y]
  exact ⟨rfl, rfl⟩

/-- The bits that the line has carried of the cycle cut (R69, log 41). -/
theorem realignedCut_line (arr : Arrival) (s : State) :
    (realignedCut arr s).line =
      (let lasted := if s.flow.a.startUp = some 0 then 0 else s.line.longer + (s.timing.run arr.elapsed).lineBits
       { longer := 0, ended := { a := s.flow.a.sent, b := s.flow.b.sent }, bits := min lasted 1056,
         fill := lasted - 1056 }) := by
  have longer : (realignPhase (cycleStored arr s)).line.longer = s.line.longer + (s.timing.run arr.elapsed).lineBits := by
    have line : (cycleStored arr s).line = s.line := by rw [(cycleStored_takenIn arr s).rest]
    rw [(realignPhase_frame _).1]
    simp only [line, cycleStored_timing]
  have sending : ∀ y, ((realignPhase (cycleStored arr s)).flow.get y).sent = (s.flow.get y).sent
      ∧ ((realignPhase (cycleStored arr s)).flow.get y).startUp = (s.flow.get y).startUp :=
    storeCycle_sending arr.port arr.cycle (s.updTiming (Timing.run arr.elapsed))
  have sentA : (realignPhase (cycleStored arr s)).flow.a.sent = s.flow.a.sent := (sending .a).1
  have sentB : (realignPhase (cycleStored arr s)).flow.b.sent = s.flow.b.sent := (sending .b).1
  have started : (realignPhase (cycleStored arr s)).flow.a.startUp = s.flow.a.startUp := (sending .a).2
  rw [realignedCut, endCycle, longer, sentA, sentB, started]
  rfl

/-- The timing unit after a realignment (R69): the phase and the counts at 0, disarmed, I kept, and C while it acquires. -/
structure Timing.realigned (integral correction : Int) (t : Timing) : Prop where
  phase : t.phase = 0#32
  integral : t.integral = integral
  lock : t.lockCount = 0
  realign : t.realignCount = 0
  armed : t.armed = false
  correction : t.mode = .acquiring → t.correction = correction

theorem Timing.realigned.heldOver {i c : Int} {t : Timing} (h : t.realigned i c) : t.heldOver.realigned i c := by
  obtain ⟨phase, integral, lock, realign, armed, correction⟩ := h
  unfold Timing.heldOver
  split
  · exact ⟨phase, integral, rfl, rfl, rfl, nofun⟩
  · exact ⟨phase, integral, rfl, rfl, rfl, nofun⟩
  · exact ⟨phase, integral, lock, realign, armed, correction⟩

theorem Timing.realigned.heldCount {i c : Int} {t : Timing} (h : t.realigned i c) : t.heldCount.realigned i c := by
  rw [t.heldCount_frame]
  exact { h with }

theorem Timing.realigned.timeless (i c : Int) : timelessIn (Timing.realigned i c) := by
  intro t u hu h
  rw [hu]
  exact { h with }

/-- A late realignment of a received cycle is a local cycle boundary from the state in which the cycle is cut. -/
theorem takeCycle_realigns (hy : staysSynced arr s) (hx : sourceAt arr s) (hm : s.timing.mode = .acquiring)
    (ha : s.timing.armed = true) (late : 2 ^ 31 ≤ (s.timing.run arr.elapsed).phase.toNat) :
    takeCycle arr s = statusBoundary arr.status (realignedCut arr s) := by
  have start := cycleStart_cycleStored hx hm ha
  rw [decide_eq_true late] at start
  have signalled : signalStart arr.port arr.status (cycleStored arr s)
      = statusBoundary arr.status (realignedCut arr s) := by
    simp only [signalStart, start, if_true, realignedCut]
  rw [← signalled]
  refine takeCycle_staying hy ?_
  rw [signalled]
  obtain ⟨sent, clock, -⟩ := statusBoundary_clock (A := fun _ => True) (B := fun _ => True) (s := realignedCut arr s)
    arr.status rfl rfl trivial (fun _ => ⟨fun _ _ => trivial, .inr fun _ _ => trivial⟩) (fun _ _ _ => trivial)
    (.inr fun _ _ _ _ => trivial)
  generalize statusBoundary arr.status (realignedCut arr s) = b at *
  have rx : (b.rx.get arr.port).untimed = ((realignedCut arr s).rx.get arr.port).untimed := by
    rw [← Two.get_map Receiver.untimed, ← Two.get_map Receiver.untimed]
    exact congrArg (fun l => l.rx.get arr.port) clock.1
  have faults : (b.rx.get arr.port).faultRun = ((realignedCut arr s).rx.get arr.port).faultRun :=
    (congrArg Receiver.faultRun rx :)
  rw [faults, realignedCut_rx, Two.get_set_same]
  exact faultRun_of_staysSynced hy

/-- A late realignment at an instant: what the timing unit, the flows and the trunk lines show of the boundary, for
a condition on the timing unit that the boundary leaves. -/
theorem receivedCycle_realigns_late (hr : s.resetHeld = false) (hy : staysSynced arr s) (hx : sourceAt arr s)
    (hm : s.timing.mode = .acquiring) (ha : s.timing.armed = true)
    (late : 2 ^ 31 ≤ (s.timing.run arr.elapsed).phase.toNat)
    (advanced : A (realignedCut arr s).timing.advance)
    (round : roundBegins (storeCycle arr.port arr.cycle s) →
      (∀ t, A t → B t.heldCount) ∧ (homeStays (storeCycle arr.port arr.cycle s) ∨ ∀ t, B t → B t.heldOver))
    (other : ¬ roundBegins (storeCycle arr.port arr.cycle s) → ∀ t, A t → B t)
    (time : noMessage (storeCycle arr.port arr.cycle s) ∨ timelessIn B) :
    B (atInstant (takeCycle arr) s).timing
      ∧ (atInstant (takeCycle arr) s).line = (realignedCut arr s).line
      ∧ ∀ x, ((atInstant (takeCycle arr) s).flow.get x).counter = nextCounter x (storeCycle arr.port arr.cycle s)
        ∧ ((atInstant (takeCycle arr) s).flow.get x).sent.h0 = 0xB2#8
        ∧ headerNumber ((atInstant (takeCycle arr) s).flow.get x).sent.h1
            = nextCounter x (storeCycle arr.port arr.cycle s) := by
  have taken := takeCycle_realigns hy hx hm ha late
  obtain ⟨sent, clock, started⟩ := statusBoundary_clock (A := A) (B := B) arr.status (realignedCut_flow arr s)
    (realignedCut_homing arr s) advanced round other time
  rw [atInstant_running hr, taken]
  generalize statusBoundary arr.status (realignedCut arr s) = b at *
  refine ⟨clock.2, congrArg Lines.line clock.1, fun x => ?_⟩
  have counter : (b.flow.get x).counter = nextCounter x (storeCycle arr.port arr.cycle s) := by
    rw [← Two.get_map Flow.counter, ← nextCounter_congr (realignedCut_flow arr s), ← nextCounters_get]
    exact congrArg (fun l => l.counter.get x) clock.1
  have sends : (b.flow.get x).sent = sent.get x := by
    rw [← Two.get_map Flow.sent]
    exact congrArg (fun l => l.sent.get x) clock.1
  rw [State.updLink_flow, counter, sends]
  exact ⟨rfl, started x⟩

/-- Settles O18: the fourth sample arms, an early start sets the phase back, and a late one makes a boundary. -/
theorem realignmentResetsThePhase : Obligations.RealignmentResetsThePhase := by
  intro arr s hr hy hx hm
  have used := startUsed_of hy hx
  refine ⟨fun ha hc out => ?_, fun ha early => ?_, fun ha late => ?_⟩
  · obtain ⟨taken, timing⟩ := receivedCycle_arms hr hy hx hm ha hc out
    have outside : inBand (-64) 63 arr s = false := by
      rw [inBand, arrivalError, Bool.and_eq_false_iff, decide_eq_false_iff_not, decide_eq_false_iff_not]
      omega
    have due : arms arr s (takeCycle arr s) = true := by simp [arms, sampledIn, used, hm, ha, hc, outside]
    exact ⟨_, congrArg Host.Outcome.next (atInstant_onOccasion due), rfl, timing, taken⟩
  · have due : realigns arr s (takeCycle arr s) = true := by simp [realigns, used, hm, ha]
    exact ⟨_, congrArg Host.Outcome.next (atInstant_onOccasion due), rfl,
      receivedCycle_realigns_early hr hy hx hm ha early⟩
  · have due : realigns arr s (takeCycle arr s) = true := by simp [realigns, used, hm, ha]
    have timing := realignedCut_timing arr s
    have loop := receivedCycle_realigns_late
      (A := Timing.realigned s.timing.integral s.timing.correction)
      (B := Timing.realigned s.timing.integral s.timing.correction) hr hy hx hm ha late
      (by rw [timing, Timing.advance_frame]; exact ⟨rfl, rfl, rfl, rfl, rfl, fun _ => rfl⟩)
      (fun _ => ⟨fun _ => Timing.realigned.heldCount, .inr fun _ => Timing.realigned.heldOver⟩)
      (fun _ _ h => h) (.inr (Timing.realigned.timeless _ _))
    obtain ⟨realigned, line, flows⟩ := loop
    refine ⟨_, congrArg Host.Outcome.next (atInstant_onOccasion due), rfl, realigned.phase, realigned.integral,
      realigned.lock, realigned.realign, realigned.armed, ?_, realigned.correction, fun stays => ?_, fun quiet => ?_,
      flows, ?_⟩
    · rw [hasMark_atInstant hr, takeCycle_realigns hy hx hm ha late]
      exact (keepsBoundary_hasMark _ _).statusBoundary _ (realignedCut_mark arr s)
    · refine (receivedCycle_realigns_late (A := fun t => t.mode = .acquiring) (B := fun t => t.mode = .acquiring)
        hr hy hx hm ha late ?_ (fun begins => ⟨fun t h => ?_, .inl (stays begins)⟩) (fun _ _ h => h)
        (.inr fun t u hu h => ?_)).1
      · rw [timing, Timing.advance_frame]
        exact hm
      · rw [t.heldCount_frame]
        exact h
      · rw [hu]
        exact h
    · have advanced : (realignedCut arr s).timing.advance.timeIs
          (if s.timing.cycle < 7999 then s.timing.seconds else s.timing.seconds + 1#32)
          (if s.timing.cycle < 7999 then s.timing.cycle + 1 else 0) := by
        rw [timing]
        exact Timing.advance_time _
      exact (receivedCycle_realigns_late (A := Timing.timeIs _ _) (B := Timing.timeIs _ _) hr hy hx hm ha late advanced
        (fun _ => ⟨fun _ => Timing.timeIs.heldCount, .inr fun _ => Timing.timeIs.heldOver⟩) (fun _ _ h => h)
        (.inl quiet)).1
    · rw [line, realignedCut_line]

end Sys2Proof.Machine
